-- ==== Sys2Proof/Word.lean ====
section
/-!
DEFINITION. The unit sizes of R5 and the plainest types over them. Nothing here can be mended later, so
everything with a reading in it (bit fields, sign extension, byte order) stands in Machine/Float.lean and later files.
-/
namespace Sys2Proof

/-- A byte, 8 bits (R5). -/
abbrev Byte := BitVec 8
/-- A half or a parcel, 16 bits (R5). -/
abbrev Half := BitVec 16
/-- A word, 32 bits (R5). -/
abbrev Word := BitVec 32
/-- A doubleword, 64 bits (R5). -/
abbrev DWord := BitVec 64
/-- One value per lane of a warp, lane 0 first: 32 words. -/
abbrev Lanes := List Word
/-- A set of lanes of a warp: bit L stands for lane L. -/
abbrev LaneSet := BitVec 32

end Sys2Proof
end

