-- ==== Sys2Proof/Machine/Bits.lean ====
section
/-!
DEFINITION. Small operations on lists, lane sets, bit fields and little-endian bytes, and the canonical list of cells that
memory and scratchpads are held in.
-/
namespace Sys2Proof.Machine

/-- Element i of a list, or a default. -/
def nth {α : Type} (d : α) (l : List α) (i : Nat) : α := (l[i]?).getD d

/-- The list with element i replaced; a list too short is filled up with the default, so that a read gives what was written. -/
def setNth {α : Type} (d : α) : List α → Nat → α → List α
  | [], 0, a => [a]
  | [], i + 1, a => d :: setNth d [] i a
  | _ :: rest, 0, a => a :: rest
  | b :: rest, i + 1, a => b :: setNth d rest i a

/-- The lane numbers. -/
def laneNums : List Nat := List.range 32

/-- Lane values from a function. -/
def tab (f : Nat → Word) : Lanes := laneNums.map f

/-- The value of a lane. -/
def laneOf (v : Lanes) (l : Nat) : Word := nth 0#32 v l

/-- Every lane zero. -/
def zeroLanes : Lanes := List.replicate 32 0#32

/-- Every lane. -/
def allLanes : LaneSet := 0xFFFFFFFF#32

/-- The lane set given by a test. -/
def laneSet (f : Nat → Bool) : LaneSet := BitVec.ofNat 32 (laneNums.foldl (fun a l => if f l then a + 2 ^ l else a) 0)

/-- Number of lanes in a set. -/
def laneCount (x : LaneSet) : Nat := (laneNums.filter (fun l => x.getLsbD l)).length

/-- The lanes of a set, ascending. -/
def lanesIn (x : LaneSet) : List Nat := laneNums.filter (fun l => x.getLsbD l)

/-- New values in the lanes of a set, old values elsewhere (R49). -/
def merge (x : LaneSet) (new old : Lanes) : Lanes := tab (fun l => if x.getLsbD l then laneOf new l else laneOf old l)

/-- Bits [lo + w − 1 : lo] of a number. -/
def field (v lo w : Nat) : Nat := v / 2 ^ lo % 2 ^ w

/-- Little-endian bytes of a number (R5). -/
def leBytes : Nat → Nat → List Byte
  | 0, _ => []
  | n + 1, v => BitVec.ofNat 8 v :: leBytes n (v / 256)

/-- The number little-endian bytes stand for (R5). -/
def leNat : List Byte → Nat
  | [] => 0
  | b :: bs => b.toNat + 256 * leNat bs

/-- Bytes at consecutive addresses. -/
def cellsFrom : Nat → List Byte → List (Nat × Byte)
  | _, [] => []
  | a, b :: bs => (a, b) :: cellsFrom (a + 1) bs

/-- The value stored under an address in a list of cells. -/
def cellAt {β : Type} : List (Nat × β) → Nat → Option β
  | [], _ => none
  | (a, b) :: rest, x => if a == x then some b else cellAt rest x

/-- The list with a cell set; the list stays strictly rising. -/
def cellSet {β : Type} : List (Nat × β) → Nat → β → List (Nat × β)
  | [], x, v => [(x, v)]
  | (a, b) :: rest, x, v =>
    if a == x then (a, v) :: rest else if x < a then (x, v) :: (a, b) :: rest else (a, b) :: cellSet rest x v

/-- The list without the cell of an address. -/
def cellDrop {β : Type} (m : List (Nat × β)) (x : Nat) : List (Nat × β) := m.filter (fun c => c.1 != x)

/-- Addresses strictly rise: the canonical form. -/
def cellsRise {β : Type} : List (Nat × β) → Bool
  | [] => true
  | [_] => true
  | (a, _) :: (b, y) :: rest => decide (a < b) && cellsRise ((b, y) :: rest)

/-- A set of cells, applied in order. -/
def cellSetAll {β : Type} (m : List (Nat × β)) (cs : List (Nat × β)) : List (Nat × β) :=
  cs.foldl (fun m c => cellSet m c.1 c.2) m

/-- The list with a cell set, where an address not listed reads as `plain` (none: nothing in particular): no cell holds that value. -/
def cellPut {β : Type} [BEq β] (plain : Option β) (m : List (Nat × β)) (x : Nat) (v : β) : List (Nat × β) :=
  if plain == some v then cellDrop m x else cellSet m x v

/-- A set of cells put, in order. -/
def cellPutAll {β : Type} [BEq β] (plain : Option β) (m : List (Nat × β)) (cs : List (Nat × β)) : List (Nat × β) :=
  cs.foldl (fun m c => cellPut plain m c.1 c.2) m

/-- First element that satisfies a test, and the list with it changed. -/
def updateFirst {α : Type} (p : α → Bool) (f : α → α) : List α → List α
  | [] => []
  | a :: rest => if p a then f a :: rest else a :: updateFirst p f rest

/-- A list with a number added once. -/
def addOnce (l : List Nat) (n : Nat) : List Nat := if l.contains n then l else l ++ [n]

/-- The least number of a list. -/
def leastOf : List Nat → Option Nat
  | [] => none
  | a :: rest => some (rest.foldl min a)

/-- The least number below a limit that a list does not hold. -/
def leastFree : Nat → Nat → List Nat → Option Nat
  | 0, _, _ => none
  | n + 1, i, used => if used.contains i then leastFree n (i + 1) used else some i

/-- Round up to a multiple. -/
def roundUp (n m : Nat) : Nat := (n + m - 1) / m * m

/-- Keep the bits of a doubleword that a mask names from `new`, the others from `old`. -/
def maskWrite (mask old new : DWord) : DWord := (new &&& mask) ||| (old &&& ~~~mask)

end Sys2Proof.Machine
end

