-- ==== Sys2Proof/Config.lean ====
section
/-!
DEFINITION. The free values of the model: constants without a body, so that no proof can see a value of them.
Each is applied to what it may depend on. The figures of R1 and R14 that the rules use as numbers stand below them.
-/
namespace Sys2Proof.Config

/-- A byte of memory that nothing has written, or that was written under another key (R356): pseudorandom, not
otherwise defined. Arguments: the count of memory writes so far, the reading key, the physical address (log 5). -/
opaque pseudoByte : Nat → Nat → Nat → Byte
/-- A scratchpad byte at launch that an earlier workgroup of the context may have left (R66). Arguments: the
workgroup, the address (log 9). -/
opaque residueByte : Nat → Nat → Byte
/-- A tile-slot word at launch, as `residueByte` (R66). Arguments: the workgroup, the slot, the word number (log 9). -/
opaque residueSlot : Nat → Nat → Nat → Word
/-- The shape tag of a tile slot that an earlier workgroup of the context may have bound (R220). Arguments: the
workgroup, the slot; 0, 1, 2 stand for 16, 32, 64 in each half of the pair (log 9). -/
opaque residueTag : Nat → Nat → Nat × Nat
/-- The value a special function other than `sqrt` delivers for an input the table of R154 does not list as exact.
Arguments: the function code, the input bits (log 8). -/
opaque sfuApprox : Nat → Word → Word
/-- A byte the manual leaves undefined: overlapping copies (R211), lines of a failed operation (R208). Argument: a
number that is fresh each time (log 14). -/
opaque openByte : Nat → Byte
/-- Which of two values the manual allows: old or new bytes of a failed operation (R208, R346; log 15). -/
opaque openBit : Nat → Bool
/-- Which entry of a C64 group whose 16 entries differ a walk uses (R322, log 50). Arguments: the group, the count of
memory writes. -/
opaque c64Choice : Nat → Nat → Nat
/-- The size in bytes of the image of a saved workgroup (R337): the manual gives none (log 20). -/
opaque imageBytes : Nat → Nat
/-- Readings of a sensor or meter of the management controller (R362). Arguments: the item, a fresh number (log 17). -/
opaque sensor : Nat → Nat → Nat
/-- The revision-2 code a finaliser makes of a portable form (R300). Arguments: the level it starts from, and the payloads of the scalar
level and of the levels above it that it uses (log 16). -/
opaque finalised : Nat → List (List Byte) → List Byte
/-- BASE that the finaliser sets in the header word (R294). Arguments as of `finalised` (log 16). -/
opaque finalisedBase : Nat → List (List Byte) → BitVec 8
/-- Offsets of the entry, in 64-byte units, and of the handler in the finalised code (log 16). -/
opaque finalisedEntry : Nat → List (List Byte) → Nat × Nat
/-- Where the loader puts a section, in units of its alignment (R285, R288): the loader's own choice. Arguments: the number of the load,
the record's ID (log 16). -/
opaque loadAddress : Nat → Nat → Nat
/-- The sending and the receiving rank of a channel, in [3:0] and [7:4], that the producer of a launch gives (R288, R309, log 16). Arguments:
the number of the load, the ID of the channel table, the channel. -/
opaque chanRanks : Nat → Nat → Nat → Nat
/-- The ASID whose software asked for a load (log 16). Argument: the number of the load. -/
opaque loadAsid : Nat → Nat
/-- The frame of physical memory that a load puts a virtual page into (R285, R288, log 16). Arguments: the number of the load, the virtual
page. -/
opaque loadFrame : Nat → Nat → Nat
/-- The frame of a page table that a load adds (R322, log 16). Arguments: the number of the load, the level of the table, and the part of the
virtual address that leads to it. -/
opaque tableFrame : Nat → Nat → Nat → Nat
/-- Whether the image of a saved workgroup lies in a sector of its cooler or save area (R361): the manual gives images no
layout. Arguments: the workgroup, the sector (log 20). -/
opaque imageHit : Nat → Nat → Bool
/-- Whether a deposit into a workgroup's overflow area lies in a sector of it (R35): the arrangement is the device's own. Arguments: the
workgroup, the count of memory writes, the sector (log 79). -/
opaque ovflHit : Nat → Nat → Nat → Bool
/-- GiB of DDR-5 that are fitted, as far as the 6 TiB of R1 allow (log 51). -/
opaque ddrFitted : Nat
/-- The MAC address of the management port (R364), recorded at manufacture (log 50). -/
opaque portMac : BitVec 48
/-- The voltage-frequency bin of the part (R2), recorded at manufacture (log 50). -/
opaque vfBin : Nat
/-- Whether a link reaches a package (R352): the wiring of the installation (log 63). -/
opaque linkReaches : Nat → Nat → Bool
/-- How long a mailbox command takes, in clk, up to the 10 ms of R353 (log 44). Argument: a fresh number. -/
opaque mailboxTime : Nat → Nat
/-- What MBSTAT shows as RESULT while a command runs (R353, log 44). Argument: the clk at which it ends. -/
opaque busyResult : Nat → Nat
/-- The clock in MHz that the controller fixes for the core groups of a strict ASID (R359, log 64). Argument: the ASID. -/
opaque strictClock : Nat → Nat

/-- Compute dies of the package (R1). -/
def dies : Nat := 3
/-- Cores of a die (R1). -/
def coresPerDie : Nat := 64
/-- Warp slots of a core (R14). -/
def warpSlots : Nat := 32
/-- Entries of a strand queue, and of an engine queue (R14). -/
def queueDepth : Nat := 8
/-- Bytes of the hamper of a core (R14). -/
def hamperBytes : Nat := 262144
/-- Entries of a local directory (R14). -/
def directoryEntries : Nat := 256
/-- Censuses in flight that one core may have started (R14), and the package (R241). -/
def coreCensuses : Nat := 16
def packageCensuses : Nat := 1024
/-- Warp granules of a core's register file (R48). -/
def warpGranules : Nat := 512
/-- Pinned code lines of a core (R191). -/
def pinnedLines : Nat := 128
/-- Clk in one microsecond at the nominal 1.75 GHz clock (R1, R4). -/
def clkPerMicro : Nat := 1750
/-- Bytes of HBM: 12 stacks of 48 GiB (R1). -/
def hbmBytes : Nat := 12 * 48 * 2 ^ 30
/-- Bytes of DDR-5: those fitted, up to 6 TiB (R1). -/
def ddrBytes : Nat := min ddrFitted 6144 * 2 ^ 30
/-- Bytes of one die's cooler (R1). -/
def coolerBytes : Nat := 100663296
/-- Records of the controller's error log (R361). -/
def errorLogRecords : Nat := 4096

end Sys2Proof.Config
end

