-- ==== Sys2Proof/Syntax.lean ====
section
/-!
DEFINITION. The instructions and steps of the machine: one constructor of `Instr` for each row of
spec/opcode_table.json. Encodings are turned into the types below once, in Decode.lean; the machine sees no raw
encoding. The rows after BRD are the steps of the table that are no instruction (spec/95_what_each_step_holds.md):
their operands name the agent that moves and what it carries.
-/
namespace Sys2Proof

/-- A register read by a strand instruction, or its immediate (R120, R123). -/
inductive Src where
  | g (r : BitVec 8)
  | s (r : BitVec 6)
  | imm (v : BitVec 8)
  | bfly (r : BitVec 8) (e : BitVec 3)
  | rot (r : BitVec 8) (d : BitVec 3)
  | rev (r : BitVec 8)
  | lane (r : BitVec 8) (j : BitVec 5)
deriving DecidableEq, Repr

/-- Rounding modes (R8, R61). -/
inductive RM where | rne | rz | rd | ru
deriving DecidableEq, Repr
/-- FCMP conditions (R157). -/
inductive FCond where | eq | ne | lt | le | gt | ge | un | or
deriving DecidableEq, Repr
/-- ICMP and SCMP conditions (R157, R192). -/
inductive ICond where | eq | ne | lt | le | gt | ge | zlt | zge
deriving DecidableEq, Repr
/-- How a compare combines with the old predicate (R157). -/
inductive Combine where | set | and | or
deriving DecidableEq, Repr
/-- Conversion codes 0x00 to 0x0E (R76). -/
inductive CvtCode where
  | f32i32 | f32z32 | i32f32 | z32f32 | f32int | f32bf16 | f32f16 | bf16f32 | f16f32 | f32e4m3 | f32e5m2
  | e4m3f32 | e5m2f32 | f32e2m1 | e2m1f32
deriving DecidableEq, Repr
/-- Special functions (R154). -/
inductive SfuFn where | sqrt | rsqrt | rcp | exp2 | log2 | sinpi | cospi | tanh
deriving DecidableEq, Repr
/-- Operations of RED and SCAN (R125). -/
inductive TreeOp where | fadd | fmax | fmin | iadd | imax | imin | zmax | zmin | and | or | xor
deriving DecidableEq, Repr
/-- Modes of VOTE (R162). -/
inductive VoteMode where | ballot | any | all | uni
deriving DecidableEq, Repr
/-- Partner of QX (R161). -/
inductive QxDir where | h | v | d
deriving DecidableEq, Repr
/-- Tests of PUTP (R159). -/
inductive PutpTest where | nz | z | neg
deriving DecidableEq, Repr
/-- Formats of the packed 16-bit family (R156). -/
inductive HFmt where | bf16 | f16
deriving DecidableEq, Repr
/-- Order field of layout M, SLD and SST (R97). -/
inductive Order where | plain | acqRel | sc
deriving DecidableEq, Repr
/-- Scopes (R96). -/
inductive Scope where | core | die | package | system
deriving DecidableEq, Repr
/-- Kinds of FENCE (R188). -/
inductive FenceKind where | acq | rel | acqrel | sc
deriving DecidableEq, Repr
/-- Address spaces of layout M and of copies (R87). -/
inductive Space where | global | scratch
deriving DecidableEq, Repr
/-- Elements of LDTR (R199). -/
inductive Elem where | b16 | b8 | b4
deriving DecidableEq, Repr
/-- Engine classes (R57). -/
inductive EngClass where | cpy | mat | drn | cen | chn | ldx | spw
deriving DecidableEq, Repr
/-- Forms of CVSET (R187). -/
inductive CvForm where | idle | solo | quartet
deriving DecidableEq, Repr
/-- Storage formats of CPY (R213). -/
inductive CpyFmt where | bf16 | f16 | e4m3 | e5m2 | e2m1 | cbk
deriving DecidableEq, Repr
/-- Outputs of CPYO (R217). -/
inductive CpyoOut where | f32 | bf16 | e4m3
deriving DecidableEq, Repr
/-- Extent of a tile in one direction (R50). -/
inductive Dim where | d16 | d32 | d64
deriving DecidableEq, Repr
/-- Formats of MMA (R221); MSAMP has all but the last. -/
inductive MmaFmt where | bf16 | f16 | e4m3 | e5m2 | e4m3e5m2 | e5m2e4m3 | e2m1
deriving DecidableEq, Repr
/-- Optimizers of ADRAIN (R235). -/
inductive Optim where | adamw | sgdm
deriving DecidableEq, Repr
/-- Combines of SOLICIT (R243). -/
inductive CenOp where | iadd | imin | imax | zmin | zmax | or | and | count
deriving DecidableEq, Repr
/-- Target form of HALTB and RESUMEB (R204). -/
inductive HaltForm where | warp | workgroup
deriving DecidableEq, Repr

/-- The field word of layout M (R129). -/
structure MField where
  base : BitVec 6
  idx : BitVec 8
  space : Space
  order : Order
  hint : BitVec 2
  scope : Scope
  off : BitVec 10
deriving DecidableEq, Repr

/-- The operand fields that every mode of CPY has (R131, R211). -/
structure CpyField where
  src : BitVec 6
  dst : BitVec 6
  desc : BitVec 6
  dsp : Space
  ssp : Space
  pkg : Bool
deriving DecidableEq, Repr

/-- A window of registers that system cores write (R305, R320, R353). -/
inductive Window where | control | service | mailbox
deriving DecidableEq, Repr

/-- A request frame of the management port: the header fields and the 64 payload bytes of R364, by field. -/
structure PortFrame where
  dest : BitVec 48
  source : BitVec 48
  etherType : BitVec 16
  magic : BitVec 32
  op : BitVec 16
  rsvd : BitVec 16
  seq : BitVec 64
  arg0 : BitVec 64
  arg1 : BitVec 64
  tag : BitVec 256
deriving DecidableEq, Repr

/-- The place of a memory error, as the error log reports it (R361). -/
structure ErrLoc where
  die : BitVec 2
  unit : BitVec 6
deriving DecidableEq, Repr

/-- One constructor for each row of spec/opcode_table.json: the instructions in the table's order, then the other rows. -/
inductive Instr where
  | strandHeader (n : BitVec 4) (guard : BitVec 3) (sense : Bool)
  -- S16 (R121)
  | mov (x : Src)
  | putg (r : BitVec 8)
  | fadd (x : Src)
  | fsub (x : Src)
  | frsub (x : Src)
  | fmul (x : Src)
  | fmac (x : Src)
  | fnmac (x : Src)
  | fmla (x : Src)
  | fmax (x : Src)
  | fmin (x : Src)
  | mlat (x : Src)
  | iadd (x : Src)
  | isub (x : Src)
  | irsub (x : Src)
  | imul (x : Src)
  | imac (x : Src)
  | imax (x : Src)
  | imin (x : Src)
  | zmax (x : Src)
  | zmin (x : Src)
  | and (x : Src)
  | or (x : Src)
  | xor (x : Src)
  | andn (x : Src)
  | shl (x : Src)
  | shr (x : Src)
  | sar (x : Src)
  | rol (x : Src)
  | nop
  -- long twins (R125, R144); `f` is param 1 of `mov.f` and `mlat.f`
  | movL (n : BitVec 4) (x : Src) (f : Bool)
  | putgL (n : BitVec 4) (r : BitVec 8)
  | faddL (n : BitVec 4) (x : Src)
  | fsubL (n : BitVec 4) (x : Src)
  | frsubL (n : BitVec 4) (x : Src)
  | fmulL (n : BitVec 4) (x : Src)
  | fmacL (n : BitVec 4) (x : Src)
  | fnmacL (n : BitVec 4) (x : Src)
  | fmlaL (n : BitVec 4) (x : Src)
  | fmaxL (n : BitVec 4) (x : Src)
  | fminL (n : BitVec 4) (x : Src)
  | mlatL (n : BitVec 4) (x : Src) (f : Bool)
  | iaddL (n : BitVec 4) (x : Src)
  | isubL (n : BitVec 4) (x : Src)
  | irsubL (n : BitVec 4) (x : Src)
  | imulL (n : BitVec 4) (x : Src)
  | imacL (n : BitVec 4) (x : Src)
  | imaxL (n : BitVec 4) (x : Src)
  | iminL (n : BitVec 4) (x : Src)
  | zmaxL (n : BitVec 4) (x : Src)
  | zminL (n : BitVec 4) (x : Src)
  | andL (n : BitVec 4) (x : Src)
  | orL (n : BitVec 4) (x : Src)
  | xorL (n : BitVec 4) (x : Src)
  | andnL (n : BitVec 4) (x : Src)
  | shlL (n : BitVec 4) (x : Src)
  | shrL (n : BitVec 4) (x : Src)
  | sarL (n : BitVec 4) (x : Src)
  | rolL (n : BitVec 4) (x : Src)
  | nopL (n : BitVec 4)
  -- other L32 (R125)
  | cvt (rm : RM) (n : BitVec 4) (code : CvtCode) (sat : Bool)
  | fdiv (n : BitVec 4) (x : Src)
  | idiv (n : BitVec 4) (x : Src)
  | zdiv (n : BitVec 4) (x : Src)
  | irem (n : BitVec 4) (x : Src)
  | zrem (n : BitVec 4) (x : Src)
  | sfu (n : BitVec 4) (fn : SfuFn)
  | fabs (n : BitVec 4)
  | fneg (n : BitVec 4)
  | popc (n : BitVec 4)
  | clz (n : BitVec 4)
  | brev (n : BitVec 4)
  | selp (n : BitVec 4) (x : Src) (p : BitVec 3)
  | fcmp (c : FCond) (n : BitVec 4) (x : Src) (p : BitVec 3) (comb : Combine)
  | icmp (c : ICond) (n : BitVec 4) (x : Src) (p : BitVec 3) (comb : Combine)
  | bfe (n : BitVec 4) (x : Src) (pos : BitVec 5)
  | faddx (n : BitVec 4) (x : Src) (rm : RM)
  | fmulx (n : BitVec 4) (x : Src) (rm : RM)
  | fmacx (n : BitVec 4) (x : Src) (rm : RM)
  | fmlax (n : BitVec 4) (x : Src) (rm : RM)
  | hadd2 (n : BitVec 4) (x : Src) (f : HFmt) (rm : RM)
  | hsub2 (n : BitVec 4) (x : Src) (f : HFmt) (rm : RM)
  | hmul2 (n : BitVec 4) (x : Src) (f : HFmt) (rm : RM)
  | hfma2 (n : BitVec 4) (x : Src) (f : HFmt) (rm : RM)
  | hmax2 (n : BitVec 4) (x : Src) (f : HFmt) (rm : RM)
  | hmin2 (n : BitVec 4) (x : Src) (f : HFmt) (rm : RM)
  | shfli (n : BitVec 4) (r : BitVec 8)
  | shfl16 (n : BitVec 4) (r : BitVec 8)
  | vote (n : BitVec 4) (mode : VoteMode) (p : BitVec 3)
  | red (n : BitVec 4) (op : TreeOp)
  | scan (n : BitVec 4) (op : TreeOp) (excl : Bool)
  | qx (n : BitVec 4) (dir : QxDir) (r : BitVec 8)
  | rdsr (n : BitVec 4) (idx : BitVec 8)
  | putp (n : BitVec 4) (t : PutpTest) (p : BitVec 3)
  | kwin (n : BitVec 4) (x : Src)
  | knext (n : BitVec 4) (step : BitVec 8) (p : BitVec 3)
  | unpk (n : BitVec 4) (hi : Bool) (r : BitVec 8)
  -- C32 (R127)
  | nopl
  | bra (off : BitVec 16)
  | brany (sense : Bool) (p : BitVec 3) (off : BitVec 16)
  | brall (sense : Bool) (p : BitVec 3) (off : BitVec 16)
  | brs (sx : BitVec 6) (off : BitVec 16)
  | call (sx : BitVec 6) (off : BitVec 16)
  | ret (sx : BitVec 6)
  | join (min : BitVec 6) (off : BitVec 16)
  | loop0 (sx : BitVec 6) (len : BitVec 9)
  | loop1 (sx : BitVec 6) (len : BitVec 9)
  | loop2 (sx : BitVec 6) (len : BitVec 9)
  | loopi0 (c : BitVec 6) (len : BitVec 9)
  | loopi1 (c : BitVec 6) (len : BitVec 9)
  | loopi2 (c : BitVec 6) (len : BitVec 9)
  | wait (cls : EngClass) (n : BitVec 6)
  | bar
  | gbar
  | exit
  | give (n : BitVec 6)
  | claim (n : BitVec 6)
  | claimp (n : BitVec 6) (p : BitVec 3)
  | part (e : BitVec 6)
  | cvset (form : CvForm) (cv : BitVec 3) (sm : BitVec 6)
  | fence (scope : Scope) (kind : FenceKind)
  | yield
  | trap (code : BitVec 8)
  | bkpt
  | ipf (off : BitVec 16)
  | ipin (c : BitVec 6) (off : BitVec 16)
  | iunpin (c : BitVec 6) (off : BitVec 16)
  | smov (d x : BitVec 6)
  | sadd (d x y : BitVec 6)
  | ssub (d x y : BitVec 6)
  | smul (d x y : BitVec 6)
  | sand (d x y : BitVec 6)
  | sor (d x y : BitVec 6)
  | sxor (d x y : BitVec 6)
  | sshl (d x y : BitVec 6)
  | sshr (d x y : BitVec 6)
  | saddi (d x : BitVec 6) (imm : BitVec 8)
  | smovi (d : BitVec 6) (imm : BitVec 8)
  | scmp (d : BitVec 6) (c : ICond) (x y : BitVec 6)
  | srd (d : BitVec 6) (idx : BitVec 8)
  | swr (x : BitVec 6) (idx : BitVec 8)
  | rte
  | haltb (form : HaltForm) (st : BitVec 6)
  | resumeb (form : HaltForm) (st : BitVec 6)
  -- X48 layout M (R129)
  | ldB32 (n : BitVec 4) (m : MField)
  | ldI8 (n : BitVec 4) (m : MField)
  | ldZ8 (n : BitVec 4) (m : MField)
  | ldI16 (n : BitVec 4) (m : MField)
  | ldZ16 (n : BitVec 4) (m : MField)
  | ldBf16 (n : BitVec 4) (m : MField)
  | ldF16 (n : BitVec 4) (m : MField)
  | stB32 (n : BitVec 4) (m : MField)
  | stB16 (n : BitVec 4) (m : MField)
  | stB8 (n : BitVec 4) (m : MField)
  | stBf16 (n : BitVec 4) (m : MField)
  | stE4m3 (n : BitVec 4) (m : MField)
  | atomIadd (n : BitVec 4) (m : MField)
  | atomFadd (n : BitVec 4) (m : MField)
  | atomImax (n : BitVec 4) (m : MField)
  | atomImin (n : BitVec 4) (m : MField)
  | atomZmax (n : BitVec 4) (m : MField)
  | atomZmin (n : BitVec 4) (m : MField)
  | atomAnd (n : BitVec 4) (m : MField)
  | atomOr (n : BitVec 4) (m : MField)
  | atomXor (n : BitVec 4) (m : MField)
  | atomXchg (n : BitVec 4) (m : MField)
  | atomCas (n : BitVec 4) (m : MField)
  -- X48 LDTR (R130), layout E (R131), layout B (R132)
  | ldtr (sA : BitVec 6) (r : BitVec 8) (nb : BitVec 3) (elem : Elem) (sS : BitVec 6)
  | cpyPlain (c : CpyField)
  | cpyCanon (c : CpyField) (f : CpyFmt)
  | cpyNorms (c : CpyField) (f : CpyFmt)
  | cpyVer (c : CpyField)
  | cpyMcast (c : CpyField)
  | cpyo (n : BitVec 4) (dst desc : BitVec 6) (out : CpyoOut) (dsp : Space) (pkg : Bool)
  | kbind (n : BitVec 4) (sA : BitVec 6) (m nn : Dim) (off : BitVec 8)
  | kfree (n : BitVec 4)
  | mzero (sA : BitVec 6) (off : BitVec 8)
  | mma (n : BitVec 4) (sA sB : BitVec 6) (f : MmaFmt) (cv : BitVec 3) (gB : BitVec 8)
  | msamp (n : BitVec 4) (sA sB sC : BitVec 6) (f : MmaFmt)
  | mstat (n : BitVec 4) (r : BitVec 8)
  | acheck (sA sB : BitVec 6) (off : BitVec 8)
  | adrain (sA sB sC : BitVec 6) (opt : Optim) (keep : Bool) (off : BitVec 8)
  | lsupd (sA sB : BitVec 6)
  | treg (sA sB sC : BitVec 6)
  | tdrop (sA : BitVec 6)
  | tmove (sA sB sC : BitVec 6)
  | solicit (sA sB sC : BitVec 6) (op : CenOp) (pkg : Bool) (d : BitVec 8)
  | reply (n : BitVec 4)
  | chsend (sA : BitVec 6) (r : BitVec 8)
  | chrecv (sA : BitVec 6) (r : BitVec 8)
  | spawn (n : BitVec 4) (sA : BitVec 6)
  | launch (sA sB : BitVec 6)
  | sld (sA sB : BitVec 6) (order : Order) (scope : Scope) (r : BitVec 8)
  | sst (sA sB sC : BitVec 6) (order : Order) (scope : Scope)
  | pmrd (cnt : BitVec 4) (r : BitVec 8)
  | pmctl (sA : BitVec 6) (cnt : BitVec 4)
  | brd (off : BitVec 16) (p : BitVec 3) (sense : Bool) (sL : BitVec 6) (t : BitVec 6)
  -- steps of the machine: `wg` is a workgroup's number, `wid` a warp of it, `cl` a cluster, `op` an operation's number
  | strandStart (die : BitVec 2) (core : BitVec 6) (cl : BitVec 3)
  | loadComplete (wg wid : Nat) (n : BitVec 4)
  | strandInstructionComplete (wg wid : Nat) (n : BitVec 4)
  | engineIssue (wg wid : Nat) (cl : BitVec 3)
  | engineRetire (wg wid : Nat) (op : Nat)
  | lineLand (wg wid : Nat) (op line : Nat)
  | storeDrain (wg wid : Nat)
  | handlerEntry (wg wid : Nat)
  | workgroupStop (wg wid : Nat)
  | binTimerExpiry (wg bin : Nat)
  | warpFormation (wg bin : Nat)
  | overflowKeyEntry (wg : Nat)
  | poolGrant (wg : Nat)
  | claimDeadlock (wg : Nat)
  | workgroupEnd (wg : Nat)
  | mmaSign (wg wid : Nat) (cl : BitVec 3)
  | versionedReadAttempt (wg wid : Nat) (op : Nat)
  | censusDelivery (id loc : Nat)
  | oweArrival (id loc : Nat)
  | responderDeposit (id loc : Nat)
  | censusReport (id loc : Nat)
  | censusComplete (id : Nat)
  | tmoveInstall (wg wid : Nat) (op : Nat)
  | dataFaultTimeout (wg : Nat)
  | stepComplete (wg wid : Nat)
  | haltComplete (wg : Nat)
  | sliceEnd (die : BitVec 2) (group : BitVec 6)
  | contextSave (gang : Nat)
  | contextRestore (gang : Nat)
  | gangPlacement (grid : Nat)
  | gangReserve (grid : Nat)
  | gridComplete (grid : Nat)
  | dbLoadDescriptor (q : BitVec 16)
  | dbRing (q : BitVec 16)
  | pmaskWrite (p : BitVec 8) (v : BitVec 64)
  | pcfgWrite (p : BitVec 8) (v : BitVec 64)
  | fqcfgWrite (v : BitVec 64)
  | registerWrite (win : Window) (off : Nat) (v : BitVec 64)
  | shootPage (v : BitVec 64)
  | shootAsid (v : BitVec 64)
  | shootAsidReload (v : BitVec 64)
  | frespRetry (v : BitVec 64)
  | frespFail (v : BitVec 64)
  | frespResume (v : BitVec 64)
  | frespEnd (v : BitVec 64)
  | dbgHalt (v : BitVec 64)
  | dbgResume (v : BitVec 64)
  -- Lean's compiled code numbers at most 245 constructors that have arguments: the steps that the model itself never builds stand here
  | dbgStep (v : BitVec 64)
  | apertureWrite (pa : Nat) (v : BitVec 32)
  | progWrite (pa : Nat) (v : BitVec 64)
  | portKeynew (f : PortFrame)
  | portKeykill (f : PortFrame)
  | portClass (f : PortFrame)
  | portPcap (f : PortFrame)
  | portErrread (f : PortFrame)
  | portTelem (f : PortFrame)
  | portReset (f : PortFrame)
  | tripclr (f : PortFrame)
  | portState (f : PortFrame)
  | powerSample (milliwatts : Nat)
  | thermalThrottle (die : BitVec 2)
  | thermalTrip (die : BitVec 2)
  | linkDown (link : BitVec 4) (packages : List Nat)
  | linkUp (link : BitVec 4)
  | errorCorrected (pa : Nat) (loc : ErrLoc)
  | errorUncorrectable (pa : Nat) (loc : ErrLoc) (scrub : Bool)
  | bringUp (failing : BitVec 4)
  | containerLoad (file : List Byte) (priv finalise : Bool)
  | shootReservedKind (v : BitVec 64)
  | mailboxUnknownOp (v : BitVec 64)
  | portUnknownOp (f : PortFrame)
  -- steps without arguments
  | loopBackEdge
  | censusIssue
  | fetchFault
  | breakpointMatch
  | faultRecordSend
  | gridStart
  | shootdownComplete
  | keynew
  | keykill
  | classSet
  | errread
  | telem
  | pcap
  | portkey
  | patrolScrub
  | reservedEncoding
deriving DecidableEq, Repr

end Sys2Proof
end

