-- ==== Sys2Proof/Machine/Float.lean ====
section
/-!
DEFINITION. The number formats of chapter 03 and their exact arithmetic. A finite value is an exact dyadic
number; every operation forms its exact result and rounds it once (R69), so no double rounding can hide. Flags are a
5-bit set laid out as ASTAT (R62).
-/
namespace Sys2Proof.Machine

/-- A set of floating-point flags, as the low bits of ASTAT (R62). -/
abbrev Flags := BitVec 5
def fNone : Flags := 0
def fNV : Flags := 1
def fDZ : Flags := 2
def fOF : Flags := 4
def fUF : Flags := 8
def fNX : Flags := 16

/-- A floating-point format (R68, R74). `maxBits` is the largest finite magnitude as encoded; `hasInf` says whether the
code after it is an infinity. -/
structure Fmt where
  ebits : Nat
  fbits : Nat
  bias : Nat
  maxBits : Nat
  hasInf : Bool
  /-- magnitude code of the canonical NaN; 0 where the format has none -/
  nanBits : Nat
deriving DecidableEq, Repr

namespace Fmt
def f32 : Fmt := { ebits := 8, fbits := 23, bias := 127, maxBits := 0x7F7FFFFF, hasInf := true, nanBits := 0x7FC00000 }
def bf16 : Fmt := { ebits := 8, fbits := 7, bias := 127, maxBits := 0x7F7F, hasInf := true, nanBits := 0x7FC0 }
def f16 : Fmt := { ebits := 5, fbits := 10, bias := 15, maxBits := 0x7BFF, hasInf := true, nanBits := 0x7E00 }
def e5m2 : Fmt := { ebits := 5, fbits := 2, bias := 15, maxBits := 0x7B, hasInf := true, nanBits := 0x7E }
def e4m3 : Fmt := { ebits := 4, fbits := 3, bias := 7, maxBits := 0x7E, hasInf := false, nanBits := 0x7F }
def e2m1 : Fmt := { ebits := 2, fbits := 1, bias := 1, maxBits := 0x7, hasInf := false, nanBits := 0 }

/-- The weight of the sign bit. -/
def signBit (f : Fmt) : Nat := 2 ^ (f.ebits + f.fbits)
/-- Bits of the significand, the hidden one included. -/
def prec (f : Fmt) : Nat := f.fbits + 1
/-- Exponent of the least significant bit of a subnormal. -/
def minLsb (f : Fmt) : Int := 1 - (f.bias : Int) - f.fbits
/-- The encoding with a sign. -/
def signed (f : Fmt) (s : Bool) (magnitude : Nat) : Nat := if s then f.signBit + magnitude else magnitude
/-- The code that overflow and infinity deliver: an infinity, or E4M3's NaN (R78). -/
def infBits (f : Fmt) : Nat := f.maxBits + 1
end Fmt

/-- QNAN32 (R8). -/
def qnan32 : Word := 0x7FC00000#32

/-- A value of a format: `fin s m e` is (−1)^s · m · 2^e exactly. -/
inductive FVal where
  | nan (signalling : Bool)
  | inf (s : Bool)
  | fin (s : Bool) (m : Nat) (e : Int)
deriving DecidableEq, Repr

namespace FVal
def isNan : FVal → Bool
  | .nan _ => true
  | .inf _ => false
  | .fin _ _ _ => false
def isSnan : FVal → Bool
  | .nan b => b
  | .inf _ => false
  | .fin _ _ _ => false
def isInf : FVal → Bool
  | .inf _ => true
  | .nan _ => false
  | .fin _ _ _ => false
def isZero : FVal → Bool
  | .fin _ m _ => m == 0
  | .nan _ => false
  | .inf _ => false
def sign : FVal → Bool
  | .nan _ => false
  | .inf s => s
  | .fin s _ _ => s
def neg : FVal → FVal
  | .nan b => .nan b
  | .inf s => .inf (!s)
  | .fin s m e => .fin (!s) m e
end FVal

/-- The value a bit pattern of a format stands for (R68, R74); bits above the format are ignored. -/
def unpack (f : Fmt) (bits : Nat) : FVal :=
  let magn := bits % f.signBit
  let s := (bits / f.signBit) % 2 == 1
  let ex := magn / 2 ^ f.fbits
  let fr := magn % 2 ^ f.fbits
  if magn ≤ f.maxBits then
    if ex == 0 then .fin s fr f.minLsb
    else .fin s (2 ^ f.fbits + fr) (f.minLsb + (ex : Int) - 1)
  else if f.hasInf then
    if magn == f.infBits then .inf s else .nan (fr < 2 ^ (f.fbits - 1))
  else .nan false

/-- Bits of a positive number. -/
def bitLen (m : Nat) : Nat := if m == 0 then 0 else Nat.log2 m + 1

/-- Whether rounding moves the magnitude up: r is the discarded part of k ≥ 1 bits, odd the parity of what is kept (R69). -/
def roundsUp (rm : RM) (s odd : Bool) (r k : Nat) : Bool :=
  match rm with
  | .rne => decide (2 ^ (k - 1) < r) || (r == 2 ^ (k - 1) && odd)
  | .rz => false
  | .rd => s && r != 0
  | .ru => !s && r != 0

/-- m · 2^e rounded to a multiple of 2^q: the multiple, and whether it is inexact. -/
def roundAt (rm : RM) (s : Bool) (m : Nat) (e q : Int) : Nat × Bool :=
  if q ≤ e then (m * 2 ^ (e - q).toNat, false)
  else
    let k := (q - e).toNat
    let t := m / 2 ^ k
    let r := m % 2 ^ k
    (if roundsUp rm s (t % 2 == 1) r k then t + 1 else t, r != 0)

/-- The magnitude code of t · 2^q with unbounded exponent range, t at most `prec` bits long and, for a result below
the smallest normal, q the exponent of the subnormals' last bit. -/
def packMagnitude (f : Fmt) (t : Nat) (q : Int) : Nat :=
  if t == 0 then 0
  else
    let top : Int := q + (bitLen t : Int) - 1
    let field : Int := top + f.bias
    if field ≤ 0 then t
    else
      let shift := f.fbits + 1 - bitLen t
      let sig := if bitLen t ≤ f.fbits + 1 then t * 2 ^ shift else t / 2 ^ (bitLen t - (f.fbits + 1))
      field.toNat * 2 ^ f.fbits + (sig - 2 ^ f.fbits)

/-- What overflow delivers: the magnitude code (R69 and R78's table). -/
def overflowBits (f : Fmt) (rm : RM) (s : Bool) : Nat :=
  match rm, s with
  | .rne, _ => f.infBits
  | .rz, _ => f.maxBits
  | .rd, false => f.maxBits
  | .rd, true => f.infBits
  | .ru, false => f.infBits
  | .ru, true => f.maxBits

/-- Exponent of the last bit of m · 2^e rounded to p bits with unbounded exponent range. -/
def lsbOf (p m : Nat) (e : Int) : Int := e + (bitLen m : Int) - p

/-- Whether m · 2^e, m not 0, is tiny: rounded with unbounded exponent range it lies below the smallest normal (R70). -/
def isTiny (f : Fmt) (rm : RM) (s : Bool) (m : Nat) (e : Int) : Bool :=
  let q := lsbOf f.prec m e
  let t := (roundAt rm s m e q).1
  decide (q + (bitLen t : Int) - 1 < 1 - (f.bias : Int))

/-- Round a nonzero exact magnitude m · 2^e once and deliver it (R69, R70, R78 without saturation). -/
def deliverNonzero (f : Fmt) (rm : RM) (ftz s : Bool) (m : Nat) (e : Int) : Nat × Flags :=
  let q := lsbOf f.prec m e
  let r := roundAt rm s m e q
  if f.maxBits < packMagnitude f r.1 q && decide (f.minLsb ≤ q) then (f.signed s (overflowBits f rm s), fOF ||| fNX)
  else if isTiny f rm s m e then
    if ftz then (f.signed s 0, fUF ||| fNX)
    else
      let d := roundAt rm s m e f.minLsb
      (f.signed s (packMagnitude f d.1 f.minLsb), if d.2 then fUF ||| fNX else fNone)
  else
    -- not tiny; a value below the smallest normal that rounds up to it is rounded at the subnormals' last bit
    let d := roundAt rm s m e (if q < f.minLsb then f.minLsb else q)
    (f.signed s (packMagnitude f d.1 (if q < f.minLsb then f.minLsb else q)), if d.2 then fNX else fNone)

/-- Round an exact value and deliver it; a NaN value stands for the canonical NaN. -/
def deliver (f : Fmt) (rm : RM) (ftz : Bool) : FVal → Nat × Flags
  | .nan _ => (f.nanBits, fNone)
  | .inf s => (f.signed s f.infBits, fNone)
  | .fin s m e => if m == 0 then (f.signed s 0, fNone) else deliverNonzero f rm ftz s m e

/-- The sign of an exact zero sum (R69). -/
def zeroSumSign (rm : RM) (sa sb : Bool) : Bool := if sa == sb then sa else rm == .rd

/-- Exact sum of two finite values given as sign and magnitude; the sign of a zero follows R69. -/
def addExact (rm : RM) (sa : Bool) (ma : Nat) (ea : Int) (sb : Bool) (mb : Nat) (eb : Int) : FVal :=
  if ma == 0 && mb == 0 then .fin (zeroSumSign rm sa sb) 0 0
  else
    let e := if ea ≤ eb then ea else eb
    let a := ma * 2 ^ (ea - e).toNat
    let b := mb * 2 ^ (eb - e).toNat
    if sa == sb then .fin sa (a + b) e
    else if a == b then .fin (rm == .rd) 0 e
    else if b < a then .fin sa (a - b) e
    else .fin sb (b - a) e

/-- The NV flag of a signalling NaN among the inputs (R71). -/
def snanFlag (vs : List FVal) : Flags := if vs.any FVal.isSnan then fNV else fNone

/-- a + b as an exact value, with the flags of its special operands (R72). -/
def addVal (rm : RM) (a b : FVal) : FVal × Flags :=
  match a, b with
  | .fin sa ma ea, .fin sb mb eb => (addExact rm sa ma ea sb mb eb, fNone)
  | .inf sa, .inf sb => if sa == sb then (.inf sa, fNone) else (.nan false, fNV)
  | .inf s, .fin _ _ _ => (.inf s, fNone)
  | .fin _ _ _, .inf s => (.inf s, fNone)
  | .nan x, y => (.nan false, snanFlag [.nan x, y])
  | x, .nan y => (.nan false, snanFlag [x, .nan y])

/-- a × b as an exact value (R72). -/
def mulVal (a b : FVal) : FVal × Flags :=
  match a, b with
  | .fin sa ma ea, .fin sb mb eb => (.fin (sa ^^ sb) (ma * mb) (ea + eb), fNone)
  | .inf sa, .inf sb => (.inf (sa ^^ sb), fNone)
  | .inf sa, .fin sb mb _ => if mb == 0 then (.nan false, fNV) else (.inf (sa ^^ sb), fNone)
  | .fin sa ma _, .inf sb => if ma == 0 then (.nan false, fNV) else (.inf (sa ^^ sb), fNone)
  | .nan x, y => (.nan false, snanFlag [.nan x, y])
  | x, .nan y => (.nan false, snanFlag [x, .nan y])

/-- a + b × c, fused (R72): 0 × ∞ raises NV whatever the addend is. -/
def fmaVal (rm : RM) (a b c : FVal) : FVal × Flags :=
  let p := mulVal b c
  let r := addVal rm a p.1
  (r.1, r.2 ||| p.2)

/-- ⌊√m⌋, bit by bit from weight 2^i down. -/
def isqrtFrom : Nat → Nat → Nat → Nat
  | 0, _, r => r
  | i + 1, m, r => isqrtFrom i m (if (r + 2 ^ i) * (r + 2 ^ i) ≤ m then r + 2 ^ i else r)
/-- ⌊√m⌋. -/
def isqrt (m : Nat) : Nat := isqrtFrom (bitLen m / 2 + 1) m 0

/-- √a with a sticky last bit, so that one rounding of it is the correct rounding of √a. -/
def sqrtVal (a : FVal) : FVal × Flags :=
  match a with
  | .nan b => (.nan false, snanFlag [.nan b])
  | .inf s => if s then (.nan false, fNV) else (.inf false, fNone)
  | .fin s m e =>
    if m == 0 then (.fin s 0 0, fNone)
    else if s then (.nan false, fNV)
    else
      let odd := (e % 2).toNat
      let big := m * 2 ^ (64 + odd)
      let r := isqrt big
      (.fin false (2 * r + (if r * r == big then 0 else 1)) ((e - (64 + odd : Nat)) / 2 - 1), fNone)

/-- a ÷ b with a sticky last bit (R152, R72). -/
def divVal (a b : FVal) : FVal × Flags :=
  match a, b with
  | .fin sa ma ea, .fin sb mb eb =>
    if mb == 0 then (if ma == 0 then (.nan false, fNV) else (.inf (sa ^^ sb), fDZ))
    else
      let n := ma * 2 ^ 64
      (.fin (sa ^^ sb) (2 * (n / mb) + (if n % mb == 0 then 0 else 1)) (ea - eb - 65), fNone)
  | .inf _, .inf _ => (.nan false, fNV)
  | .inf sa, .fin sb _ _ => (.inf (sa ^^ sb), fNone)
  | .fin sa _ _, .inf sb => (.fin (sa ^^ sb) 0 0, fNone)
  | .nan x, y => (.nan false, snanFlag [.nan x, y])
  | x, .nan y => (.nan false, snanFlag [x, .nan y])

/-- Order of two values that are not NaN: −1, 0 or 1 (R72: the zeros are equal). -/
def cmpVal (a b : FVal) : Int :=
  match a, b with
  | .inf sa, .inf sb => if sa == sb then 0 else if sa then -1 else 1
  | .inf sa, .fin _ _ _ => if sa then -1 else 1
  | .fin _ _ _, .inf sb => if sb then 1 else -1
  | .fin sa ma ea, .fin sb mb eb =>
    match addExact .rne sa ma ea (!sb) mb eb with
    | .fin s m _ => if m == 0 then 0 else if s then -1 else 1
    | .inf _ => 0
    | .nan _ => 0
  | .nan _, _ => 0
  | _, .nan _ => 0

/-- The larger (R72); `less` picks the smaller. Bits are returned, so +0 and −0 stay apart. -/
def maxVal (less : Bool) (a b : FVal) : FVal × Flags :=
  match a, b with
  | .nan x, .nan y => (.nan false, snanFlag [.nan x, .nan y])
  | .nan x, v => (v, snanFlag [.nan x])
  | v, .nan y => (v, snanFlag [.nan y])
  | u, v =>
    if u.isZero && v.isZero then
      (.fin (if less then u.sign || v.sign else u.sign && v.sign) 0 0, fNone)
    else
      let c := cmpVal u v
      ((if less then (if c ≤ 0 then u else v) else (if 0 ≤ c then u else v)), fNone)

/-- FTZ on an input: a subnormal becomes a zero of its sign (R70). -/
def flushIn (f : Fmt) (ftz : Bool) : FVal → FVal
  | .fin s m e => if ftz && m < 2 ^ f.fbits then .fin s 0 f.minLsb else .fin s m e
  | .inf s => .inf s
  | .nan b => .nan b

/-- A word read as FP32, with FTZ applied to it. -/
def in32 (ftz : Bool) (w : Word) : FVal := flushIn .f32 ftz (unpack .f32 w.toNat)

/-- Deliver an exact value with flags already raised, as a 32-bit FP32 pattern. -/
def out32 (rm : RM) (ftz : Bool) (r : FVal × Flags) : Word × Flags :=
  let d := deliver .f32 rm ftz r.1
  (BitVec.ofNat 32 d.1, r.2 ||| d.2)

/-- Operations of the FP32 family (R146), also used on the packed formats (R156). -/
inductive FpOp where | add | sub | rsub | mul | mac | nmac | mla | max | min | div
deriving DecidableEq, Repr

/-- The exact result of an operation on accumulator a, operand b, latch l (R146, R152). -/
def FpOp.exact (op : FpOp) (rm : RM) (a b l : FVal) : FVal × Flags :=
  match op with
  | .add => addVal rm a b
  | .sub => addVal rm a b.neg
  | .rsub => addVal rm b a.neg
  | .mul => mulVal a b
  | .mac => fmaVal rm a l b
  | .nmac => fmaVal rm a l.neg b
  | .mla => fmaVal rm b a l
  | .max => maxVal false a b
  | .min => maxVal true a b
  | .div => divVal a b

/-- One FP32 instruction in one lane. -/
def fp32 (op : FpOp) (rm : RM) (ftz : Bool) (a b l : Word) : Word × Flags :=
  out32 rm ftz (op.exact rm (in32 ftz a) (in32 ftz b) (in32 ftz l))

/-- One half of a packed instruction: FTZ is ignored (R79). -/
def fp16 (f : Fmt) (op : FpOp) (rm : RM) (a b l : Nat) : Nat × Flags :=
  let r := op.exact rm (unpack f a) (unpack f b) (unpack f l)
  let d := deliver f rm false r.1
  (d.1, r.2 ||| d.2)

/-- Widening to FP32 (R76 codes 0x07, 0x08, 0x0B, 0x0C, 0x0E): exact, NV only for a signalling NaN. -/
def widen (f : Fmt) (bits : Nat) : Word × Flags :=
  let v := unpack f bits
  (BitVec.ofNat 32 (deliver .f32 .rne false v).1, snanFlag [v])

/-- The E widening of an imm8: the FP32 value of an E4M3 code (R119). -/
def widenE (b : BitVec 8) : Word := (widen .e4m3 b.toNat).1

/-- Narrowing from FP32 (R78), FTZ already applied to the source. -/
def narrow (f : Fmt) (rm : RM) (sat : Bool) (v : FVal) : Nat × Flags :=
  match v with
  | .nan b => if f.nanBits == 0 then (0, fNV) else (f.nanBits, if b then fNV else fNone)
  | .inf s =>
    if f.nanBits == 0 || sat then (f.signed s f.maxBits, fNX)
    else if f.hasInf then (f.signed s f.infBits, fNone)
    else (f.signed s f.infBits, fNV)
  | .fin s m e =>
    if m == 0 then (f.signed s 0, fNone)
    else
      let d := deliverNonzero f rm false s m e
      if d.2 &&& fOF != 0 then
        (if f.nanBits == 0 || sat then (f.signed s f.maxBits, fNX) else d)
      else d

/-- Conversion to an integer (R77); `lo` and `hi` bound the target. The result is its low 32 bits. -/
def toInteger (rm : RM) (sat : Bool) (lo hi : Int) (v : FVal) : Word × Flags :=
  match v with
  | .nan _ => (if sat then 0 else 0x80000000#32, fNV)
  | .inf s => (if sat then BitVec.ofInt 32 (if s then lo else hi) else 0x80000000#32, fNV)
  | .fin s m e =>
    let r := roundAt rm s m e 0
    let y : Int := if s then -(r.1 : Int) else r.1
    if y < lo || hi < y then (if sat then BitVec.ofInt 32 (if y < lo then lo else hi) else 0x80000000#32, fNV)
    else (BitVec.ofInt 32 y, if r.2 then fNX else fNone)

/-- Rounding to an integral FP32 value (R77, code 0x04). -/
def toIntegral (rm : RM) (v : FVal) : FVal × Flags :=
  match v with
  | .nan b => (.nan false, snanFlag [.nan b])
  | .inf s => (.inf s, fNone)
  | .fin s m e =>
    if 0 ≤ e then (.fin s m e, fNone)
    else
      let r := roundAt rm s m e 0
      (.fin s r.1 0, if r.2 then fNX else fNone)

/-- An integer as FP32 (R77, codes 0x02 and 0x03). -/
def ofInteger (rm : RM) (i : Int) : Word × Flags :=
  out32 rm false (.fin (decide (i < 0)) i.natAbs 0, fNone)

/-- CVT in one lane (R76 to R78, R155). FTZ applies to an FP32 source only (R70). -/
def cvtLane (code : CvtCode) (rm : RM) (sat ftz : Bool) (a : Word) : Word × Flags :=
  let small (r : Nat × Flags) : Word × Flags := (BitVec.ofNat 32 r.1, r.2)
  match code with
  | .f32i32 => toInteger rm sat (-2147483648) 2147483647 (in32 ftz a)
  | .f32z32 => toInteger rm sat 0 4294967295 (in32 ftz a)
  | .i32f32 => ofInteger rm a.toInt
  | .z32f32 => ofInteger rm a.toNat
  | .f32int => out32 rm false (toIntegral rm (in32 ftz a))
  | .f32bf16 => small (narrow .bf16 rm sat (in32 ftz a))
  | .f32f16 => small (narrow .f16 rm sat (in32 ftz a))
  | .bf16f32 => widen .bf16 a.toNat
  | .f16f32 => widen .f16 a.toNat
  | .f32e4m3 => small (narrow .e4m3 rm sat (in32 ftz a))
  | .f32e5m2 => small (narrow .e5m2 rm sat (in32 ftz a))
  | .e4m3f32 => widen .e4m3 a.toNat
  | .e5m2f32 => widen .e5m2 a.toNat
  | .f32e2m1 => small (narrow .e2m1 rm false (in32 ftz a))
  | .e2m1f32 => widen .e2m1 a.toNat

/-- FCMP on one lane (R157, R72). -/
def fcmpLane (c : FCond) (ftz : Bool) (a b : Word) : Bool × Flags :=
  let x := in32 ftz a
  let y := in32 ftz b
  let un := x.isNan || y.isNan
  let quiet := snanFlag [x, y]
  let loud : Flags := if un then fNV else fNone
  let o := cmpVal x y
  match c with
  | .eq => (!un && o == 0, quiet)
  | .ne => (un || o != 0, quiet)
  | .lt => (!un && decide (o < 0), loud)
  | .le => (!un && decide (o ≤ 0), loud)
  | .gt => (!un && decide (0 < o), loud)
  | .ge => (!un && decide (0 ≤ o), loud)
  | .un => (un, quiet)
  | .or => (!un, quiet)

end Sys2Proof.Machine
end

