-- ==== Sys2Proof/Machine/Flags.lean ====
section
/-!
DEFINITION. Flag computations: how the lanes' flags become an instruction's flag set, when a set traps (R73), and the fields
of ACTL (R61).
-/
namespace Sys2Proof.Machine

/-- Rounding mode of ACTL (R61). -/
def actlRm (actl : DWord) : RM :=
  match (actl.extractLsb' 0 2).toNat with
  | 0 => .rne
  | 1 => .rz
  | 2 => .rd
  | _ => .ru

/-- ACTL.FTZ (R61). -/
def actlFtz (actl : DWord) : Bool := actl.getLsbD 2

/-- The writable bits of ACTL (R61): the rest read as zero. -/
def actlMask : DWord := 0x77

/-- The trap an instruction's flag set raises, the lowest code first (R73). -/
def flagTrap (actl : DWord) (f : Flags) : Option Nat :=
  if f.getLsbD 0 && actl.getLsbD 4 then some 0x08
  else if f.getLsbD 1 && actl.getLsbD 5 then some 0x09
  else if f.getLsbD 2 && actl.getLsbD 6 then some 0x0A
  else none

/-- The OR of lanes' flags (R73). -/
def orFlags (fs : List Flags) : Flags := fs.foldl (· ||| ·) fNone

end Sys2Proof.Machine
end

