-- ==== Sys2Proof/Machine/Sfu.lean ====
section
/-!
DEFINITION. The special functions of R154. `sqrt` is correctly rounded. For every other function the results the table
lists as exact and the special inputs are stated; for any other input the device's own approximation is a free value
(`Config.sfuApprox`) that is kept within the bound of the table. The exact value y is computed as a dyadic number with a
relative error below 2^−100, which decides the bound, tininess and overflow (log 8).
-/
namespace Sys2Proof.Machine

/-- Fraction bits of the fixed-point series below. -/
def fixBits : Nat := 160
/-- One, in that scale. -/
def fixOne : Nat := 2 ^ fixBits
/-- Product of two fixed-point numbers. -/
def fixMul (a b : Nat) : Nat := a * b / fixOne

/-- Σ over k < n of the terms t_k, with t_0 given and t_(k+1) = t_k · x / ((i+1)(i+2)), i stepping by 2: the series of
cosh from i = 0 and of sinh(x)/x from i = 1, x being the square of the argument. -/
def seriesEven : Nat → Nat → Nat → Nat → Nat → Nat
  | 0, _, _, _, acc => acc
  | n + 1, x, i, t, acc => seriesEven n x (i + 2) (fixMul t x / ((i + 1) * (i + 2))) (acc + t)

/-- The same with alternating signs: `plus` and `minus` collect the terms of each sign. -/
def seriesAlt : Nat → Nat → Nat → Nat → Bool → Nat → Nat → Nat
  | 0, _, _, _, _, plus, minus => plus - minus
  | n + 1, x, i, t, neg, plus, minus =>
    seriesAlt n x (i + 2) (fixMul t x / ((i + 1) * (i + 2))) (!neg) (if neg then plus else plus + t) (if neg then minus + t else minus)

/-- Σ z^(2k+1)/(2k+1), with w = z² and p = z^(2k+1): the series of artanh. -/
def seriesArtanh : Nat → Nat → Nat → Nat → Nat → Nat
  | 0, _, _, _, acc => acc
  | n + 1, w, i, p, acc => seriesArtanh n w (i + 2) (fixMul p w) (acc + p / i)

/-- Σ x^k/k!: the series of the exponential, for x below 1. -/
def seriesExp : Nat → Nat → Nat → Nat → Nat → Nat
  | 0, _, _, _, acc => acc
  | n + 1, x, i, t, acc => seriesExp n x (i + 1) (fixMul t x / i) (acc + t)

/-- ln 2 = 2 artanh(1/3), in fixed point. -/
def fixLn2 : Nat := 2 * seriesArtanh 60 (fixOne / 9) 1 (fixOne / 3) 0
/-- artan(1/n) in fixed point, by its alternating series. -/
def artanInv : Nat → Nat → Nat → Nat → Bool → Nat → Nat → Nat
  | 0, _, _, _, _, plus, minus => plus - minus
  | k + 1, n, i, p, neg, plus, minus =>
    artanInv k n (i + 2) (p / (n * n)) (!neg) (if neg then plus else plus + p / i) (if neg then minus + p / i else minus)
/-- π = 16 artan(1/5) − 4 artan(1/239), in fixed point. -/
def fixPi : Nat := 16 * artanInv 80 5 1 (fixOne / 5) false 0 0 - 4 * artanInv 80 239 1 (fixOne / 239) false 0 0

/-- m · 2^e in fixed point, truncated. -/
def toFix (m : Nat) (e : Int) : Nat :=
  if 0 ≤ e + fixBits then m * 2 ^ (e + fixBits).toNat else m / 2 ^ (-(e + fixBits)).toNat

/-- A dyadic value (sign, magnitude, exponent). -/
abbrev Dyadic3 := Bool × Nat × Int

/-- 2^a for a = ±m · 2^e (R154 exp2). -/
def approxExp2 (s : Bool) (m : Nat) (e : Int) : Dyadic3 :=
  let x := toFix m e
  -- a = n + f with 0 ≤ f < 1
  let n : Int := if s then -((x + fixOne - 1) / fixOne : Nat) else (x / fixOne : Nat)
  let f : Nat := if s then (fixOne - x % fixOne) % fixOne else x % fixOne
  (false, seriesExp 60 (fixMul f fixLn2) 1 fixOne 0, n - fixBits)

/-- log2 of m · 2^e, not a power of two (R154 log2). -/
def approxLog2 (m : Nat) (e : Int) : Dyadic3 :=
  let l : Int := e + (bitLen m : Int) - 1
  -- x = m / 2^(bitLen m − 1) lies in [1, 2); ln x = 2 artanh((x − 1)/(x + 1))
  let h := 2 ^ (bitLen m - 1)
  let z := (m - h) * fixOne / (m + h)
  let lnx := 2 * seriesArtanh 60 (fixMul z z) 1 z 0
  let frac := lnx * fixOne / fixLn2
  let total : Int := l * fixOne + frac
  (decide (total < 0), total.natAbs, -fixBits)

/-- A value that is known to lie below m · 2^e: an approximation that reaches the limit is put just below it, so that its binade and the
bound are those of the exact value. -/
def justBelow (m : Nat) (e : Int) (y : Nat × Int) : Nat × Int :=
  if cmpVal (.fin false y.1 y.2) (.fin false m e) < 0 then y else (m * 2 ^ 200 - 1, e - 200)

/-- sin(π · r) for r = m · 2^e in (0, 1/2), which lies below 1 (R154 sinpi, cospi). -/
def approxSinPi (m : Nat) (e : Int) : Nat × Int :=
  let x := fixMul (toFix m e) fixPi
  let c := seriesAlt 40 (fixMul x x) 1 fixOne false 0 0
  justBelow 1 0 (m * fixPi * c, e - fixBits - fixBits)

/-- tanh of m · 2^e below 9.25, which lies below its argument (R154 tanh): sinh(x)/cosh(x). -/
def approxTanh (m : Nat) (e : Int) : Nat × Int :=
  let x := toFix m e
  let w := fixMul x x
  let sh := seriesEven 60 w 1 fixOne 0
  let ch := seriesEven 60 w 0 fixOne 0
  justBelow m e (m * (sh * fixOne / ch), e - fixBits)

/-- 1/(m · 2^e) (R154 rcp). -/
def approxRcp (m : Nat) (e : Int) : Nat × Int := (2 ^ 200 / m, -e - 200)

/-- 1/√(m · 2^e) (R154 rsqrt). -/
def approxRsqrt (m : Nat) (e : Int) : Nat × Int :=
  let odd := (e % 2).toNat
  -- 1/(m·2^odd·2^(e−odd)), the last exponent even
  (isqrt (2 ^ 400 / (m * 2 ^ odd)), -((e - odd) / 2) - 200)

/-- ulp(y) of R154 as an exponent: max(E, −126) − 23. -/
def ulpExp (m : Nat) (e : Int) : Int :=
  let top := e + (bitLen m : Int) - 1
  (if top < -126 then -126 else top) - 23

/-- Whether a finite delivered word lies within `k` · 2^q of the exact value y. -/
def withinBound (d : Word) (y : Dyadic3) (k : Nat) (q : Int) : Bool :=
  match unpack .f32 d.toNat with
  | .nan _ => false
  | .inf _ => false
  | .fin s m e =>
    match addExact .rne s m e (!y.1) y.2.1 y.2.2 with
    | .fin _ dm de => (match addExact .rne false k q true dm de with
      | .fin sgn rm _ => rm == 0 || !sgn
      | .inf _ => false
      | .nan _ => false)
    | .inf _ => false
    | .nan _ => false

/-- Deliver the device's approximation of y: a free word within k · 2^q of y; NX for a finite result; UF, and FTZ, from
the exact value (R154). -/
def deliverApprox (fn : Nat) (a : Word) (ftz : Bool) (y : Dyadic3) (k : Nat) (q : Int) : Word × Flags :=
  let nearest := BitVec.ofNat 32 (deliver .f32 .rne false (.fin y.1 y.2.1 y.2.2)).1
  let free := Config.sfuApprox fn a
  let d := if withinBound free y k q then free else nearest
  let tiny := isTiny .f32 .rne y.1 y.2.1 y.2.2
  let dm := d.toNat % 2 ^ 31
  let sub := dm != 0 && decide (dm < 2 ^ 23)
  let zero : Word := BitVec.ofNat 32 (Fmt.f32.signed y.1 0)
  if (unpack .f32 d.toNat).isInf then (d, fOF ||| fNX)
  else if ftz && (tiny || sub) then (zero, fUF ||| fNX)
  else (d, if tiny then fUF ||| fNX else fNX)

/-- An exact result of the table: FTZ applies to it, and a tiny one that FTZ leaves raises no flag, since it is exact (R70; R154's UF is
that of an approximate result, log 78). -/
def deliverExact (ftz s : Bool) (m : Nat) (e : Int) : Word × Flags := out32 .rne ftz (.fin s m e, fNone)

/-- ±∞ of FP32. -/
def inf32 (s : Bool) : Word := BitVec.ofNat 32 (Fmt.f32.signed s 0x7F800000)
/-- ±1.0. -/
def one32 (s : Bool) : Word := BitVec.ofNat 32 (Fmt.f32.signed s 0x3F800000)
/-- ±0. -/
def zero32 (s : Bool) : Word := BitVec.ofNat 32 (Fmt.f32.signed s 0)

/-- The largest k with 2^k dividing m, for m not 0, searching below a limit. -/
def twosIn : Nat → Nat → Nat
  | 0, _ => 0
  | n + 1, m => if m % 2 == 0 then 1 + twosIn n (m / 2) else 0
/-- m · 2^e in lowest terms: odd magnitude. -/
def lowest (m : Nat) (e : Int) : Nat × Int := let k := twosIn 64 m; (m / 2 ^ k, e + k)

/-- rsqrt (R154). -/
def sfuRsqrt (ftz : Bool) (a : Word) : Word × Flags :=
  match in32 ftz a with
  | .nan b => (qnan32, if b then fNV else fNone)
  | .inf s => if s then (qnan32, fNV) else (0, fNone)
  | .fin s m e =>
    if m == 0 then (inf32 s, fDZ)
    else if s then (qnan32, fNV)
    else
      let (o, x) := lowest m e
      if o == 1 && x % 2 == 0 then deliverExact ftz false 1 (-(x / 2))
      else
        let y := approxRsqrt m e
        deliverApprox 1 a ftz (false, y.1, y.2) 1 (ulpExp y.1 y.2)

/-- rcp (R154). -/
def sfuRcp (ftz : Bool) (a : Word) : Word × Flags :=
  match in32 ftz a with
  | .nan b => (qnan32, if b then fNV else fNone)
  | .inf s => (zero32 s, fNone)
  | .fin s m e =>
    if m == 0 then (inf32 s, fDZ)
    else
      let (o, x) := lowest m e
      let le128 := cmpVal (.fin false m e) (.fin false 1 (-128)) ≤ 0
      if le128 then (inf32 s, fOF ||| fNX)
      else if o == 1 then deliverExact ftz s 1 (-x)
      else
        let y := approxRcp m e
        deliverApprox 2 a ftz (s, y.1, y.2) 1 (ulpExp y.1 y.2)

/-- exp2 (R154). -/
def sfuExp2 (ftz : Bool) (a : Word) : Word × Flags :=
  match in32 ftz a with
  | .nan b => (qnan32, if b then fNV else fNone)
  | .inf s => if s then (0, fNone) else (inf32 false, fNone)
  | .fin s m e =>
    if 0 ≤ cmpVal (.fin s m e) (.fin false 128 0) then (inf32 false, fOF ||| fNX)
    else if cmpVal (.fin s m e) (.fin true 150 0) < 0 then (0, fUF ||| fNX)
    else
      let (o, x) := lowest m e
      let n : Int := if s then -((o * 2 ^ x.toNat : Nat) : Int) else (o * 2 ^ x.toNat : Nat)
      if m == 0 then deliverExact ftz false 1 0
      else if decide (0 ≤ x) && decide (-149 ≤ n) then deliverExact ftz false 1 n
      else
        let y := approxExp2 s m e
        deliverApprox 3 a ftz y 2 (ulpExp y.2.1 y.2.2)

/-- log2 (R154): inside [0.5, 2] the bound is absolute. -/
def sfuLog2 (ftz : Bool) (a : Word) : Word × Flags :=
  match in32 ftz a with
  | .nan b => (qnan32, if b then fNV else fNone)
  | .inf s => if s then (qnan32, fNV) else (inf32 false, fNone)
  | .fin s m e =>
    if m == 0 then (inf32 true, fDZ)
    else if s then (qnan32, fNV)
    else
      let (o, x) := lowest m e
      if o == 1 then deliverExact ftz (decide (x < 0)) x.natAbs 0
      else
        let y := approxLog2 m e
        let inside := decide (0 ≤ cmpVal (.fin false m e) (.fin false 1 (-1))) && decide (cmpVal (.fin false m e) (.fin false 2 0) ≤ 0)
        if inside then deliverApprox 4 a ftz y 1 (-22) else deliverApprox 4 a ftz y 2 (ulpExp y.2.1 y.2.2)

/-- sin(π · m · 2^e) for m · 2^e not an integer or half-integer: reduce exactly modulo 2, then to (0, 1/2). The
reduction works in units of 2^e, with one = 2^(−e). -/
def sinPiReduced (s : Bool) (m : Nat) (e : Int) : Dyadic3 :=
  let one := 2 ^ (-e).toNat
  let r := m % (2 * one)
  let upper := decide (one ≤ r)
  let r1 := r % one
  let r2 := if one < 2 * r1 then one - r1 else r1
  let y := approxSinPi r2 e
  (s ^^ upper, y.1, y.2)

/-- cos(π · m · 2^e), likewise: cos(πx) = sin(π(x + 1/2)). -/
def cosPiReduced (m : Nat) (e : Int) : Dyadic3 :=
  let one := 2 ^ (-e).toNat
  let r := m % (2 * one)
  -- distance from the nearest of 1/2 and 3/2, and the sign of the cosine there
  let neg := decide (one < 2 * r) && decide (2 * r < 3 * one)
  let r1 := r % one
  let d := if 2 * r1 ≤ one then (one - 2 * r1) else (2 * r1 - one)
  let y := approxSinPi d (e - 1)
  (neg, y.1, y.2)

/-- Whether m · 2^e is an integer, and its parity; whether it is a half-integer, and the parity of its floor. -/
def integerParity (m : Nat) (e : Int) : Option Bool :=
  let (o, x) := lowest m e
  if m == 0 then some false else if x == 0 then some true else if 0 < x then some (o == 0) else none
def halfParity (m : Nat) (e : Int) : Option Bool :=
  let (o, x) := lowest m e
  if x == -1 then some (o / 2 % 2 == 1) else none

/-- sinpi (R154). -/
def sfuSinpi (ftz : Bool) (a : Word) : Word × Flags :=
  match in32 ftz a with
  | .nan b => (qnan32, if b then fNV else fNone)
  | .inf _ => (qnan32, fNV)
  | .fin s m e =>
    match integerParity m e, halfParity m e with
    | some _, _ => (zero32 s, fNone)
    | none, some odd => (one32 (s ^^ odd), fNone)
    | none, none =>
      let y := sinPiReduced s m e
      deliverApprox 5 a ftz y 2 (ulpExp y.2.1 y.2.2)

/-- cospi (R154). -/
def sfuCospi (ftz : Bool) (a : Word) : Word × Flags :=
  match in32 ftz a with
  | .nan b => (qnan32, if b then fNV else fNone)
  | .inf _ => (qnan32, fNV)
  | .fin _ m e =>
    match integerParity m e, halfParity m e with
    | some odd, _ => (one32 odd, fNone)
    | none, some _ => (0, fNone)
    | none, none =>
      let y := cosPiReduced m e
      deliverApprox 6 a ftz y 2 (ulpExp y.2.1 y.2.2)

/-- tanh (R154). -/
def sfuTanh (ftz : Bool) (a : Word) : Word × Flags :=
  match in32 ftz a with
  | .nan b => (qnan32, if b then fNV else fNone)
  | .inf s => (one32 s, fNone)
  | .fin s m e =>
    if m == 0 then (zero32 s, fNone)
    else if 0 ≤ cmpVal (.fin false m e) (.fin false 37 (-2)) then (one32 s, fNone)
    else
      let y := approxTanh m e
      deliverApprox 7 a ftz (s, y.1, y.2) 2 (ulpExp y.1 y.2)

/-- `sfu` in one lane (R154): only `sqrt` rounds under the mode. -/
def sfuLane (fn : SfuFn) (rm : RM) (ftz : Bool) (a : Word) : Word × Flags :=
  match fn with
  | .sqrt => out32 rm ftz (sqrtVal (in32 ftz a))
  | .rsqrt => sfuRsqrt ftz a
  | .rcp => sfuRcp ftz a
  | .exp2 => sfuExp2 ftz a
  | .log2 => sfuLog2 ftz a
  | .sinpi => sfuSinpi ftz a
  | .cospi => sfuCospi ftz a
  | .tanh => sfuTanh ftz a

end Sys2Proof.Machine
end

