-- ==== Sys2Proof/Machine/Types.lean ====
section
/-!
DEFINITION. The types that a warp and a workgroup are made of: queued strand instructions, engine operations, store-queue
entries, bindings, bins and records. Every field cites the rule that gives it. All of it is plain data.
-/
namespace Sys2Proof.Machine

/-- How an imm8 widens (R119): I, Z or E. -/
inductive Widening where | i | z | e
deriving DecidableEq, Repr

/-- A strand instruction's operand after its dispatch: uniform and immediate values are carried (R21, R141). -/
inductive Operand where
  | value (w : Word)
  | g (r : Nat)
  | bfly (r e : Nat)
  | rot (r dist : Nat)
  | rev (r : Nat)
  | lane (r j : Nat)
deriving DecidableEq, Repr

/-- Operations that compute one lane from its own accumulator, operand and latch (chapter 06). -/
inductive AluOp where
  | mov
  | fp (op : FpOp) (rm : Option RM)
  | iadd | isub | irsub | imul | imac | imax | imin | zmax | zmin
  | and | or | xor | andn | shl | shr | sar | rol
  | idiv | zdiv | irem | zrem
  | fabs | fneg | popc | clz | brev
  | bfe (pos : Nat)
  | sfu (fn : SfuFn)
  | cvt (code : CvtCode) (rm : RM) (sat : Bool)
  | packed (op : FpOp) (f : HFmt) (rm : RM)
deriving DecidableEq, Repr

/-- Loads (R195). -/
inductive LdKind where | b32 | i8 | z8 | i16 | z16 | bf16 | f16
deriving DecidableEq, Repr
/-- Stores (R196). -/
inductive StKind where | b32 | b16 | b8 | bf16 | e4m3
deriving DecidableEq, Repr
/-- Atomics (R197). -/
inductive AtomKind where | iadd | fadd | imax | imin | zmax | zmin | and | or | xor | xchg | cas
deriving DecidableEq, Repr

/-- The address parts of a layout M instruction; `base` is read at dispatch (R88). -/
structure MemOp where
  base : DWord
  idx : Nat
  space : Space
  order : Order
  hint : BitVec 2
  scope : Scope
  off : BitVec 10
deriving DecidableEq, Repr

/-- Modes of CPY (R211). -/
inductive CpyMode where | plain | canon (f : CpyFmt) | norms (f : CpyFmt) | ver | mcast
deriving DecidableEq, Repr

/-- An active hardware loop (R175). -/
structure LoopFrame where
  start : BitVec 48
  stop : BitVec 48
deriving DecidableEq, Repr

/-- The uniform state of a warp, which a deposit carries as its bin key (R31). -/
structure UniState where
  s : List DWord
  lc : List Word
  loops : List LoopFrame
  part : Nat
  actl : DWord
  handler : Bool
deriving DecidableEq, Repr

/-- An engine instruction with its s operands as read at dispatch (R207). -/
inductive EngKind where
  | cpy (mode : CpyMode) (src dst desc aux : DWord) (ssp dsp : Space) (pkg : Bool)
  | cpyo (dst stride : DWord) (out : CpyoOut) (dsp : Space) (pkg : Bool)
  | kbind (slot m nn : Nat)
  | kfree
  | mzero (slot : Nat)
  | mma (base panel : DWord) (f : MmaFmt) (cv gB : Nat)
  | msamp (a b d0 d1 : DWord) (f : MmaFmt) (seed : Word)
  | mstat (r : Nat)
  | acheck (slot : Nat) (status : DWord)
  | adrain (slot : Nat) (rec scale : DWord) (opt : Optim) (keep : Bool)
  | lsupd (rec status : DWord)
  | treg (key base len : DWord)
  | tdrop (key : DWord)
  | tmove (key dest newBase : DWord)
  | solicit (key mask entry : DWord) (op : CenOp) (pkg : Bool) (dreg : Nat)
  | reply
  | chsend (ch : DWord) (r : Nat)
  | chrecv (ch : DWord) (r : Nat)
  | spawn (entry : DWord) (uni : UniState)
  | launch (rec queue : DWord)
  | sld (a : DWord) (order : Order) (scope : Scope) (r : Nat)
  | sst (a v : DWord) (order : Order) (scope : Scope)
  | pmrd (cnt r : Nat)
  | pmctl (cnt : Nat) (v : DWord)
deriving DecidableEq, Repr

/-- The operation of a queued instruction. `ready` is an RDSR whose value has been read at its start (R166). -/
inductive SOp where
  | alu (op : AluOp)
  | mlat
  | putg (r : Nat)
  | nop
  | selp (p : Nat)
  | fcmp (c : FCond) (p : Nat) (comb : Combine)
  | icmp (c : ICond) (p : Nat) (comb : Combine)
  | putp (t : PutpTest) (p : Nat)
  | shfli (r : Nat)
  | shfl16 (r : Nat)
  | qx (dir : QxDir) (r : Nat)
  | vote (mode : VoteMode) (p : Nat)
  | red (op : TreeOp)
  | scan (op : TreeOp) (excl : Bool)
  | unpk (hi : Bool) (r : Nat)
  | rdsr (idx : Nat)
  | ready (v : Lanes)
  | kwin
  | knext (step p : Nat)
  | ld (k : LdKind) (m : MemOp)
  | st (k : StKind) (m : MemOp)
  | atom (k : AtomKind) (m : MemOp)
  | ldtr (dst nb : Nat) (elem : Elem) (base stride : DWord)
  | eng (e : EngKind)
deriving DecidableEq, Repr

/-- An instruction in a strand queue (R14, R18, R21): `hdr` is the header in force at its address, `seq` its place in the
warp's program order, `clearedG` and `clearedP` the presence bits its dispatch cleared (R22). -/
structure QEntry where
  addr : BitVec 48
  hdr : Half
  n : Nat
  seq : Nat
  op : SOp
  src : Operand
  svals : List Nat
  part : Nat
  actl : DWord
  /-- registers and predicates (the guard among them) it reads under presence (R22) -/
  readsG : List Nat
  readsP : List Nat
  clearedG : List Nat
  clearedP : List Nat
  /-- bytes that a load has read before its completion, for a younger load that completed first (R100 item 5) -/
  took : List (Nat × Byte)
deriving DecidableEq, Repr

/-- The binding of an accumulator in tile mode (R50). -/
structure Binding where
  slot : Nat
  m : Nat
  n : Nat
  win : Nat
deriving DecidableEq, Repr

/-- Statistics of the last MSAMP on an accumulator since its binding (R231). -/
structure MStat where
  status : Nat
  n : Nat
  mean : Word
  var : Word
deriving DecidableEq, Repr

/-- No statistics: what MSTAT gives of an accumulator that no MSAMP has sampled since its binding (R231). -/
def noStat : MStat := { status := 0, n := 0, mean := 0, var := 0 }

/-- The page that an operation waits for, or that it failed at: the address, the clk at which its record was sent, and the ACCESS bits
(R208, R326). -/
structure PageWait where
  va : BitVec 48
  since : Nat
  access : Nat
  /-- a record of kind 9 has been sent for the save that it asks for, which finds no space (R338) -/
  told : Bool
deriving DecidableEq, Repr

/-- Why an engine operation waits or what it has done so far (R208, R209, R211, R215, R223, R240). -/
structure Progress where
  /-- destination lines of the scratchpad whose bits it cleared and that have not landed -/
  pendingLines : List Nat
  /-- 256-byte lines of a copy's destination in global memory that it has not written, by virtual address / 256 -/
  out : List Nat
  /-- rows, samples, attempts or bytes completed, as PROG.POS counts them -/
  pos : Nat
  /-- the running mean and sum of squares of an MSAMP (R229) -/
  mean : Word
  m2 : Word
  /-- PROG.PHASE (R209) -/
  phase : Nat
  /-- stopped at a boundary by a context save, until its warp resumes (R209) -/
  stopped : Bool
  /-- clk before which the next attempt is not made (R112) -/
  notBefore : Nat
  /-- its effect is complete and it may retire -/
  done : Bool
  /-- the trap it will report (R179) -/
  failed : Option Nat
  /-- the page that is not present, or that it failed at -/
  page : Option PageWait
  /-- census id (R241) -/
  census : Option Nat
  /-- what it is tied to: the firing of an MMA (R223), the entry a TMOVE moves (R240), the index a LAUNCH reserved (R308), the version that
  an attempt of a versioned read has loaded first (R112) -/
  link : Option Nat
  /-- receivers of a multicast whose delivery is dropped (R216) -/
  drops : Nat
deriving DecidableEq, Repr

/-- An engine operation that has issued (R207). `lanes` is EXEC, `data` the registers captured at issue, `bind` the binding
as it stood then. -/
structure EngOp where
  id : Nat
  seq : Nat
  addr : BitVec 48
  n : Nat
  kind : EngKind
  lanes : LaneSet
  data : List Lanes
  bind : Option Binding
  clearedG : List Nat
  prog : Progress
deriving DecidableEq, Repr

/-- A failure report that a WAIT of its class has yet to raise (R179). -/
structure Report where
  cls : EngClass
  code : Nat
  pc : BitVec 48
  va : Nat
  access : Nat
deriving DecidableEq, Repr

/-- An entry of a warp's store queue (R100): allocated at dispatch, filled at completion. Each element of `bytes` is a
physical or scratchpad address with its byte; `pages` are the virtual pages that it was translated from (R328). -/
structure StoreEntry where
  seq : Nat
  space : Space
  atomic : Bool
  order : Order
  scope : Scope
  bytes : Option (List (Nat × Byte))
  pages : List Nat
deriving DecidableEq, Repr

/-- A FENCE, or an ordered access, that younger accesses wait for (R102, R103): loads up to `seq`, and stores too when `sc`. -/
structure FenceMark where
  seq : Nat
  sc : Bool
deriving DecidableEq, Repr

/-- A trap record (R26): SPC0–SPC15 and FEPC, with the code and address of the trap. -/
structure TrapRec where
  spc : List DWord
  fepc : DWord
deriving DecidableEq, Repr

/-- A trap as it is reported: code, address of the instruction, and what its fault record carries (R330, R333). -/
structure TrapInfo where
  code : Nat
  addr : BitVec 48
  va : Nat
  access : Nat
  code2 : Nat
deriving DecidableEq, Repr

/-- What a stop through steps 1 to 3 of R25 is for: a trap of the warp, a stop of its workgroup (R318), a halt (R29), or a
save (R337). -/
inductive StopGoal where | trap | stop | halt | save
deriving DecidableEq, Repr

/-- A stop in progress (R25, R27): the reported trap, F with its header, and the addresses of uncompleted instructions by
strand, oldest first. `halt` says that the warp is to be halted as well, by a halt that came during the stop (R205, R344). -/
structure Stopping where
  goal : StopGoal
  halt : Bool
  trap : Option TrapInfo
  fepc : BitVec 48 × Half
  left : List (Nat × BitVec 48 × Half)
deriving DecidableEq, Repr

/-- What a warp is blocked at (R180, R181, R185). -/
inductive Block where
  | none
  | bar
  | gbar
  | claim (n : Nat)
deriving DecidableEq, Repr

/-- A data fault that a warp is stalled on (R326). -/
structure DataFault where
  /-- the faulting instruction's place in program order, its address and strand -/
  seq : Nat
  pc : BitVec 48
  va : BitVec 48
  since : Nat
  access : Nat
  /-- FRESP answered that the access fails; the trap follows the restore (R326) -/
  fail : Bool
  /-- a record of kind 9 has been sent for the save that it asks for, which finds no space (R338) -/
  told : Bool
deriving DecidableEq, Repr

/-- A warp (R46, R59, R65). -/
structure Warp where
  wid : Nat
  age : Nat
  active : LaneSet
  tids : List Nat
  /-- census whose responder sits in each lane (R242) -/
  census : List (Option Nat)
  granules : Nat
  /-- of those, granules that the split reserve gave (R303) -/
  reserveGranules : Nat
  g : List Lanes
  k : List Lanes
  latch : List Lanes
  p : List LaneSet
  presG : BitVec 256
  presP : BitVec 8
  bind : List (Option Binding)
  mstat : List MStat
  ectr : List Nat
  pc : BitVec 48
  hdr : Half
  uni : UniState
  seq : Nat
  queues : List (List QEntry)
  started : List QEntry
  ops : List EngOp
  reports : List Report
  storeQ : List StoreEntry
  fences : List FenceMark
  spc : List DWord
  fepc : DWord
  trapCode : Nat
  trapAddr : BitVec 48
  held : Option TrapRec
  resume : Option TrapRec
  block : Block
  /-- steps 1 to 3 of R25 are under way -/
  stopping : Option Stopping
  /-- halted by HALTB or the debugger (R205, R341) -/
  halted : Bool
  /-- stopped with its workgroup (R318, R319) -/
  stopped : Bool
  dataFault : Option DataFault
  /-- a fetch fault at an address: unanswered, or answered with FAIL, so that trap 0x05 follows at the instruction (R325) -/
  fetchFault : Option (BitVec 48 × Bool)
  clkHi : Option Word
  lscale : DWord
  /-- address whose breakpoint the next dispatch passes over (R339) -/
  skipBp : Option (BitVec 48)
  /-- single step (R29): armed, or with its one instruction dispatched -/
  stepping : Option Bool
  /-- holds its dispatch until every target of its HALTB has stopped (R205) -/
  haltWait : List (Nat × Nat)
  /-- dispatch slots of its core since the last one that was its own (R44) -/
  passed : Nat
deriving DecidableEq, Repr

/-- A thread in a bin (R31). -/
structure Thread where
  tid : Nat
  census : Option Nat
  /-- under compat16, the split that deposited it and its former lane (R279) -/
  split : Option (Nat × Nat)
  g : List (Nat × Word)
  k : List Word
  latch : List Word
  p : BitVec 8
deriving DecidableEq, Repr

/-- The key of a bin (R31): continuation address and uniform state. -/
structure BinKey where
  addr : BitVec 48
  uni : UniState
deriving DecidableEq, Repr

/-- A bin, in the hamper or in the overflow area (R31, R35). `deadline` is the clk of its timer, `expired` that it has
run out; `rest` its remainder while the workgroup is stopped, halted or swapped out (R33); `swept` that the barrier trigger has taken
it, so that all its threads are formed (R33). -/
structure Bin where
  key : BinKey
  threads : List Thread
  deadline : Nat
  rest : Option Nat
  expired : Bool
  swept : Bool
deriving DecidableEq, Repr

/-- A convergence register (R56). -/
structure CvReg where
  form : CvForm
  signs : Nat
  signed : LaneSet
  members : LaneSet
  /-- a member exited or was deposited: no MMA until the next CVSET (R56, R223) -/
  unusable : Bool
  /-- what the first signer fixed (R223): slot, shape, format, A base, panel word; and whether a later signer differed -/
  fixed : Option (Nat × Nat × Nat × MmaFmt × DWord × DWord)
  differs : Bool
deriving DecidableEq, Repr

/-- A tile slot (R50, R220): written words by number, and the shape tag once a KBIND has set it. -/
structure Slot where
  words : List (Nat × Word)
  tag : Option (Nat × Nat)
  /-- every word not listed is +0 (after MZERO, ADRAIN or a context assignment) -/
  zeroed : Bool
deriving DecidableEq, Repr

/-- A slot that reads as zero and carries no tag. -/
def Slot.fresh : Slot := { words := [], tag := none, zeroed := true }

/-- A request of the register pool's queue (R38): a CLAIM of a warp, or the formation of a bin. -/
inductive PoolReq where
  | claim (wid n : Nat)
  | form (key : BinKey)
deriving DecidableEq, Repr

/-- Where a workgroup is (R337). -/
inductive Residence where
  | resident
  | cooler
  | saveArea
deriving DecidableEq, Repr

/-- Why a workgroup is stopped (R319, R340): by a trap or a debugger, with its record sent, until FRESP or DBGCMD. -/
inductive WgStop where
  | none
  | trap
  | debug
deriving DecidableEq, Repr

end Sys2Proof.Machine
end

