-- ==== Sys2Proof/Machine/State.lean ====
section
/-!
DEFINITION. The state of one Lamryn LX3 package as plain data: workgroups with their warps, the distributor, memory, the
fault unit, the census network and the management controller; then the reasons a step can stop, and the state after
reset. INVENTORY.md lists each field with its rule and reset value. The fields marked (model) are not the manual's.
-/
namespace Sys2Proof.Machine

/-- A performance counter of a core for a context (R246). -/
structure Counter where
  core : Nat
  ctxid : Nat
  cnt : Nat
  config : DWord
  count : BitVec 48
  /-- the warp that configured it, by workgroup and number -/
  wg : Nat
  wid : Nat
  /-- clk of the PMCTL that configured it -/
  since : Nat
deriving DecidableEq, Repr

/-- A marked sector: the bytes written since the marking (R115). -/
structure Mark where
  sector : Nat
  written : BitVec 64
deriving DecidableEq, Repr

/-- A workgroup (R11, R65). It keeps the name of its last placement while it is swapped out (R365). -/
structure Workgroup where
  uid : Nat
  grid : Nat
  gang : Nat
  lin : Nat
  rank : Nat
  asid : Nat
  ctxid : Nat
  die : Nat
  core : Nat
  slot : Nat
  residence : Residence
  header : DWord
  entry : BitVec 48
  handler : BitVec 48
  consts : List DWord
  svck : Bool
  /-- grid extent and coordinates (R59) -/
  nwg : Nat × Nat × Nat
  gangSize : Nat
  seed : Word
  astat : Flags
  drops : Nat
  lost : Bool
  poolFree : Nat
  splitReserve : Nat
  poolQ : List PoolReq
  cv : List CvReg
  gbarArrived : Bool
  binsMax : Nat
  bins : List Bin
  held : List Bin
  ovfl : DWord
  ovflSize : Nat
  scratch : List Host.Cell
  /-- every scratchpad byte not listed is zero; otherwise it is what an earlier workgroup left (R66, R357) -/
  scratchZero : Bool
  absent : List Nat
  orphan : List Nat
  /-- sectors of its core SRAM that are marked uncorrectable (R115, R361), numbered as `scratchSector` and `slotSector` say -/
  sramMarks : List Mark
  slots : List Slot
  warps : List Warp
  /-- slots of freed warps whose engine operations run on to retirement (R57) -/
  ghosts : List Warp
  stop : WgStop
  /-- awaiting a response to a record of kind 3 (true) or 8 (false) (R325, R326) -/
  awaiting : Option Bool
  /-- ended by system software (R331 END) -/
  killed : Bool
  /-- pinned code lines of the workgroup (R191) -/
  pins : List Nat
  /-- halts that a DBGCMD waits to report (R341): the record's WID, and the warps it named -/
  haltReport : List (Nat × List Nat)
  /-- the marked sector that its image lies in: it stays unrestored (R361) -/
  imageLost : Option Nat
  /-- a restore has met that sector, and the records of R361 have been sent -/
  lossSent : Bool
  /-- a save has begun: where its image goes (R337) -/
  saveTo : Option Residence
  /-- a record of kind 9 has been sent for the save of its gang for its fetch fault, which finds no space (R338) -/
  noRoom : Bool
  /-- the performance counters of its core for its context as its image holds them while it is saved (R65, R246) -/
  counters : List Counter
deriving DecidableEq, Repr

/-- A channel of a gang (R201): published messages, oldest first, of 32 words. -/
structure Channel where
  slots : Nat
  sender : Nat
  receiver : Nat
  msgs : List (List Word)
deriving DecidableEq, Repr

/-- A gang (R12, R313). -/
structure Gang where
  uid : Nat
  grid : Nat
  size : Nat
  members : List Nat
  partition : Nat
  channels : List Channel
deriving DecidableEq, Repr

/-- The fields of a launch record (R309). -/
structure LaunchRec where
  waits : List (Nat × Nat)
  cpl : DWord
  chan : DWord
  nchan : Nat
  ovflSize : Nat
  ovfl : DWord
  const : DWord
  seed : Word
  bins : Nat
  dies : Nat
  svck : Bool
  gfall : Nat
  gpref : Nat
  nthr : Nat
  nwg : Nat × Nat × Nat
  handler : DWord
  entry : DWord
  header : DWord
  /-- every reserved field of the record is zero (R310) -/
  clean : Bool
deriving DecidableEq, Repr

/-- A grid that has started and not completed, or completed and waiting for its turn (R311). -/
structure Grid where
  uid : Nat
  queue : Nat
  index : Nat
  asid : Nat
  prio : Nat
  launch : LaunchRec
  consts : List DWord
  chans : List (Nat × Nat × Nat)
  next : Nat
  ended : Nat
  killed : Nat
  /-- clk since which its next gang has been waiting, and whether it has reserved cores (R315) -/
  waitSince : Nat
  reserved : Bool
  /-- die that all its gangs use under memory-model revision 2 (R313) -/
  oneDie : Option Nat
  status : Nat
  /-- its completion record has been written; it waits for earlier records (R311) -/
  written : Bool
deriving DecidableEq, Repr

/-- The loaded copy of a queue descriptor (R307), with the records read and not started. -/
structure Queue where
  q : Nat
  ring : DWord
  log2 : Nat
  prio : Nat
  asid : Nat
  enabled : Bool
  waiting : List (Nat × LaunchRec)
deriving DecidableEq, Repr

/-- States of a directory entry (R238). -/
inductive DirState where | valid | moving | moved
deriving DecidableEq, Repr

/-- A directory entry (R238). `loc` is a core of the package (64·die + core) or 192 + die for a dormant directory. -/
structure DirEntry where
  uid : Nat
  loc : Nat
  key : DWord
  base : BitVec 48
  len : Word
  owner : Nat
  asid : Nat
  st : DirState
  dest : Nat
  tags : List Nat
  /-- of a moving entry, the tags that its copy will carry; of a moved one, the censuses in flight at the install, which keep the
  stub (R240) -/
  keep : List Nat
  /-- of a moved entry, the copy -/
  copy : Option Nat
deriving DecidableEq, Repr

/-- An owe from location `src` for its entry `entry`, held at `dst` until the copy is installed there (R244). -/
structure Owe where
  src : Nat
  dst : Nat
  entry : Nat
  copy : Option Nat
deriving DecidableEq, Repr

/-- A report that a location owes a census (R244): the responders it spawned and that still run, by workgroup and TID; the matches
held until a responder can be deposited (R242); and what it will report. -/
structure LocReport where
  loc : Nat
  spawned : List (Nat × Nat)
  held : List DirEntry
  value : DWord
  responders : Nat
  dormant : Nat
  balance : Int
deriving DecidableEq, Repr

/-- A census in flight (R241 to R245). -/
structure Census where
  id : Nat
  /-- the asker: its workgroup, its operation, and the core that started it -/
  wg : Nat
  opId : Nat
  core : Nat
  asid : Nat
  key : DWord
  mask : DWord
  entry : BitVec 48
  op : CenOp
  /-- locations not yet delivered to -/
  toVisit : List Nat
  owes : List Owe
  reports : List LocReport
  value : DWord
  responders : Nat
  dormant : Nat
  balance : Int
  /-- a matching entry had no room for its tag (R245) -/
  full : Bool
deriving DecidableEq, Repr

/-- A fault record before its SEQ is known (R330). -/
structure FaultRec where
  kind : Nat
  code : Nat
  code2 : Nat
  access : Nat
  asid : Nat
  ctxid : Nat
  die : Nat
  core : Nat
  slot : Nat
  wid : Nat
  va : Nat
  pc : Nat
  clk : Nat
  queue : Nat
  index : Nat
deriving DecidableEq, Repr

/-- A TLB entry of a core (R328): the leaf of one page, as the walk read it. -/
structure TlbEntry where
  core : Nat
  asid : Nat
  vpn : Nat
  leaf : DWord
  level : Nat
deriving DecidableEq, Repr

/-- An ASID table entry as last read (R321). -/
structure AsidEntry where
  asid : Nat
  root : DWord
  ctx : DWord
  save : DWord
  saveSz : Nat
  bps : List DWord
  wps : List (DWord × DWord)
deriving DecidableEq, Repr

/-- A shootdown in progress (R327). -/
structure Shootdown where
  kind : Nat
  asid : Nat
  size : Nat
  vpn : Nat
  void : Bool
deriving DecidableEq, Repr

/-- A partition's registers (R316). -/
structure Partition where
  p : Nat
  mask : DWord
  cfg : DWord
deriving DecidableEq, Repr

/-- The slice of a group of several partitions (R317). -/
structure Slice where
  die : Nat
  group : Nat
  running : Nat
  since : Nat
  /-- a record of kind 9 has been sent: its change finds no space (R338) -/
  noRoom : Bool
deriving DecidableEq, Repr

/-- An isolation class (R354, R358). -/
structure ClassReg where
  asid : Nat
  cls : Nat
  ways : Nat
  loops : Nat
  share : Nat
deriving DecidableEq, Repr

/-- A record of the controller's error log (R361). -/
structure LogRec where
  kind : Nat
  loc : Nat
  pa : Nat
  count : Nat
  clk : Nat
deriving DecidableEq, Repr

/-- Corrected errors of a sector: the count, and the clk at which one was last logged (R361). -/
structure Corrected where
  sector : Nat
  count : Nat
  loggedAt : Option Nat
deriving DecidableEq, Repr

/-- A frame the management port has sent: RESULT, VALUE0, VALUE1 and the data from byte 64 on (R364). -/
structure PortReply where
  dest : BitVec 48
  op : BitVec 16
  seq : BitVec 64
  result : Nat
  value0 : DWord
  value1 : DWord
  tag : BitVec 256
  body : List Byte
deriving DecidableEq, Repr

/-- A sample of the telemetry (R362): CLK of die 0, package power in mW, the cap, the islands' clocks, and the number of the sensors'
readings. -/
structure TelemSample where
  clk : Nat
  power : Nat
  capWatts : Nat
  clocks : List Nat
  reading : Nat
deriving DecidableEq, Repr

/-- The management controller (chapter 16). -/
structure Mgmt where
  mbArg0 : DWord
  mbArg1 : DWord
  mbResult : Nat
  /-- clk at which the last mailbox command ends: BUSY until then (R353) -/
  mbUntil : Nat
  /-- keys by ASID, each named by a number that no other key has (R355) -/
  keys : List (Nat × Nat)
  sysKey : Nat
  classes : List ClassReg
  capWatts : Nat
  /-- clock of each of the 32 islands in MHz (R359, R362) -/
  clocks : List Nat
  /-- share of dispatch withheld from shared-class islands, in sixteenths (R359) -/
  withheld : Nat
  throttled : List Nat
  tripped : List Nat
  heldInReset : Bool
  lastStep : Nat
  failedStep : Nat
  log : List LogRec
  logLost : Nat
  corrected : List Corrected
  portKey : BitVec 256
  portSeq : Nat
  portReplies : List PortReply
  /-- requests that wait for a mailbox command to end, oldest first (R364) -/
  portQueue : List PortFrame
  /-- the last power samples in mW of the running 1 ms average, newest first (R359) -/
  power : List Nat
  /-- power samples since the last sample of the telemetry, which is taken every 1 ms, and that sample (R362) -/
  sinceTelem : Nat
  telem : TelemSample
  /-- compute cores and system cores that have responded in step 6 of bring-up, and the part's voltage-frequency bin (R2, R363) -/
  cores : Nat × Nat
  vfBin : Nat
  /-- windows' bases as the hand-off table records them: control, service, mailbox (R363) -/
  bases : Nat × Nat × Nat
deriving DecidableEq, Repr

/-- A kernel as the loader hands it to system software: its name, the launch record that the loader writes for it, its constants, the slots
of its channels, and the level that its code was finalised from, if it was (R286 to R294, R300). -/
structure LoadedKernel where
  name : List Byte
  /-- fields that the producer of the record sets stand at their least (R309) -/
  launch : LaunchRec
  consts : List DWord
  chanSlots : List Nat
  finalised : Option Nat
deriving DecidableEq, Repr

/-- A section that the loader has copied to an address (R285, R288). -/
structure LoadedImage where
  addr : Nat
  bytes : List Byte
  code : Bool
deriving DecidableEq, Repr

/-- A loaded container (R292). -/
structure Loaded where
  /-- the ASID that it was loaded for -/
  asid : Nat
  images : List LoadedImage
  kernels : List LoadedKernel
deriving DecidableEq, Repr

/-- What a refusal of the loader reports (R293). -/
structure LoadRefusal where
  reason : Nat
  id : Nat
  type : Nat
  ntype : Nat
deriving DecidableEq, Repr

/-- Which warp is executing (model). -/
structure WarpRef where
  wg : Nat
  wid : Nat
deriving DecidableEq, Repr

/-- Memory by physical key (pkg·2^50 + tier·2^48 + address). `cells` holds the bytes written, in one canonical form (`Memory.wf`);
`owners` names the key that each written sector (physical key / 64) was last written under (R356). -/
structure Memory where
  cells : List Host.Cell
  owners : List (Nat × Nat)
  /-- (model) writes so far: the free values of R356 change with it -/
  epoch : Nat
deriving DecidableEq, Repr

/-- The package. -/
structure State where
  /-- resident and saved workgroups -/
  wgs : List Workgroup
  gangs : List Gang
  grids : List Grid
  queues : List Queue
  partitions : List Partition
  slices : List Slice
  directory : List DirEntry
  censuses : List Census
  /-- SOLICITs waiting for an id, in the order they reached the heads of their queues: wg, wid, place in program order (R241) -/
  solicits : List (Nat × Nat × Nat)
  mem : Memory
  marks : List Mark
  tlb : List TlbEntry
  asids : List AsidEntry
  shoots : List Shootdown
  faultsOut : List FaultRec
  counters : List Counter
  qtBase : DWord
  asidTb : DWord
  fqBase : DWord
  fqCfg : DWord
  fqTail : Word
  fqHead : Word
  shootSt : Word
  dapBase : DWord
  /-- fault interrupts signalled (R329) -/
  interrupts : Nat
  /-- links that are down, and the packages each alone reaches (R352) -/
  linksDown : List (Nat × List Nat)
  mgmt : Mgmt
  /-- the context whose workgroups have run on a core since its storage was last cleared: core, ASID, CTXID (R66, R357) -/
  coreUse : List (Nat × Nat × Nat)
  /-- cores that a workgroup has left, since they were last given to a context, with a slot whose shape tag may not be 64×64 (R220) -/
  coreBound : List Nat
  /-- containers the loader has loaded, oldest first (R292) -/
  loaded : List Loaded
  /-- refusals the loader has reported, oldest first (R293) -/
  refused : List LoadRefusal
  /-- (model) the warp whose instruction executes -/
  cur : Option WarpRef
  /-- (model) events of outside agents and of timing, next first -/
  inbox : List Instr
  /-- (model) the core whose front end dispatched last -/
  frontCore : Nat
  /-- clock count (R60) -/
  clk : Nat
  /-- (model) number of the next free value -/
  free : Nat
  /-- (model) the next name of a workgroup, gang, grid, directory entry, operation or key -/
  nextUid : Nat
deriving DecidableEq, Repr

/-- The machine stops with a fault. -/
inductive Fault where
  /-- an access to a physical address beyond the 2^48 bytes of a tier; raised by nothing, since every translation and every
  register holds at most 48 bits. Safe. -/
  | noSuchAddress (key : Nat)
deriving DecidableEq, Repr

/-- No meaning for the step. -/
inductive Refusal where
  /-- an instruction that has no meaning yet; raised by its arm alone. Safe. -/
  | notModelled (mnemonic : String)
  /-- an instruction was executed while no warp executes: `cur` names no live warp. `step` never does so; raised only when
  `exec` is asked in such a state. Safe. -/
  | noWarp
deriving DecidableEq, Repr

/-- The controller after a package reset (R363): no keys, class 0 everywhere, cap 2600 W (R359), nominal clocks. The port key
survives resets and has no reset value, nor has the first sample of the telemetry (log 13). -/
def Mgmt.reset : Mgmt :=
  { mbArg0 := 0, mbArg1 := 0, mbResult := 0, mbUntil := 0, keys := [], sysKey := 0, classes := [], capWatts := 2600,
    clocks := List.replicate 32 1750, withheld := 0, throttled := [], tripped := [], heldInReset := false, lastStep := 7,
    failedStep := 0, log := [], logLost := 0, corrected := [], portKey := 0, portSeq := 0, portReplies := [], portQueue := [], power := [],
    sinceTelem := 0, telem := { clk := 0, power := 0, capWatts := 2600, clocks := List.replicate 32 1750, reading := 0 },
    cores := (192, 48), vfBin := Config.vfBin,
    bases := (0x400000000000, 0x400000100000, 0x400000110000) }

/-- The package right after reset and bring-up (R363): every window register at its reset value, no workgroup, no key. The manual gives FQTAIL
and FQHEAD no reset value (R320): here they are 0 (log 13). -/
def State.reset : State :=
  { wgs := [], gangs := [], grids := [], queues := [], partitions := [], slices := [], directory := [], censuses := [],
    solicits := [], mem := { cells := [], owners := [], epoch := 0 }, marks := [], tlb := [], asids := [], shoots := [], faultsOut := [],
    counters := [], qtBase := 0, asidTb := 0, fqBase := 0, fqCfg := 0, fqTail := 0, fqHead := 0, shootSt := 0, dapBase := 0,
    interrupts := 0, linksDown := [], mgmt := Mgmt.reset, coreUse := [], coreBound := [], loaded := [], refused := [], cur := none, inbox := [],
    frontCore := 0, clk := 0, free := 0, nextUid := 1 }

end Sys2Proof.Machine
end

