-- ==== Sys2Proof/Machine/Operands.lean ====
section
/-!
DEFINITION. Operand forms (R119, R123, R141), partition tiles and cross-lane reads (R40, R41), accumulator values in both
modes (R49, R51), the per-lane operations of chapter 06 and the tree operations of R42.
-/
namespace Sys2Proof.Machine

/-- The fields of a strand header (R122). -/
def hdrAcc (h : Half) : Nat := (h.extractLsb' 8 4).toNat
def hdrGuard (h : Half) : Nat := (h.extractLsb' 5 3).toNat
def hdrSense (h : Half) : Bool := h.getLsbD 4
/-- The header of strand `k0`, unguarded (R16). -/
def hdrK0 : Half := 0xC000#16

/-- A predicate of a warp; p0 is true in every lane (R54). -/
def Warp.pred (w : Warp) (p : Nat) : LaneSet := if p == 0 then allLanes else nth 0#32 w.p p

/-- EXEC(W, I): the active lanes whose guard holds (R8, R16). -/
def Warp.exec (w : Warp) (h : Half) : LaneSet :=
  w.active &&& (if hdrSense h then ~~~(w.pred (hdrGuard h)) else w.pred (hdrGuard h))

/-- A general register of a warp. -/
def Warp.greg (w : Warp) (r : Nat) : Lanes := nth zeroLanes w.g r
/-- Replace a general register in the lanes of a set. -/
def Warp.setG (w : Warp) (r : Nat) (x : LaneSet) (v : Lanes) : Warp := { w with g := setNth zeroLanes w.g r (merge x v (w.greg r)) }
/-- Replace a predicate in the lanes of a set; p0 is not written (R54). -/
def Warp.setP (w : Warp) (p : Nat) (x v : LaneSet) : Warp :=
  if p == 0 then w else { w with p := setNth 0#32 w.p p ((v &&& x) ||| (w.pred p &&& ~~~x)) }
/-- A uniform register; s0 reads as zero (R53). -/
def Warp.sreg (w : Warp) (i : Nat) : DWord := if i == 0 then 0 else nth 0#64 w.uni.s i
/-- Write a uniform register; a write of s0 is discarded (R53). -/
def Warp.setS (w : Warp) (i : Nat) (v : DWord) : Warp :=
  if i == 0 then w else { w with uni := { w.uni with s := setNth 0#64 w.uni.s i v } }

/-- First lane of a lane's tile (R40). -/
def tileBase (part l : Nat) : Nat := l / 2 ^ part * 2 ^ part
/-- Whether two lanes lie in one tile. -/
def sameTile (part a b : Nat) : Bool := a / 2 ^ part == b / 2 ^ part

/-- A cross-lane read by lane l from lane src (R41). -/
def crossRead (active : LaneSet) (part : Nat) (v : Lanes) (l src : Nat) : Word :=
  if src < 32 && active.getLsbD src && sameTile part l src then laneOf v src else laneOf v l

/-- The source lane of a permuted kind (R123). -/
def bflyLane (l e : Nat) : Nat := l ^^^ 2 ^ e
def rotLane (l d : Nat) : Nat := l / 8 * 8 + (l + d) % 8
def revLane (part l : Nat) : Nat := tileBase part l + (2 ^ part - 1 - l % 2 ^ part)

/-- The operand's value in every lane (R123, R141). -/
def operandLanes (w : Warp) (part : Nat) : Operand → Lanes
  | .value v => List.replicate 32 v
  | .g r => w.greg r
  | .bfly r e => tab (fun l => crossRead w.active part (w.greg r) l (bflyLane l e))
  | .rot r d => tab (fun l => crossRead w.active part (w.greg r) l (rotLane l d))
  | .rev r => tab (fun l => crossRead w.active part (w.greg r) l (revLane part l))
  | .lane r j => tab (fun l => crossRead w.active part (w.greg r) l (tileBase part l + j))

/-- Widening of an imm8 (R119). -/
def widenImm (m : Widening) (v : BitVec 8) : Word :=
  match m with
  | .i => v.signExtend 32
  | .z => v.zeroExtend 32
  | .e => widenE v

/-- An imm8 of a packed instruction: widened by E, converted to the format, in both halves (R156). -/
def widenPacked (f : HFmt) (v : BitVec 8) : Word :=
  let fmt := match f with
    | .bf16 => Fmt.bf16
    | .f16 => Fmt.f16
  let h := (narrow fmt .rne false (unpack .e4m3 v.toNat)).1
  BitVec.ofNat 32 (h + 65536 * h)

/-- The operand as it is carried from dispatch (R21): uniform registers and immediates become values. -/
def carrySrc (w : Warp) (imm : BitVec 8 → Word) : Src → Operand
  | .g r => .g r.toNat
  | .s r => .value ((w.sreg r.toNat).extractLsb' 0 32)
  | .imm v => .value (imm v)
  | .bfly r e => .bfly r.toNat e.toNat
  | .rot r d => .rot r.toNat d.toNat
  | .rev r => .rev r.toNat
  | .lane r j => .lane r.toNat j.toNat

/-- The uniform register an operand names, for R19's wait. -/
def srcSvals : Src → List Nat
  | .s r => [r.toNat]
  | .g _ | .imm _ | .bfly _ _ | .rot _ _ | .rev _ | .lane _ _ => []

/-- The general register an operand names. -/
def srcGregs : Src → List Nat
  | .g r | .bfly r _ | .rot r _ | .rev r | .lane r _ => [r.toNat]
  | .s _ | .imm _ => []

/-- Note a written byte of a marked sector; the mark goes once all 64 bytes have been written (R115). -/
def noteWrite (ms : List Mark) (pk : Nat) : List Mark :=
  (ms.map (fun m => if m.sector == pk / 64 then { m with written := m.written ||| BitVec.ofNat 64 (2 ^ (pk % 64)) } else m)).filter
    (fun m => m.written != BitVec.allOnes 64)

/-- The sectors of a workgroup's core SRAM (R115, R361): those of the scratchpad, then 256 for each tile slot. -/
def scratchSector (a : Nat) : Nat := a / 64
def slotSector (t i : Nat) : Nat := 8192 + 256 * t + i / 16
/-- The byte of core SRAM that word i of a tile slot begins at. -/
def slotByte (t i : Nat) : Nat := 64 * 8192 + 16384 * t + 4 * i

/-- A tile slot of a workgroup. -/
def Workgroup.slotAt (wg : Workgroup) (t : Nat) : Slot := nth Slot.fresh wg.slots t

/-- A word of a tile slot (R50, R66). -/
def Workgroup.slotWord (wg : Workgroup) (t i : Nat) : Word :=
  match cellAt (wg.slotAt t).words i with
  | some v => v
  | none => if (wg.slotAt t).zeroed then 0 else Config.residueSlot wg.uid t i

/-- A slot with words written, in order; a word that reads as zero unlisted is not listed with that value. -/
def Slot.putWords (x : Slot) (ws : List (Nat × Word)) : Slot :=
  { x with words := cellPutAll (if x.zeroed then some 0 else none) x.words ws }

/-- A workgroup with slot words written, in order. -/
def Workgroup.putWords (wg : Workgroup) (t : Nat) (ws : List (Nat × Word)) : Workgroup :=
  { wg with slots := setNth Slot.fresh wg.slots t ((wg.slotAt t).putWords ws) }

/-- Slot words written by an engine: a marked sector counts them (R115). -/
def Workgroup.engineWords (wg : Workgroup) (t : Nat) (ws : List (Nat × Word)) : Workgroup :=
  { wg.putWords t ws with
    sramMarks := ws.foldl (fun ms x => (List.range 4).foldl (fun ms j => noteWrite ms (slotByte t x.1 + j)) ms) wg.sramMarks }

/-- A workgroup with every word of a slot +0 (R220); no mark of the slot remains (R115). -/
def Workgroup.zeroSlot (wg : Workgroup) (t : Nat) : Workgroup :=
  { wg with slots := setNth Slot.fresh wg.slots t { wg.slotAt t with words := [], zeroed := true },
            sramMarks := wg.sramMarks.filter (fun m => !(decide (slotSector t 0 ≤ m.sector) && decide (m.sector < slotSector (t + 1) 0))) }

/-- A workgroup with a slot's shape tag set (R218). -/
def Workgroup.tagSlot (wg : Workgroup) (t m n : Nat) : Workgroup :=
  { wg with slots := setNth Slot.fresh wg.slots t { wg.slotAt t with tag := some (m, n) } }

/-- The value of accumulator n in every lane: vector value or window element (R49, R51). -/
def Workgroup.kval (wg : Workgroup) (w : Warp) (n : Nat) : Lanes :=
  match nth none w.bind n with
  | none => nth zeroLanes w.k n
  | some b => tab (fun l => wg.slotWord b.slot (32 * b.win + l))

/-- The latch of accumulator n. -/
def Warp.latchOf (w : Warp) (n : Nat) : Lanes := nth zeroLanes w.latch n

/-- Write accumulator n in the lanes of a set, in the warp or in its tile (R49, R51). -/
def writeAcc (wg : Workgroup) (w : Warp) (n : Nat) (x : LaneSet) (v : Lanes) : Workgroup × Warp :=
  match nth none w.bind n with
  | none => (wg, { w with k := setNth zeroLanes w.k n (merge x v (nth zeroLanes w.k n)) })
  | some b => (wg.putWords b.slot ((lanesIn x).map (fun l => (32 * b.win + l, laneOf v l))), w)

/-- What one lane of an operation gives: result, flags, and whether its integer divisor is zero (R153). -/
structure LaneOut where
  res : Word
  flags : Flags
  div0 : Bool
deriving DecidableEq, Repr

/-- A result without flags. -/
def plainOut (w : Word) : LaneOut := { res := w, flags := fNone, div0 := false }
/-- A result with flags. -/
def flagOut (r : Word × Flags) : LaneOut := { res := r.1, flags := r.2, div0 := false }

/-- Population count (R150). -/
def popcount (a : Word) : Nat := laneCount a
/-- Leading zeros (R150). -/
def leadingZeros (a : Word) : Nat := 32 - bitLen a.toNat
/-- Bit reversal (R150). -/
def bitReverse (a : Word) : Word := laneSet (fun i => a.getLsbD (31 - i))
/-- Rotate left by c mod 32 (R149). -/
def rotl (a : Word) (c : Nat) : Word := (a <<< (c % 32)) ||| (a >>> ((32 - c % 32) % 32) &&& (if c % 32 == 0 then 0 else 0xFFFFFFFF#32))
/-- BFE (R151). -/
def bitField (a : Word) (pos width : Nat) : Word :=
  let w := min width (32 - pos)
  BitVec.ofNat 32 (a.toNat / 2 ^ pos % 2 ^ w)

/-- Signed division truncated toward zero, low 32 bits (R67). -/
def sdiv32 (a b : Word) : Word := BitVec.ofInt 32 (a.toInt.tdiv b.toInt)
/-- Signed remainder with the dividend's sign (R67). -/
def srem32 (a b : Word) : Word := BitVec.ofInt 32 (a.toInt.tmod b.toInt)

/-- A packed instruction on both halves of a lane (R79, R156). -/
def packedLane (op : FpOp) (f : HFmt) (rm : RM) (a b l : Word) : Word × Flags :=
  let fmt := match f with
    | .bf16 => Fmt.bf16
    | .f16 => Fmt.f16
  let lo := fp16 fmt op rm (a.toNat % 65536) (b.toNat % 65536) (l.toNat % 65536)
  let hi := fp16 fmt op rm (a.toNat / 65536) (b.toNat / 65536) (l.toNat / 65536)
  (BitVec.ofNat 32 (lo.1 + 65536 * hi.1), lo.2 ||| hi.2)

/-- One lane of an arithmetic, bit or conversion instruction: a the accumulator, b the operand, l the latch. -/
def AluOp.lane (op : AluOp) (actl : DWord) (a b l : Word) : LaneOut :=
  let ftz := actlFtz actl
  match op with
  | .mov => plainOut b
  | .fp o rm => flagOut (fp32 o (rm.getD (actlRm actl)) ftz a b l)
  | .iadd => plainOut (a + b)
  | .isub => plainOut (a - b)
  | .irsub => plainOut (b - a)
  | .imul => plainOut (a * b)
  | .imac => plainOut (a + l * b)
  | .imax => plainOut (if a.toInt < b.toInt then b else a)
  | .imin => plainOut (if b.toInt < a.toInt then b else a)
  | .zmax => plainOut (if a.toNat < b.toNat then b else a)
  | .zmin => plainOut (if b.toNat < a.toNat then b else a)
  | .and => plainOut (a &&& b)
  | .or => plainOut (a ||| b)
  | .xor => plainOut (a ^^^ b)
  | .andn => plainOut (a &&& ~~~b)
  | .shl => plainOut (if b.toNat < 32 then a <<< b.toNat else 0)
  | .shr => plainOut (if b.toNat < 32 then a >>> b.toNat else 0)
  | .sar => plainOut (a.sshiftRight (min b.toNat 32))
  | .rol => plainOut (rotl a b.toNat)
  | .idiv => { plainOut (sdiv32 a b) with div0 := b == 0 }
  | .zdiv => { plainOut (a / b) with div0 := b == 0 }
  | .irem => { plainOut (srem32 a b) with div0 := b == 0 }
  | .zrem => { plainOut (a % b) with div0 := b == 0 }
  | .fabs => plainOut (a &&& 0x7FFFFFFF#32)
  | .fneg => plainOut (a ^^^ 0x80000000#32)
  | .popc => plainOut (BitVec.ofNat 32 (popcount a))
  | .clz => plainOut (BitVec.ofNat 32 (leadingZeros a))
  | .brev => plainOut (bitReverse a)
  | .bfe pos => plainOut (bitField a pos b.toNat)
  | .sfu fn => flagOut (sfuLane fn (actlRm actl) ftz a)
  | .cvt code rm sat => flagOut (cvtLane code rm sat ftz a)
  | .packed o f rm => flagOut (packedLane o f rm a b l)

/-- An operation in every lane of X: results, the flag set, and whether some divisor is zero (R141). -/
def aluLanes (op : AluOp) (actl : DWord) (x : LaneSet) (a b l : Lanes) : Lanes × Flags × Bool :=
  let outs := (lanesIn x).map (fun i => op.lane actl (laneOf a i) (laneOf b i) (laneOf l i))
  (tab (fun i => (op.lane actl (laneOf a i) (laneOf b i) (laneOf l i)).res),
    orFlags (outs.map LaneOut.flags), outs.any LaneOut.div0)

/-- ICMP and SCMP conditions on bit vectors of any width (R157, R192). -/
def icmpBits {w : Nat} (c : ICond) (a b : BitVec w) : Bool :=
  match c with
  | .eq => a == b
  | .ne => a != b
  | .lt => decide (a.toInt < b.toInt)
  | .le => decide (a.toInt ≤ b.toInt)
  | .gt => decide (b.toInt < a.toInt)
  | .ge => decide (b.toInt ≤ a.toInt)
  | .zlt => decide (a.toNat < b.toNat)
  | .zge => decide (b.toNat ≤ a.toNat)

/-- How a compare combines with the old predicate (R157). -/
def combinePreds (c : Combine) (old new : LaneSet) : LaneSet :=
  match c with
  | .set => new
  | .and => old &&& new
  | .or => old ||| new

/-- PUTP's test (R159). -/
def putpHolds (t : PutpTest) (a : Word) : Bool :=
  match t with
  | .nz => a != 0
  | .z => a == 0
  | .neg => a.getLsbD 31

/-- The partner of QX (R161). -/
def qxPartner (dir : QxDir) (l : Nat) : Nat :=
  match dir with
  | .h => l ^^^ 1
  | .v => l ^^^ 2
  | .d => l ^^^ 3

/-- The identity of a tree operation (R42). -/
def treeIdentity : TreeOp → Word
  | .fadd => 0x80000000#32
  | .fmax => 0xFF800000#32
  | .fmin => 0x7F800000#32
  | .iadd => 0
  | .imax => 0x80000000#32
  | .imin => 0x7FFFFFFF#32
  | .zmax => 0
  | .zmin => 0xFFFFFFFF#32
  | .and => 0xFFFFFFFF#32
  | .or => 0
  | .xor => 0

/-- One combination of a tree operation, the lower position first (R42, R85). -/
def treeApply (op : TreeOp) (actl : DWord) (a b : Word) : Word × Flags :=
  let o (x : AluOp) : Word × Flags := let r := x.lane actl a b 0; (r.res, r.flags)
  match op with
  | .fadd => o (.fp .add none)
  | .fmax => o (.fp .max none)
  | .fmin => o (.fp .min none)
  | .iadd => o .iadd
  | .imax => o .imax
  | .imin => o .imin
  | .zmax => o .zmax
  | .zmin => o .zmin
  | .and => o .and
  | .or => o .or
  | .xor => o .xor

/-- One level of the full tree: neighbours combine (R42). -/
def pairUp (op : TreeOp) (actl : DWord) : List Word → List Word × Flags
  | a :: b :: rest =>
    let r := treeApply op actl a b
    let t := pairUp op actl rest
    (r.1 :: t.1, r.2 ||| t.2)
  | vs => (vs, fNone)

/-- The full tree over 2^e values: the root and the flags of every level. -/
def treeRoot (op : TreeOp) (actl : DWord) : Nat → List Word → Word × Flags
  | 0, vs => (nth 0#32 vs 0, fNone)
  | e + 1, vs =>
    let l := pairUp op actl vs
    let r := treeRoot op actl e l.1
    (r.1, l.2 ||| r.2)

/-- The values of a tile as a tree operation sees them: lanes outside X enter as the identity (R42). -/
def tileValues (op : TreeOp) (x : LaneSet) (a : Lanes) (base part : Nat) : List Word :=
  (List.range (2 ^ part)).map (fun i => if x.getLsbD (base + i) then laneOf a (base + i) else treeIdentity op)

/-- First lanes of the tiles. -/
def tileBases (part : Nat) : List Nat := (List.range (32 / 2 ^ part)).map (· * 2 ^ part)

/-- RED (R163). -/
def redLanes (op : TreeOp) (actl : DWord) (x : LaneSet) (part : Nat) (a : Lanes) : Lanes × Flags :=
  let roots := (tileBases part).map (fun b => treeRoot op actl part (tileValues op x a b part))
  (tab (fun l => (nth (0#32, fNone) roots (l / 2 ^ part)).1), orFlags (roots.map Prod.snd))

/-- One level of SCAN, reading the previous level (R164). -/
def scanLevel (op : TreeOp) (actl : DWord) (step : Nat) (v : List Word) : List Word × Flags :=
  let rs := (List.range v.length).map (fun i =>
    if step ≤ i then treeApply op actl (nth 0#32 v (i - step)) (nth 0#32 v i) else (nth 0#32 v i, fNone))
  (rs.map Prod.fst, orFlags (rs.map Prod.snd))

/-- The levels of SCAN from step 2^j on, n of them. -/
def scanLevels (op : TreeOp) (actl : DWord) : Nat → Nat → List Word → List Word × Flags
  | 0, _, v => (v, fNone)
  | n + 1, j, v =>
    let l := scanLevel op actl (2 ^ j) v
    let r := scanLevels op actl n (j + 1) l.1
    (r.1, l.2 ||| r.2)

/-- SCAN (R164). -/
def scanLanes (op : TreeOp) (excl : Bool) (actl : DWord) (x : LaneSet) (part : Nat) (a : Lanes) : Lanes × Flags :=
  let tiles := (tileBases part).map (fun b =>
    let v := tileValues op x a b part
    scanLevels op actl part 0 (if excl then treeIdentity op :: v.dropLast else v))
  (tab (fun l => nth 0#32 (nth ([], fNone) tiles (l / 2 ^ part)).1 (l % 2 ^ part)), orFlags (tiles.map Prod.snd))

/-- VOTE (R162). Under compat16 a ballot bit stands for the lane within its half. -/
def voteLane (mode : VoteMode) (c16 : Bool) (x p : LaneSet) (part l : Nat) : Word :=
  let v := (lanesIn x).filter (fun j => sameTile part l j)
  let on := v.filter (fun j => p.getLsbD j)
  match mode with
  | .ballot => BitVec.ofNat 32 (on.foldl (fun acc j => acc + 2 ^ (if c16 then j % 16 else j)) 0)
  | .any => if on.isEmpty then 0 else 1
  | .all => if on.length == v.length then 1 else 0
  | .uni => if on.isEmpty || on.length == v.length then 1 else 0

/-- UNPK (R165). -/
def unpackNibbles (hi : Bool) (g : Word) : Word :=
  let v := if hi then g.toNat / 65536 else g.toNat % 65536
  BitVec.ofNat 32 (field v 0 4 + 256 * field v 4 4 + 65536 * field v 8 4 + 16777216 * field v 12 4)

end Sys2Proof.Machine
end

