-- ==== Sys2Proof/Machine/Panel.lean ====
section
/-!
DEFINITION. The arithmetic of the engines: canonical panels and block scales (R75, R80 to R84), storage formats (R213, R214), the
sampler (R226 to R229) and the optimizer (R236, R237). Every rounding is `rn`, to nearest even into FP32 (R207).
-/
namespace Sys2Proof.Machine

/-- A value as an FP32 word, rounded to nearest even (R207). -/
def rnWord (v : FVal) : Word := BitVec.ofNat 32 (deliver .f32 .rne false v).1
/-- The same, read back as a value. -/
def rn (v : FVal) : FVal := unpack .f32 (rnWord v).toNat
/-- The value of an FP32 word. -/
def f32 (w : Word) : FVal := unpack .f32 w.toNat

def fvAdd (a b : FVal) : FVal := (addVal .rne a b).1
def fvSub (a b : FVal) : FVal := (addVal .rne a b.neg).1
def fvMul (a b : FVal) : FVal := (mulVal a b).1
def fvDiv (a b : FVal) : FVal := (divVal a b).1
def fvSqrt (a : FVal) : FVal := (sqrtVal a).1
def fvZero : FVal := .fin false 0 0
def fvOne : FVal := .fin false 1 0
def fvOfNat (n : Nat) : FVal := .fin false n 0

/-- A NaN or an infinity. -/
def FVal.nonFinite (v : FVal) : Bool := v.isNan || v.isInf

/-- v · 2^k, exactly. -/
def FVal.scale (v : FVal) (k : Int) : FVal :=
  match v with
  | .fin s m e => .fin s m (e + k)
  | .inf s => .inf s
  | .nan b => .nan b

/-- An element under an E8M0 scale byte (R75): 0xFF makes it NaN. -/
def underScale (v : FVal) (e : Nat) : FVal := if e == 0xFF then .nan false else v.scale ((e : Int) - 127)

/-- mix32 (chapter 00, after R8). -/
def mix32 (x0 : Nat) : Nat :=
  let m := 2 ^ 32
  let x1 := (x0 % m) ^^^ (x0 % m / 2 ^ 16)
  let x2 := x1 * 0x9E5FA3C1 % m
  let x3 := x2 ^^^ (x2 / 2 ^ 15)
  let x4 := x3 * 0x6B2D5E97 % m
  x4 ^^^ (x4 / 2 ^ 16)

/-- Bits of an element in a canonical panel, and its format (R82). -/
structure ElemFmt where
  bits : Nat
  fmt : Fmt
deriving DecidableEq, Repr

/-- Element formats of the A and the B operand of an MMA format (R221). -/
def mmaElems : MmaFmt → ElemFmt × ElemFmt
  | .bf16 => ({ bits := 16, fmt := .bf16 }, { bits := 16, fmt := .bf16 })
  | .f16 => ({ bits := 16, fmt := .f16 }, { bits := 16, fmt := .f16 })
  | .e4m3 => ({ bits := 8, fmt := .e4m3 }, { bits := 8, fmt := .e4m3 })
  | .e5m2 => ({ bits := 8, fmt := .e5m2 }, { bits := 8, fmt := .e5m2 })
  | .e4m3e5m2 => ({ bits := 8, fmt := .e4m3 }, { bits := 8, fmt := .e5m2 })
  | .e5m2e4m3 => ({ bits := 8, fmt := .e5m2 }, { bits := 8, fmt := .e4m3 })
  | .e2m1 => ({ bits := 4, fmt := .e2m1 }, { bits := 4, fmt := .e2m1 })

/-- Contraction length of one MMA by element width (R83). -/
def kOf (bits : Nat) : Nat := if bits == 16 then 16 else if bits == 8 then 32 else 64

/-- Bytes of the elements of a panel row of C columns, of its scales, and the least stride (R82). -/
def elemRow (bits c : Nat) : Nat := bits * c / 8
def scaleRow (bits c : Nat) : Nat := if bits == 16 then 0 else c / 32
def leastStride (bits c : Nat) : Nat := roundUp (elemRow bits c + scaleRow bits c) 64

/-- Element j of a row whose elements begin at `row` (R82, R213). -/
def elemAt (rd : Nat → Byte) (e : ElemFmt) (row j : Nat) : FVal :=
  if e.bits == 16 then unpack e.fmt ((rd (row + 2 * j)).toNat + 256 * (rd (row + 2 * j + 1)).toNat)
  else if e.bits == 8 then unpack e.fmt (rd (row + j)).toNat
  else unpack e.fmt (field (rd (row + j / 2)).toNat (4 * (j % 2)) 4)

/-- Scale byte of block b of a row of C columns (R82); 0x7F for 16-bit formats. -/
def scaleAt (rd : Nat → Byte) (e : ElemFmt) (row c b : Nat) : Nat :=
  if e.bits == 16 then 0x7F else (rd (row + elemRow e.bits c + b)).toNat

/-- One result element of the matrix engine from the accumulator value and every product (R84). -/
def mmaSum (acc : FVal) (terms : List FVal) : Word :=
  let all := acc :: terms
  if all.any FVal.isNan then qnan32
  else
    let infs := all.filter FVal.isInf
    match infs with
    | i :: rest => if rest.all (fun x => x.sign == i.sign) then rnWord (.inf i.sign) else qnan32
    | [] => rnWord (terms.foldl fvAdd acc)

/-- A product under both block scales (R83, R84): the scale check comes before the multiplication. -/
def mmaTerm (a b : FVal) (ea eb : Nat) : FVal :=
  if ea == 0xFF || eb == 0xFF then .nan false else (fvMul a b).scale ((ea : Int) + eb - 254)

/-- `PATTERN` (R81), in halves: an entry v stands for v / 2. -/
def patternRow (r : Nat) : List Nat :=
  nth [] [[0,0,0,0,0,0,0,0], [2,0,0,0,0,0,0,0], [2,2,0,0,0,0,0,0], [2,0,2,0,0,0,0,0],
    [2,0,0,0,2,0,0,0], [1,1,1,1,1,1,1,1], [2,2,2,2,2,2,2,2], [2,2,2,2,0,0,0,0],
    [2,0,2,0,2,0,2,0], [4,2,0,0,0,0,0,0], [4,0,0,0,0,0,0,0], [6,0,0,0,0,0,0,0],
    [6,2,0,0,0,0,0,0], [4,2,2,0,0,0,0,0], [3,2,1,0,0,0,0,0], [3,1,1,1,0,0,0,0],
    [2,2,1,1,1,1,0,0], [4,4,0,0,0,0,0,0], [4,0,4,0,0,0,0,0], [6,3,0,0,0,0,0,0],
    [6,4,2,0,0,0,0,0], [4,3,2,1,0,0,0,0], [3,3,2,2,1,1,0,0], [2,1,2,1,2,1,2,1],
    [3,2,2,2,2,2,2,2], [4,2,2,2,2,2,2,2], [6,2,2,2,0,0,0,0], [4,4,2,2,0,0,0,0],
    [6,0,0,0,6,0,0,0], [3,0,0,3,0,0,3,0], [6,4,3,2,1,0,0,0], [6,6,4,4,2,2,1,1]] r

/-- The E4M3 code of a magnitude in halves (R81). -/
def halfCode (h : Nat) : Nat :=
  match h with
  | 0 => 0
  | 1 => 0x30
  | 2 => 0x38
  | 3 => 0x3C
  | 4 => 0x40
  | 6 => 0x44
  | _ => 0

/-- Weight i of a codebook index, as an E4M3 byte (R80). -/
def cbkWeight (x i : Nat) : Byte :=
  let magn := halfCode (nth 0 (patternRow (field x 3 5)) ((i + x % 8) % 8))
  BitVec.ofNat 8 (if field x (8 + i) 1 == 1 then 0x80 + magn else magn)

/-- Element bits and format of the panel that a storage format lands as (R213). -/
def storeElem : CpyFmt → ElemFmt
  | .bf16 => { bits := 16, fmt := .bf16 }
  | .f16 => { bits := 16, fmt := .f16 }
  | .e4m3 => { bits := 8, fmt := .e4m3 }
  | .e5m2 => { bits := 8, fmt := .e5m2 }
  | .e2m1 => { bits := 4, fmt := .e2m1 }
  | .cbk => { bits := 8, fmt := .e4m3 }

/-- Bytes of the elements of a storage row, and of its scales (R213). -/
def storeElemBytes (f : CpyFmt) (cols : Nat) : Nat :=
  match f with
  | .bf16 | .f16 => 2 * cols
  | .e4m3 | .e5m2 => cols
  | .e2m1 => cols / 2
  | .cbk => cols / 4
def storeScaleBytes (f : CpyFmt) (cols : Nat) : Nat :=
  match f with
  | .bf16 | .f16 => 0
  | .e4m3 | .e5m2 | .e2m1 | .cbk => cols / 32

/-- Panel bytes of one row from its storage bytes (R213): elements, codebook indices decoded, then scales. -/
def panelRow (f : CpyFmt) (cols : Nat) (row : List Byte) : List Byte :=
  match f with
  | .cbk =>
    let idx (q : Nat) : Nat := (nth 0 row (2 * q)).toNat + 256 * (nth 0 row (2 * q + 1)).toNat
    (List.range cols).map (fun j => cbkWeight (idx (j / 8)) (j % 8)) ++ (row.drop (cols / 4)).take (cols / 32)
  | .bf16 | .f16 | .e4m3 | .e5m2 | .e2m1 => row

/-- The norm table entry of column j over P panel rows (R214): n and σ. -/
def normEntry (rd : Nat → Byte) (e : ElemFmt) (base stride p c j : Nat) : Word × Word :=
  let r := (List.range p).foldl (fun (a : FVal × FVal) i =>
    let row := base + i * stride
    let x := underScale (elemAt rd e row j) (scaleAt rd e row c (j / 32))
    (rn (fvAdd a.1 (rn (fvMul x x))), rn (fvAdd a.2 x))) (fvZero, fvZero)
  (rnWord (fvSqrt r.1), rnWord r.2)

/-- Whether |v| ≤ 448 · 2^(e − 127). -/
def fitsScale (v : FVal) (e : Nat) : Bool := decide (cmpVal v (.fin false 448 ((e : Int) - 127)) ≤ 0)

/-- E4M3 quantisation of a block (R237): the scale byte and the element bytes. -/
def quantBlock (ws : List Word) : Byte × List Byte :=
  let vs := ws.map f32
  let mags := vs.map (fun v => if v.sign then v.neg else v)
  if vs.any FVal.nonFinite then (0xFF, vs.map (fun _ => 0x7F#8))
  else
    let amax := mags.foldl (fun a b => if cmpVal a b < 0 then b else a) fvZero
    if amax.isZero then (0x7F, vs.map (fun v => BitVec.ofNat 8 (narrow .e4m3 .rne true v).1))
    else
      let e := ((List.range 255).find? (fun e => fitsScale amax e)).getD 254
      (BitVec.ofNat 8 e, vs.map (fun v => BitVec.ofNat 8 (narrow .e4m3 .rne true (v.scale (127 - (e : Int)))).1))

/-- A row of N words in the scaled E4M3 storage form: N bytes, then N/32 scales (R213, R237). -/
def quantRow (n : Nat) (ws : List Word) : List Byte :=
  let bs := (List.range (n / 32)).map (fun b => quantBlock ((ws.drop (32 * b)).take 32))
  (bs.map Prod.snd).flatten ++ bs.map Prod.fst

/-- A word as a BF16 half: nearest even, overflow to ±∞, NaN to 0x7FC0 (R217, R236). -/
def toBf16 (w : Word) : Nat := (deliver .bf16 .rne false (f32 w)).1

-- the sampler
/-- The alias table of R226: Q, T and A by column. -/
structure Alias where
  q : List Int
  t : List Int
  a : List Nat
  small : List Nat
  large : List Nat
deriving DecidableEq, Repr

/-- 2^32, `ONE` of R226. -/
def aliasOne : Int := 4294967296

/-- floor(w · K · ONE / W) for finite values, W not 0 (R226). -/
def aliasQ (k : Nat) (w total : FVal) : Int :=
  match w, total with
  | .fin sw mw ew, .fin st mt et =>
    let n : Int := (if sw then -1 else 1) * (mw * k * 2 ^ 32 : Nat) * (2 : Int) ^ (ew - et).toNat
    let d : Int := (if st then -1 else 1) * (mt : Int) * (2 : Int) ^ (et - ew).toNat
    if d < 0 then Int.fdiv (-n) (-d) else Int.fdiv n d
  | _, _ => 0

/-- One turn of the pairing loop of R226. -/
def Alias.turn (x : Alias) : Alias :=
  match leastOf x.small, leastOf x.large with
  | some l, some g =>
    let ql := nth 0 x.q l
    let qg := nth 0 x.q g + ql - aliasOne
    let small := x.small.filter (· != l)
    { q := x.q.set g qg, t := x.t.set l ql, a := x.a.set l g,
      small := if qg < aliasOne then small ++ [g] else small,
      large := if qg < aliasOne then x.large.filter (· != g) else x.large }
  | _, _ => x

/-- The loop runs at most once for each column. -/
def Alias.loop : Nat → Alias → Alias
  | 0, x => x
  | n + 1, x => if x.small.isEmpty || x.large.isEmpty then x else Alias.loop n x.turn

/-- The index of the first greatest value. -/
def greatestAt (ws : List FVal) : Nat :=
  ((ws.zipIdx.foldl (fun (b : FVal × Nat) x => if cmpVal b.1 x.1 < 0 then x else b) ((ws.headD fvZero), 0))).2

/-- The whole table build (R226), for finite weights with a nonzero sum. -/
def aliasTable (ws : List FVal) (total : FVal) : Alias :=
  let k := ws.length
  let q := ws.map (fun w => aliasQ k w total)
  let idx := List.range k
  let start : Alias :=
    { q := q, t := List.replicate k 0, a := List.replicate k 0,
      small := idx.filter (fun j => decide (nth 0 q j < aliasOne)), large := idx.filter (fun j => decide (aliasOne ≤ nth 0 q j)) }
  let x := Alias.loop k start
  let top := greatestAt ws
  (x.small ++ x.large).foldl (fun (y : Alias) j =>
    if decide (0 < cmpVal (nth fvZero ws j) fvZero) then { y with t := y.t.set j aliasOne, a := y.a.set j j }
    else { y with t := y.t.set j 0, a := y.a.set j top }) x

/-- Draw i (R227): the column. -/
def drawColumn (seed k i : Nat) (x : Alias) : Nat :=
  let u := mix32 (seed ^^^ (i * 0x9E3779B9 % 2 ^ 32))
  let j := u * k / 2 ^ 32
  let v := mix32 (u ^^^ 0x5A5A5A5A)
  if nth 0 x.t j ≤ (v : Int) then nth 0 x.a j else j

/-- An MSAMP under way (R228, R229): samples taken, the sum tile and the running statistics. -/
structure Sampling where
  n : Nat
  sum : List Word
  mean : FVal
  m2 : FVal
deriving DecidableEq, Repr

/-- The variance after its samples (R229). -/
def Sampling.var (x : Sampling) : FVal := if 2 ≤ x.n then rn (fvDiv x.m2 (fvOfNat (x.n - 1))) else fvZero

/-- The stop on variance (R229): a NaN on either side makes the comparison false. -/
def Sampling.near (x : Sampling) (thr : FVal) : Bool :=
  let tm := rn (fvMul thr x.mean)
  let bound := rn (fvMul (rn (fvMul tm tm)) (fvOfNat x.n))
  decide (0 < cmpVal thr fvZero) && decide (16 ≤ x.n) && x.n % 8 == 0 && !x.var.isNan && !bound.isNan && decide (cmpVal x.var bound ≤ 0)

/-- The status that it stops with: 1 on variance, 2 on count, 0 while it goes on (R229). -/
def Sampling.status (x : Sampling) (thr : FVal) (nmax : Nat) : Nat := if x.near thr then 1 else if x.n == nmax then 2 else 0

/-- One sample (R228, R229). `term c j e` is the exact c · a · b of element e. -/
def Sampling.sample (x : Sampling) (seed k : Nat) (tb : Alias) (ws : List FVal) (total : FVal) (sgA sgB : List FVal)
    (term : FVal → Nat → Nat → FVal) : Sampling :=
  let i := x.n + 1
  let j := drawColumn seed k i tb
  let c := rn (fvDiv total (nth fvZero ws j))
  let z := rn (fvMul (rn (fvMul c (nth fvZero sgA j))) (nth fvZero sgB j))
  let d := rn (fvSub z x.mean)
  let mean := rn (fvAdd x.mean (rn (fvDiv d (fvOfNat i))))
  { n := i, sum := x.sum.zipIdx.map (fun s => rnWord (fvAdd (f32 s.1) (rn (term c j s.2)))), mean := mean,
    m2 := rn (fvAdd x.m2 (rn (fvMul d (rn (fvSub z mean))))) }

-- the optimizer
/-- Parameters of a tile record as values (R235), with the record's PREV. -/
structure OptParams where
  lr : FVal
  b1 : FVal
  b2 : FVal
  eps : FVal
  wd : FVal
  c1 : FVal
  c2 : FVal
  prev : FVal
deriving DecidableEq, Repr

/-- One element (R236): the new w, m and v. -/
def optStep (o : Optim) (p : OptParams) (gr w m v : FVal) : Word × Word × Word :=
  let g := rn (fvDiv gr p.prev)
  let decayed (u : FVal) : Word :=
    rnWord (fvSub w (rn (fvMul p.lr (rn (fvAdd u (rn (fvMul p.wd w)))))))
  match o with
  | .adamw =>
    let m' := rn (fvAdd (rn (fvMul p.b1 m)) (rn (fvMul (rn (fvSub fvOne p.b1)) g)))
    let v' := rn (fvAdd (rn (fvMul p.b2 v)) (rn (fvMul (rn (fvMul (rn (fvSub fvOne p.b2)) g)) g)))
    let den := rn (fvAdd (rn (fvSqrt (rn (fvMul v' p.c2)))) p.eps)
    let u := rn (fvDiv (rn (fvMul m' p.c1)) den)
    (decayed u, rnWord m', rnWord v')
  | .sgdm =>
    let m' := rn (fvAdd (rn (fvMul p.b1 m)) g)
    (decayed m', rnWord m', rnWord v)

end Sys2Proof.Machine
end

