-- ==== Sys2Proof/Machine/Memory.lean ====
section
/-!
DEFINITION. Physical memory under keys (R356), marked sectors (R115), links (R352), page tables and TLBs (R321 to R324,
R328), and scratchpad bytes with their presence (R87, R93).
-/
namespace Sys2Proof.Machine

/-- The number that names a physical byte: package, tier and address (R90, R322). -/
def physKey (pkg tier pa : Nat) : Nat := pkg * 2 ^ 50 + tier * 2 ^ 48 + pa % 2 ^ 48
/-- The package a physical byte lies in. -/
def physPkg (pk : Nat) : Nat := pk / 2 ^ 50
/-- The tier of a physical byte. -/
def physTier (pk : Nat) : Nat := pk / 2 ^ 48 % 4

/-- The package has memory at a physical byte (R1): 576 GiB of HBM, the DDR-5 that is fitted, and whatever a linked package has behind its window.
The manual does not say what an address beyond the first two reaches: nothing is kept there (log 51). -/
def fitted (pk : Nat) : Bool :=
  match physTier pk with
  | 0 => decide (pk % 2 ^ 48 < Config.hbmBytes)
  | 1 => decide (pk % 2 ^ 48 < Config.ddrBytes)
  | _ => true

/-- The key of an ASID's slot; none while the slot is empty (R355). -/
def State.keyOf (s : State) (asid : Nat) : Option Nat := (s.mgmt.keys.find? (fun k => k.1 == asid)).map Prod.snd

/-- The canonical form of memory: addresses strictly rise. An address not listed reads as a free value, which no listed byte can equal
by rule. -/
def Memory.wf (m : Memory) : Bool := cellsRise m.cells && cellsRise m.owners

/-- A byte read under a key (R356): what was written under it, else a free value. -/
def Memory.read (m : Memory) (key pk : Nat) : Byte :=
  if !fitted pk then Config.pseudoByte (m.epoch + 1) key pk
  else match cellAt m.owners (pk / 64) with
  | none => Config.pseudoByte 0 key pk
  | some k => if k == key then (cellAt m.cells pk).getD (Config.pseudoByte 0 key pk) else Config.pseudoByte (m.epoch + 1) key pk

/-- The cells of a sector dropped. -/
def dropSector (m : List Host.Cell) (sector : Nat) : List Host.Cell := m.filter (fun c => c.1 / 64 != sector)

/-- A byte written under a key: the rest of a sector last written under another key reads as pseudorandom (R356). -/
def Memory.write (m : Memory) (key pk : Nat) (b : Byte) : Memory :=
  let cs := if cellAt m.owners (pk / 64) == some key then m.cells else dropSector m.cells (pk / 64)
  if !fitted pk then { m with epoch := m.epoch + 1 }
  else { cells := cellSet cs pk b, owners := cellSet m.owners (pk / 64) key, epoch := m.epoch + 1 }

/-- A number that is no slot's key: sectors that the device itself has written, whose bytes no key reads as data. -/
def imageKey : Nat := 2 ^ 300

/-- Sectors overwritten with an image whose layout the device keeps to itself (R337): they read as pseudorandom. -/
def Memory.overwrite (m : Memory) (hit : Nat → Bool) : Memory :=
  { cells := m.cells.filter (fun c => !(hit (c.1 / 64))), owners := m.owners.map (fun o => (o.1, if hit o.1 then imageKey else o.2)),
    epoch := m.epoch + 1 }

/-- A byte of memory. -/
def State.readByte (s : State) (key pk : Nat) : Byte := s.mem.read key pk

/-- A byte written. -/
def State.writeByte (s : State) (key pk : Nat) (b : Byte) : State :=
  { s with mem := s.mem.write key pk b, marks := noteWrite s.marks pk }

/-- Bytes written in order. -/
def State.writeBytes (s : State) (key : Nat) (bs : List (Nat × Byte)) : State :=
  bs.foldl (fun s b => s.writeByte key b.1 b.2) s

/-- A little-endian number read from n consecutive physical bytes. -/
def State.readPhys (s : State) (key pk n : Nat) : Nat := leNat ((List.range n).map (fun i => s.readByte key (pk + i)))

/-- A little-endian number written to n consecutive physical bytes. -/
def State.writePhys (s : State) (key pk n v : Nat) : State := s.writeBytes key (cellsFrom pk (leBytes n v))

/-- The system key (R356): structures reached by physical address, page tables among them (log 6). -/
def State.sysRead (s : State) (pa n : Nat) : Nat := s.readPhys s.mgmt.sysKey (physKey 0 0 pa) n
/-- A write of a structure reached by physical address. -/
def State.sysWrite (s : State) (pa n v : Nat) : State := s.writePhys s.mgmt.sysKey (physKey 0 0 pa) n v

/-- Whether a sector is marked uncorrectable (R115). -/
def State.marked (s : State) (pk : Nat) : Bool := s.marks.any (fun m => m.sector == pk / 64)

/-- Whether a package is reached only through a link that is down (R352). -/
def State.cutOff (s : State) (pk : Nat) : Bool :=
  physTier pk == 2 && s.linksDown.any (fun l => l.2.contains (physPkg pk))

/-- How an access uses a page (R323, R324). -/
inductive Access where | read | write | atomic | fetch
deriving DecidableEq, Repr

/-- The outcome of translating one byte. -/
inductive Xlat where
  | ok (pk : Nat)
  | trap (code : Nat)
  | absent
deriving DecidableEq, Repr

/-- Fields of a page-table entry (R322). -/
def pteV (e : DWord) : Bool := e.getLsbD 0
def pteR (e : DWord) : Bool := e.getLsbD 2
def pteW (e : DWord) : Bool := e.getLsbD 3
def pteX (e : DWord) : Bool := e.getLsbD 4
def pteLeaf (e : DWord) : Bool := e.getLsbD 5
def pteS (e : DWord) : Bool := e.getLsbD 6
def pteC64 (e : DWord) : Bool := e.getLsbD 7
def ptePpn (e : DWord) : Nat := (e.extractLsb' 12 36).toNat
def pteTier (e : DWord) : Nat := (e.extractLsb' 48 2).toNat
def ptePkg (e : DWord) : Nat := (e.extractLsb' 50 6).toNat

/-- A format fault of a valid entry at a level (R322; PKG outside the remote tier, log 23). -/
def pteBad (e : DWord) (level : Nat) (va : BitVec 48) : Bool :=
  e.extractLsb' 56 8 != 0 || e.extractLsb' 8 4 != 0 || e.getLsbD 1
    || (pteW e && pteX e)
    || (level == 3 && pteLeaf e) || (level == 0 && !pteLeaf e)
    || pteTier e == 3 || (pteTier e == 2 && !pteLeaf e)
    || (pteTier e != 2 && ptePkg e != 0)
    || (level == 2 && pteLeaf e && ptePpn e % 2 ^ 18 != 0) || (level == 1 && pteLeaf e && ptePpn e % 2 ^ 9 != 0)
    || (level == 0 && pteC64 e && ptePpn e % 16 != (va.extractLsb' 12 4).toNat)

/-- The physical byte a leaf of a level maps a virtual address to. -/
def leafPhys (e : DWord) (level : Nat) (va : BitVec 48) : Nat :=
  let span := 2 ^ (12 + 9 * level)
  physKey (ptePkg e) (pteTier e) (ptePpn e * 4096 + va.toNat % span)

/-- A C64 entry of a group whose 16 entries differ may be any of them (R322). -/
def State.c64Entry (s : State) (table : Nat) (e : DWord) (va : BitVec 48) : DWord :=
  let idx := (va.extractLsb' 12 9).toNat
  let group := (List.range 16).map (fun q => BitVec.ofNat 64 (s.readPhys s.mgmt.sysKey (table + 8 * (idx / 16 * 16 + q)) 8))
  let clear (x : DWord) : DWord := x &&& ~~~(0xF000#64)
  if group.all (fun x => clear x == clear e) then e
  else
    let x := nth e group (Config.c64Choice (table + idx / 16) s.mem.epoch % 16)
    clear x ||| (e &&& 0xF000#64)

/-- Walk from a table at a level down to a leaf (R322); level 3 first. `key` is the physical key of the table. -/
def State.walk (s : State) : Nat → Nat → BitVec 48 → Except (Option Nat) (DWord × Nat)
  | 0, table, va =>
    let e0 := BitVec.ofNat 64 (s.readPhys s.mgmt.sysKey (table + 8 * (va.extractLsb' 12 9).toNat) 8)
    let e := if pteV e0 && pteC64 e0 then s.c64Entry table e0 va else e0
    if !pteV e then .error none
    else if pteBad e 0 va then .error (some 0x0E)
    else .ok (e, 0)
  | level + 1, table, va =>
    let idx := va.toNat / 2 ^ (12 + 9 * (level + 1)) % 512
    let e := BitVec.ofNat 64 (s.readPhys s.mgmt.sysKey (table + 8 * idx) 8)
    if !pteV e then .error none
    else if pteBad e (level + 1) va then .error (some 0x0E)
    else if pteLeaf e then .ok (e, level + 1)
    else s.walk level (physKey (ptePkg e) (pteTier e) (ptePpn e * 4096)) va

/-- The ASID table entry in force (R321). -/
def State.asidEntry (s : State) (asid : Nat) : Option AsidEntry := s.asids.find? (fun e => e.asid == asid)

/-- The class an ASID was last given (R354): 0 after reset. -/
def State.classOf (s : State) (asid : Nat) : Nat := ((s.mgmt.classes.find? (fun c => c.asid == asid)).map ClassReg.cls).getD 0

/-- An entry is enabled when EN is set and its class is the one CLASS last set (R321, R358). -/
def State.asidOn (s : State) (e : AsidEntry) : Bool :=
  e.root.getLsbD 0 && (e.ctx.extractLsb' 18 2).toNat == s.classOf e.asid

/-- A TLB entry that covers an address (R328). -/
def State.tlbFind (s : State) (core asid : Nat) (va : BitVec 48) : Option TlbEntry :=
  s.tlb.find? (fun t => t.core == core && t.asid == asid && t.vpn == va.toNat / 2 ^ (12 + 9 * t.level))

/-- The leaf for an address, from the core's TLB or by a walk, which fills the TLB (log 10). -/
def State.leafOf (s : State) (core asid : Nat) (va : BitVec 48) : Except (Option Nat) (DWord × Nat) × State :=
  match s.tlbFind core asid va with
  | some t => (.ok (t.leaf, t.level), s)
  | none =>
    match s.asidEntry asid with
    | none => (.error none, s)
    | some e =>
      if !s.asidOn e then (.error none, s)
      else match s.walk 3 (physKey 0 0 (e.root.toNat % 2 ^ 48 / 4096 * 4096)) va with
        | .error x => (.error x, s)
        | .ok (leaf, level) =>
          (.ok (leaf, level), { s with tlb := { core := core, asid := asid, vpn := va.toNat / 2 ^ (12 + 9 * level), leaf := leaf, level := level } :: s.tlb })

/-- Whether a leaf refuses an access (R323, R324). -/
def leafRefuses (leaf : DWord) (service : Bool) (a : Access) : Bool :=
  (pteS leaf && !service) ||
    (match a with
     | .read => !pteR leaf
     | .write => !pteW leaf
     | .atomic => !pteR leaf || !pteW leaf
     | .fetch => !pteX leaf)

/-- Translate one address for an access of a workgroup's kind (R322, R323, R324). -/
def State.translate (s : State) (core asid : Nat) (service : Bool) (a : Access) (va : BitVec 48) : Xlat × State :=
  match s.leafOf core asid va with
  | (.error none, s') => (.absent, s')
  | (.error (some c), s') => (.trap c, s')
  | (.ok (leaf, level), s') => (if leafRefuses leaf service a then .trap 0x06 else .ok (leafPhys leaf level va), s')

/-- The core's number in the package. -/
def Workgroup.coreIdx (wg : Workgroup) : Nat := wg.die * 64 + wg.core

/-- A workgroup is a service kernel (R334): loaded as one, in an ASID with SVC set. -/
def State.isService (s : State) (wg : Workgroup) : Bool :=
  wg.svck && ((s.asidEntry wg.asid).map (fun e => e.ctx.getLsbD 17)).getD false

/-- Translate for a workgroup. -/
def State.xlat (s : State) (wg : Workgroup) (a : Access) (va : BitVec 48) : Xlat × State :=
  s.translate wg.coreIdx wg.asid (s.isService wg) a va

/-- The key a workgroup's accesses use; an ASID without a key places no work (R355). -/
def State.wgKey (s : State) (wg : Workgroup) : Nat := (s.keyOf wg.asid).getD 0

/-- Kernel header fields (R290). -/
def hdrField (h : DWord) (lo w : Nat) : Nat := field h.toNat lo w

/-- The declared scratchpad size in bytes (R89): header bits [33:24], in KiB. -/
def Workgroup.scratchSize (wg : Workgroup) : Nat := hdrField wg.header 24 10 * 1024

/-- A scratchpad byte (R66). -/
def Workgroup.scratchByte (wg : Workgroup) (a : Nat) : Byte :=
  match cellAt wg.scratch a with
  | some b => b
  | none => if wg.scratchZero then 0 else Config.residueByte wg.uid a

/-- A little-endian number read from the scratchpad. -/
def Workgroup.scratchRead (wg : Workgroup) (a n : Nat) : Nat := leNat ((List.range n).map (fun i => wg.scratchByte (a + i)))

/-- A sector of the workgroup's core SRAM is marked uncorrectable (R115). -/
def Workgroup.sramMarked (wg : Workgroup) (sector : Nat) : Bool := wg.sramMarks.any (fun m => m.sector == sector)
/-- Some of n scratchpad bytes from a lie in a marked sector (R115). -/
def Workgroup.anyMarked (wg : Workgroup) (a n : Nat) : Bool :=
  n != 0 && wg.sramMarks.any (fun m => decide (scratchSector a ≤ m.sector) && decide (m.sector ≤ scratchSector (a + n - 1)))
/-- Some of n words of a tile slot, from word i on, lie in a marked sector. -/
def Workgroup.slotMarked (wg : Workgroup) (t i n : Nat) : Bool :=
  n != 0 && wg.sramMarks.any (fun m => decide (slotSector t i ≤ m.sector) && decide (m.sector ≤ slotSector t (i + n - 1)))

/-- Bytes written to the scratchpad; a marked sector counts them (R115). -/
def Workgroup.scratchWrite (wg : Workgroup) (bs : List (Nat × Byte)) : Workgroup :=
  { wg with scratch := cellPutAll (if wg.scratchZero then some 0 else none) wg.scratch bs,
            sramMarks := bs.foldl (fun ms b => noteWrite ms b.1) wg.sramMarks }

/-- The scratchpad lines that n bytes from a touch (R93). -/
def linesOf (a n : Nat) : List Nat := if n == 0 then [] else (List.range ((a + n - 1) / 256 - a / 256 + 1)).map (· + a / 256)

/-- Some line of the bytes is orphaned (R95). -/
def Workgroup.anyOrphan (wg : Workgroup) (a n : Nat) : Bool := (linesOf a n).any (fun l => wg.orphan.contains l)

end Sys2Proof.Machine
end

