-- ==== Sys2Proof/Machine/Ops.lean ====
section
/-!
DEFINITION. The named operations that the meanings share: reaching the executing warp, presence, fault records, stopping
a warp, TAKING A TRAP (R25 to R29, R318, R332, R333) and resuming from one (R28), the barriers, and freeing a warp.
-/
namespace Sys2Proof.Machine

/-- What a step answers. -/
abbrev Out := Host.Outcome State Fault Refusal

/-- A workgroup by its number. -/
def State.wg (s : State) (uid : Nat) : Option Workgroup := s.wgs.find? (fun g => g.uid == uid)
/-- Replace a workgroup. -/
def State.setWg (s : State) (g : Workgroup) : State := { s with wgs := s.wgs.map (fun x => if x.uid == g.uid then g else x) }
/-- A warp of a workgroup. -/
def Workgroup.warp (g : Workgroup) (wid : Nat) : Option Warp := g.warps.find? (fun w => w.wid == wid)
/-- Replace a warp. -/
def Workgroup.setWarp (g : Workgroup) (w : Warp) : Workgroup :=
  { g with warps := g.warps.map (fun x => if x.wid == w.wid then w else x) }
/-- Replace a warp and its workgroup. -/
def State.put (s : State) (g : Workgroup) (w : Warp) : State := s.setWg (g.setWarp w)

/-- The warp a reference names, with its workgroup. -/
def State.at (s : State) (r : WarpRef) : Option (Workgroup × Warp) :=
  match s.wg r.wg with
  | none => none
  | some g => match g.warp r.wid with
    | none => none
    | some w => some (g, w)

/-- The executing warp. -/
def State.here (s : State) : Option (Workgroup × Warp) :=
  match s.cur with
  | none => none
  | some r => s.at r

/-- Act on the executing warp; without one the instruction is refused. -/
def State.onWarp (s : State) (f : Workgroup → Warp → Out) : Out :=
  match s.here with
  | none => .refused .noWarp
  | some (g, w) => f g w

/-- Act on a workgroup; an event that names none has no effect. -/
def State.onWg (s : State) (uid : Nat) (f : Workgroup → Out) : Out :=
  match s.wg uid with
  | none => .next s
  | some g => f g

/-- Act on a warp; an event that names none has no effect. -/
def State.onWarpOf (s : State) (uid wid : Nat) (f : Workgroup → Warp → Out) : Out :=
  match s.at { wg := uid, wid := wid } with
  | none => .next s
  | some (g, w) => f g w

/-- The next name, and the state that has used it. -/
def State.fresh (s : State) : Nat × State := (s.nextUid, { s with nextUid := s.nextUid + 1 })

/-- The next free value's number, and the state that has used it. -/
def State.freeIdx (s : State) : Nat × State := (s.free, { s with free := s.free + 1 })

-- kernel header (R290)
def Workgroup.baseGranules (g : Workgroup) : Nat := hdrField g.header 48 8
def Workgroup.maxWarps (g : Workgroup) : Nat := hdrField g.header 34 6
def Workgroup.slotCount (g : Workgroup) : Nat := hdrField g.header 16 8
def Workgroup.timerExp (g : Workgroup) : Nat := hdrField g.header 4 4
def Workgroup.hasHandler (g : Workgroup) : Bool := g.header.getLsbD 0
def Workgroup.hasSolicit (g : Workgroup) : Bool := g.header.getLsbD 1
def Workgroup.hasSampler (g : Workgroup) : Bool := g.header.getLsbD 3
def Workgroup.compat16 (g : Workgroup) : Bool := g.header.getLsbD 56
def Workgroup.modelRev (g : Workgroup) : Nat := hdrField g.header 57 3
def Workgroup.encRev (g : Workgroup) : Nat := hdrField g.header 60 4

/-- Warp slots the workgroup holds (R314). -/
def Workgroup.slotTotal (g : Workgroup) : Nat := if g.compat16 then 2 * g.maxWarps else g.maxWarps

-- presence (R22)
def Warp.gPresent (w : Warp) (r : Nat) : Bool := w.presG.getLsbD r
def Warp.pPresent (w : Warp) (p : Nat) : Bool := p == 0 || w.presP.getLsbD p
def Warp.clearG (w : Warp) (rs : List Nat) : Warp :=
  { w with presG := rs.foldl (fun m r => m &&& ~~~(BitVec.ofNat 256 (2 ^ r))) w.presG }
def Warp.markG (w : Warp) (rs : List Nat) : Warp :=
  { w with presG := rs.foldl (fun m r => m ||| BitVec.ofNat 256 (2 ^ r)) w.presG }
def Warp.clearP (w : Warp) (ps : List Nat) : Warp :=
  { w with presP := ps.foldl (fun m r => m &&& ~~~(BitVec.ofNat 8 (2 ^ r))) w.presP }
def Warp.markP (w : Warp) (ps : List Nat) : Warp :=
  { w with presP := ps.foldl (fun m r => m ||| BitVec.ofNat 8 (2 ^ r)) w.presP }

/-- Number of an engine class (R57). -/
def classIdx : EngClass → Nat
  | .cpy => 0
  | .mat => 1
  | .drn => 2
  | .cen => 3
  | .chn => 4
  | .ldx => 5
  | .spw => 6

/-- The counter class of an engine instruction; none for the class "—" (R131). -/
def EngKind.cls : EngKind → Option EngClass
  | .cpy _ _ _ _ _ _ _ _ | .cpyo _ _ _ _ _ | .tmove _ _ _ => some .cpy
  | .mzero _ | .mma _ _ _ _ _ | .msamp _ _ _ _ _ _ | .mstat _ => some .mat
  | .acheck _ _ | .adrain _ _ _ _ _ | .lsupd _ _ => some .drn
  | .solicit _ _ _ _ _ _ => some .cen
  | .chsend _ _ | .chrecv _ _ => some .chn
  | .sld _ _ _ _ | .sst _ _ _ _ => some .ldx
  | .spawn _ _ | .launch _ _ => some .spw
  | .kbind _ _ _ | .kfree | .treg _ _ _ | .tdrop _ | .reply | .pmrd _ _ | .pmctl _ _ => none

/-- A warp's engine counter (R57). -/
def Warp.counter (w : Warp) (c : EngClass) : Nat := nth 0 w.ectr (classIdx c)
def Warp.incCounter (w : Warp) (c : EngClass) : Warp := { w with ectr := setNth 0 w.ectr (classIdx c) (w.counter c + 1) }
def Warp.decCounter (w : Warp) (c : EngClass) : Warp := { w with ectr := setNth 0 w.ectr (classIdx c) (w.counter c - 1) }

/-- The class of a queued instruction, if it is an engine instruction with a counter. -/
def QEntry.engClass (e : QEntry) : Option EngClass :=
  match e.op with
  | .eng k => k.cls
  | _ => none

/-- Whether a queued instruction goes to an engine (R14: the engine queue). -/
def QEntry.isEngine (e : QEntry) : Bool :=
  match e.op with
  | .eng _ => true
  | _ => false

/-- Everything queued and not started, by cluster. -/
def Warp.queued (w : Warp) : List QEntry := w.queues.flatten
/-- Everything dispatched and not completed (R20). -/
def Warp.pending (w : Warp) : List QEntry := w.started ++ w.queued
/-- Every strand has drained (R20). -/
def Warp.drained (w : Warp) : Bool := w.started.isEmpty && w.queued.isEmpty

/-- Number of live threads of a workgroup (R13, R43): in warps, bins and the overflow area. -/
def Workgroup.liveThreads (g : Workgroup) : Nat :=
  ((g.warps.map (fun w => laneCount w.active)) ++ ((g.bins ++ g.held).map (fun b => b.threads.length))).sum

/-- Every TID in use. -/
def Workgroup.tids (g : Workgroup) : List Nat :=
  (g.warps.map (fun w => (lanesIn w.active).map (fun l => nth 0 w.tids l))).flatten
    ++ ((g.bins ++ g.held).map (fun b => b.threads.map Thread.tid)).flatten

-- performance counters (R246, R342)
/-- Count events for a context on a core; `wid` of the warp concerned. -/
def State.count (s : State) (g : Workgroup) (wid event n : Nat) : State :=
  { s with counters := s.counters.map (fun c =>
      if c.core == g.coreIdx && c.ctxid == g.ctxid && c.config.getLsbD 30 && (c.config.extractLsb' 0 16).toNat == event
          && (!c.config.getLsbD 29 || (c.wg == g.uid && c.wid == wid)) then
        { c with count := c.count + BitVec.ofNat 48 n } else c) }

-- fault records (R329, R330)
/-- A record about a workgroup, its fields not yet given being zero. -/
def State.record (s : State) (g : Workgroup) (kind : Nat) : FaultRec :=
  let grid := s.grids.find? (fun x => x.uid == g.grid)
  { kind := kind, code := 0, code2 := 0, access := 0, asid := g.asid, ctxid := g.ctxid, die := g.die, core := g.core,
    slot := g.slot, wid := 0xFF, va := 0, pc := 0, clk := s.clk, queue := (grid.map Grid.queue).getD 0,
    index := (grid.map Grid.index).getD 0 }
/-- Queue a record for the fault reporter (R329). -/
def State.send (s : State) (r : FaultRec) : State := { s with faultsOut := s.faultsOut ++ [r] }

/-- A recorded address with its header (R26). -/
def packPc (h : Half) (a : BitVec 48) : DWord := h ++ a
def pcOf (d : DWord) : BitVec 48 := d.extractLsb' 0 48
def hdrOf (d : DWord) : Half := d.extractLsb' 48 16

/-- The record of a stop (R26): F with its header, the uncompleted instructions by strand, and the record the front end was
still resuming from. -/
def makeRecord (f : BitVec 48 × Half) (left : List (Nat × BitVec 48 × Half)) (old : Option TrapRec) : TrapRec :=
  let F := packPc f.2 f.1
  { spc := (List.range 16).map (fun n =>
      match left.find? (fun x => x.1 == n), old with
      | some x, _ => packPc x.2.2 x.2.1
      | none, some o =>
        let prev := nth 0#64 o.spc n
        if f.1.toNat < (pcOf prev).toNat then prev else F
      | none, none => F),
    fepc := match old with
      | some o => if f.1.toNat < (pcOf o.fepc).toNat then o.fepc else F
      | none => F }

/-- Cancel everything queued and not started (R25): presence bits set again, counters and store-queue entries taken back. A started load that
waited for an older access among them completes from memory, and the older access follows after the resume (R100, log 62). -/
def Warp.cancel (w : Warp) : Warp :=
  let q := w.queued
  let w1 := (w.markG (q.map QEntry.clearedG).flatten).markP (q.map QEntry.clearedP).flatten
  let w2 := (q.filterMap QEntry.engClass).foldl Warp.decCounter w1
  { w2 with queues := List.replicate 8 [],
            storeQ := w2.storeQ.filter (fun e => !(q.any (fun x => x.seq == e.seq))) }

/-- Take back what the dispatch of an instruction gave it: the presence bits it cleared are set again, its counter and its
store-queue entry go (R25, R57, R98). -/
def Warp.giveBack (w : Warp) (e : QEntry) : Warp :=
  let w1 := (w.markG e.clearedG).markP e.clearedP
  let w2 := match e.engClass with
    | none => w1
    | some c => w1.decCounter c
  { w2 with storeQ := w2.storeQ.filter (fun x => x.seq != e.seq) }

/-- Uncompleted instructions by strand, oldest first, as a record names them. -/
def leftOf (es : List QEntry) : List (Nat × BitVec 48 × Half) := es.map (fun e => (e.n, e.addr, e.hdr))

/-- Steps 1 and 3 of R25: dispatch stops and what is queued is cancelled. F is the first undispatched instruction (R26). -/
def Warp.beginStop (w : Warp) (goal : StopGoal) (trap : Option TrapInfo) (f : BitVec 48 × Half) (also : List (Nat × BitVec 48 × Half)) : Warp :=
  let c := w.cancel
  { c with stopping := some { goal := goal, halt := false, trap := trap, fepc := f, left := also ++ leftOf w.queued }, dataFault := none, haltWait := [] }

/-- Of several traps of one stop the one at the lowest address is reported (R27). -/
def lowerTrap (a : Option TrapInfo) (b : TrapInfo) : TrapInfo :=
  match a with
  | none => b
  | some t => if b.addr.toNat < t.addr.toNat then b else t

/-- Raise a trap on a warp (R25): a stop begins, or joins the one under way. -/
def Warp.raise (w : Warp) (t : TrapInfo) (f : BitVec 48 × Half) (also : List (Nat × BitVec 48 × Half)) : Warp :=
  match w.stopping with
  | none => w.beginStop .trap (some t) f also
  | some st => { w with stopping := some { st with goal := if st.goal == .trap then .trap else st.goal, trap := some (lowerTrap st.trap t), left := also ++ st.left } }

/-- Freeze the bin timers of a workgroup at their remainders, or let them run on (R33). -/
def Workgroup.freezeBins (g : Workgroup) (clk : Nat) : Workgroup :=
  let fr (b : Bin) : Bin := match b.rest with
    | some _ => b
    | none => { b with rest := some (b.deadline - clk) }
  { g with bins := g.bins.map fr, held := g.held.map fr }
def Workgroup.thawBins (g : Workgroup) (clk : Nat) : Workgroup :=
  let th (b : Bin) : Bin := match b.rest with
    | none => b
    | some r => { b with rest := none, deadline := clk + r }
  { g with bins := g.bins.map th, held := g.held.map th }

/-- The former builds no warp, and bin timers stand still, while the workgroup is stopped or wholly halted (R33, R205). DESIGN CHOICE (log 67):
a workgroup with no warp is not wholly halted, so a `.wg` HALTB that names it completes at once and the former goes on. -/
def Workgroup.formerStill (g : Workgroup) : Bool := g.stop != .none || (!g.warps.isEmpty && g.warps.all Warp.halted)

/-- Bin timers stand still or run, as the workgroup now is (R33). -/
def Workgroup.timers (g : Workgroup) (clk : Nat) : Workgroup := if g.formerStill then g.freezeBins clk else g.thawBins clk

/-- The same for a workgroup by its number. -/
def State.retimed (s : State) (uid : Nat) : State :=
  { s with wgs := s.wgs.map (fun g => if g.uid == uid then g.timers s.clk else g) }

/-- Where a running warp would stop now: F with the header in force (R26). -/
def Warp.front (w : Warp) : BitVec 48 × Half := (w.pc, w.hdr)

/-- A stop for a second reason joins the one under way: a halt is kept beside any other stop, and a stop of the workgroup takes the
place of a save, which saves the stopped warp as it is (R205, R318, R344). A trap under way keeps its own destination (R319). -/
def Stopping.join (st : Stopping) (goal : StopGoal) : Stopping :=
  match goal with
  | .halt => { st with halt := true }
  | .stop => if st.goal == .trap then st else { st with goal := .stop, halt := st.halt || st.goal == .halt }
  | .save | .trap => st

/-- Stop a warp for a reason that is no trap (R29). -/
def Warp.stopFor (w : Warp) (goal : StopGoal) : Warp :=
  match w.stopping with
  | some st => { w with stopping := some (st.join goal) }
  | none => w.beginStop goal none w.front []

/-- Destinations of R318: codes that stop the workgroup whatever the kernel declares. -/
def stopCode (c : Nat) : Bool := c == 0x05 || c == 0x06 || c == 0x0D || c == 0x0E

/-- Whether a debugger is attached to a context (R321, R339). -/
def State.debugOn (s : State) (g : Workgroup) : Bool := ((s.asidEntry g.asid).map (fun e => e.ctx.getLsbD 16)).getD false

/-- Start the handler (R332): the record is held, the flag set, and the warp continues at HANDLER on `k0`, unguarded. A warp that is
halted as well has its own record there. -/
def Warp.enterHandler (w : Warp) (g : Workgroup) (code : Nat) : Warp :=
  let at' := packPc hdrK0 g.handler
  { w with held := some { spc := w.spc, fepc := w.fepc }, uni := { w.uni with handler := true }, trapCode := code,
           pc := g.handler, hdr := hdrK0, resume := none, stepping := w.stepping.map (fun _ => true),
           spc := if w.halted then List.replicate 16 at' else w.spc, fepc := if w.halted then at' else w.fepc }

/-- The record of a stop (R330). -/
def State.stopRecord (s : State) (g : Workgroup) (w : Warp) (kind code code2 : Nat) (t : TrapInfo) : FaultRec :=
  { s.record g kind with code := code, code2 := code2, wid := w.wid, pc := t.addr.toNat, va := t.va, access := t.access }

/-- Stop every other warp of a workgroup and report the stop once (R318, R319). A warp that is halted or stopped stays so; one of them
under single step stops through R29, unless the stop is that of another warp's step, when its own step goes on to its own record (R341). -/
def State.stopWorkgroup (s : State) (g : Workgroup) (w : Warp) (kind code code2 : Nat) (t : TrapInfo) : State :=
  let w' := { w with stopped := true, stepping := none }
  if g.stop != .none then s.put g w'
  else
    let others := g.warps.map (fun x =>
      if x.wid == w.wid then w'
      else if (x.halted || x.stopped) && (x.stepping.isNone || t.code == 0x13) then { x with stopped := true }
      else x.stopFor .stop)
    let g' := ({ g with warps := others, stop := if kind == 5 then .debug else .trap }).freezeBins s.clk
    (s.setWg g').send (s.stopRecord g w kind code code2 t)

/-- 200 µs at the nominal clock (R1, R326). -/
def faultPatience : Nat := 200 * Config.clkPerMicro

/-- A data fault that has waited 200 µs. -/
def DataFault.overdue (f : DataFault) (clk : Nat) : Bool := decide (f.since + faultPatience ≤ clk)

/-- A warp stops for a save (R337): a pending data fault is discarded, but for one that a record of kind 8 reports (R326). -/
def Warp.stopForSave (w : Warp) (keep : Bool) (clk : Nat) : Warp :=
  if (w.halted || w.stopped) && w.stepping.isNone then w
  else { w.stopFor .save with dataFault := w.dataFault.filter (fun f => keep && f.overdue clk) }

/-- Every warp of a workgroup stops for a save. -/
def Workgroup.stopForSave (g : Workgroup) (clk : Nat) : Workgroup :=
  { g with warps := g.warps.map (fun w => w.stopForSave (g.awaiting == some false) clk) }

/-- Bytes of images that a cooler, or an ASID's save area, holds or has promised (R337). -/
def State.imagesIn (s : State) (r : Residence) (near : Workgroup → Bool) : Nat :=
  ((s.wgs.filter (fun g => near g && (g.residence == r || g.saveTo == some r))).map (fun g => Config.imageBytes g.uid)).sum

/-- Find space for the images of some workgroups: the die's cooler, or else the ASID's save area (R337); none where one finds none
(R338). -/
def State.placeImages : List Nat → State → Option State
  | [], s => some s
  | uid :: rest, s =>
    match s.wg uid with
    | none => State.placeImages rest s
    | some g =>
      let n := Config.imageBytes uid
      let area := ((s.asidEntry g.asid).map AsidEntry.saveSz).getD 0
      if s.imagesIn .cooler (fun x => x.die == g.die) + n ≤ Config.coolerBytes then
        State.placeImages rest (s.setWg { g with saveTo := some .cooler })
      else if s.imagesIn .saveArea (fun x => x.asid == g.asid) + n ≤ area then
        State.placeImages rest (s.setWg { g with saveTo := some .saveArea })
      else none

/-- A sector of an ASID's save area (R321). -/
def State.inSaveArea (s : State) (asid sector : Nat) : Bool :=
  match s.asidEntry asid with
  | none => false
  | some e => decide (e.save.toNat ≤ sector * 64) && decide (sector * 64 < e.save.toNat + e.saveSz)

/-- The image of a workgroup is written: in a save area it overwrites the sectors where the device puts it (R337, log 20). -/
def State.writeImage (s : State) (g : Workgroup) : State :=
  if g.saveTo == some .saveArea then
    { s with mem := s.mem.overwrite (fun sector => s.inSaveArea g.asid sector && Config.imageHit g.uid sector) }
  else s

/-- A workgroup leaves its core, ended or saved: a slot that it leaves may carry another shape tag than 64×64 from then on (R220). -/
def State.vacate (s : State) (g : Workgroup) : State :=
  if g.residence == .resident && g.slots.any (fun x => x.tag != some (64, 64)) && !(s.coreBound.contains g.coreIdx) then
    { s with coreBound := g.coreIdx :: s.coreBound }
  else s

/-- The resident members of a gang. -/
def State.gangHere (s : State) (gang : Nat) : List Workgroup := s.wgs.filter (fun g => g.gang == gang && g.residence == .resident)

/-- Every member of a gang stops for a save (R45, R337). -/
def State.stopGang (s : State) (gang : Nat) : State :=
  { s with wgs := s.wgs.map (fun g => if g.gang == gang && g.residence == .resident then g.stopForSave s.clk else g) }

/-- The first of some workgroups whose image finds no space (R338). -/
def State.unplaced : List Nat → State → Option Nat
  | [], _ => none
  | uid :: rest, s => match State.placeImages [uid] s with
    | none => some uid
    | some s' => State.unplaced rest s'

/-- A save of some workgroups that finds no space: a record of kind 9 about the first image that finds none (R338). -/
def State.sendNoRoom (s : State) (uids : List Nat) : State :=
  match (State.unplaced uids s).bind s.wg with
  | none => s
  | some g => s.send (s.record g 9)

/-- A page that an operation has waited 200 µs for (R326). -/
def EngOp.overdue (o : EngOp) (clk : Nat) : Bool :=
  o.prog.failed.isNone && (o.prog.page.map (fun p => decide (p.since + faultPatience ≤ clk))).getD false

/-- A fault of a workgroup asks for a save of which a record of kind 9 has spoken (R338). -/
def Workgroup.toldNoRoom (g : Workgroup) : Bool :=
  g.noRoom || g.warps.any (fun w => (w.dataFault.map DataFault.told).getD false)
    || (g.warps ++ g.ghosts).any (fun w => w.ops.any (fun o => o.prog.failed.isNone && (o.prog.page.map PageWait.told).getD false))

/-- The operation's page has had its record of kind 9. -/
def EngOp.tell (clk : Nat) (o : EngOp) : EngOp :=
  if o.overdue clk then { o with prog := { o.prog with page := o.prog.page.map (fun p => { p with told := true }) } } else o

/-- The same for the overdue faults of a warp. -/
def Warp.tell (clk : Nat) (w : Warp) : Warp :=
  { w with dataFault := w.dataFault.map (fun f => if f.overdue clk then { f with told := true } else f), ops := w.ops.map (EngOp.tell clk) }

/-- A record of kind 9 speaks of the save that each fault of a workgroup asks for: it goes with the fault (R338). -/
def Workgroup.tell (clk : Nat) (g : Workgroup) : Workgroup :=
  { g with noRoom := g.noRoom || g.awaiting == some true, warps := g.warps.map (Warp.tell clk), ghosts := g.ghosts.map (Warp.tell clk) }

/-- The save of a gang for a fault finds no space: said once (R338). -/
def State.noteNoRoom (s : State) (gang : Nat) : State :=
  if (s.gangHere gang).any Workgroup.toldNoRoom then s
  else
    let s1 : State := { s with wgs := s.wgs.map (fun x => if x.gang == gang then x.tell s.clk else x) }
    s1.sendNoRoom ((s.gangHere gang).map Workgroup.uid)

/-- Begin the save of a gang, or find that it has no space (R337, R338). -/
def State.beginSave (s : State) (gang : Nat) : State :=
  match State.placeImages ((s.gangHere gang).map Workgroup.uid) s with
  | some s' => s'.stopGang gang
  | none => s.noteNoRoom gang

/-- The lowest recorded address with its header (R28). -/
def TrapRec.lowest (r : TrapRec) : DWord :=
  r.spc.foldl (fun m d => if (pcOf d).toNat < (pcOf m).toNat then d else m) r.fepc

/-- Resume under R28: the front end refetches from the lowest recorded address under that record's header. -/
def Warp.resumeFrom (w : Warp) (r : TrapRec) : Warp :=
  { w with pc := pcOf r.lowest, hdr := hdrOf r.lowest, resume := some r }

/-- The record a stopped or halted warp resumes from. -/
def Warp.ownRecord (w : Warp) : TrapRec := { spc := w.spc, fepc := w.fepc }

/-- Engine operations that a save stopped go on (R209). -/
def EngOp.goOn (o : EngOp) : EngOp := { o with prog := { o.prog with stopped := false } }

/-- Run again from the own record, or on, where a single step is under way. -/
def Warp.runOn (w : Warp) : Warp :=
  let w1 := { w with ops := w.ops.map EngOp.goOn }
  if w.stepping.isSome then { w1 with stepping := none } else w1.resumeFrom w.ownRecord

/-- Deliver a trap whose record is final (R318, R325, R332, R333, R340). The warp's record registers hold it already. -/
def State.deliverTrap (s : State) (g : Workgroup) (w : Warp) (t : TrapInfo) : State :=
  let s := s.count g w.wid 0x17 1
  if g.stop != .none then
    -- a later trap of the same stop remains in its warp's record (R319); each stepped warp sends its own record (R341)
    let s' := s.put g { w with stopped := true, stepping := none }
    if t.code == 0x13 then s'.send (s.stopRecord g w 5 0x13 0 t) else s'
  else if t.code == 0x07 then
    -- a fetch fault: the record of kind 3 is sent, and the gang is saved and swapped out (R325)
    let g' := ({ g with awaiting := some true }.setWarp { w.resumeFrom w.ownRecord with stepping := none, fetchFault := some (t.addr, false) }).stopForSave s.clk
    let s' := (s.setWg g').send { s.record g 3 with code := 0x07, access := 4, wid := w.wid, pc := t.addr.toNat, va := t.va }
    s'.beginSave g.gang
  else if t.code == 0x13 || t.code == 0x12 || (t.code == 0x11 && s.debugOn g) then
    s.stopWorkgroup g w 5 t.code 0 t
  else if w.uni.handler || s.isService g then
    let code2 := if t.code == 0x19 then t.code2 else t.code
    if s.isService g && g.hasHandler && !w.uni.handler then
      let s' := s.send { s.record g 1 with code := 0x19, code2 := code2, wid := w.wid, pc := t.addr.toNat, va := t.va, access := t.access }
      s'.put g (w.enterHandler g 0x19)
    else s.stopWorkgroup g w 1 0x19 code2 t
  else if stopCode t.code || !g.hasHandler then s.stopWorkgroup g w 1 t.code t.code2 t
  else s.put g (w.enterHandler g t.code)

/-- Finish a stop whose started instructions have all completed (R25 steps 2 to 4): write the record, then go where the stop
leads. The handler's own stop keeps the held record (R29). -/
def State.settle (s : State) (g : Workgroup) (w : Warp) : State :=
  match w.stopping with
  | none => s.put g w
  | some st =>
    if !w.started.isEmpty then s.put g w
    else
      let r := makeRecord st.fepc st.left w.resume
      let w1 := { w with spc := r.spc, fepc := r.fepc, stopping := none, resume := none, halted := w.halted || st.halt }
      -- a halt or a save records no trap: the instruction traps again after the resume (R27, R29)
      match (if st.goal == .halt || st.goal == .save then none else st.trap) with
      | some t =>
        let w2 := { w1 with trapCode := t.code, trapAddr := t.addr,
                            skipBp := if t.code == 0x11 || t.code == 0x12 then some t.addr else w1.skipBp,
                            block := .none }
        if st.halt then (s.deliverTrap g w2 t).retimed g.uid else s.deliverTrap g w2 t
      | none =>
        let w2 := { w1 with stepping := none }
        match st.goal with
        | .halt => s.setWg ((g.setWarp { w2 with halted := true }).timers s.clk)
        | .stop => s.put g { w2 with stopped := true }
        | .trap => s.put g { w2 with stopped := true }
        | .save => if st.halt then (s.put g w2).retimed g.uid else s.put g (w2.resumeFrom r)

/-- CODE2 of a record (R330): the code that trap 0x19 stands for. -/
def code2Of (code : Nat) : Nat := if code == 0x19 then 0x05 else 0

/-- TAKE A TRAP at a front-end instruction of the executing warp: F is the instruction itself (R26). -/
def State.trapFront (s : State) (g : Workgroup) (w : Warp) (code : Nat) : State :=
  s.settle g (w.raise { code := code, addr := w.pc, va := 0, access := 0, code2 := 0 } w.front [])

/-- The same with a faulting address and an access (R330). -/
def State.trapFrontAt (s : State) (g : Workgroup) (w : Warp) (code va access : Nat) : State :=
  s.settle g (w.raise { code := code, addr := w.pc, va := va, access := access, code2 := 0 } w.front [])

/-- TRAP and BKPT count as dispatched and completed: F is the next instruction, TRAPADDR the instruction's own address (R190, R342). -/
def State.trapAfter (s : State) (g : Workgroup) (w : Warp) (code : Nat) : State :=
  (s.count g w.wid 1 1).settle g (w.raise { code := code, addr := w.pc, va := 0, access := 0, code2 := 0 } (w.pc + 4, w.hdr) [])

/-- TAKE A TRAP at a strand instruction that has left its queue or is still in it: its strand records its address (R25, R27). -/
def State.trapStrand (s : State) (g : Workgroup) (w : Warp) (e : QEntry) (code va access code2 : Nat) : State :=
  let w1 := w.giveBack e
  s.settle g (w1.raise { code := code, addr := e.addr, va := va, access := access, code2 := code2 } w1.front [(e.n, e.addr, e.hdr)])

/-- A halt ends; the warp runs again unless it is also stopped (R344). -/
def Warp.unhalt (w : Warp) : Warp :=
  if !w.halted then w
  else if w.stopped then { w with halted := false }
  else { w.runOn with halted := false }

/-- Stop and halt both end (R331 RESUME, R344). -/
def Warp.unstop (w : Warp) : Warp :=
  if w.halted || w.stopped then { w.runOn with halted := false, stopped := false } else w

/-- The warp passes the front-end instruction it is blocked at: the next instruction on `k0`, unguarded (R16). The record of a
halted or stopped warp, or of one that is stopping, moves with it. -/
def Warp.passBlock (w : Warp) : Warp :=
  let pc := w.pc + 4
  let w1 := { w with block := .none, pc := pc, hdr := hdrK0, resume := none, skipBp := none, stepping := w.stepping.map (fun _ => true),
                     stopping := w.stopping.map (fun st => { st with fepc := (pc, hdrK0) }) }
  if w.halted || w.stopped then { w1 with spc := List.replicate 16 (packPc hdrK0 pc), fepc := packPc hdrK0 pc } else w1

-- barriers (R43, R180, R181)
/-- Threads that have arrived at BAR, and at GBAR. -/
def Workgroup.barArrived (g : Workgroup) : Nat :=
  ((g.warps.filter (fun w => w.block == .bar)).map (fun w => laneCount w.active)).sum
def Workgroup.gbarArrivedThreads (g : Workgroup) : Nat :=
  ((g.warps.filter (fun w => w.block == .gbar)).map (fun w => laneCount w.active)).sum

/-- Release the warps blocked at one kind of barrier. -/
def Workgroup.release (g : Workgroup) (b : Block) : Workgroup :=
  { g with warps := g.warps.map (fun w => if w.block == b then w.passBlock else w), gbarArrived := false }

/-- The members of a gang that have not ended. -/
def State.gangWgs (s : State) (gang : Nat) : List Workgroup := s.wgs.filter (fun g => g.gang == gang)

/-- The gang barrier releases when every workgroup of the gang that has not ended has arrived (R181). -/
def State.gangRelease (s : State) (gang : Nat) : State :=
  let ms := s.gangWgs gang
  if !ms.isEmpty && ms.all (fun g => g.gbarArrived) then
    { s with wgs := s.wgs.map (fun g => if g.gang == gang then g.release .gbar else g) }
  else s

/-- Warps that trap together, each at its own instruction: the claim deadlock (R39) and mixed barriers (R181). -/
def State.trapAll (s : State) (uid code : Nat) : List Nat → State
  | [] => s
  | wid :: rest =>
    let s' := match s.at { wg := uid, wid := wid } with
      | none => s
      | some (g, w) =>
        let g' := { g with poolQ := g.poolQ.filter (fun r => match r with
          | .claim x _ => x != wid
          | .form _ => true) }
        s.trapFront g' { w with block := .none } code
    s'.trapAll uid code rest

/-- The barrier check of a workgroup (R180, R181): release, arrival at the gang barrier, or trap 0x01 where BAR and GBAR mix. -/
def State.checkBarrier (s : State) (uid : Nat) : State :=
  match s.wg uid with
  | none => s
  | some g =>
    let live := g.liveThreads
    let nb := g.barArrived
    let ng := g.gbarArrivedThreads
    if live == 0 || nb + ng != live then s
    else if ng == 0 then s.setWg (g.release .bar)
    else if nb == 0 then (s.setWg { g with gbarArrived := true }).gangRelease g.gang
    else s.trapAll uid 0x01 ((g.warps.filter (fun w => w.block == .bar || w.block == .gbar)).map Warp.wid)

-- the register pool (R38)
/-- A convergence register loses a member that exits or is deposited (R56, R223): the pending operation fails for each signer. -/
def cvLeave (wid : Nat) (c : CvReg) : CvReg :=
  if c.members.getLsbD wid then { c with unusable := true, signs := 0, signed := 0, fixed := none, differs := false } else c

/-- The warps that signed an operation which a leaving member breaks, with the register. -/
def Workgroup.brokenSigns (g : Workgroup) (wid : Nat) : List (Nat × Nat) :=
  (g.cv.zipIdx.map (fun c => if c.1.members.getLsbD wid && c.1.signs != 0 then (lanesIn c.1.signed).map (fun x => (x, c.2)) else [])).flatten

/-- An issued operation marked as failed with a trap, so that it retires with a report (R179). -/
def EngOp.fail (o : EngOp) (code : Nat) : EngOp := { o with prog := { o.prog with failed := some code, done := true, page := none } }

/-- The same with the address and access that its report names (R330). -/
def EngOp.failAt (o : EngOp) (code va access : Nat) : EngOp :=
  { o with prog := { o.prog with failed := some code, done := true, page := some { va := BitVec.ofNat 48 va, since := 0, access := access, told := false } } }

/-- An MMA that has signed a convergence register and has neither fired nor failed (R223). -/
def EngOp.awaits (o : EngOp) (cv : Nat) : Bool :=
  match o.kind with
  | .mma _ _ _ c _ => c == cv && o.prog.phase == 0 && o.prog.failed.isNone
  | _ => false

/-- The signed MMAs of a workgroup's warps on broken registers fail with trap 0x0F (R223). -/
def Workgroup.failSigned (g : Workgroup) (broken : List (Nat × Nat)) : Workgroup :=
  { g with warps := g.warps.map (fun w =>
      { w with ops := w.ops.map (fun o => if broken.any (fun b => b.1 == w.wid && o.awaits b.2) then o.fail 0x0F else o) }) }

/-- Free a warp whose last thread has left (R57, R36, R182): its granules return, its slot waits for operations outstanding. Reports that it
still has pending go with it; only an exit sends one (R179, log 60). -/
def Workgroup.freeWarp (g : Workgroup) (w : Warp) : Workgroup :=
  let g1 := (g.failSigned (g.brokenSigns w.wid))
  let w1 := (g1.warp w.wid).getD w
  let back := min w.granules w.reserveGranules
  let g2 := { g1 with warps := g1.warps.filter (fun x => x.wid != w.wid), cv := g1.cv.map (cvLeave w.wid),
                      poolFree := g1.poolFree + (w.granules - back), splitReserve := g1.splitReserve + back }
  if w1.ops.isEmpty then g2
  else { g2 with ghosts := g2.ghosts ++ [{ w1 with active := 0, uni := { w1.uni with loops := [] } }] }

end Sys2Proof.Machine
end

