-- ==== Sys2Proof/Machine/Regions.lean ====
section
/-!
DEFINITION. Regions that engine operations read and write (R208), and those of the copies from their descriptor (R210 to R217).
-/
namespace Sys2Proof.Machine

/-- What a region lies in: an address space, or a tile slot, counted in words. -/
inductive Place where
  | mem (sp : Space)
  | slot (t : Nat)
deriving DecidableEq, Repr

/-- A region that an operation reads or writes. -/
structure Region where
  sp : Place
  acc : Access
  addr : Nat
  len : Nat
deriving DecidableEq, Repr

/-- A region of global memory, and of the scratchpad. -/
def Region.glob (acc : Access) (addr len : Nat) : Region := { sp := .mem .global, acc := acc, addr := addr, len := len }
def Region.scr (acc : Access) (addr len : Nat) : Region := { sp := .mem .scratch, acc := acc, addr := addr, len := len }

-- the copy descriptor (R210)
def cpyDstride (d : DWord) : Nat := (d.extractLsb' 56 8).toNat * 64
def cpyRows (d : DWord) : Nat := (d.extractLsb' 44 12).toNat
def cpyCols (d : DWord) : Nat := (d.extractLsb' 28 16).toNat
def cpySstride (d : DWord) : Nat := (d.extractLsb' 0 28).toNat

/-- Bytes of a source row, bytes of a destination row, and the destination stride of a copy (R212, R213). -/
def cpySrcRow (m : CpyMode) (d : DWord) : Nat :=
  match m with
  | .plain | .ver | .mcast => cpyCols d
  | .canon f | .norms f => storeElemBytes f (cpyCols d) + storeScaleBytes f (cpyCols d)
def cpyDstRow (m : CpyMode) (d : DWord) : Nat :=
  match m with
  | .plain | .ver | .mcast => cpyCols d
  | .canon f | .norms f => elemRow (storeElem f).bits (cpyCols d) + storeScaleBytes f (cpyCols d)
def cpyStep (m : CpyMode) (d : DWord) : Nat :=
  match m with
  | .plain | .ver | .mcast => if cpyDstride d == 0 then cpyCols d else cpyDstride d
  | .canon _ | .norms _ => cpyDstride d

/-- Destination regions of a copy: its rows from row `from'` on, then the norm table (R214). -/
def cpyDstRegions (m : CpyMode) (dst d : DWord) (sp : Space) (from' : Nat) : List Region :=
  let rows := (List.range (cpyRows d - from')).map (fun i =>
    ({ sp := .mem sp, acc := .write, addr := dst.toNat + (from' + i) * cpyStep m d, len := cpyDstRow m d } : Region))
  match m with
  | .norms _ => rows ++ [{ sp := .mem sp, acc := .write, addr := dst.toNat + cpyRows d * cpyStep m d, len := 8 * cpyCols d }]
  | .plain | .canon _ | .ver | .mcast => rows

/-- Source regions of a copy. -/
def cpySrcRegions (m : CpyMode) (src d : DWord) (sp : Space) (from' : Nat) : List Region :=
  (List.range (cpyRows d - from')).map (fun i =>
    { sp := .mem sp, acc := .read, addr := src.toNat + (from' + i) * cpySstride d, len := cpySrcRow m d })

/-- Bytes of a row of `CPYO` (R217). -/
def cpyoRow (o : CpyoOut) (n : Nat) : Nat :=
  match o with
  | .f32 => 4 * n
  | .bf16 => 2 * n
  | .e4m3 => n + n / 32

/-- Destination regions of `CPYO` from a row on. -/
def cpyoRegions (b : Binding) (dst stride : DWord) (o : CpyoOut) (sp : Space) (from' : Nat) : List Region :=
  (List.range (b.m - from')).map (fun i =>
    { sp := .mem sp, acc := .write, addr := dst.toNat + (from' + i) * (stride.extractLsb' 0 28).toNat, len := cpyoRow o b.n })

/-- Lines of write regions in global memory, by virtual address. -/
def globalLines (rs : List Region) : List Nat :=
  ((rs.filter (fun r => r.sp == .mem .global && r.acc == .write)).map (fun r => linesOf r.addr r.len)).flatten.foldl addOnce []

/-- The destination of an operation that copies, from a row on; `b` is the binding of its accumulator. -/
def EngKind.dstRegions (k : EngKind) (b : Option Binding) (from' : Nat) : List Region :=
  match k with
  | .cpy m _ dst d _ _ dsp _ => cpyDstRegions m dst d dsp from'
  | .cpyo dst stride out dsp _ => (match b with
    | none => []
    | some x => cpyoRegions x dst stride out dsp from')
  | _ => []

/-- Scratchpad lines of write regions. -/
def regionLines (rs : List Region) : List Nat :=
  ((rs.filter (fun r => r.sp == .mem .scratch && r.acc == .write)).map (fun r => linesOf r.addr r.len)).flatten.foldl addOnce []

/-- Of some lines, those that a workgroup's scratchpad has. -/
def Workgroup.ownLines (g : Workgroup) (ls : List Nat) : List Nat := ls.filter (fun l => decide (l * 256 < g.scratchSize))

/-- Lines of the issuing workgroup's scratchpad whose bits an engine instruction clears at its issue (R93, R216). -/
def EngKind.clears (g : Workgroup) (b : Option Binding) (k : EngKind) : List Nat :=
  let ls := regionLines (k.dstRegions b 0)
  match k with
  | .cpy .mcast _ _ _ aux _ _ _ => if decide (g.rank < 16) && aux.getLsbD g.rank then g.ownLines ls else []
  | _ => ls

end Sys2Proof.Machine
end

