-- ==== Sys2Proof/Machine/Lsu.lean ====
section
/-!
DEFINITION. Loads, stores, atomics and LDTR (R87, R88, R93 to R106, R194 to R199): lane addresses and their checks, the store
queue with forwarding and draining, watchpoints, and the result of each form. The dump aperture is reached through `apRead`
and `apWrite` (R335, R336).
-/
namespace Sys2Proof.Machine

/-- What running a queued instruction gives. -/
inductive Ran where
  /-- it completes -/
  | done (s : State)
  /-- it traps, with no effect: code, faulting address, access, CODE2 -/
  | trap (s : State) (code va access code2 : Nat)
  /-- it cannot complete yet -/
  | wait
  /-- it meets a page that is not present (R326) -/
  | fault (s : State) (va access : Nat)
deriving DecidableEq, Repr

/-- Access size in bytes (R88). -/
def LdKind.size : LdKind → Nat
  | .b32 => 4
  | .i16 | .z16 | .bf16 | .f16 => 2
  | .i8 | .z8 => 1
def StKind.size : StKind → Nat
  | .b32 => 4
  | .b16 | .bf16 => 2
  | .b8 | .e4m3 => 1

/-- The exact address of a lane (R88): base + index·size + offset·size, not reduced. -/
def laneAddr (m : MemOp) (size : Nat) (idx : Word) : Int := (m.base.toNat : Int) + (idx.toNat * size : Nat) + m.off.toInt * size

/-- The range check (R88). -/
def rangeOk (g : Workgroup) (sp : Space) (a : Int) (size : Nat) : Bool :=
  decide (0 ≤ a) && decide (a + size ≤ (match sp with
    | .global => 2 ^ 48
    | .scratch => (g.scratchSize : Int)))

/-- ACCESS bits of a record (R330). -/
def accRead : Nat := 1
def accWrite : Nat := 2
def accEngine : Nat := 8
def accAtomic : Nat := 16

/-- Whether an enabled watchpoint of the context matches an access of n bytes (R339). -/
def State.watched (s : State) (g : Workgroup) (load store : Bool) (a n : Nat) : Bool :=
  s.debugOn g && (match s.asidEntry g.asid with
    | none => false
    | some e => e.wps.any (fun w =>
        w.1.getLsbD 48 && ((load && w.1.getLsbD 49) || (store && w.1.getLsbD 50))
          && decide (a < (w.1.extractLsb' 0 48).toNat + (w.2.extractLsb' 0 32).toNat) && decide ((w.1.extractLsb' 0 48).toNat < a + n)))

/-- Whether a physical byte lies in the dump aperture (R335, R363). -/
def State.inAperture (s : State) (pk : Nat) : Bool := decide (s.dapBase.toNat ≤ pk) && decide (pk < s.dapBase.toNat + 3 * 2 ^ 34)

/-- The outcome of translating every lane, lowest first (R88): the first trap wins over the first absent page. -/
structure LaneXlat where
  phys : List (Nat × Nat)
  trap : Option (Nat × Nat)
  absent : Option Nat
  st : State
deriving DecidableEq, Repr

/-- Translate lane addresses in order. -/
def State.xlatLanes (g : Workgroup) (acc : Access) : List (Nat × Nat) → LaneXlat → LaneXlat
  | [], r => r
  | (l, a) :: rest, r =>
    let t := r.st.xlat g acc (BitVec.ofNat 48 a)
    let r' := match t.1 with
      | .ok pk => { r with phys := r.phys ++ [(l, pk)], st := t.2 }
      | .trap c => { r with trap := if r.trap.isSome then r.trap else some (c, a), st := t.2 }
      | .absent => { r with absent := if r.absent.isSome then r.absent else some a, st := t.2 }
    State.xlatLanes g acc rest r'

/-- The checked lane addresses of an access. -/
inductive Addrs where
  | ok (la : List (Nat × Nat))
  | trap (code va : Nat)
deriving DecidableEq, Repr

/-- Range, then alignment, over the lanes of X (R88). -/
def checkAddrs (g : Workgroup) (m : MemOp) (size : Nat) (x : LaneSet) (idx : Lanes) : Addrs :=
  let as : List (Nat × Int) := (lanesIn x).map (fun l => (l, laneAddr m size (laneOf idx l)))
  match as.find? (fun a => !rangeOk g m.space a.2 size) with
  | some a => .trap 0x05 (Int.toNat (a.2 % (2 ^ 64 : Int)))
  | none =>
    match as.find? (fun a => a.2 % (size : Int) != 0) with
    | some a => .trap 0x04 (Int.toNat a.2)
    | none => .ok (as.map (fun a => (a.1, Int.toNat a.2)))

/-- The youngest older store-queue byte of a warp for a physical or scratchpad address: entries older than `seq`, the youngest that
names it (R100). -/
def forwarded (q : List StoreEntry) (sp : Space) (seq a : Nat) : Option (Nat × Byte) :=
  match (q.filter (fun e => decide (e.seq < seq) && e.space == sp)).reverse.find? (fun e => (e.bytes.getD []).any (fun b => b.1 == a)) with
  | none => none
  | some e => (((e.bytes.getD []).find? (fun b => b.1 == a)).map (fun b => (e.seq, b.2)))

/-- How a load of n bytes meets the store queue (R100 item 3). -/
inductive Meet where
  /-- no older entry names a byte: read memory -/
  | memory
  /-- the youngest older entry that names a byte covers all of them -/
  | bytes (bs : List Byte)
  /-- an older entry covers some bytes but not all: wait for it to drain -/
  | partly
deriving DecidableEq, Repr

/-- Compare a load's bytes with the older entries of the store queue (R100). -/
def meetQueue (q : List StoreEntry) (sp : Space) (seq a n : Nat) : Meet :=
  let hits := (List.range n).map (fun i => forwarded q sp seq (a + i))
  if hits.all Option.isNone then .memory
  else
    match hits.filterMap (fun h => h.map Prod.fst) with
    | [] => .memory
    | e0 :: es =>
      if hits.all Option.isSome && es.all (fun e => e == e0) then .bytes (hits.filterMap (fun h => h.map Prod.snd)) else .partly

/-- Some memory access older than `seq` has not completed in its cluster: a store or an atomic, or with `loads` a load as well. -/
def Warp.olderMemPending (w : Warp) (seq : Nat) (loads : Bool) : Bool :=
  w.pending.any (fun e => decide (e.seq < seq) && (match e.op with
    | .ld _ _ => loads
    | .ldtr _ _ _ _ _ => loads
    | .st _ _ => true
    | .atom _ _ => true
    | _ => false))

/-- An earlier writer of a register that an entry reads has not written it (R22), or an earlier reader of a register that it
writes has not read it (R23). -/
def Warp.hazard (w : Warp) (e : QEntry) : Bool :=
  w.pending.any (fun q => decide (q.seq < e.seq) &&
    (q.clearedG.any (fun r => e.readsG.contains r) || q.clearedP.any (fun p => e.readsP.contains p)
      || q.readsG.any (fun r => e.clearedG.contains r) || q.readsP.any (fun p => e.clearedP.contains p)))
  || w.ops.any (fun o => decide (o.seq < e.seq) && o.clearedG.any (fun r => e.readsG.contains r))

-- presence of scratchpad lines (R93 to R95)
/-- An operation of a workgroup has cleared the presence bit of a line of `g` and not set it again (R93, R216). -/
def EngOp.owes (y : Workgroup) (o : EngOp) (g : Workgroup) (line : Nat) : Bool :=
  o.prog.pendingLines.contains line && (match o.kind with
    | .cpy .mcast _ _ _ aux _ _ _ => y.gang == g.gang && decide (g.rank < 16) && aux.getLsbD g.rank
    | _ => y.uid == g.uid)

/-- The operations that owe a line, each with its workgroup and its warp. -/
def State.owers (s : State) (g : Workgroup) (line : Nat) : List (Workgroup × Warp × EngOp) :=
  s.wgs.flatMap (fun y => (y.warps ++ y.ghosts).flatMap (fun w => (w.ops.filter (fun o => o.owes y g line)).map (fun o => (y, w, o))))

/-- An absent line holds an access back, unless every operation that owes it is ordered after the access (R93, R108, R109). -/
def State.lineHeld (s : State) (g : Workgroup) (line : Nat) (after : Workgroup → Warp → EngOp → Bool) : Bool :=
  g.absent.contains line &&
    (let os := s.owers g line
     os.isEmpty || os.any (fun x => !(after x.1 x.2.1 x.2.2)))

/-- An operation that the same warp dispatched after an access: its writes follow the access (R108). -/
def afterAccess (g : Workgroup) (w : Warp) (seq : Nat) (y : Workgroup) (x : Warp) (o : EngOp) : Bool :=
  y.uid == g.uid && x.wid == w.wid && decide (seq < o.seq)

/-- The binding that an engine instruction of a warp will find at its issue: the queued ones before it in its strand come first. -/
def Warp.bindBefore (w : Warp) (n seq : Nat) : Option Binding :=
  (w.queued.filter (fun q => q.n == n && decide (q.seq < seq))).foldl (fun b q => match q.op with
    | .eng (.kbind slot m nn) => some { slot := slot, m := m, n := nn, win := 0 }
    | .eng .kfree => none
    | _ => b) (nth none w.bind n)

/-- A copy that the warp dispatched before an access, and that has not issued, will clear the presence bit of a line (R94, R110). -/
def Warp.willClear (g : Workgroup) (w : Warp) (seq line : Nat) : Bool :=
  w.queued.any (fun q => decide (q.seq < seq) && (match q.op with
    | .eng k => (k.clears g (w.bindBefore q.n q.seq)).contains line
    | _ => false))

/-- A line holds back an access of a warp: it is absent, or an older copy of the warp has yet to clear it, so that the access follows the copy
(R93, R94, R110). -/
def State.heldBack (s : State) (g : Workgroup) (w : Warp) (seq line : Nat) : Bool :=
  s.lineHeld g line (afterAccess g w seq) || w.willClear g seq line

/-- Some of n scratchpad bytes from a lie in a line that holds back an access of a warp (R93). -/
def State.bytesHeld (s : State) (g : Workgroup) (w : Warp) (seq a n : Nat) : Bool := (linesOf a n).any (s.heldBack g w seq)

/-- Bytes that LDTR reads for block i of a lane (R199): address and width of each element pair. -/
def ldtrByte (elem : Elem) (base stride i l : Nat) : Nat :=
  let row := base + l % 16 * stride
  let h := l / 16
  match elem with
  | .b16 => row + 2 * (4 * i + 2 * h)
  | .b8 => row + 4 * i + 2 * h
  | .b4 => row + 2 * i + h
def ldtrWidth : Elem → Nat
  | .b16 => 4
  | .b8 => 2
  | .b4 => 1
def ldtrAlign : Elem → Nat
  | .b16 => 8
  | .b8 => 4
  | .b4 => 2

/-- The addresses that LDTR reads in the lanes of a set. -/
def ldtrAddrs (nb : Nat) (elem : Elem) (base stride : DWord) (x : LaneSet) : List Nat :=
  ((List.range nb).map (fun i => (lanesIn x).map (fun l => ldtrByte elem base.toNat stride.toNat i l))).flatten

/-- The bytes that a queued load, atomic or `LDTR` accesses, as its checks pass: space, width and addresses. -/
def Warp.accessOf (g : Workgroup) (w : Warp) (e : QEntry) : Option (Space × Nat × List (Nat × Nat)) :=
  let x := w.exec e.hdr
  let at' (m : MemOp) (n : Nat) : Option (Space × Nat × List (Nat × Nat)) :=
    match checkAddrs g m n x (w.greg m.idx) with
    | .trap _ _ => none
    | .ok la => some (m.space, n, la)
  match e.op with
  | .ld k m => at' m k.size
  | .atom _ m => at' m 4
  | .ldtr _ nb elem base stride => some (.scratch, ldtrWidth elem, (ldtrAddrs nb elem base stride x).map (fun a => (0, a)))
  | _ => none

/-- A load, atomic or `LDTR` that needs a byte of an absent line, and of no orphaned one, stalls at the head of its queue (R93, R95). -/
def State.lineStalls (s : State) (g : Workgroup) (w : Warp) (e : QEntry) : Bool :=
  match w.accessOf g e with
  | some (.scratch, n, la) => !(la.any (fun a => g.anyOrphan a.2 n)) && la.any (fun a => s.bytesHeld g w e.seq a.2 n)
  | some (.global, _, _) | none => false

/-- The physical or scratchpad addresses of an access; none while one of its pages does not translate. -/
def State.locate (s : State) (g : Workgroup) (sp : Space) (la : List (Nat × Nat)) : Option (List Nat) :=
  match sp with
  | .scratch => some (la.map Prod.snd)
  | .global =>
    let t := State.xlatLanes g .read la { phys := [], trap := none, absent := none, st := s }
    if t.trap.isSome || t.absent.isSome then none else some (t.phys.map Prod.snd)

/-- Two accesses of one space have no byte in common. -/
def apart (n : Nat) (as : List Nat) (m : Nat) (bs : List Nat) : Bool :=
  as.all (fun a => bs.all (fun b => decide (a + n ≤ b) || decide (b + m ≤ a)))

/-- The bytes that a store still to complete will write, once its index register and its guard are there: space, width and addresses. -/
def State.storeSpan (s : State) (g : Workgroup) (w : Warp) (q : QEntry) (k : StKind) (m : MemOp) : Option (Space × Nat × List Nat) :=
  match checkAddrs g m k.size (w.exec q.hdr) (w.greg m.idx) with
  | .trap _ _ => none
  | .ok la => if w.hazard q then none else (s.locate g m.space la).map (fun locs => (m.space, k.size, locs))

/-- Every older store and atomic of its warp has completed in its cluster, but for stores whose bytes are known and are none of the load's own: those a load
may pass (R251; R100 items 3 and 4, log 22). -/
def State.pastStores (s : State) (g : Workgroup) (w : Warp) (seq : Nat) (sp : Space) (n : Nat) (locs : List Nat) : Bool :=
  (w.pending.filter (fun q => decide (q.seq < seq))).all (fun q =>
    match q.op with
    | .st k m => (match s.storeSpan g w q k m with
      | none => false
      | some (sp', n', locs') => sp' != sp || apart n' locs' n locs)
    | .atom _ _ => false
    | _ => true)

/-- Every fence older than `seq` lets younger accesses perform: its older loads have, and its older stores when it is sc (R103). -/
def Warp.fencesClear (w : Warp) (seq : Nat) : Bool :=
  (w.fences.filter (fun f => decide (f.seq < seq))).all (fun f =>
    !(w.pending.any (fun e => decide (e.seq ≤ f.seq) && (match e.op with
      | .ld _ _ => true
      | .atom _ _ => true
      | _ => false)))
    && (!f.sc || !(w.storeQ.any (fun x => decide (x.seq ≤ f.seq)))))

/-- The first scratchpad bytes of an access that lie in an orphaned line (R95), or else in a sector marked uncorrectable (R115): the
trap and the address. -/
def Workgroup.scratchFault (g : Workgroup) (as : List Nat) (n : Nat) : Option (Nat × Nat) :=
  match as.find? (fun a => g.anyOrphan a n) with
  | some a => some (0x0F, a)
  | none => (as.find? (fun a => g.anyMarked a n)).map (fun a => (0x0D, a))

/-- Bytes of the target's state in the aperture are reached 4 at a time; a value for each aligned word. -/
abbrev ApRead := State → Nat → Word
/-- A write of one aligned word of the aperture. -/
abbrev ApWrite := State → Nat → Word → State

/-- The bytes that a queued load can read now (R100 item 3): its registers are there, its pages are present, its lines as well, no fence holds
it, and each byte comes from memory or from one queued store. None where it has to wait, or would trap. -/
def State.readsNow (ap : ApRead) (s : State) (g : Workgroup) (w : Warp) (q : QEntry) : Option (List (Nat × Byte)) :=
  match w.accessOf g q with
  | none => none
  | some (sp, n, la) => match s.locate g sp la with
    | none => none
    | some locs =>
      let blocked : Bool := match sp with
        | .scratch => (g.scratchFault locs n).isSome || locs.any (fun a => s.bytesHeld g w q.seq a n)
        | .global => locs.any (fun a => s.marked a || s.cutOff a) || la.any (fun a => s.watched g true false a.2 n)
      if w.hazard q || blocked || !(s.pastStores g w q.seq sp n locs) || !w.fencesClear q.seq || locs.any (fun a => meetQueue w.storeQ sp q.seq a n == .partly) then none
      else some ((locs.flatMap (fun a => (List.range n).map (a + ·))).map (fun a => (a, match forwarded w.storeQ sp q.seq a with
        | some b => b.2
        | none => match sp with
          | .scratch => g.scratchByte a
          | .global => if s.inAperture a then BitVec.ofNat 8 (field (ap s (a / 4 * 4 - s.dapBase.toNat)).toNat (8 * (a % 4)) 8)
                       else s.readByte (s.wgKey g) a)))

/-- The older loads of a warp that have read nothing yet. -/
def Warp.unread (w : Warp) (seq : Nat) : List QEntry :=
  w.pending.filter (fun q => decide (q.seq < seq) && q.took.isEmpty && (match q.op with
    | .ld _ _ => (w.exec q.hdr) != 0
    | .ldtr _ _ _ _ _ => (w.exec q.hdr) != 0
    | _ => false))

/-- A load may complete before older loads of its warp: each of them can read its bytes now (R100 item 5, log 22). -/
def State.mayPass (ap : ApRead) (s : State) (g : Workgroup) (w : Warp) (seq : Nat) : Bool :=
  (w.unread seq).all (fun q => (s.readsNow ap g w q).isSome)

/-- The older loads read their bytes with a load that completes before them, so that loads appear in program order (R100 item 5). -/
def State.readOlder (ap : ApRead) (s : State) (g : Workgroup) (w : Warp) (seq : Nat) : Warp :=
  let f (q : QEntry) : QEntry := if (w.unread seq).contains q then { q with took := (s.readsNow ap g w q).getD [] } else q
  if (w.unread seq).isEmpty then w else { w with started := w.started.map f, queues := w.queues.map (List.map f) }

/-- The n bytes at an address that a load has read before its completion (R100 item 5), or else what it reads now. -/
def QEntry.readOr (e : QEntry) (a n now : Nat) : Nat :=
  if !e.took.isEmpty && (List.range n).all (fun i => e.took.any (fun b => b.1 == a + i)) then
    leNat ((List.range n).map (fun i => (((e.took.find? (fun b => b.1 == a + i)).map Prod.snd)).getD 0))
  else now

/-- An older access of its warp holds a load back: a store or atomic that has not completed and that it may not pass (R100 items 3 and 6), or a load
that it may not pass (item 5). -/
def State.loadBehind (ap : ApRead) (s : State) (g : Workgroup) (w : Warp) (seq : Nat) (sp : Space) (n : Nat) (locs : List Nat) : Bool :=
  !(s.pastStores g w seq sp n locs) || !(s.mayPass ap g w seq)

/-- A started load waits for an older store or atomic of its warp to complete, or for entries that cover some of its bytes to drain
(R100 item 3); for `LDTR` every older entry that names a byte drains first (R199). -/
def State.loadWaits (s : State) (g : Workgroup) (w : Warp) (e : QEntry) : Bool :=
  let waits (tr : Bool) : Bool := match w.accessOf g e with
    | none => w.olderMemPending e.seq false
    | some (sp, n, la) => match s.locate g sp la with
      | none => w.olderMemPending e.seq false
      | some locs => !(s.pastStores g w e.seq sp n locs) || locs.any (fun a => match meetQueue w.storeQ sp e.seq a n with
        | .memory => false
        | .bytes _ => tr
        | .partly => true)
  match e.op with
  | .ld _ _ => waits false
  | .ldtr _ _ _ _ _ => waits true
  | _ => false

/-- A started load that waits so holds the strand queue that it shares with its twin (R100 item 3, R18). -/
def State.queueHeld (s : State) (g : Workgroup) (w : Warp) (cl : Nat) : Bool := w.started.any (fun q => q.n % 8 == cl && s.loadWaits g w q)

/-- Drop fences that hold nothing back any more. -/
def Warp.tidyFences (w : Warp) : Warp :=
  { w with fences := w.fences.filter (fun f =>
      w.pending.any (fun e => decide (e.seq ≤ f.seq)) || w.storeQ.any (fun x => decide (x.seq ≤ f.seq))) }

/-- The order an access has under its memory-model revision (R97, R301): plain accesses of revision 2 acquire or release. -/
def effOrder (g : Workgroup) (sp : Space) (o : Order) : Order :=
  match sp, o with
  | .scratch, x => x
  | .global, .plain => if g.modelRev == 2 then .acqRel else .plain
  | .global, x => x

/-- What a load delivers, with its flags (R195). -/
def ldResult (k : LdKind) (v : Nat) : Word × Flags :=
  match k with
  | .b32 => (BitVec.ofNat 32 v, fNone)
  | .i8 => ((BitVec.ofNat 8 v).signExtend 32, fNone)
  | .z8 => ((BitVec.ofNat 8 v).zeroExtend 32, fNone)
  | .i16 => ((BitVec.ofNat 16 v).signExtend 32, fNone)
  | .z16 => ((BitVec.ofNat 16 v).zeroExtend 32, fNone)
  | .bf16 => widen .bf16 v
  | .f16 => widen .f16 v

/-- The bytes a store places, with its flags (R196). -/
def stResult (k : StKind) (actl : DWord) (v : Word) : Nat × Flags :=
  match k with
  | .b32 => (v.toNat, fNone)
  | .b16 => (v.toNat % 65536, fNone)
  | .b8 => (v.toNat % 256, fNone)
  | .bf16 => narrow .bf16 (actlRm actl) false (in32 (actlFtz actl) v)
  | .e4m3 => narrow .e4m3 (actlRm actl) true (in32 (actlFtz actl) v)

/-- The new word of an atomic (R197): m the old word, k the accumulator, l the latch. -/
def atomResult (a : AtomKind) (m k l : Word) : Word :=
  match a with
  | .iadd => m + k
  | .fadd => (out32 .rne false (addVal .rne (unpack .f32 m.toNat) (unpack .f32 k.toNat))).1
  | .imax => if m.toInt < k.toInt then k else m
  | .imin => if k.toInt < m.toInt then k else m
  | .zmax => if m.toNat < k.toNat then k else m
  | .zmin => if k.toNat < m.toNat then k else m
  | .and => m &&& k
  | .or => m ||| k
  | .xor => m ^^^ k
  | .xchg => k
  | .cas => if m == l then k else m

/-- Finish an instruction: flags into ASTAT (R62), presence bits it cleared set again (R22), counted (R342). -/
def State.finish (s : State) (g : Workgroup) (w : Warp) (e : QEntry) (f : Flags) : State :=
  let w1 := (w.markG e.clearedG).markP e.clearedP
  (s.put { g with astat := g.astat ||| f } w1).count g w.wid 2 1

/-- A load (R195). -/
def runLoad (ap : ApRead) (s : State) (g : Workgroup) (w : Warp) (e : QEntry) (k : LdKind) (m : MemOp) : Ran :=
  let x := w.exec e.hdr
  let size := k.size
  if x == 0 then .done (s.finish g w e fNone)
  else match checkAddrs g m size x (w.greg m.idx) with
    | .trap c va => .trap s c va accRead 0
    | .ok la =>
      let order := effOrder g m.space m.order
      match m.space with
      | .scratch =>
        match g.scratchFault (la.map Prod.snd) size with
        | some (c, a) => .trap s c a accRead 0
        | none =>
        if s.loadBehind ap g w e.seq .scratch size (la.map Prod.snd) || !w.fencesClear e.seq || la.any (fun a => s.bytesHeld g w e.seq a.2 size) then .wait
        else
          let met := la.map (fun a => (a, meetQueue w.storeQ .scratch e.seq a.2 size))
          if met.any (fun x => x.2 == .partly) then .wait
          else
            let vals := met.map (fun x => (x.1.1, e.readOr x.1.2 size (match x.2 with
              | .bytes bs => leNat bs
              | _ => g.scratchRead x.1.2 size)))
            let outs := vals.map (fun v => (v.1, ldResult k v.2))
            let fl := orFlags (outs.map (fun o => o.2.2))
            match flagTrap e.actl fl with
            | some c => .trap s c 0 accRead 0
            | none =>
              let r := writeAcc g (s.readOlder ap g w e.seq) e.n x (tab (fun l => ((outs.find? (fun o => o.1 == l)).map (fun o => o.2.1)).getD 0))
              .done (s.finish r.1 r.2 e fl)
      | .global =>
        match la.find? (fun a => s.watched g true false a.2 size && w.skipBp != some e.addr) with
        | some a => .trap s 0x12 a.2 accRead 0
        | none =>
          let t := State.xlatLanes g .read la { phys := [], trap := none, absent := none, st := s }
          match t.trap, t.absent with
          | some (c, va), _ => .trap t.st c va accRead 0
          | none, some va => .fault t.st va accRead
          | none, none =>
            if s.loadBehind ap g w e.seq .global size (t.phys.map Prod.snd) || !w.fencesClear e.seq then .wait
            else if order == .sc && w.storeQ.any (fun q => decide (q.seq < e.seq)) then .wait
            else
              let met := (la.zip t.phys).map (fun x => (x.1, x.2.2, meetQueue w.storeQ .global e.seq x.2.2 size))
              let bad (x : (Nat × Nat) × Nat × Meet) : Bool := t.st.marked x.2.1 || (x.2.2 == .memory && t.st.cutOff x.2.1)
              if met.any (fun x => x.2.2 == .partly) then .wait
              else match met.find? bad with
              | some x => .trap t.st 0x0D x.1.2 accRead 0
              | none =>
                let rd (pk : Nat) : Nat :=
                  if t.st.inAperture pk then field (ap t.st (pk / 4 * 4 - s.dapBase.toNat)).toNat (8 * (pk % 4)) (8 * size)
                  else t.st.readPhys (t.st.wgKey g) pk size
                let vals := met.map (fun x => (x.1.1, e.readOr x.2.1 size (match x.2.2 with
                  | .bytes bs => leNat bs
                  | _ => rd x.2.1)))
                let outs := vals.map (fun v => (v.1, ldResult k v.2))
                let fl := orFlags (outs.map (fun o => o.2.2))
                match flagTrap e.actl fl with
                | some c => .trap t.st c 0 accRead 0
                | none =>
                  let r := writeAcc g (t.st.readOlder ap g w e.seq) e.n x (tab (fun l => ((outs.find? (fun o => o.1 == l)).map (fun o => o.2.1)).getD 0))
                  .done (t.st.finish r.1 r.2 e fl)

/-- A store fills its queue entry (R196, R100): the highest lane's byte stands where lanes overlap. -/
def fillEntry (q : List StoreEntry) (seq : Nat) (bs : List (Nat × Byte)) (pages : List Nat) : List StoreEntry :=
  q.map (fun e => if e.seq == seq then { e with bytes := some (cellSetAll [] bs), pages := pages } else e)

/-- A store (R196): checked and converted in its cluster; its bytes drain later. -/
def runStore (s : State) (g : Workgroup) (w : Warp) (e : QEntry) (k : StKind) (m : MemOp) : Ran :=
  let x := w.exec e.hdr
  let size := k.size
  let drop : Warp := { w with storeQ := w.storeQ.filter (fun q => q.seq != e.seq) }
  if x == 0 then .done (s.finish g drop e fNone)
  else match checkAddrs g m size x (w.greg m.idx) with
    | .trap c va => .trap s c va accWrite 0
    | .ok la =>
      let acc := g.kval w e.n
      let outs := la.map (fun a => (a, stResult k e.actl (laneOf acc a.1)))
      let fl := orFlags (outs.map (fun o => o.2.2))
      let fin (s' : State) (locs pages : List Nat) : Ran :=
        match flagTrap e.actl fl with
        | some c => .trap s' c 0 accWrite 0
        | none =>
          let bytes := (outs.zip locs).flatMap (fun o => cellsFrom o.2 (leBytes size o.1.2.1))
          .done (s'.finish g { w with storeQ := fillEntry w.storeQ e.seq bytes pages } e fl)
      match m.space with
      | .scratch =>
        match la.find? (fun a => g.anyOrphan a.2 size) with
        | some a => .trap s 0x0F a.2 accWrite 0
        | none => fin s (la.map Prod.snd) []
      | .global =>
        match la.find? (fun a => s.watched g false true a.2 size && w.skipBp != some e.addr) with
        | some a => .trap s 0x12 a.2 accWrite 0
        | none =>
          let t := State.xlatLanes g .write la { phys := [], trap := none, absent := none, st := s }
          match t.trap, t.absent with
          | some (c, va), _ => .trap t.st c va accWrite 0
          | none, some va => .fault t.st va accWrite
          | none, none => fin t.st (t.phys.map Prod.snd) ((la.map (fun a => a.2 / 4096)).foldl addOnce [])

/-- Lanes of an atomic applied in ascending order to global words (R197). -/
def atomGlobal (ap : ApRead) (apw : ApWrite) (key : Nat) (k : AtomKind) (acc latch : Lanes) :
    List (Nat × Nat) → State → List (Nat × Word) → State × List (Nat × Word)
  | [], s, out => (s, out)
  | (l, pk) :: rest, s, out =>
    let old : Word := if s.inAperture pk then ap s (pk - s.dapBase.toNat) else BitVec.ofNat 32 (s.readPhys key pk 4)
    let new := atomResult k old (laneOf acc l) (laneOf latch l)
    let s' := if s.inAperture pk then apw s (pk - s.dapBase.toNat) new else s.writePhys key pk 4 new.toNat
    atomGlobal ap apw key k acc latch rest s' (out ++ [(l, old)])

/-- The same on scratchpad words. -/
def atomScratch (k : AtomKind) (acc latch : Lanes) : List (Nat × Nat) → Workgroup → List (Nat × Word) → Workgroup × List (Nat × Word)
  | [], g, out => (g, out)
  | (l, a) :: rest, g, out =>
    let old : Word := BitVec.ofNat 32 (g.scratchRead a 4)
    let new := atomResult k old (laneOf acc l) (laneOf latch l)
    atomScratch k acc latch rest (g.scratchWrite (cellsFrom a (leBytes 4 new.toNat))) (out ++ [(l, old)])

/-- An atomic (R197, R106): it waits until every older store of its warp has drained (R100 item 6). -/
def runAtom (ap : ApRead) (apw : ApWrite) (s : State) (g : Workgroup) (w : Warp) (e : QEntry) (k : AtomKind) (m : MemOp) : Ran :=
  let x := w.exec e.hdr
  let w' : Warp := { w with storeQ := w.storeQ.filter (fun q => q.seq != e.seq) }
  if x == 0 then .done (s.finish g w' e fNone)
  else match checkAddrs g m 4 x (w.greg m.idx) with
    | .trap c va => .trap s c va (accRead + accWrite + accAtomic) 0
    | .ok la =>
      let acc := g.kval w e.n
      let latch := w.latchOf e.n
      let ready := !(w.olderMemPending e.seq true) && w.fencesClear e.seq && !(w.storeQ.any (fun q => decide (q.seq < e.seq)))
      let write (s' : State) (g' : Workgroup) (out : List (Nat × Word)) : Ran :=
        let r := writeAcc g' w' e.n x (tab (fun l => ((out.find? (fun o => o.1 == l)).map Prod.snd).getD 0))
        .done (s'.finish r.1 r.2 e fNone)
      match m.space with
      | .scratch =>
        match g.scratchFault (la.map Prod.snd) 4 with
        | some (c, a) => .trap s c a (accRead + accWrite + accAtomic) 0
        | none =>
        if !ready || la.any (fun a => s.bytesHeld g w e.seq a.2 4) then .wait
        else
          let r := atomScratch k acc latch la g []
          write s r.1 r.2
      | .global =>
        match la.find? (fun a => s.watched g true true a.2 4 && w.skipBp != some e.addr) with
        | some a => .trap s 0x12 a.2 (accRead + accWrite + accAtomic) 0
        | none =>
          let t := State.xlatLanes g .atomic la { phys := [], trap := none, absent := none, st := s }
          match t.trap, t.absent with
          | some (c, va), _ => .trap t.st c va (accRead + accWrite + accAtomic) 0
          | none, some va => .fault t.st va (accRead + accWrite + accAtomic)
          | none, none =>
            match (la.zip t.phys).find? (fun p => t.st.marked p.2.2 || t.st.cutOff p.2.2) with
            | some p => .trap t.st 0x0D p.1.2 (accRead + accWrite + accAtomic) 0
            | none =>
              if !ready then .wait
              else
                let r := atomGlobal ap apw (t.st.wgKey g) k acc latch t.phys t.st []
                -- the aperture may have changed the workgroup itself: take it as it now stands
                let g' := (r.1.wg g.uid).getD g
                write r.1 g' r.2

/-- LDTR (R199). Its 0x05 and 0x04 name the byte or the base that breaks the limit (R330). A marked sector or an orphaned line is met before older
entries of the store queue drain, also where one of them would clear the mark (log 69). -/
def runLdtr (ap : ApRead) (s : State) (g : Workgroup) (w : Warp) (e : QEntry) (dst nb : Nat) (elem : Elem) (base stride : DWord) : Ran :=
  let x := w.exec e.hdr
  let b := base.toNat
  let n := ldtrWidth elem
  let ads := ldtrAddrs nb elem base stride x
  if x == 0 then .done (s.finish g w e fNone)
  else match ads.find? (fun a => decide (g.scratchSize < a + n)) with
  | some a => .trap s 0x05 (a % 2 ^ 64) accRead 0
  | none =>
    if b % ldtrAlign elem != 0 || stride.toNat % 64 != 0 then .trap s 0x04 b accRead 0
    else match g.scratchFault ads n with
    | some (c, a) => .trap s c a accRead 0
    | none =>
    if s.loadBehind ap g w e.seq .scratch n ads || !w.fencesClear e.seq || ads.any (fun a => s.bytesHeld g w e.seq a n) then .wait
    else if ads.any (fun a => meetQueue w.storeQ .scratch e.seq a n != .memory) then .wait
    else
      let w' := (List.range nb).foldl (fun (w : Warp) i =>
        w.setG (dst + i) x (tab (fun l =>
          let a := ldtrByte elem b stride.toNat i l
          BitVec.ofNat 32 (e.readOr a n (g.scratchRead a n))))) (s.readOlder ap g w e.seq)
      .done (s.finish g w' e fNone)

end Sys2Proof.Machine
end

