-- ==== Sys2Proof/Machine/Special.lean ====
section
/-!
DEFINITION. The special registers (R58 to R64, R209): what each index reads in a lane, which may be written, and what a write
does.
-/
namespace Sys2Proof.Machine

/-- A loop counter (R55). -/
def Warp.lc (w : Warp) (n : Nat) : Word := nth 0#32 w.uni.lc n

/-- `ECNT` (R64): six bits a class. -/
def Warp.ecnt (w : Warp) : Nat := (List.range 7).foldl (fun a c => a + nth 0 w.ectr c % 64 * 2 ^ (6 * c)) 0

/-- `MMREV` (R64), from the header. -/
def Workgroup.mmrev (g : Workgroup) : Nat := g.modelRev + 16 * g.encRev + (if g.compat16 then 256 else 0)

/-- `LANDST` (R63). -/
def Workgroup.landst (g : Workgroup) : Nat := 65536 * min g.drops 65535 + (if g.lost then 1 else 0)

/-- The op8 of an engine operation (R131). -/
def EngKind.op8 : EngKind → Nat
  | .cpy _ _ _ _ _ _ _ _ => 0x40
  | .cpyo _ _ _ _ _ => 0x41
  | .kbind _ _ _ => 0x42
  | .kfree => 0x43
  | .mzero _ => 0x44
  | .mma _ _ _ _ _ => 0x45
  | .msamp _ _ _ _ _ _ => 0x46
  | .mstat _ => 0x47
  | .acheck _ _ => 0x48
  | .adrain _ _ _ _ _ => 0x49
  | .lsupd _ _ => 0x4A
  | .treg _ _ _ => 0x50
  | .tdrop _ => 0x51
  | .tmove _ _ _ => 0x52
  | .solicit _ _ _ _ _ _ => 0x53
  | .reply => 0x54
  | .chsend _ _ => 0x58
  | .chrecv _ _ => 0x59
  | .spawn _ _ => 0x5C
  | .launch _ _ => 0x5D
  | .sld _ _ _ _ => 0x60
  | .sst _ _ _ _ => 0x61
  | .pmrd _ _ => 0x70
  | .pmctl _ _ => 0x71

/-- Class numbers in the order of R57, for the search of `PROG`. -/
def engClasses : List EngClass := [.cpy, .mat, .drn, .cen, .chn, .ldx, .spw]

/-- The operation that `PROG` reports (R209): the oldest stopped one, else the oldest of the lowest class. -/
def Warp.progOp (w : Warp) : Option EngOp :=
  match w.ops.find? (fun o => o.prog.stopped) with
  | some o => some o
  | none => (engClasses.filterMap (fun c => w.ops.find? (fun o => o.kind.cls == some c))).head?

/-- POS as PROG counts it (R209). -/
def EngOp.progPos (o : EngOp) : Nat :=
  match o.kind with
  | .cpy _ _ _ _ _ _ _ _ | .cpyo _ _ _ _ _ | .msamp _ _ _ _ _ _ | .tmove _ _ _ => o.prog.pos
  | .solicit _ _ _ _ _ _ => o.prog.census.getD 0
  | _ => 0

/-- PHASE as PROG counts it (R209). -/
def EngOp.progPhase (o : EngOp) : Nat :=
  match o.kind with
  | .msamp _ _ _ _ _ _ => o.prog.phase % 16
  | _ => 0

/-- `PROG` (R209). -/
def Warp.prog (w : Warp) : Nat :=
  match w.progOp with
  | none => 0
  | some o => ((o.kind.cls.map classIdx).getD 0 + 1) * 2 ^ 60 + o.kind.op8 * 2 ^ 52 + o.progPhase * 2 ^ 48 + o.progPos % 2 ^ 48

/-- Indices reserved to service kernels (R59). -/
def srService (i : Nat) : Bool := (0x20 ≤ i && i ≤ 0x31) || i == 0x33 || i == 0x34
/-- Indices that `SWR` may write (R59). -/
def srWritable (i : Nat) : Bool := i == 0x0D || i == 0x0E || i == 0x13 || i == 0x14 || (0x15 ≤ i && i ≤ 0x17) || (0x20 ≤ i && i ≤ 0x30)

/-- What a special register reads in lane l (R59 to R64); a reserved index reads zero (R58). `CLKLO` gives the whole count and
`CLKHI` its upper half; the latch of R60 is the business of `RDSR`. -/
def State.srRead (s : State) (g : Workgroup) (w : Warp) (i l : Nat) : Nat :=
  match i with
  | 0x00 => if g.compat16 then l % 16 else l
  | 0x01 => nth 0 w.tids l
  | 0x02 => w.wid
  | 0x03 => g.lin % g.nwg.1
  | 0x04 => g.lin / g.nwg.1 % g.nwg.2.1
  | 0x05 => g.lin / (g.nwg.1 * g.nwg.2.1)
  | 0x06 => g.rank
  | 0x07 => g.gangSize
  | 0x08 => g.nwg.1
  | 0x09 => g.nwg.2.1
  | 0x0A => g.nwg.2.2
  | 0x0B => if g.compat16 then 16 else 32
  | 0x0C => w.uni.part
  | 0x0D => w.uni.actl.toNat
  | 0x0E => g.astat.toNat
  | 0x0F => s.clk % 2 ^ 64
  | 0x10 => s.clk / 2 ^ 32 % 2 ^ 32
  | 0x11 => g.core
  | 0x12 => g.die
  | 0x13 => g.seed.toNat
  | 0x14 => g.landst
  | 0x15 => (w.lc 0).toNat
  | 0x16 => (w.lc 1).toNat
  | 0x17 => (w.lc 2).toNat
  | 0x18 => g.poolFree
  | 0x19 => 4 * w.granules
  | 0x1A => w.ecnt
  | 0x1B => w.lscale.toNat
  | 0x1C => w.trapCode
  | 0x1D => w.trapAddr.toNat
  | 0x30 => w.fepc.toNat
  | 0x31 => g.asid
  | 0x32 => g.mmrev
  | 0x33 => g.ctxid
  | 0x34 => w.prog
  | _ => if 0x20 ≤ i && i ≤ 0x2F then (nth 0#64 w.spc (i - 0x20)).toNat else 0

/-- What `RDSR` delivers, and the warp with the latch of R60 as the read leaves it. -/
def State.rdsrRead (s : State) (g : Workgroup) (w : Warp) (i : Nat) : Lanes × Warp :=
  if i == 0x0F then
    (tab (fun _ => BitVec.ofNat 32 s.clk), { w with clkHi := some (BitVec.ofNat 32 (s.clk / 2 ^ 32)) })
  else if i == 0x10 then
    (tab (fun _ => w.clkHi.getD (BitVec.ofNat 32 (s.clk / 2 ^ 32))), { w with clkHi := none })
  else (tab (fun l => BitVec.ofNat 32 (s.srRead g w i l)), w)

/-- What `SRD` delivers: a per-lane register gives the lowest active lane's value (R58). -/
def State.srdRead (s : State) (g : Workgroup) (w : Warp) (i : Nat) : DWord :=
  BitVec.ofNat 64 (s.srRead g w i ((lanesIn w.active).headD 0))

/-- A record's `SPC`n or `FEPC` written. -/
def TrapRec.putSpc (r : TrapRec) (n : Nat) (v : DWord) : TrapRec := { r with spc := setNth 0#64 r.spc n v }
def TrapRec.putFepc (r : TrapRec) (v : DWord) : TrapRec := { r with fepc := v }

/-- What `SWR` does with a writable index (R58, R61 to R63, R26). A record's address has bit 0 clear; in handler mode the write reaches the
record that RTE resumes from (R193, R203). -/
def srWrite (g : Workgroup) (w : Warp) (i : Nat) (v : DWord) : Workgroup × Warp :=
  let lo := v.extractLsb' 0 32
  let rec' := v &&& ~~~(1#64)
  match i with
  | 0x0D => (g, { w with uni := { w.uni with actl := v &&& actlMask } })
  | 0x0E => ({ g with astat := v.extractLsb' 0 5 }, w)
  | 0x13 => ({ g with seed := lo }, w)
  | 0x14 => (if v.getLsbD 0 then { g with drops := 0, lost := false } else g, w)
  | 0x15 => (g, { w with uni := { w.uni with lc := setNth 0#32 w.uni.lc 0 lo } })
  | 0x16 => (g, { w with uni := { w.uni with lc := setNth 0#32 w.uni.lc 1 lo } })
  | 0x17 => (g, { w with uni := { w.uni with lc := setNth 0#32 w.uni.lc 2 lo } })
  | 0x30 => (g, { w with fepc := rec', held := w.held.map (fun r => r.putFepc rec') })
  | _ => (g, if 0x20 ≤ i && i ≤ 0x2F then
      { w with spc := setNth 0#64 w.spc (i - 0x20) rec', held := w.held.map (fun r => r.putSpc (i - 0x20) rec') } else w)

end Sys2Proof.Machine
end

