-- ==== Sys2Proof/Machine/Former.lean ====
section
/-!
DEFINITION. The former (R31 to R36, R277, R279) and the register pool (R38, R39): depositing threads, building warps from
bins, serving claims.
-/
namespace Sys2Proof.Machine

/-- Bytes a thread takes in the hamper or the overflow area (R277). -/
def Thread.bytes (t : Thread) : Nat := 136 + 4 * t.g.length
/-- Bytes a bin takes with its key (R277). -/
def Bin.bytes (b : Bin) : Nat := 640 + (b.threads.map Thread.bytes).sum

/-- Hamper bytes in use on a workgroup's core, the workgroup itself as given (R35). -/
def State.hamperUsed (s : State) (g : Workgroup) : Nat :=
  ((s.wgs.filter (fun x => x.uid != g.uid && x.residence == .resident && x.coreIdx == g.coreIdx)).map
    (fun x => (x.bins.map Bin.bytes).sum)).sum + (g.bins.map Bin.bytes).sum

/-- Period of a bin timer (R33). -/
def Workgroup.binPeriod (g : Workgroup) : Nat := 2 ^ (7 + g.timerExp)

/-- A new bin of a workgroup (R33): its timer starts, or stands at its whole period while the former is still. -/
def Workgroup.newBin (g : Workgroup) (clk : Nat) (key : BinKey) (ts : List Thread) : Bin :=
  { key := key, threads := ts, deadline := clk + g.binPeriod, rest := if g.formerStill then some g.binPeriod else none, expired := false,
    swept := false }

/-- Add threads to the bin with a key. -/
def addToBin (bs : List Bin) (key : BinKey) (ts : List Thread) : List Bin :=
  updateFirst (fun b => b.key == key) (fun b => { b with threads := b.threads ++ ts }) bs

/-- A deposit into the hamper, or else into the overflow area (R31, R35); none when neither can take it. The flag tells that it
went to the overflow area. -/
def State.deposit (s : State) (g : Workgroup) (key : BinKey) (ts : List Thread) : Option (Workgroup × Bool) :=
  let need := (ts.map Thread.bytes).sum
  let used := s.hamperUsed g
  if ts.isEmpty then some (g, false)
  else if g.bins.any (fun b => b.key == key) && decide (used + need ≤ Config.hamperBytes) then
    some ({ g with bins := addToBin g.bins key ts }, false)
  else if !(g.bins.any (fun b => b.key == key)) && decide (g.bins.length < g.binsMax) && decide (used + need + 640 ≤ Config.hamperBytes) then
    some ({ g with bins := g.bins ++ [g.newBin s.clk key ts] }, false)
  else
    let area := (g.held.map Bin.bytes).sum
    if g.held.any (fun b => b.key == key) then
      if area + need ≤ g.ovflSize then some ({ g with held := addToBin g.held key ts }, true) else none
    else if area + need + 640 ≤ g.ovflSize then some ({ g with held := g.held ++ [g.newBin s.clk key ts] }, true)
    else none

/-- Loops that a taken branch to an address leaves active (R177): a body that does not hold the target goes with every loop
inside it. -/
def popLoops : List LoopFrame → BitVec 48 → List LoopFrame
  | [], _ => []
  | f :: rest, a => if f.start.toNat ≤ a.toNat && a.toNat ≤ f.stop.toNat then f :: popLoops rest a else []

/-- The threads of some lanes as a deposit saves them: granules of the bitmap `live` below the warp's count (R31). -/
def Warp.threadsOf (w : Warp) (x : LaneSet) (live : Nat) (split : Option Nat) : List Thread :=
  let regs := ((List.range w.granules).filter (fun i => live / 2 ^ i % 2 == 1)).flatMap (fun i => [4 * i, 4 * i + 1, 4 * i + 2, 4 * i + 3])
  (lanesIn x).map (fun l =>
    { tid := nth 0 w.tids l, census := nth none w.census l, split := split.map (fun u => (u, l)),
      g := regs.map (fun r => (r, laneOf (w.greg r) l)),
      k := (List.range 16).map (fun n => laneOf (nth zeroLanes w.k n) l),
      latch := (List.range 16).map (fun n => laneOf (w.latchOf n) l),
      p := BitVec.ofNat 8 ((List.range 8).foldl (fun a y => if y != 0 && (w.pred y).getLsbD l then a + 2 ^ y else a) 0) })

/-- A thread with base granules of zeros, its first registers given (R37, R242). -/
def newThread (base tid : Nat) (census : Option Nat) (first : List Word) : Thread :=
  { tid := tid, census := census, split := none, g := (List.range (4 * base)).map (fun r => (r, nth 0#32 first r)),
    k := List.replicate 16 0, latch := List.replicate 16 0, p := 0 }

/-- The key of a deposit of a warp's own threads at an address (R31). -/
def Warp.binKey (w : Warp) (a : BitVec 48) : BinKey := { addr := a, uni := { w.uni with loops := popLoops w.uni.loops a } }

/-- R32: a warp with a bound accumulator or claimed granules does not deposit its own threads. -/
def Warp.mayDeposit (w : Warp) (g : Workgroup) : Bool := w.bind.all Option.isNone && w.granules == g.baseGranules

/-- Threads that fill a warp (R33, R279). -/
def Workgroup.warpThreads (g : Workgroup) : Nat := if g.compat16 then 16 else 32

/-- Every warp with an active thread stands at a barrier, and there is one (R33). -/
def Workgroup.allAtBarrier (g : Workgroup) : Bool :=
  let ws := g.warps.filter (fun w => w.active != 0)
  !ws.isEmpty && ws.all (fun w => w.block == .bar || w.block == .gbar)

/-- The threads of a bin that no split deposited. -/
def Bin.plain (b : Bin) : List Thread := b.threads.filter (fun t => t.split.isNone)

/-- The timer or the barrier trigger forms every thread of a bin (R33). -/
def Workgroup.full (g : Workgroup) (b : Bin) : Bool := b.expired || b.swept || g.allAtBarrier

/-- A bin holds the half-group of one split and nothing else: it waits for the timer or the barrier, whatever its size (R304, log 52). -/
def Bin.loneSplit (b : Bin) : Bool :=
  match b.threads.findSome? Thread.split with
  | none => false
  | some (u, _) => b.threads.all (fun t => (t.split.map Prod.fst) == some u)

/-- The size trigger (R33, R279). -/
def Workgroup.sizeDue (g : Workgroup) (b : Bin) : Bool := decide (g.warpThreads ≤ b.threads.length) && !b.loneSplit

/-- Why a bin is formed (R33). -/
def Workgroup.triggered (g : Workgroup) (b : Bin) : Bool := !b.threads.isEmpty && (g.sizeDue b || g.full b)

/-- The barrier trigger takes every non-empty bin at once (R33): what it has taken stays taken after the first of the warps is built. -/
def Workgroup.sweep (g : Workgroup) : Workgroup :=
  let f (b : Bin) : Bin := { b with swept := true }
  if g.allAtBarrier then { g with bins := g.bins.map f, held := g.held.map f } else g

/-- A warp that a split's half-group was built into (R303). -/
def Warp.ofSplit (w : Warp) : Bool := w.reserveGranules != 0

/-- A warp slot of the workgroup is free (R57: a slot with operations outstanding is not). Of the 2·W slots under compat16 the other warps
take no more than W, so that a split's half-group finds one while no more than W warps have split (R303). -/
def Workgroup.slotFree (g : Workgroup) (split : Bool) : Bool :=
  decide (g.warps.length + g.ghosts.length < g.slotTotal)
    && (split || decide (((g.warps ++ g.ghosts).filter (fun w => !w.ofSplit)).length < g.maxWarps))

/-- The group of the first split in a bin, with its former lanes (R279). -/
def splitGroup (ts : List Thread) : Option (List (Nat × Thread)) :=
  match ts.findSome? Thread.split with
  | none => none
  | some (u, _) => some ((ts.filter (fun t => (t.split.map Prod.fst) == some u)).map (fun t => (((t.split.map Prod.snd).getD 16), t)))

/-- The threads that one formation takes, with their lanes: a split's half-group in its former lanes; otherwise the first ones in
ascending lanes from 0 (log 18). -/
def Workgroup.formTake (g : Workgroup) (b : Bin) (split : Bool) : List (Nat × Thread) :=
  if split then (splitGroup b.threads).getD [] else (b.plain.take g.warpThreads).zipIdx.map (fun p => (p.2, p.1))

/-- A split's half-group of a bin is due, with a slot for it, and the reserve holds its granules (R303). The size trigger takes it where
the other threads do not fill a warp (R279). -/
def Workgroup.splitDue (g : Workgroup) (b : Bin) : Bool :=
  (g.full b || (g.sizeDue b && decide (b.plain.length < g.warpThreads))) && (splitGroup b.threads).isSome && g.slotFree true
    && decide (g.baseGranules ≤ g.splitReserve)

/-- The threads of a bin that no split deposited are due, with a slot for a warp of them (R33). -/
def Workgroup.plainDue (g : Workgroup) (b : Bin) : Bool :=
  !b.plain.isEmpty && (g.full b || decide (g.warpThreads ≤ b.plain.length)) && g.slotFree false

/-- A warp as the former builds it (R34): state restored, the rest zero, every presence bit set, on `k0` unguarded. R34 and R66 give no
TRAPCODE, TRAPADDR, SPC, FEPC and CLKHI latch of a warp that the former builds: it has those of a launched one (log 53). -/
def Workgroup.buildWarp (g : Workgroup) (wid age reserve : Nat) (key : BinKey) (lt : List (Nat × Thread)) : Warp :=
  let thr (l : Nat) : Option Thread := (lt.find? (fun p => p.1 == l)).map Prod.snd
  let vals (f : Thread → Word) : Lanes := tab (fun l => ((thr l).map f).getD 0)
  { wid := wid, age := age, active := laneSet (fun l => (thr l).isSome),
    tids := laneNums.map (fun l => ((thr l).map Thread.tid).getD 0),
    census := laneNums.map (fun l => (thr l).bind Thread.census),
    granules := g.baseGranules, reserveGranules := reserve,
    g := (List.range 252).map (fun r => vals (fun t => ((t.g.find? (fun x => x.1 == r)).map Prod.snd).getD 0)),
    k := (List.range 16).map (fun n => vals (fun t => nth 0#32 t.k n)),
    latch := (List.range 16).map (fun n => vals (fun t => nth 0#32 t.latch n)),
    p := (List.range 8).map (fun y => if y == 0 then allLanes else laneSet (fun l => ((thr l).map (fun t => t.p.getLsbD y)).getD false)),
    presG := BitVec.allOnes 256, presP := BitVec.allOnes 8,
    bind := List.replicate 16 none, mstat := List.replicate 16 noStat,
    ectr := List.replicate 8 0, pc := key.addr, hdr := hdrK0, uni := key.uni, seq := 0,
    queues := List.replicate 8 [], started := [], ops := [], reports := [], storeQ := [], fences := [],
    spc := List.replicate 16 (packPc hdrK0 0), fepc := packPc hdrK0 0, trapCode := 0, trapAddr := 0,
    held := none, resume := none, block := .none, stopping := none, halted := false, stopped := false,
    dataFault := none, fetchFault := none, clkHi := none, lscale := 0, skipBp := none, stepping := none, haltWait := [], passed := 2 }

/-- Every bin, the hamper's before the overflow area's; an index into this list names a bin in a step. -/
def Workgroup.allBins (g : Workgroup) : List Bin := g.bins ++ g.held

/-- A bin after a formation took threads: it goes when empty, else its timer restarts (R33). -/
def Bin.after (b : Bin) (taken : List Thread) (deadline : Nat) : Option Bin :=
  let rest := b.threads.filter (fun t => !(taken.any (fun u => u.tid == t.tid)))
  if rest.isEmpty then none else some { b with threads := rest, deadline := deadline, expired := false, rest := none }

/-- Replace the bin with a key in a list by what is left of it. -/
def binsAfter (bs : List Bin) (key : BinKey) (taken : List Thread) (deadline : Nat) : List Bin :=
  bs.filterMap (fun b => if b.key == key then b.after taken deadline else some b)

/-- Build one warp from a bin (R34); granules come from the pool, or from the split reserve for a split's half-group (R303). Its WID is
the lowest that no warp of the workgroup holds, a freed slot with operations outstanding counted as held (R57, R66, log 54). -/
def State.formFrom (s : State) (g0 : Workgroup) (b : Bin) (split : Bool) : State :=
  let g := g0.sweep
  match leastFree g.slotTotal 0 ((g.warps ++ g.ghosts).map Warp.wid) with
  | none => s.setWg g
  | some wid =>
    let take := g.formTake b split
    let n := s.fresh
    let w := g.buildWarp wid n.1 (if split then g.baseGranules else 0) b.key take
    let dl := s.clk + g.binPeriod
    let inHamper := g.bins.any (fun x => x.key == b.key && x.threads == b.threads)
    let g' := { g with
      warps := g.warps ++ [w],
      poolFree := if split then g.poolFree else g.poolFree - g.baseGranules,
      splitReserve := if split then g.splitReserve - g.baseGranules else g.splitReserve,
      bins := if inHamper then binsAfter g.bins b.key (take.map Prod.snd) dl else g.bins,
      held := if inHamper then g.held else binsAfter g.held b.key (take.map Prod.snd) dl }
    (n.2.setWg g').count g' wid 0x12 1

/-- A formation that is due (R33, R34): built at once, or its request joins the pool queue (R38). -/
def State.tryForm (s : State) (g : Workgroup) (b : Bin) : State :=
  if g.formerStill || !g.triggered b then s.setWg g
  else if g.splitDue b then s.formFrom g b true
  else if !g.plainDue b || g.poolQ.any (fun r => r == .form b.key) then s.setWg g
  else if g.poolQ.isEmpty && decide (g.baseGranules ≤ g.poolFree) then s.formFrom g b false
  else s.setWg { g with poolQ := g.poolQ ++ [.form b.key] }

/-- Grant a claim (R38, R185): new registers read zero and are present. -/
def Warp.claim (w : Warp) (n : Nat) : Warp :=
  let regs := (List.range (4 * n)).map (· + 4 * w.granules)
  let w' := w.markG regs
  { w' with g := regs.foldl (fun gs r => setNth zeroLanes gs r zeroLanes) w'.g, granules := w.granules + n }

/-- Serve the head of the pool queue when it can be met (R38). -/
def State.servePool (s : State) (g : Workgroup) : State :=
  match g.poolQ with
  | [] => s.setWg g
  | .claim wid n :: rest =>
    match g.warp wid with
    | none => s.setWg { g with poolQ := rest }
    | some w =>
      if n ≤ g.poolFree then
        s.put { g with poolQ := rest, poolFree := g.poolFree - n } (w.claim n).passBlock
      else s.setWg g
  | .form key :: rest =>
    match g.allBins.find? (fun b => b.key == key && !b.plain.isEmpty) with
    | none => s.setWg { g with poolQ := rest }
    | some b =>
      if g.formerStill || !g.slotFree false then s.setWg g
      else if g.baseGranules ≤ g.poolFree then s.formFrom { g with poolQ := rest } b false
      else s.setWg g

/-- Whether the head of the pool queue can be met now. -/
def Workgroup.poolReady (g : Workgroup) : Bool :=
  match g.poolQ with
  | [] => false
  | .claim wid n :: _ => (g.warp wid).isNone || decide (n ≤ g.poolFree)
  | .form key :: _ =>
    (g.allBins.find? (fun b => b.key == key && !b.plain.isEmpty)).isNone
      || (!g.formerStill && g.slotFree false && decide (g.baseGranules ≤ g.poolFree))

/-- The claim deadlock predicate (R39). -/
def Workgroup.claimStuck (g : Workgroup) : Bool :=
  let ws := g.warps.filter (fun w => w.active != 0)
  let isClaim (w : Warp) : Bool := match w.block with
    | .claim _ => true
    | .none | .bar | .gbar => false
  ws.all (fun w => (isClaim w || w.block == .bar) && !w.halted && w.stopping.isNone && !w.stopped) && ws.any isClaim
    && (match g.poolQ with
        | .claim _ n :: _ => decide (g.poolFree < n)
        | .form _ :: _ => decide (g.poolFree < g.baseGranules)
        | [] => false)
    && g.allBins.all (fun b => b.threads.isEmpty)

/-- Move held threads into the hamper (R35): those whose key matches a bin in use join it, and else the oldest held key takes a free
bin, with the timer that it has (log 55). -/
def State.promoteHeld (s : State) (g : Workgroup) : Option Workgroup :=
  let used := s.hamperUsed g
  let inUse (b : Bin) : Bool := g.bins.any (fun x => x.key == b.key)
  match g.held.find? (fun b => inUse b && decide (used + (b.bytes - 640) ≤ Config.hamperBytes)) with
  | some b => some { g with held := g.held.filter (fun x => x.key != b.key), bins := addToBin g.bins b.key b.threads }
  | none =>
    match g.held.find? (fun b => !(inUse b)) with
    | none => none
    | some b =>
      if decide (g.bins.length < g.binsMax) && decide (used + b.bytes ≤ Config.hamperBytes) then
        some { g with held := g.held.filter (fun x => x.key != b.key), bins := g.bins ++ [b] }
      else none

/-- The threads of some lanes leave a warp. -/
def Warp.dropLanes (w : Warp) (x : LaneSet) : Warp := { w with active := w.active &&& ~~~x }

end Sys2Proof.Machine
end

