-- ==== Sys2Proof/Machine/Aperture.lean ====
section
/-!
DEFINITION. The dump aperture (R335, R336, R344, R365): reading a word of a workgroup slot's window and writing one, and byte
accesses to physical memory that meet the aperture.
-/
namespace Sys2Proof.Machine

/-- Bytes of one window, of a core's windows, of a die's (R335). -/
def apSlotSpan : Nat := 2 ^ 23

/-- The resident workgroup of a window. -/
def State.windowWg (s : State) (die core slot : Nat) : Option Workgroup :=
  s.wgs.find? (fun g => g.residence == .resident && g.die == die && g.core == core && g.slot == slot)

/-- The swapped-out workgroup that holds a window's name; of several contexts the lowest CTXID (R365). -/
def State.windowAway (s : State) (die core slot : Nat) : Option Workgroup :=
  (s.wgs.filter (fun g => g.residence != .resident && g.die == die && g.core == core && g.slot == slot)).foldl
    (fun a g => match a with
      | none => some g
      | some b => if g.ctxid < b.ctxid then some g else some b) none

/-- State number of a resident workgroup (R335, R344). -/
def Workgroup.apState (g : Workgroup) : Nat :=
  if g.warps.any Warp.stopped || g.stop != .none then 3
  else if !g.warps.isEmpty && g.warps.all Warp.halted then 2
  else 1

/-- Only in states 2 and 3 does a window show and take the workgroup's state. -/
def Workgroup.apOpen (g : Workgroup) : Bool := g.apState == 2 || g.apState == 3

/-- A number with one bit for each index of a list that a test picks. -/
def bitmapOf (f : Nat → Bool) (n : Nat) : Nat := (List.range n).foldl (fun a i => if f i then a + 2 ^ i else a) 0

/-- The state word (R336). -/
def apStateWord (g : Workgroup) (st : Nat) : Nat := g.ctxid + g.asid * 2 ^ 16 + st * 2 ^ 32

/-- FORM as its field (R56). -/
def cvFormCode : CvForm → Nat
  | .idle => 0
  | .solo => 1
  | .quartet => 2

/-- A doubleword of the workgroup block (R336). -/
def State.apGroupD (s : State) (g : Workgroup) (off : Nat) : Nat :=
  let grid := s.grids.find? (fun x => x.uid == g.grid)
  if off == 0x000 then g.header.toNat
  else if off == 0x008 then apStateWord g g.apState
  else if off == 0x010 then (grid.map Grid.queue).getD 0 + (grid.map Grid.index).getD 0 * 2 ^ 16
  else if off == 0x018 then g.lin + g.rank * 2 ^ 32 + g.gangSize * 2 ^ 36
  else if off == 0x020 then g.poolFree % 1024 + g.poolQ.length % 64 * 2 ^ 16
  else if off == 0x028 then g.astat.toNat
  else if off == 0x030 then g.seed.toNat
  else if off == 0x038 then g.landst
  else if off == 0x040 then g.barArrived + g.liveThreads * 2 ^ 11 + g.gbarArrivedThreads * 2 ^ 22 + (if g.gbarArrived then 2 ^ 33 else 0)
  else if off == 0x048 then
    bitmapOf (fun i => g.warps.any (fun w => w.wid == i && w.active != 0)) 32
      + bitmapOf (fun i => g.warps.any (fun w => w.wid == i && (w.halted || w.stopped))) 32 * 2 ^ 32
  else if 0x080 ≤ off && off < 0x100 then
    match g.cv[(off - 0x080) / 16]? with
    | none => 0
    | some c => if off % 16 == 0 then c.members.toNat + c.signed.toNat * 2 ^ 32 else c.signs % 64 + cvFormCode c.form * 64
  else if 0x100 ≤ off && off < 0x200 then
    let entry (j : Nat) : Nat := match g.poolQ[j]? with
      | none => 0
      | some (.claim wid n) => wid + n * 256
      | some (.form _) => (leastFree g.slotTotal 0 ((g.warps ++ g.ghosts).map Warp.wid)).getD 0 + g.baseGranules * 256
    entry ((off - 0x100) / 4) + entry ((off - 0x100) / 4 + 1) * 2 ^ 32
  else if 0x400 ≤ off && off < 0x800 then
    let b := (off - 0x400) / 16
    match g.allBins[b]? with
    | none => 0
    | some x =>
      if off % 16 == 0 then x.key.addr.toNat + x.threads.length * 2 ^ 48
      else x.rest.getD (x.deadline - s.clk) % 2 ^ 32 + (if g.bins.length ≤ b then 2 ^ 32 else 0)
  else if 0x800 ≤ off && off < 0x900 then
    bitmapOf (fun i => decide ((8 * (off - 0x800) + i) * 256 < g.scratchSize) && !(g.absent.contains (8 * (off - 0x800) + i))) 64
  else if 0x900 ≤ off && off < 0xA00 then bitmapOf (fun i => g.orphan.contains (8 * (off - 0x900) + i)) 64
  else 0

/-- Extent of a tile as its field (R336). -/
def dimCode (n : Nat) : Nat := if n == 16 then 0 else if n == 32 then 1 else 2

/-- The predicates of a lane as the byte of R336. -/
def Warp.predByte (w : Warp) (l : Nat) : Nat := bitmapOf (fun y => y != 0 && (w.pred y).getLsbD l) 8

/-- A doubleword of a warp block (R336). -/
def Warp.apD (w : Warp) (off : Nat) : Nat :=
  if off < 0x080 then (nth 0#64 w.spc (off / 8)).toNat
  else if off == 0x080 then w.fepc.toNat
  else if off == 0x088 then w.trapCode + (if w.uni.handler then 256 else 0) + (if w.halted then 512 else 0) + (if w.stopped then 1024 else 0)
  else if off == 0x090 then w.trapAddr.toNat
  else if off == 0x098 then w.granules + w.uni.part * 256 + (w.uni.actl.toNat % 128) * 65536
  else if off == 0x0A0 then w.ecnt
  else if off == 0x0A8 then w.prog
  else if off == 0x0B0 then w.active.toNat
  else if off == 0x0B8 then (w.lc 0).toNat + (w.lc 1).toNat * 2 ^ 32
  else if off == 0x0C0 then (w.lc 2).toNat + w.uni.loops.length * 2 ^ 32
  else if 0x0C8 ≤ off && off < 0x0E8 then bitmapOf (fun i => decide (8 * (off - 0x0C8) + i < 252) && w.gPresent (8 * (off - 0x0C8) + i)) 64
  else if off == 0x0E8 then bitmapOf (fun y => y != 0 && w.pPresent y) 8
  else if 0x100 ≤ off && off < 0x180 then
    let t (l : Nat) : Nat := if w.active.getLsbD l then nth 0 w.tids l else 0xFFFFFFFF
    t ((off - 0x100) / 4) + t ((off - 0x100) / 4 + 1) * 2 ^ 32
  else if 0x180 ≤ off && off < 0x1A0 then leNat ((List.range 8).map (fun i => BitVec.ofNat 8 (w.predByte (off - 0x180 + i))))
  else if 0x200 ≤ off && off < 0x400 then (w.sreg ((off - 0x200) / 8)).toNat
  else if 0x400 ≤ off && off < 0x480 then
    match nth none w.bind ((off - 0x400) / 8) with
    | none => 0
    | some b => 1 + b.slot * 256 + dimCode b.m * 2 ^ 16 + dimCode b.n * 2 ^ 18 + b.win * 2 ^ 24
  else 0

/-- The word of a doubleword that an aligned offset names. -/
def halfOf (d off : Nat) : Word := BitVec.ofNat 32 (field d (8 * (off % 8)) 32)

/-- A word of a warp block (R336). Of a freed slot whose operations run on to retirement it shows their counters and progress (R57, R345). -/
def Workgroup.apBlock (g : Workgroup) (wid off : Nat) : Word :=
  match g.warp wid with
  | some w => halfOf (w.apD (off / 8 * 8)) off
  | none => match g.ghosts.find? (fun w => w.wid == wid) with
    | some w => if off / 8 * 8 == 0x0A0 || off / 8 * 8 == 0x0A8 then halfOf (w.apD (off / 8 * 8)) off else 0
    | none => 0

/-- A word of an open window (R336). -/
def State.apWord (s : State) (g : Workgroup) (off : Nat) : Word :=
  let ofWarp (wid : Nat) (f : Warp → Word) : Word := match g.warp wid with
    | none => 0
    | some w => f w
  if off < 0x1000 then halfOf (s.apGroupD g (off / 8 * 8)) off
  else if off < 0x21000 then g.apBlock ((off - 0x1000) / 0x1000) (off % 0x1000)
  else if 0x40000 ≤ off && off < 0x60000 then
    ofWarp ((off - 0x40000) / 0x1000) (fun w =>
      let o := off % 0x1000
      if o < 0x800 then laneOf (g.kval w (o / 128)) (o % 128 / 4) else laneOf (w.latchOf ((o - 0x800) / 128)) (o % 128 / 4))
  else if 0x80000 ≤ off && off < 0x180000 then
    ofWarp ((off - 0x80000) / 0x8000) (fun w =>
      let o := off % 0x8000
      if o / 128 < 4 * w.granules then laneOf (w.greg (o / 128)) (o % 128 / 4) else 0)
  else if 0x180000 ≤ off && off < 0x200000 then
    if off - 0x180000 + 4 ≤ g.scratchSize then BitVec.ofNat 32 (g.scratchRead (off - 0x180000) 4) else 0
  else if 0x400000 ≤ off then
    let t := (off - 0x400000) / 0x4000
    if t < g.slotCount then g.slotWord t (off % 0x4000 / 4) else 0
  else 0

/-- A word of the aperture by its offset from DAPBASE (R335). -/
def State.apRead (s : State) (off : Nat) : Word :=
  let die := off / 2 ^ 34
  let core := off / 2 ^ 28 % 64
  let slot := off / 2 ^ 23 % 32
  let o := off % apSlotSpan
  match s.windowWg die core slot with
  | some g => if g.apOpen then s.apWord g o else if o / 8 == 1 then halfOf (apStateWord g g.apState) o else 0
  | none => match s.windowAway die core slot with
    | some g => if o / 8 == 1 then halfOf (apStateWord g 4) o else 0
    | none => 0

/-- A doubleword with the word at an offset replaced. -/
def putHalf (d : Nat) (off : Nat) (v : Word) : DWord :=
  if off % 8 == 0 then BitVec.ofNat 64 (d / 2 ^ 32 * 2 ^ 32 + v.toNat) else BitVec.ofNat 64 (d % 2 ^ 32 + v.toNat * 2 ^ 32)

/-- How far an operation's POS may reach (R209). -/
def EngOp.extent (o : EngOp) : Nat :=
  match o.kind with
  | .cpy mode _ _ desc _ _ _ _ => match mode with
    | .ver => 5
    | .plain | .canon _ | .norms _ | .mcast => (desc.extractLsb' 44 12).toNat
  | .cpyo _ _ _ _ _ => (o.bind.map Binding.m).getD 0
  | .msamp _ _ d0 _ _ _ => (d0.extractLsb' 0 16).toNat
  | _ => 0

/-- Regions that a copy writes from a row on; a versioned read has attempts instead (R209). -/
def EngOp.regionsFrom (o : EngOp) (pos : Nat) : List Region :=
  match o.kind with
  | .cpy .ver _ _ _ _ _ _ _ => []
  | k => k.dstRegions o.bind pos

/-- An operation at the position and phase that a write of PROG gives it (R209): a copy has its rows from there on to write, once more where
they had landed. Only MSAMP has phases. -/
def EngOp.atProg (o : EngOp) (pos phase : Nat) : EngOp :=
  { o with prog := { o.prog with pos := pos, pendingLines := (regionLines (o.regionsFrom pos)).foldl addOnce o.prog.pendingLines,
                                 out := (globalLines (o.regionsFrom pos)).foldl addOnce o.prog.out,
                                 phase := match o.kind with
                                   | .msamp _ _ _ _ _ _ => phase
                                   | _ => o.prog.phase } }

/-- A write of the PROG word (R209): POS and PHASE of the reported operation, while it is stopped and within its extent. -/
def Warp.putProg (w : Warp) (v : DWord) : Warp :=
  match w.progOp with
  | none => w
  | some o =>
    let pos := (v.extractLsb' 0 48).toNat
    if o.prog.stopped && decide (pos ≤ o.extent) then
      { w with ops := updateFirst (fun x => x.id == o.id) (fun x => x.atProg pos (v.extractLsb' 48 4).toNat) w.ops }
    else w

/-- A write of a word of a warp block (R336). -/
def Warp.apPut (w : Warp) (off : Nat) (v : Word) : Warp :=
  let even (d : DWord) : DWord := d &&& ~~~(1#64)
  if off < 0x080 then { w with spc := setNth 0#64 w.spc (off / 8) (even (putHalf (w.apD (off / 8 * 8)) off v)) }
  else if off / 8 * 8 == 0x080 then { w with fepc := even (putHalf (w.apD 0x080) off v) }
  else if off / 8 * 8 == 0x0A8 then w.putProg (putHalf w.prog off v)
  else if off == 0x0B8 then { w with uni := { w.uni with lc := setNth 0#32 w.uni.lc 0 v } }
  else if off == 0x0BC then { w with uni := { w.uni with lc := setNth 0#32 w.uni.lc 1 v } }
  else if off == 0x0C0 then { w with uni := { w.uni with lc := setNth 0#32 w.uni.lc 2 v } }
  else if 0x180 ≤ off && off < 0x1A0 then
    let l0 := off - 0x180
    let f (x : LaneSet × Nat) : LaneSet :=
      if x.2 == 0 then x.1 else laneSet (fun l => if l0 ≤ l && decide (l < l0 + 4) then v.getLsbD (8 * (l - l0) + x.2) else x.1.getLsbD l)
    { w with p := w.p.zipIdx.map f }
  else if 0x200 ≤ off && off < 0x400 then w.setS ((off - 0x200) / 8) (putHalf (w.apD (off / 8 * 8)) off v)
  else w

/-- A list of lane values with one lane replaced. -/
def putLane (v : Lanes) (l : Nat) (x : Word) : Lanes := tab (fun i => if i == l then x else laneOf v i)

/-- A write of a word of an open window (R336). -/
def Workgroup.apPut (g : Workgroup) (off : Nat) (v : Word) : Workgroup :=
  let onWarp (wid : Nat) (f : Warp → Workgroup × Warp) : Workgroup := match g.warp wid with
    | none => g
    | some w => let r := f w; r.1.setWarp r.2
  if 0x1000 ≤ off && off < 0x21000 then onWarp ((off - 0x1000) / 0x1000) (fun w => (g, w.apPut (off % 0x1000) v))
  else if 0x40000 ≤ off && off < 0x60000 then
    onWarp ((off - 0x40000) / 0x1000) (fun w =>
      let o := off % 0x1000
      let l := o % 128 / 4
      if o < 0x800 then writeAcc g w (o / 128) (laneSet (fun i => i == l)) (List.replicate 32 v)
      else (g, { w with latch := setNth zeroLanes w.latch ((o - 0x800) / 128) (putLane (w.latchOf ((o - 0x800) / 128)) l v) }))
  else if 0x80000 ≤ off && off < 0x180000 then
    onWarp ((off - 0x80000) / 0x8000) (fun w =>
      let o := off % 0x8000
      if o / 128 < 4 * w.granules then (g, w.setG (o / 128) (laneSet (fun i => i == o % 128 / 4)) (List.replicate 32 v)) else (g, w))
  else if 0x180000 ≤ off && off < 0x200000 then
    if off - 0x180000 + 4 ≤ g.scratchSize then g.scratchWrite (cellsFrom (off - 0x180000) (leBytes 4 v.toNat)) else g
  else if 0x400000 ≤ off && decide ((off - 0x400000) / 0x4000 < g.slotCount) then g.putWords ((off - 0x400000) / 0x4000) [(off % 0x4000 / 4, v)]
  else g

/-- A write of a word of the aperture (R335). -/
def State.apWrite (s : State) (off : Nat) (v : Word) : State :=
  match s.windowWg (off / 2 ^ 34) (off / 2 ^ 28 % 64) (off / 2 ^ 23 % 32) with
  | some g => if g.apOpen then s.setWg (g.apPut (off % apSlotSpan) v) else s
  | none => s

/-- A byte at a physical address, through the aperture where it lies there. -/
def State.anyByte (s : State) (key pk : Nat) : Byte :=
  if s.inAperture pk then
    let o := pk - s.dapBase.toNat
    BitVec.ofNat 8 (field (s.apRead (o / 4 * 4)).toNat (8 * (o % 4)) 8)
  else s.readByte key pk

/-- A byte written to memory; a store to memory behind a dead link has no effect (R352). -/
def State.putByte (s : State) (key pk : Nat) (b : Byte) : State := if s.cutOff pk then s else s.writeByte key pk b

/-- The bytes of an access that lie in one aligned word of the aperture, written at once (R335). -/
def State.apStore (s : State) (bs : List (Nat × Byte)) (word : Nat) : State :=
  let o := 4 * word - s.dapBase.toNat
  let old := s.apRead o
  let byte (i : Nat) : Byte := (((bs.filter (fun b => b.1 == 4 * word + i)).getLast?).map Prod.snd).getD (old.extractLsb' (8 * i) 8)
  s.apWrite o (BitVec.ofNat 32 (leNat ((List.range 4).map byte)))

/-- Bytes written in order: to memory, and word by word to the aperture (R335). -/
def State.putBytes (s : State) (key : Nat) (bs : List (Nat × Byte)) : State :=
  let ap := bs.filter (fun b => s.inAperture b.1)
  let s1 := (bs.filter (fun b => !(s.inAperture b.1))).foldl (fun s b => s.putByte key b.1 b.2) s
  (ap.map (fun b => b.1 / 4)).foldl addOnce [] |>.foldl (fun s i => s.apStore ap i) s1

end Sys2Proof.Machine
end

