-- ==== Sys2Proof/Machine/Queues.lean ====
section
/-!
DEFINITION. The ASID table (R321), queue descriptors, doorbells and rings (R306 to R308), and the fields of a launch record
(R309) with the checks on it that need no container (R291, R310).
-/
namespace Sys2Proof.Machine

/-- The ASID table entry that memory holds (R321). -/
def State.asidInMemory (s : State) (asid : Nat) : AsidEntry :=
  let base := s.asidTb.toNat + 128 * asid
  let d (o : Nat) : DWord := BitVec.ofNat 64 (s.sysRead (base + o) 8)
  { asid := asid, root := d 0, ctx := d 8, saveSz := (d 16).toNat, save := d 24,
    bps := [d 32, d 40, d 48, d 56], wps := [(d 64, d 72), (d 80, d 88), (d 96, d 104), (d 112, d 120)] }

/-- A reserved field of an ASID entry is nonzero (R321). -/
def AsidEntry.reserved (e : AsidEntry) : Bool :=
  e.root.extractLsb' 48 16 != 0 || e.root.extractLsb' 1 11 != 0 || e.ctx.extractLsb' 20 44 != 0 || e.save.extractLsb' 48 16 != 0
    || e.save.extractLsb' 0 12 != 0 || e.saveSz % 4096 != 0 || e.bps.any (fun b => b.extractLsb' 48 16 != 0)
    || e.wps.any (fun w => w.1.extractLsb' 51 13 != 0 || w.2.extractLsb' 32 32 != 0)

/-- The CTXID of an ASID entry. -/
def AsidEntry.ctxid (e : AsidEntry) : Nat := (e.ctx.extractLsb' 0 16).toNat
/-- SVC: a service ASID. -/
def AsidEntry.svc (e : AsidEntry) : Bool := e.ctx.getLsbD 17

/-- Read an ASID entry into the compute side (R321). -/
def State.loadAsid (s : State) (asid : Nat) : State :=
  { s with asids := s.asidInMemory asid :: s.asids.filter (fun e => e.asid != asid) }

/-- The physical byte of a virtual address for the distributor, which keeps no translation; an ASID whose class is not the one CLASS last
set counts as not enabled (R358). -/
def State.distXlat (s : State) (asid va : Nat) (write : Bool) : Option Nat :=
  let e := s.asidInMemory asid
  if !(s.asidOn e) || decide (2 ^ 48 ≤ va) then none
  else match s.walk 3 (physKey 0 0 (e.root.toNat % 2 ^ 48 / 4096 * 4096)) (BitVec.ofNat 48 va) with
    | .error _ => none
    | .ok (leaf, level) =>
      if leafRefuses leaf true (if write then .write else .read) then none else some (leafPhys leaf level (BitVec.ofNat 48 va))

/-- A number of n bytes that do not cross a page, read for the distributor. -/
def State.distRead (s : State) (asid va n : Nat) : Option Nat :=
  match s.distXlat asid va false with
  | none => none
  | some pk => if s.marked pk || s.cutOff pk then none else some (s.readPhys ((s.keyOf asid).getD 0) pk n)

/-- The same written; a store to a package that is cut off has no effect (R352). -/
def State.distWrite (s : State) (asid va n v : Nat) : State :=
  match s.distXlat asid va true with
  | none => s
  | some pk => if s.cutOff pk then s else s.writePhys ((s.keyOf asid).getD 0) pk n v

/-- The virtual pages that n bytes from an address touch, by their first byte of those. -/
def pageStarts (a n : Nat) : List Nat :=
  if n == 0 then [] else a :: ((List.range ((a + n - 1) / 4096 - a / 4096)).map (fun i => (a / 4096 + 1 + i) * 4096))

/-- The physical bytes of a workgroup's overflow area, page by page: where each part begins, and its length (R309). -/
def State.ovflParts (s : State) (g : Workgroup) : List (Nat × Nat) :=
  let a := g.ovfl.toNat
  (pageStarts a g.ovflSize).filterMap (fun p => (s.distXlat g.asid p true).map (fun pk => (pk, min (a + g.ovflSize) (p / 4096 * 4096 + 4096) - p)))

/-- A deposit goes to the overflow area: it overwrites the sectors of memory where the device puts it (R35). The threads themselves are kept in
`held`: what a kernel stores into the area afterwards does not reach them (log 79). -/
def State.spill (s : State) (g : Workgroup) (spilled : Bool) : State :=
  if !spilled then s
  else
    let parts := s.ovflParts g
    { s with mem := s.mem.overwrite (fun sector =>
        parts.any (fun p => decide (p.1 / 64 ≤ sector) && decide (sector * 64 < p.1 + p.2)) && Config.ovflHit g.uid s.mem.epoch sector) }

-- queue descriptors (R306)
def State.qAddr (s : State) (q : Nat) : Nat := s.qtBase.toNat + 64 * q
def State.qField (s : State) (q off n : Nat) : Nat := s.sysRead (s.qAddr q + off) n
def State.qPut (s : State) (q off n v : Nat) : State := s.sysWrite (s.qAddr q + off) n v
/-- EVENT of a queue (R311). -/
def State.qEvent (s : State) (q : Nat) : Nat := s.qField q 16 8 % 2 ^ 48
def State.qHead (s : State) (q : Nat) : Nat := s.qField q 12 4
def State.qResv (s : State) (q : Nat) : Nat := s.qField q 8 4

/-- The loaded copy of a queue's descriptor (R307). -/
def State.queue (s : State) (q : Nat) : Option Queue := s.queues.find? (fun x => x.q == q)

/-- A queue is enabled: EN set and every field in its limits (R306). -/
def queueOk (ring log2 prio asid ctl : Nat) (rsvd : Bool) : Bool :=
  ctl == 1 && !rsvd && decide (1 ≤ log2) && decide (log2 ≤ 16) && ring % 256 == 0 && decide (prio < 8) && decide (asid < 512)

/-- Load queue q's descriptor (R307). Records read before stay, and so does the queue's place in the turn (R311). -/
def State.loadQueue (s : State) (q : Nat) : State :=
  let ring := s.qField q 0 8
  let log2 := s.qField q 24 1
  let prio := s.qField q 25 1
  let asid := s.qField q 26 2
  let ctl := s.qField q 28 1
  let rsvd := (List.range 35).any (fun i => s.qField q (29 + i) 1 != 0) || s.qField q 22 2 != 0
  let old := ((s.queue q).map Queue.waiting).getD []
  let x : Queue := { q := q, ring := BitVec.ofNat 64 ring, log2 := log2, prio := prio % 8, asid := asid % 512,
                     enabled := queueOk ring log2 prio asid ctl rsvd, waiting := old }
  { s with queues := if (s.queue q).isSome then s.queues.map (fun y => if y.q == q then x else y) else s.queues ++ [x] }

-- launch records (R309)
/-- The fields of a launch record from its 256 bytes as a number. -/
def parseLaunch (r : Nat) : LaunchRec :=
  let b (off n : Nat) : Nat := field r (8 * off) (8 * n)
  let d (off : Nat) : DWord := BitVec.ofNat 64 (b off 8)
  { waits := (List.range 4).map (fun j => (b (96 + 8 * j + 6) 2, b (96 + 8 * j) 6)),
    cpl := d 88, chan := d 80, nchan := b 68 4, ovflSize := b 64 4, ovfl := d 56, const := d 48,
    seed := BitVec.ofNat 32 (b 44 4), bins := b 43 1, dies := b 42 1 % 8, svck := b 42 1 / 128 == 1, gfall := b 41 1,
    gpref := b 40 1, nthr := b 38 2, nwg := (b 32 2, b 34 2, b 36 2), handler := d 24, entry := d 16, header := d 8,
    clean := b 128 128 == 0 && b 72 8 == 0 && b 42 1 / 8 % 16 == 0 && b 0 8 / 2 ^ 33 == 0 }

/-- The header conditions of R291 that need no container. -/
def headerOk (h : DWord) (handler : DWord) : Bool :=
  let f := hdrField h
  let c16 := h.getLsbD 56
  let enc := f 60 4
  let mm := f 57 3
  let b := f 48 8
  let p := f 40 8
  let w := f 34 6
  (enc == 1 || enc == 2) && (if enc == 2 then mm == 2 || mm == 3 else mm == 2) && (c16 == (enc == 1))
    && decide (1 ≤ b) && decide (b ≤ 63) && decide (1 ≤ w) && decide (w ≤ (if c16 then 16 else 32))
    && decide ((if c16 then 2 * w * b + p else w * b + p) ≤ 512) && decide (f 24 10 ≤ 512) && decide (f 8 8 ≤ 63)
    && (h.getLsbD 0 == (handler != 0)) && handler.toNat % 2 == 0 && decide (handler.toNat < 2 ^ 48)

/-- The limits of R309 and the checks of R310 that read no memory. -/
def LaunchRec.fieldsOk (l : LaunchRec) : Bool :=
  let w := hdrField l.header 34 6
  l.clean && headerOk l.header l.handler && ((l.nchan == 0) == !(l.header.getLsbD 2)) && decide (l.nchan ≤ 64)
    && l.cpl.toNat % 16 == 0 && decide (l.cpl.toNat < 2 ^ 48) && l.chan.toNat % 4 == 0 && decide (l.chan.toNat < 2 ^ 48)
    && l.ovflSize % 256 == 0 && l.ovfl.toNat % 256 == 0 && decide (l.ovfl.toNat < 2 ^ 48) && l.const.toNat % 8 == 0
    && decide (l.const.toNat < 2 ^ 48) && decide (l.bins ≤ 64) && decide (1 ≤ l.gfall) && decide (l.gfall ≤ 16) && decide (1 ≤ l.gpref)
    && decide (l.gpref ≤ 16) && decide (1 ≤ l.nthr) && decide (l.nthr ≤ 32 * w) && decide (1 ≤ l.nwg.1) && decide (1 ≤ l.nwg.2.1)
    && decide (1 ≤ l.nwg.2.2) && l.entry.toNat % 64 == 0 && decide (l.entry.toNat < 2 ^ 48)

/-- The address of ring entry i. -/
def Queue.entryAddr (x : Queue) (i : Nat) : Nat := x.ring.toNat + 256 * (i % 2 ^ x.log2)

/-- Take the record of 256 bytes that ring entry `head` holds: its V is cleared, and HEAD moves on (R308). -/
def State.takeRecord (s : State) (q : Nat) (x : Queue) (head w0 r : Nat) : State :=
  let s1 := s.distWrite x.asid (x.entryAddr head) 8 (w0 - 2 ^ 32)
  let s2 := s1.qPut q 12 4 ((head + 1) % 2 ^ 32)
  let x' : Queue := { x with waiting := x.waiting ++ [(head, parseLaunch r)] }
  { s2 with queues := s2.queues.map (fun y => if y.q == q then x' else y) }

/-- Read the records of a queue from HEAD for as long as the entry there is valid (R307, R308). A ring holds 2^LOG2 records, so
that many turns suffice. -/
def State.readRing (q : Nat) : Nat → State → State
  | 0, s => s
  | n + 1, s =>
    match s.queue q with
    | none => s
    | some x =>
      let head := s.qHead q
      let a := x.entryAddr head
      match s.distRead x.asid a 8 with
      | none => s
      | some w0 =>
        if w0 % 2 ^ 32 == head && field w0 32 1 == 1 then
          match s.distRead x.asid a 256 with
          | none => s
          | some r => State.readRing q n (s.takeRecord q x head w0 r)
        else s

/-- A doorbell with bit 0 clear (R307). -/
def State.ringDoorbell (s : State) (q : Nat) : State :=
  match s.queue q with
  | none => s
  | some x => if x.enabled then State.readRing q (2 ^ x.log2) s else s

end Sys2Proof.Machine
end

