-- ==== Sys2Proof/Machine/Engine.lean ====
section
/-!
DEFINITION. Engine operations up to their issue (R207 to R210): the regions an operation meets and its page translations (R208),
and what leaving the queue does (R93, R218 to R223, R238 to R243).
-/
namespace Sys2Proof.Machine

/-- How an operation meets its regions (R208). -/
inductive Prep where
  | ok
  /-- a scratchpad line it reads is absent (R93) -/
  | line
  /-- a page is not present: the address, the ACCESS bits -/
  | absent (va access : Nat)
  | fail (code va access : Nat)
deriving DecidableEq, Repr

/-- The pages found so far to read and to write, virtual page and the physical byte it begins at; the absent scratchpad lines that the operation
waits for; and the first thing that stopped it. -/
structure View where
  st : State
  pages : List (Nat × Nat)
  wpages : List (Nat × Nat)
  lines : List Nat
  out : Prep
deriving DecidableEq, Repr

/-- ACCESS bits of an engine access (R330). -/
def engAccess : Access → Nat
  | .read => accRead + accEngine
  | .write => accWrite + accEngine
  | .atomic => accRead + accWrite + accEngine + accAtomic
  | .fetch => 4

/-- A page is found, for the access that a region makes. -/
def View.found (v : View) (s : State) (acc : Access) (p : Nat × Nat) : View :=
  { v with st := s, pages := if acc == .write then v.pages else p :: v.pages, wpages := if acc == .read then v.wpages else p :: v.wpages }

/-- Translate one page of a region; sectors that are read must be readable (R115, R352). -/
def View.page (g : Workgroup) (r : Region) (v : View) (a : Nat) : View :=
  if v.out != .ok then v
  else
    let t := v.st.xlat g r.acc (BitVec.ofNat 48 a)
    match t.1 with
    | .trap c => { v with st := t.2, out := .fail c a (engAccess r.acc) }
    | .absent => { v with st := t.2, out := .absent a (engAccess r.acc) }
    | .ok pk =>
      let last := min (r.addr + r.len - 1) (a / 4096 * 4096 + 4095)
      let bad := (List.range (last / 64 - a / 64 + 1)).any (fun i => t.2.marked (pk / 64 * 64 + 64 * i))
      if (bad && r.acc != .write) || t.2.cutOff pk then { v with st := t.2, out := .fail 0x0D a (engAccess r.acc) }
      else v.found t.2 r.acc (a / 4096, pk / 4096 * 4096)

/-- An operation of the same warp and class as another that it does not follow: their effects come in issue order (R109), so a line that
such an operation has cleared does not hold the other back. -/
def classFrom (g : Workgroup) (w : Warp) (o : EngOp) (y : Workgroup) (x : Warp) (p : EngOp) : Bool :=
  y.uid == g.uid && x.wid == w.wid && p.kind.cls == o.kind.cls && decide (o.seq ≤ p.seq)

/-- The lines of a region that an operation waits for (R93, R109). -/
def State.absentFor (s : State) (g : Workgroup) (w : Warp) (o : EngOp) (r : Region) : List Nat :=
  (linesOf r.addr r.len).filter (fun l => s.lineHeld g l (classFrom g w o))

/-- Core SRAM that an operation reads: no orphaned line (R95), no sector marked uncorrectable (R115), no absent line (R93). -/
def State.sram (s : State) (g : Workgroup) (w : Warp) (o : EngOp) (r : Region) : Prep :=
  match r.sp with
  | .mem .global => .ok
  | .mem .scratch =>
    if r.acc == .write then .ok
    else if g.anyOrphan r.addr r.len then .fail 0x0F r.addr (engAccess r.acc)
    else if g.anyMarked r.addr r.len then .fail 0x0D r.addr (engAccess r.acc)
    else if (s.absentFor g w o r).isEmpty then .ok
    else .line
  | .slot t => if r.acc != .write && g.slotMarked t r.addr r.len then .fail 0x0D 0 (engAccess r.acc) else .ok

/-- Meet one region. -/
def View.region (g : Workgroup) (w : Warp) (o : EngOp) (v : View) (r : Region) : View :=
  if v.out != .ok then v
  else
    if r.sp == .mem .global then (pageStarts r.addr r.len).foldl (View.page g r) v
    else match v.st.sram g w o r with
      | .line => { v with lines := v.lines ++ v.st.absentFor g w o r }
      | x => { v with out := x }

/-- The lowest address of a page that some of the regions need. -/
def lowestIn (rs : List Region) (a : Nat) : Nat :=
  let p := a / 4096 * 4096
  (rs.filter (fun r => r.sp == .mem .global && r.len != 0 && decide (r.addr < p + 4096) && decide (p < r.addr + r.len))).foldl
    (fun m r => min m (max p r.addr)) a

/-- Meet every region, in order, for an operation of a warp; the lines that it waits for come last (R93). A page that is not present is named by the lowest address in it that the
operation needs; in a service kernel the operation fails there instead of waiting (R346), which counts as a data fault (R342). -/
def State.view (s : State) (g : Workgroup) (w : Warp) (o : EngOp) (rs : List Region) : View :=
  let v := rs.foldl (View.region g w o) { st := s, pages := [], wpages := [], lines := [], out := .ok }
  match v.out with
  | .absent va access =>
    if s.isService g then { v with st := v.st.count g w.wid 0x16 1, out := .fail 0x19 (lowestIn rs va) access }
    else { v with out := .absent (lowestIn rs va) access }
  | .ok => if v.lines.isEmpty then v else { v with out := .line }
  | .line | .fail _ _ _ => v

/-- Meet a region for what of it can be reached: pages that cannot are passed over, and lines that cannot be read are set apart. -/
def View.reachRegion (g : Workgroup) (w : Warp) (o : EngOp) (v : View) (r : Region) : View :=
  match r.sp with
  | .mem .global => (pageStarts r.addr r.len).foldl (fun v a =>
      let t := v.st.xlat g r.acc (BitVec.ofNat 48 a)
      match t.1 with
      | .ok pk => if t.2.cutOff pk then { v with st := t.2 } else v.found t.2 r.acc (a / 4096, pk / 4096 * 4096)
      | .trap _ | .absent => { v with st := t.2 }) v
  | .mem .scratch =>
    if r.acc == .write then v
    else { v with lines := v.lines ++ v.st.absentFor g w o r ++ (linesOf r.addr r.len).filter (fun l => g.orphan.contains l || g.anyMarked (l * 256) 256) }
  | .slot _ => v

/-- What a failed operation can reach of its regions (R208, R346). -/
def View.reach (v : View) (g : Workgroup) (w : Warp) (o : EngOp) (rs : List Region) : View :=
  rs.foldl (View.reachRegion g w o) { v with pages := [], wpages := [], lines := [] }

/-- The physical byte of a global address whose page has been translated to be read, and to be written. -/
def View.phys (v : View) (a : Nat) : Option Nat := (v.pages.find? (fun p => p.1 == a / 4096)).map (fun p => p.2 + a % 4096)
def View.physW (v : View) (a : Nat) : Option Nat := (v.wpages.find? (fun p => p.1 == a / 4096)).map (fun p => p.2 + a % 4096)

/-- A byte that an operation reads, where its page or its line has been reached and its sector can be read. -/
def View.byte? (v : View) (g : Workgroup) (sp : Space) (a : Nat) : Option Byte :=
  match sp with
  | .scratch => if v.lines.contains (a / 256) then none else some (g.scratchByte a)
  | .global => (v.phys a).bind (fun pk => if v.st.marked pk then none else some (v.st.anyByte (v.st.wgKey g) pk))

/-- A byte that an operation writes goes where its page has been reached. -/
def View.lands (v : View) (sp : Space) (a : Nat) : Bool :=
  match sp with
  | .scratch => true
  | .global => (v.physW a).isSome

/-- The same; where its page has not been reached, nothing uses it. -/
def View.byte (v : View) (g : Workgroup) (sp : Space) (a : Nat) : Byte := (v.byte? g sp a).getD 0

/-- A little-endian number that an operation reads. -/
def View.num (v : View) (g : Workgroup) (sp : Space) (a n : Nat) : Nat := leNat ((List.range n).map (fun i => v.byte g sp (a + i)))

/-- Write an operation's bytes: those on pages it has reached, to memory or the scratchpad. -/
def View.write (v : View) (s : State) (g : Workgroup) (sp : Space) (bs : List (Nat × Byte)) : State × Workgroup :=
  match sp with
  | .scratch => (s, g.scratchWrite bs)
  | .global =>
    let s' := s.putBytes (s.wgKey g) (bs.filterMap (fun b => (v.physW b.1).map (fun pk => (pk, b.2))))
    (s', g)

/-- The number of a free value about an address: no other use of the counter has it. -/
def freeAt (free a : Nat) : Nat := free * 2 ^ 48 + a

/-- Of the bytes that an operation can write, those in aligned words whose bytes among `want` it can all write (R92). -/
def wholeWords (want : List Nat) (bs : List (Nat × Byte)) : List (Nat × Byte) :=
  let lost := (want.filter (fun a => !(bs.any (fun b => b.1 == a)))).map (· / 4)
  bs.filter (fun b => !(lost.contains (b.1 / 4)))

/-- Bytes of a failed operation: each aligned word of them old or new, and which is not defined (R92, R208, R346). -/
def mixBytes (free : Nat) (bs : List (Nat × Byte)) : List (Nat × Byte) := bs.filter (fun b => Config.openBit (freeAt free (b.1 / 4)))

-- presence of lines
/-- Clear presence of lines, and orphan marks (R93, R95). -/
def Workgroup.clearLines (g : Workgroup) (ls : List Nat) : Workgroup :=
  { g with absent := ls.foldl addOnce g.absent, orphan := g.orphan.filter (fun l => !(ls.contains l)) }
/-- Set presence of lines. -/
def Workgroup.landLines (g : Workgroup) (ls : List Nat) : Workgroup := { g with absent := g.absent.filter (fun l => !(ls.contains l)) }

/-- A workgroup receives a multicast of another: a member of the gang whose rank bit is set (R216). -/
def Workgroup.receives (g : Workgroup) (aux : DWord) (x : Workgroup) : Bool := x.gang == g.gang && decide (x.rank < 16) && aux.getLsbD x.rank

/-- The receivers of a multicast (R216). -/
def State.receivers (s : State) (g : Workgroup) (aux : DWord) : List Workgroup := s.wgs.filter (g.receives aux)

/-- Whether a multicast reaches a receiver: resident, with the destination inside its scratchpad (R216). -/
def reaches (dst desc : DWord) (x : Workgroup) : Bool :=
  x.residence == .resident && (cpyDstRegions .mcast dst desc .scratch 0).all (fun r => decide (r.addr + r.len ≤ x.scratchSize))

/-- A progress record at its start. -/
def Progress.start (lines out : List Nat) : Progress :=
  { pendingLines := lines, out := out, pos := 0, mean := 0, m2 := 0, phase := 0, stopped := false, notBefore := 0, done := false, failed := none, page := none,
    census := none, link := none, drops := 0 }

/-- An operation as it issues. -/
def mkOp (id : Nat) (e : QEntry) (k : EngKind) (x : LaneSet) (data : List Lanes) (b : Option Binding) (lines : List Nat) : EngOp :=
  { id := id, seq := e.seq, addr := e.addr, n := e.n, kind := k, lanes := x, data := data, bind := b, clearedG := e.clearedG,
    prog := Progress.start lines (globalLines (k.dstRegions b 0)) }

/-- Strand instructions dispatched earlier that may still touch a tile slot (R108). -/
def Warp.slotBusy (w : Warp) (slot seq : Nat) : Bool :=
  w.pending.any (fun q => decide (q.seq < seq) && (match q.op with
    | .eng (.kbind t _ _) => t == slot
    | .eng _ => false
    | _ => (match nth none w.bind q.n with
      | some b => b.slot == slot
      | none => w.pending.any (fun p => p.n == q.n && decide (p.seq < q.seq) && (match p.op with
        | .eng (.kbind t _ _) => t == slot
        | _ => false)))))

/-- Slots that an operation reads or writes. -/
def opSlots (k : EngKind) (b : Option Binding) : List Nat :=
  let own := (b.map Binding.slot).toList
  match k with
  | .cpyo _ _ _ _ _ | .mma _ _ _ _ _ => own
  | .msamp _ _ d0 _ _ _ => (d0.extractLsb' 40 8).toNat :: own
  | .mzero t | .acheck t _ | .adrain t _ _ _ _ => [t]
  | _ => []

/-- Whether every older access of the warp has been performed, as a release needs (R102, R108). -/
def Warp.olderDone (w : Warp) (seq : Nat) : Bool :=
  !(w.olderMemPending seq true) && !(w.storeQ.any (fun q => decide (q.seq < seq))) && w.fencesClear seq

/-- What an ADRAIN reads at its issue (R114, R236): the tile record's status word, and the words of the scale record; nothing where a page of
them cannot be read yet, when it reads them as it runs. -/
def State.adrainReads (s : State) (g : Workgroup) (w : Warp) (o : EngOp) (a scale : Nat) : List Lanes :=
  let v := s.view g w o [.glob .read scale 32, .glob .read a 256]
  if v.out != .ok then []
  else
    let st := v.num g .global (a + 48) 8
    let u := v.st.view g w o [.glob .read st 4]
    if decide (2 ^ 48 < st + 4) || st % 4 != 0 || u.out != .ok then []
    else [BitVec.ofNat 32 (u.num g .global st 4) :: (List.range 8).map (fun i => BitVec.ofNat 32 (v.num g .global (scale + 4 * i) 4))]

/-- The warp that an operation's class list puts an operation into. -/
def State.issueOp (s : State) (g : Workgroup) (w : Warp) (o : EngOp) : State :=
  (s.put g { w with ops := w.ops ++ [o] }).count g w.wid 3 1

-- convergence registers (R223)
/-- The members of a register each hold a live thread. -/
def Workgroup.membersLive (g : Workgroup) (m : LaneSet) : Bool :=
  (lanesIn m).all (fun i => g.warps.any (fun w => w.wid == i && w.active != 0))

/-- The three checks of R223, for a register that can still be signed. -/
def Workgroup.mayRunMma (g : Workgroup) (w : Warp) (cv : Nat) : Bool :=
  match g.cv[cv]? with
  | none => false
  | some c => c.form != .idle && c.members.getLsbD w.wid && g.membersLive c.members && !c.unusable

/-- The B registers of an MMA of one member (R222): how many. -/
def mmaRegCount (form : CvForm) (n bits : Nat) : Nat :=
  match form with
  | .quartet => n / 16 * (kOf bits / 16)
  | .solo | .idle => n / 16 * (kOf bits / 4)

/-- A signature (R223): the first signer fixes the operation, later ones must agree. -/
def CvReg.sign (c : CvReg) (wid : Nat) (v : Nat × Nat × Nat × MmaFmt × DWord × DWord) : CvReg :=
  let c' := { c with signs := c.signs + 1, signed := c.signed ||| BitVec.ofNat 32 (2 ^ wid) }
  match c.fixed with
  | none => { c' with fixed := some v }
  | some u => { c' with differs := c.differs || u != v }

/-- Whether a register's operation has all its signatures. -/
def CvReg.full (c : CvReg) : Bool := c.signs == laneCount c.members
/-- The register once its operation has fired or failed. -/
def CvReg.clear (c : CvReg) : CvReg := { c with signs := 0, signed := 0, fixed := none, differs := false }

/-- Mark the signed operations of a register once all have signed: failed with trap 0x0F, or fired; under a common number either way, so
that they retire together. -/
def Workgroup.settleCv (g : Workgroup) (cv : Nat) (fire : Nat) : Workgroup :=
  match g.cv[cv]? with
  | none => g
  | some c =>
    if !c.full then g
    else
      let f (o : EngOp) : EngOp :=
        if !o.awaits cv then o
        else
          let o' := if c.differs then o.fail 0x0F else o
          { o' with prog := { o'.prog with phase := 1, link := some fire } }
      let ws := g.warps.map (fun w => { w with ops := w.ops.map f })
      let gs := g.ghosts.map (fun w => { w with ops := w.ops.map f })
      { g with warps := ws, ghosts := gs, cv := g.cv.set cv c.clear }

/-- Sign a convergence register with an MMA at the head of its queue (R223). -/
def State.signMma (s : State) (g : Workgroup) (w : Warp) (e : QEntry) (k : EngKind) (base panel : DWord) (f : MmaFmt) (cv gB : Nat) : Ran :=
  let b := nth none w.bind e.n
  let n := s.fresh
  if !g.mayRunMma w cv || b.isNone then .done (n.2.issueOp g w ((mkOp n.1 e k 0 [] b []).fail 0x0F))
  else match g.cv[cv]?, b with
    | some c, some bd =>
      if c.signed.getLsbD w.wid then .wait
      else
        let cnt := mmaRegCount c.form bd.n (mmaElems f).1.bits
        let data := (List.range cnt).map (fun i => w.greg (gB + i))
        let o := { mkOp n.1 e k c.members data b [] with lanes := c.members }
        let g1 := { g with cv := g.cv.set cv (c.sign w.wid (bd.slot, bd.m, bd.n, f, base, panel)) }
        let w1 := { w with ops := w.ops ++ [o] }
        let g2 := (g1.setWarp w1).settleCv cv n.1
        .done ((n.2.setWg g2).count g w.wid 3 1)
    | _, _ => .wait

-- the directory (R238 to R244)
/-- The entries of a location. -/
def State.entriesAt (s : State) (loc : Nat) : List DirEntry := s.directory.filter (fun e => e.loc == loc)
/-- Replace an entry. -/
def State.setEntry (s : State) (e : DirEntry) : State := { s with directory := s.directory.map (fun x => if x.uid == e.uid then e else x) }

/-- The valid entry that TMOVE takes: the lowest-numbered with the key and the owner (R240). -/
def State.moveEntry (s : State) (g : Workgroup) (key : DWord) : Option DirEntry :=
  s.directory.find? (fun e => e.loc == g.coreIdx && e.st == .valid && e.owner == g.uid && e.key == key)

/-- Combine two census values (R243). -/
def cenCombine (op : CenOp) (a b : DWord) : DWord :=
  match op with
  | .iadd | .count => a + b
  | .imin => if b.toInt < a.toInt then b else a
  | .imax => if a.toInt < b.toInt then b else a
  | .zmin => if b.toNat < a.toNat then b else a
  | .zmax => if a.toNat < b.toNat then b else a
  | .or => a ||| b
  | .and => a &&& b

/-- A reply as it is widened (R243). -/
def cenWiden (op : CenOp) (v : Word) : DWord :=
  match op with
  | .iadd | .imin | .imax => v.signExtend 64
  | .zmin | .zmax | .or | .and => v.zeroExtend 64
  | .count => 1

/-- The result of no replies (R243). -/
def cenIdentity : CenOp → DWord
  | .iadd | .zmax | .or | .count => 0
  | .imin => (0x7FFFFFFF#32).signExtend 64
  | .imax => (0x80000000#32).signExtend 64
  | .zmin | .and => 0xFFFFFFFF

/-- Change the report that counts a responder. -/
def State.onReport (s : State) (uid tid : Nat) (id : Nat) (f : LocReport → LocReport) : State :=
  { s with censuses := s.censuses.map (fun c =>
      if c.id == id then { c with reports := updateFirst (fun r => r.spawned.contains (uid, tid)) f c.reports } else c) }

/-- A value replied by a thread of a workgroup (R243). -/
def State.replyValue (s : State) (uid tid id : Nat) (v : Word) : State :=
  match s.censuses.find? (fun c => c.id == id) with
  | none => s
  | some c => s.onReport uid tid id (fun r => { r with value := cenCombine c.op r.value (cenWiden c.op v) })

/-- The values that some lanes of a warp reply (R243). -/
def State.replyLanes (s : State) (g : Workgroup) (w : Warp) (vals : Lanes) (ls : List Nat) : State :=
  ls.foldl (fun (s : State) l => match nth none w.census l with
    | none => s
    | some id => s.replyValue g.uid (nth 0 w.tids l) id (laneOf vals l)) s

/-- A responder exits (R244). -/
def State.responderExit (s : State) (uid tid id : Nat) : State :=
  s.onReport uid tid id (fun r => { r with spawned := r.spawned.filter (fun x => x != (uid, tid)) })

/-- The responders among some lanes of a warp exit (R244). -/
def State.lanesExit (s : State) (g : Workgroup) (w : Warp) (ls : List Nat) : State :=
  ls.foldl (fun (s : State) l => match nth none w.census l with
    | none => s
    | some id => s.responderExit g.uid (nth 0 w.tids l) id) s

/-- The locations of a census (R244): cores of its scope, then their dormant directories. -/
def censusLocations (die : Nat) (pkg : Bool) : List Nat :=
  let dies := if pkg then [0, 1, 2] else [die]
  (dies.map (fun d => (List.range 64).map (fun c => 64 * d + c))).flatten ++ dies.map (192 + ·)

/-- Whether a SOLICIT of a core may take an id now (R241). -/
def State.censusRoom (s : State) (core : Nat) : Bool :=
  decide ((s.censuses.filter (fun c => c.core == core)).length < Config.coreCensuses) && decide (s.censuses.length < Config.packageCensuses)

/-- Whether a waiting SOLICIT is still in its queue: a trap may have cancelled it (R25). -/
def State.solicitLive (s : State) (q : Nat × Nat × Nat) : Bool :=
  match s.at { wg := q.1, wid := q.2.1 } with
  | none => false
  | some (_, w) => w.queued.any (fun e => e.seq == q.2.2 && e.engClass == some .cen)

/-- Start a census (R241). -/
def State.startCensus (s : State) (g : Workgroup) (w : Warp) (e : QEntry) (k : EngKind) (key mask entry : DWord) (op : CenOp) (pkg : Bool) : State :=
  match leastFree 1024 0 (s.censuses.map Census.id) with
  | none => s
  | some id =>
    let n := s.fresh
    let o := mkOp n.1 e k 0 [] none []
    let c : Census :=
      { id := id, wg := g.uid, opId := n.1, core := g.coreIdx, asid := g.asid, key := key, mask := mask, entry := entry.extractLsb' 0 48,
        op := op, toVisit := censusLocations g.die pkg, owes := [], reports := [], value := cenIdentity op, responders := 0,
        dormant := 0, balance := 0, full := false }
    let s1 := { n.2 with censuses := n.2.censuses ++ [c], solicits := n.2.solicits.filter (fun q => q != (g.uid, w.wid, e.seq)) }
    (s1.issueOp g w { o with prog := { o.prog with census := some id } }).count g w.wid 0x18 1

/-- The lowest TIDs that no live thread holds, n of them (R13). -/
def freeTids : Nat → Nat → Nat → List Nat → List Nat
  | 0, _, _, _ => []
  | f + 1, i, n, used =>
    if n == 0 then [] else if used.contains i then freeTids f (i + 1) n used else i :: freeTids f (i + 1) (n - 1) used

/-- SPAWN at its issue (R183): children reserved, created and deposited; the operation then retires. -/
def State.spawnNow (s : State) (g : Workgroup) (w : Warp) (e : QEntry) (k : EngKind) (entry : DWord) (uni : UniState) : Ran :=
  let x := w.exec e.hdr
  let ls := lanesIn x
  if 1024 < g.liveThreads + ls.length then .trap s 0x01 0 0 0
  else
    let vals := g.kval w e.n
    let ts := (ls.zip (freeTids 1024 0 ls.length g.tids)).map (fun p => newThread g.baseGranules p.2 none [laneOf vals p.1])
    let a := entry.extractLsb' 0 48
    let key : BinKey := { addr := a, uni := { uni with handler := false, loops := popLoops uni.loops a } }
    match s.deposit g key ts with
    | none => .trap s 0x18 0 0 0
    | some (g', spilled) =>
      let n := (s.spill g spilled).fresh
      let o := mkOp n.1 e k x [] none []
      let s1 := n.2.issueOp g' w { o with prog := { o.prog with done := true } }
      let s2 := (s1.count g w.wid 0x11 ls.length).count g w.wid 0x13 (if spilled then 1 else 0)
      .done (s2.checkBarrier g.uid)

/-- Whether a performance event number is listed (R342). -/
def eventListed (n : Nat) : Bool := decide (n ≤ 0x1B)

/-- A counter of a core for a context (R246). -/
def State.counterOf (s : State) (g : Workgroup) (cnt : Nat) : Option Counter :=
  s.counters.find? (fun c => c.core == g.coreIdx && c.ctxid == g.ctxid && c.cnt == cnt)

/-- Events whose count depends on timing that the model leaves out (R271): what a program reads of them is a free value. -/
def eventOpen (n : Nat) : Bool := n == 0 || (decide (0x04 ≤ n) && decide (n ≤ 0x0D)) || n == 0x15 || n == 0x1A || n == 0x1B

/-- PMRD: the count in every lane of X (R246). A timing event that has counted since its PMCTL reads as a free value. -/
def State.counterRead (s : State) (g : Workgroup) (cnt : Nat) : Nat :=
  match s.counterOf g cnt with
  | none => 0
  | some c =>
    if eventOpen (c.config.extractLsb' 0 16).toNat && c.config.getLsbD 30 && decide (c.since < s.clk) then Config.sensor (256 + cnt) s.free % 2 ^ 48
    else c.count.toNat

/-- PMCTL: a new configuration (R246). -/
def State.counterWrite (s : State) (g : Workgroup) (wid cnt : Nat) (v : DWord) : State :=
  let c : Counter := { core := g.coreIdx, ctxid := g.ctxid, cnt := cnt, config := v &&& 0x6000FFFF#64,
                       count := if v.getLsbD 31 then 0 else BitVec.ofNat 48 (s.counterRead g cnt), wg := g.uid, wid := wid, since := s.clk }
  { s with free := s.free + 1, counters := c :: s.counters.filter (fun x => !(x.core == c.core && x.ctxid == c.ctxid && x.cnt == cnt)) }

/-- Finish an instruction of the class that has no counter (R207). -/
def State.finishPlain (s : State) (g : Workgroup) (w : Warp) (e : QEntry) : Ran := .done (s.finish g w e fNone)

/-- An engine instruction at the head of its strand queue (R207): it issues, waits, traps precisely, or takes its whole effect
when its class is "—". DESIGN CHOICE (log 70): TDROP waits for a moving entry of its own workgroup only (R239). -/
def State.issueEng (s : State) (g : Workgroup) (w : Warp) (e : QEntry) (k : EngKind) : Ran :=
  let b := nth none w.bind e.n
  let n := s.fresh
  let x := w.exec e.hdr
  let simple (data : List Lanes) (lines : List Nat) : Ran :=
    if (opSlots k b).any (fun t => w.slotBusy t e.seq) then .wait
    else .done (n.2.issueOp (g.clearLines lines) w (mkOp n.1 e k x data b lines))
  match k with
  | .cpy mode _ _ _ aux _ _ _ =>
    match mode with
    | .mcast =>
      let lines := regionLines (k.dstRegions b 0)
      let s1 := n.2.issueOp g w (mkOp n.1 e k x [] b lines)
      .done { s1 with wgs := s1.wgs.map (fun y => if y.residence == .resident && g.receives aux y then y.clearLines (y.ownLines lines) else y) }
    | .plain | .canon _ | .norms _ | .ver => simple [] (k.clears g b)
  | .cpyo _ _ _ _ _ =>
    match b with
    | none => .trap s 0x01 0 0 0
    | some _ => simple [] (k.clears g b)
  | .kbind slot m nn =>
    let w1 := { w with bind := setNth none w.bind e.n (some { slot := slot, m := m, n := nn, win := 0 }),
                       k := setNth zeroLanes w.k e.n zeroLanes, mstat := setNth noStat w.mstat e.n noStat }
    s.finishPlain (g.tagSlot slot m nn) w1 e
  | .kfree =>
    match b with
    | none => .trap s 0x01 0 0 0
    | some _ => s.finishPlain g { w with bind := setNth none w.bind e.n none, k := setNth zeroLanes w.k e.n zeroLanes } e
  | .mzero _ => simple [] []
  | .mma base panel f cv gB =>
    if (opSlots k b).any (fun t => w.slotBusy t e.seq) then .wait else s.signMma g w e k base panel f cv gB
  | .msamp _ _ _ _ _ _ => simple [] []
  | .mstat _ => simple [] []
  | .acheck _ _ => simple [] []
  | .adrain _ r scale _ _ =>
    -- it reads at its issue what an earlier operation of its class has left there (R109, R114, R236)
    if w.ops.any (fun o => o.kind.cls == some .drn) || !w.olderDone e.seq then .wait
    else simple (s.adrainReads g w (mkOp n.1 e k x [] b []) r.toNat scale.toNat) []
  | .lsupd _ _ => simple [] []
  | .treg key base len =>
    if !w.olderDone e.seq then .wait
    else if Config.directoryEntries ≤ (s.entriesAt g.coreIdx).length then .trap s 0x16 0 0 0
    else
      let d : DirEntry := { uid := n.1, loc := g.coreIdx, key := key, base := base.extractLsb' 0 48, len := len.extractLsb' 0 32,
                            owner := g.uid, asid := g.asid, st := .valid, dest := 0, tags := [], keep := [], copy := none }
      { n.2 with directory := n.2.directory ++ [d] }.finishPlain g w e
  | .tdrop key =>
    let mine (d : DirEntry) : Bool := d.loc == g.coreIdx && d.owner == g.uid && d.key == key
    if s.directory.any (fun d => mine d && d.st == .moving) then .wait
    else { s with directory := s.directory.filter (fun d => !(mine d && d.st == DirState.valid)) }.finishPlain g w e
  | .tmove key dest _ =>
    match s.moveEntry g key with
    | none => .done (n.2.issueOp g w ((mkOp n.1 e k x [] b []).fail 0x0F))
    | some d =>
      let y := (dest.extractLsb' 6 2).toNat * 64 + (dest.extractLsb' 0 6).toNat
      let o := mkOp n.1 e k x [] b []
      -- the tags that the copy will carry are those held now (R240): kept beside the entry's number
      let s1 := (n.2.issueOp g w { o with prog := { o.prog with link := some d.uid } })
      .done (s1.setEntry { d with st := .moving, dest := y, keep := d.tags })
  | .solicit key mask entry op pkg _ =>
    let mine := (g.uid, w.wid, e.seq)
    if !w.olderDone e.seq then .wait
    else if s.censusRoom g.coreIdx && (s.solicits.filter (fun q => q != mine)).all (fun q =>
        match s.wg q.1 with
        | none => true
        | some y => !(s.solicitLive q) || !(s.censusRoom y.coreIdx) || (match s.solicits.findIdx? (fun z => z == mine), s.solicits.findIdx? (fun z => z == q) with
          | some i, some j => decide (i < j)
          | _, _ => false)) then
      .done (s.startCensus g w e k key mask entry op pkg)
    else .wait
  | .reply =>
    if (lanesIn x).any (fun l => (nth none w.census l).isNone) then .trap s 0x01 0 0 0
    else if !w.olderDone e.seq then .wait
    else
    (s.replyLanes g w (g.kval w e.n) (lanesIn x)).finishPlain g w e
  | .chsend _ r => simple [tab (fun l => if x.getLsbD l then laneOf (w.greg r) l else 0)] []
  | .chrecv _ _ => simple [] []
  | .spawn entry uni => if !w.olderDone e.seq then .wait else s.spawnNow g w e k entry uni
  | .launch _ _ => simple [] []
  | .sld a _ _ _ =>
    if x != 0 && s.watched g true false a.toNat 8 && w.skipBp != some e.addr then .trap s 0x12 a.toNat (accRead + accEngine) 0 else simple [] []
  | .sst a _ _ _ =>
    if x != 0 && s.watched g false true a.toNat 8 && w.skipBp != some e.addr then .trap s 0x12 a.toNat (accWrite + accEngine) 0 else simple [] []
  | .pmrd cnt r =>
    let v := s.counterRead g cnt
    let w1 := (w.setG r x (List.replicate 32 (BitVec.ofNat 32 v))).setG (r + 1) x (List.replicate 32 (BitVec.ofNat 32 (v / 2 ^ 32)))
    { s with free := s.free + 1 }.finishPlain g w1 e
  | .pmctl cnt v => (s.counterWrite g w.wid cnt v).finishPlain g w e

end Sys2Proof.Machine
end

