-- ==== Sys2Proof/Machine/Strand.lean ====
section
/-!
DEFINITION. Dispatch of strand and engine instructions (R16 to R24, R28, R118, R141), and what a queued instruction does when it
runs: the meanings of chapter 06 as one function over `SOp`.
-/
namespace Sys2Proof.Machine

/-- What an instruction gives its dispatch: strand, operation, operand, the s registers it names, the registers it names, reads
and writes, the predicates it reads (beside the guard) and writes, and the precise trap of its operand checks. -/
structure Disp where
  n : Nat
  op : SOp
  src : Operand
  svals : List Nat
  regs : List Nat
  readsG : List Nat
  writesG : List Nat
  readsP : List Nat
  writesP : List Nat
  /-- code, address, access -/
  trap : Option (Nat × Nat × Nat)
deriving DecidableEq, Repr

/-- A register-only strand instruction on accumulator n. -/
def Disp.plain (n : Nat) (op : SOp) : Disp :=
  { n := n, op := op, src := .value 0, svals := [], regs := [], readsG := [], writesG := [], readsP := [], writesP := [], trap := none }

/-- The same with an operand (R119, R123). -/
def Disp.withSrc (d : Disp) (w : Warp) (imm : BitVec 8 → Word) (x : Src) : Disp :=
  { d with src := carrySrc w imm x, svals := srcSvals x, regs := srcGregs x, readsG := srcGregs x }

/-- During a resume, an instruction of strand n below its recorded address is skipped (R28). -/
def Warp.skipsStrand (w : Warp) (n : Nat) : Bool :=
  match w.resume with
  | none => false
  | some r => decide (w.pc.toNat < (pcOf r.fepc).toNat) && decide (w.pc.toNat < (pcOf (nth 0#64 r.spc n)).toNat)

/-- During a resume, a front-end instruction below FEPC is skipped (R28). -/
def Warp.skipsFront (w : Warp) : Bool :=
  match w.resume with
  | none => false
  | some r => decide (w.pc.toNat < (pcOf r.fepc).toNat)

/-- The resume ends when the front end passes FEPC (R28). -/
def Warp.tidyResume (w : Warp) (pc : BitVec 48) : Option TrapRec :=
  match w.resume with
  | none => none
  | some r => if pc.toNat < (pcOf r.fepc).toNat then some r else none

/-- Pass an instruction of `len` bytes without executing it (R28), or a header (R16). -/
def Warp.passOver (w : Warp) (len : Nat) : Warp :=
  let pc := w.pc + BitVec.ofNat 48 len
  { w with pc := pc, resume := w.tidyResume pc }

/-- A breakpoint or watchpoint at an address is passed over until the instruction there has been executed once: it is that instruction, it
is queued, or a resume has yet to come to it (R28, R339). -/
def Warp.keepsBp (w : Warp) (a : BitVec 48) : Bool :=
  a == w.pc || w.pending.any (fun e => e.addr == a) || (w.resume.isSome && decide (w.pc.toNat < a.toNat))

/-- Pass an instruction of `len` bytes that has been dispatched: a breakpoint or watchpoint is passed over for one execution
(R339), and a single step has had its instruction (R29). -/
def Warp.past (w : Warp) (len : Nat) : Warp :=
  let pc := w.pc + BitVec.ofNat 48 len
  { w with pc := pc, resume := w.tidyResume pc, skipBp := w.skipBp.filter w.keepsBp,
           stepping := w.stepping.map (fun _ => true) }

/-- Continue at an address after a slip fence: on `k0`, unguarded (R16). -/
def Warp.goto (w : Warp) (pc : BitVec 48) : Warp :=
  { w with pc := pc, hdr := hdrK0, resume := none, skipBp := none, stepping := w.stepping.map (fun _ => true) }

/-- The queued entry for a dispatch (R21, R22). -/
def Warp.entry (w : Warp) (d : Disp) : QEntry :=
  { addr := w.pc, hdr := w.hdr, n := d.n, seq := w.seq, op := d.op, src := d.src, svals := d.svals, part := w.uni.part,
    actl := w.uni.actl, readsG := d.readsG, readsP := hdrGuard w.hdr :: d.readsP, clearedG := d.writesG, clearedP := d.writesP, took := [] }

/-- The store-queue entry that a store or an atomic allocates at its dispatch (R100). -/
def SOp.storeEntry (op : SOp) (seq : Nat) : List StoreEntry :=
  match op with
  | .st _ m => [{ seq := seq, space := m.space, atomic := false, order := m.order, scope := m.scope, bytes := none, pages := [] }]
  | .atom _ m => [{ seq := seq, space := m.space, atomic := true, order := m.order, scope := m.scope, bytes := none, pages := [] }]
  | _ => []

/-- The mark that an ordered access leaves for younger ones (R102, R104, R198). -/
def SOp.fenceMark (g : Workgroup) (op : SOp) (seq : Nat) : List FenceMark :=
  match op with
  | .ld _ m | .atom _ m => (match effOrder g m.space m.order with
    | .plain => []
    | .acqRel => [{ seq := seq, sc := false }]
    | .sc => [{ seq := seq, sc := true }])
  | .st _ m => (match m.order with
    | .sc => [{ seq := seq, sc := true }]
    | .plain | .acqRel => [])
  | _ => []

/-- The engine class of an operation. -/
def SOp.engClass (op : SOp) : Option EngClass :=
  match op with
  | .eng k => k.cls
  | _ => none

/-- Whether an operation passes to an engine (R17). -/
def SOp.isEngine (op : SOp) : Bool :=
  match op with
  | .eng _ => true
  | _ => false

/-- The dispatch itself: presence cleared, counter taken, store-queue entry allocated, the front end moves on (R22, R57, R100). -/
def Warp.allow (w : Warp) (g : Workgroup) (len : Nat) (d : Disp) : Warp :=
  let w1 := ((w.clearG d.writesG).clearP d.writesP).past len
  let w2 := match d.op.engClass with
    | none => w1
    | some c => w1.incCounter c
  { w2 with seq := w.seq + 1, storeQ := w2.storeQ ++ d.op.storeEntry w.seq, fences := w2.fences ++ d.op.fenceMark g w.seq }

/-- Cluster of an accumulator (R14). -/
def cluster (n : Nat) : Nat := n % 8

/-- Join the strand queue. -/
def Warp.enqueue (w : Warp) (e : QEntry) : Warp :=
  { w with queues := setNth [] w.queues (cluster e.n) (nth [] w.queues (cluster e.n) ++ [e]) }

/-- Some earlier strand instruction has not completed (R19). -/
def Warp.strandPending (w : Warp) : Bool := w.pending.any (fun e => !e.isEngine)

/-- Dispatch stalls (R19, R57). -/
def Warp.stalls (w : Warp) (d : Disp) : Bool :=
  decide (Config.queueDepth ≤ (nth [] w.queues (cluster d.n)).length)
    || d.writesG.any (fun r => !w.gPresent r) || d.writesP.any (fun p => !w.pPresent p)
    || (d.op.isEngine && decide (Config.queueDepth ≤ (w.queued.filter QEntry.isEngine).length))
    || (match d.op.engClass with
        | none => false
        | some c => decide (63 ≤ w.counter c))
    || (match d.op with
        | .rdsr i => (i == 0x0E || i == 0x34) && w.strandPending
        | _ => false)

/-- An entry may start (R18): no hazard, no instruction of its strand under way, the warp not stalled on a data fault (R326) and
not stopping (R25). -/
def Warp.ready (w : Warp) (e : QEntry) : Bool :=
  !w.hazard e && !(w.started.any (fun q => q.n == e.n)) && w.dataFault.isNone && w.stopping.isNone

/-- The head of a queue may start (R18): its operands are present, no line it needs is absent (R93), and no started load holds its queue
(R100 item 3). -/
def State.ready (s : State) (g : Workgroup) (w : Warp) (e : QEntry) : Bool :=
  w.ready e && !(s.lineStalls g w e) && !(s.queueHeld g w (cluster e.n))

/-- The head that a warp offers to a cluster: no engine instruction, and ready (R18). -/
def State.offers (s : State) (g : Workgroup) (w : Warp) (cl : Nat) : Option QEntry :=
  match nth [] w.queues cl with
  | e :: _ => if !e.isEngine && s.ready g w e then some e else none
  | [] => none

/-- The resident workgroups of a core. -/
def State.onCore (s : State) (die core : Nat) : List Workgroup :=
  s.wgs.filter (fun g => g.residence == .resident && g.die == die && g.core == core)

/-- No older warp of the core offers a head to a cluster, which starts the oldest warp's (R18). -/
def State.oldestAt (s : State) (g : Workgroup) (w : Warp) (cl : Nat) : Bool :=
  (s.onCore g.die g.core).all (fun y => y.warps.all (fun x => decide (w.age ≤ x.age) || (s.offers y x cl).isNone))

/-- The bound accumulator's window count (R50). -/
def Binding.windows (b : Binding) : Nat := b.m * b.n / 32

/-- Write results to the accumulator, or raise the flags' trap (R141). -/
def State.deliverAcc (s : State) (g : Workgroup) (w : Warp) (e : QEntry) (x : LaneSet) (v : Lanes) (f : Flags) : Ran :=
  match flagTrap e.actl f with
  | some c => .trap s c 0 0 0
  | none =>
    let r := writeAcc g w e.n x v
    .done (s.finish r.1 r.2 e f)

/-- Write a predicate, or raise the flags' trap (R157). -/
def State.deliverPred (s : State) (g : Workgroup) (w : Warp) (e : QEntry) (p : Nat) (x v : LaneSet) (f : Flags) : Ran :=
  match flagTrap e.actl f with
  | some c => .trap s c 0 0 0
  | none => .done (s.finish g (w.setP p x v) e f)

/-- A queued instruction runs to completion (R141): `w` no longer holds the entry. -/
def State.runEntry (s : State) (g : Workgroup) (w : Warp) (e : QEntry) : Ran :=
  let x := w.exec e.hdr
  let a := g.kval w e.n
  let b := operandLanes w e.part e.src
  match e.op with
  | .alu op =>
    let r := aluLanes op e.actl x a b (w.latchOf e.n)
    if r.2.2 then .trap s 0x0B 0 0 0 else s.deliverAcc g w e x r.1 r.2.1
  | .mlat => .done (s.finish g { w with latch := setNth zeroLanes w.latch e.n (merge x b (w.latchOf e.n)) } e fNone)
  | .putg r => .done (s.finish g (w.setG r x a) e fNone)
  | .nop => .done (s.finish g w e fNone)
  | .selp p => s.deliverAcc g w e x (tab (fun l => if (w.pred p).getLsbD l then laneOf b l else laneOf a l)) fNone
  | .fcmp c p comb =>
    let r (l : Nat) : Bool × Flags := fcmpLane c (actlFtz e.actl) (laneOf a l) (laneOf b l)
    s.deliverPred g w e p x (combinePreds comb (w.pred p) (laneSet (fun l => (r l).1))) (orFlags ((lanesIn x).map (fun l => (r l).2)))
  | .icmp c p comb =>
    s.deliverPred g w e p x (combinePreds comb (w.pred p) (laneSet (fun l => icmpBits c (laneOf a l) (laneOf b l)))) fNone
  | .putp t p => s.deliverPred g w e p x (laneSet (fun l => putpHolds t (laneOf a l))) fNone
  | .shfli r => s.deliverAcc g w e x (tab (fun l => crossRead w.active e.part (w.greg r) l (laneOf a l).toNat)) fNone
  | .shfl16 r => s.deliverAcc g w e x (tab (fun l => crossRead w.active e.part (w.greg r) l (l / 16 * 16 + (laneOf a l).toNat % 16))) fNone
  | .qx dir r => s.deliverAcc g w e x (tab (fun l => crossRead w.active e.part (w.greg r) l (qxPartner dir l))) fNone
  | .vote mode p => s.deliverAcc g w e x (tab (voteLane mode g.compat16 x (w.pred p) e.part)) fNone
  | .red op => let r := redLanes op e.actl x e.part a; s.deliverAcc g w e x r.1 r.2
  | .scan op excl => let r := scanLanes op excl e.actl x e.part a; s.deliverAcc g w e x r.1 r.2
  | .unpk hi r => s.deliverAcc g w e x (tab (fun l => unpackNibbles hi (laneOf (w.greg r) l))) fNone
  | .rdsr i => let r := if x == 0 then (zeroLanes, w) else s.rdsrRead g w i; s.deliverAcc g r.2 e x r.1 fNone
  | .ready v => s.deliverAcc g w e x v fNone
  | .kwin =>
    (match nth none w.bind e.n with
    | none => .trap s 0x01 0 0 0
    | some bd =>
      let win := (laneOf b 0).toNat
      if bd.windows ≤ win then .trap s 0x01 0 0 0
      else .done (s.finish g (if x == 0 then w else { w with bind := setNth none w.bind e.n (some { bd with win := win }) }) e fNone))
  | .knext step p =>
    (match nth none w.bind e.n with
    | none => .trap s 0x01 0 0 0
    | some bd =>
      let t := bd.win + step
      let w1 := if x == 0 then w else { w with bind := setNth none w.bind e.n (some { bd with win := t % bd.windows }) }
      .done (s.finish g (w1.setP p x (if bd.windows ≤ t then allLanes else 0)) e fNone))
  | .ld k m => runLoad State.apRead s g w e k m
  | .st k m => runStore s g w e k m
  | .atom k m => runAtom State.apRead State.apWrite s g w e k m
  | .ldtr dst nb elem base stride => runLdtr State.apRead s g w e dst nb elem base stride
  | .eng k => s.issueEng g w e k

/-- A load, store or atomic meets a page that is not present (R326): the warp stalls with one record, or in a service kernel the
trap is raised at once (R333). -/
def State.dataFaulted (s : State) (g : Workgroup) (w : Warp) (e : QEntry) (va access : Nat) : State :=
  match w.dataFault with
  | some _ => s.put g w
  | none =>
    let f : DataFault := { seq := e.seq, pc := e.addr, va := BitVec.ofNat 48 va, since := s.clk, access := access, fail := false, told := false }
    ((s.put g { w with dataFault := some f }).send
      { s.record g 2 with access := access, wid := w.wid, va := va, pc := e.addr.toNat }).count g w.wid 0x16 1

/-- An access meets a page that is not present: the warp stalls, or a service kernel takes trap 0x19 (R326, R333); either way it counts as
a data fault (R342). `w0` is the warp without the entry, `w1` with it queued. -/
def State.meetAbsent (s : State) (g : Workgroup) (w0 w1 : Warp) (e : QEntry) (va access : Nat) : State :=
  if s.isService g then (s.count g w0.wid 0x16 1).trapStrand g w0 e 0x19 va access 0x05 else s.dataFaulted g w1 e va access

/-- What a run comes to (R25, R27, R326): `w0` is the warp without the entry, `w1` the warp with it still queued. -/
def State.resolve (s : State) (g : Workgroup) (w0 w1 : Warp) (e : QEntry) : State :=
  match s.runEntry g w0 e with
  | .done s' => s'
  | .trap s' c va access c2 => s'.trapStrand g w0 e c va access c2
  | .wait =>
    (match e.op with
    | .eng (.solicit _ _ _ _ _ _) =>
      -- it waits at the head of its queue, in the order of arrival there (R241)
      let key := (g.uid, w1.wid, e.seq)
      { s with solicits := if s.solicits.contains key then s.solicits else s.solicits ++ [key] }.put g w1
    | _ => s.put g w1)
  | .fault s' va access => s'.meetAbsent g w0 w1 e va access

/-- Start the head of a cluster's queue and run it to its completion, if it is ready. -/
def State.runHead (s : State) (g : Workgroup) (w : Warp) (c : Nat) : State :=
  match nth [] w.queues c with
  | [] => s.put g w
  | e :: rest => if s.ready g w e then s.resolve g { w with queues := setNth [] w.queues c rest } w e else s.put g w

/-- Instructions start at their dispatch now, where they can; at other times each waits for its own start (R18 gives no time between the
two, log 1). -/
def State.startsNow (s : State) : Bool := s.clk / 256 % 2 == 0

/-- Dispatch of a strand or engine instruction of `len` bytes by the executing warp (R19, R28, R118). An instruction that finds
its queue empty and itself ready runs at once, where its cluster has no head of an older warp to start (R18), unless it is to wait for its start (log 1). -/
def State.dispatch (s : State) (g : Workgroup) (w : Warp) (len : Nat) (d : Disp) : State :=
  if w.skipsStrand d.n then s.put g (w.passOver len)
  else if d.regs.any (fun r => decide (4 * w.granules ≤ r)) then s.trapFront g w 0x01
  else match d.trap with
    | some t => s.trapFrontAt g w t.1 t.2.1 t.2.2
    | none =>
      if w.stalls d then s
      else
        let e := w.entry d
        let w1 := w.allow g len d
        let s1 := s.count g w.wid 1 1
        let first := d.op.isEngine || s.oldestAt g w (cluster d.n)
        if s.startsNow && (nth [] w.queues (cluster d.n)).isEmpty && first && s.ready g w1 e then s1.resolve g w1 (w1.enqueue e) e
        else s1.put g (w1.enqueue e)

/-- Dispatch for the executing warp. -/
def State.strand (s : State) (len : Nat) (f : Workgroup → Warp → Disp) : Out :=
  s.onWarp (fun g w => .next (s.dispatch g w len (f g w)))

/-- Accumulator of the current strand (R16). -/
def Warp.cur (w : Warp) : Nat := hdrAcc w.hdr

/-- A front-end instruction that R28 skips passes without effect. -/
def State.frontEnd (s : State) (f : Workgroup → Warp → State) : Out :=
  s.onWarp (fun g w => .next (if w.skipsFront then s.put g (w.passOver 4) else f g w))

/-- A slip fence waits until every strand has drained (R20). -/
def State.fence (s : State) (f : Workgroup → Warp → State) : Out :=
  s.frontEnd (fun g w => if w.drained then f g w else s)

/-- The same for the one front-end instruction of three parcels (R117, R132). -/
def State.longFence (s : State) (f : Workgroup → Warp → State) : Out :=
  s.onWarp (fun g w => .next (if w.skipsFront then s.put g (w.passOver 6) else if w.drained then f g w else s))

/-- A front-end instruction moves on (R21). -/
def State.pass (s : State) (g : Workgroup) (w : Warp) : State := (s.put g (w.past 4)).count g w.wid 1 1
/-- A slip fence moves on to an address (R16). -/
def State.jump (s : State) (g : Workgroup) (w : Warp) (pc : BitVec 48) : State := (s.put g (w.goto pc)).count g w.wid 1 1

/-- A front-end write of sX waits for every earlier instruction that names it, and for a SOLICIT that writes it (R19, R53). -/
def Warp.sBusy (w : Warp) (x : Nat) : Bool :=
  let pair (k : EngKind) : Bool := match k with
    | .solicit _ _ _ _ _ d => x == d || x == d + 1
    | _ => false
  w.pending.any (fun e => e.svals.contains x || (match e.op with
    | .eng k => pair k
    | _ => false)) || w.ops.any (fun o => pair o.kind)

end Sys2Proof.Machine
end

