-- ==== Sys2Proof/Machine/Branch.lean ====
section
/-!
DEFINITION. Branches, calls, divergence and hardware loops (R30, R36, R170 to R177), with the compat16 split (R279).
-/
namespace Sys2Proof.Machine

/-- The target of an offset field: PC + 2·sext(o, 16) (R133). -/
def Warp.target (w : Warp) (off : BitVec 16) : BitVec 48 := w.pc + off.signExtend 48 * 2

/-- Loops that a taken branch to an address leaves (R177). -/
def Warp.leaveLoops (w : Warp) (a : BitVec 48) : Warp := { w with uni := { w.uni with loops := popLoops w.uni.loops a } }

/-- A taken branch of the whole warp (R170). -/
def State.branch (s : State) (g : Workgroup) (w : Warp) (a : BitVec 48) : State := s.jump g (w.leaveLoops a) a

/-- A branch taken or not. -/
def State.branchIf (s : State) (g : Workgroup) (w : Warp) (taken : Bool) (off : BitVec 16) : State :=
  if taken then s.branch g w (w.target off) else s.jump g w (w.pc + 4)

/-- Lanes of a set in which a predicate, taken with its sense, holds. -/
def Warp.holds (w : Warp) (p : BitVec 3) (sense : Bool) (x : LaneSet) : LaneSet :=
  x &&& (if sense then ~~~(w.pred p.toNat) else w.pred p.toNat)

/-- Threads of some lanes leave their warp for a bin (R31, R32, R35): the state with the deposit made and the warp without the lanes,
or the trap it raises. -/
def State.depositLanes (s : State) (g : Workgroup) (w : Warp) (x : LaneSet) (a : BitVec 48) (live : Nat) (split : Option Nat) :
    Except Nat (State × Workgroup × Warp) :=
  if !w.mayDeposit g then .error 0x01
  else match s.deposit g (w.binKey a) (w.threadsOf x live split) with
    | none => .error 0x18
    | some (g', spilled) =>
      .ok (((s.spill g spilled).count g w.wid 0x11 (laneCount x)).count g w.wid 0x13 (if spilled then 1 else 0), g', w.dropLanes x)

/-- The two halves of a compat16 warp (R278). -/
def halfLanes : Nat → LaneSet
  | 0 => 0x0000FFFF#32
  | _ => 0xFFFF0000#32

/-- A front-end instruction that the halves of a compat16 warp would execute differently splits it (R279): half 1 is deposited at the
instruction's own address, and half 0 goes on. DESIGN CHOICE (log 72): a warp in handler mode splits as any other, and the warp formed of half 1
is in handler mode with no held record. -/
def State.splitFirst (s : State) (g : Workgroup) (w : Warp) (differ : Bool) (k : State → Workgroup → Warp → State) : State :=
  if !(g.compat16 && differ && (w.active &&& halfLanes 0) != 0 && (w.active &&& halfLanes 1) != 0) then k s g w
  else if !w.storeQ.isEmpty then s
  else
    let n := s.fresh
    match n.2.depositLanes g w (w.active &&& halfLanes 1) w.pc (2 ^ g.baseGranules - 1) (some n.1) with
    | .error c => s.trapFront g w c
    | .ok (s', g', w') => k s' g' w'

/-- BRANY's condition over some lanes. -/
def Warp.anyHolds (w : Warp) (p : BitVec 3) (sense : Bool) (x : LaneSet) : Bool := w.holds p sense x != 0
/-- BRALL's condition over some lanes. -/
def Warp.allHold (w : Warp) (p : BitVec 3) (sense : Bool) (x : LaneSet) : Bool := w.holds p sense x == x

/-- BRA (R170). -/
def execBra (off : BitVec 16) (s : State) : Out := s.fence (fun g w => s.branchIf g w true off)

/-- BRANY (R170). -/
def execBrany (sense : Bool) (p : BitVec 3) (off : BitVec 16) (s : State) : Out :=
  s.fence (fun g w =>
    let c (w : Warp) (x : LaneSet) : Bool := w.anyHolds p sense x
    s.splitFirst g w (c w (w.active &&& halfLanes 0) != c w (w.active &&& halfLanes 1)) (fun s g w => s.branchIf g w (c w w.active) off))

/-- BRALL (R170). -/
def execBrall (sense : Bool) (p : BitVec 3) (off : BitVec 16) (s : State) : Out :=
  s.fence (fun g w =>
    let c (w : Warp) (x : LaneSet) : Bool := w.allHold p sense x
    s.splitFirst g w (c w (w.active &&& halfLanes 0) != c w (w.active &&& halfLanes 1)) (fun s g w => s.branchIf g w (c w w.active) off))

/-- BRS (R170). -/
def execBrs (sx : BitVec 6) (off : BitVec 16) (s : State) : Out := s.fence (fun g w => s.branchIf g w (w.sreg sx.toNat != 0) off)

/-- CALL (R171, R177). -/
def execCall (sx : BitVec 6) (off : BitVec 16) (s : State) : Out :=
  s.fence (fun g w =>
    if w.sBusy sx.toNat then s
    else s.jump g (w.setS sx.toNat ((w.pc + 4).zeroExtend 64)) (w.target off))

/-- RET (R171, R177): range before alignment (R88). -/
def execRet (sx : BitVec 6) (s : State) : Out :=
  s.fence (fun g w =>
    let v := w.sreg sx.toNat
    if v.extractLsb' 48 16 != 0 then s.trapFront g w 0x05
    else if v.getLsbD 0 then s.trapFront g w 0x04
    else s.jump g w (v.extractLsb' 0 48))

/-- JOIN (R36, R173, R174). -/
def execJoin (min : BitVec 6) (off : BitVec 16) (s : State) : Out :=
  s.fence (fun g w =>
    let a := w.target off
    if w.uni.handler then s.trapFront g w 0x01
    else if min.toNat ≤ laneCount w.active then s.branch g w a
    else if !w.storeQ.isEmpty then s
    else match s.depositLanes g w w.active a (2 ^ g.baseGranules - 1) none with
      | .error c => s.trapFront g w c
      | .ok (s', g', w') => ((s'.setWg (g'.freeWarp w')).count g w.wid 1 1).checkBarrier g.uid)

/-- BRD (R30, R172, R174). -/
def execBrd (off : BitVec 16) (p : BitVec 3) (sense : Bool) (sL : BitVec 6) (t : BitVec 6) (s : State) : Out :=
  s.longFence (fun g w =>
    let target := w.target off
    let fall := w.pc + 6
    let take := w.holds p sense w.active
    let stay := w.active &&& ~~~take
    let s1 := s.count g w.wid 0x10 1
    if w.uni.handler then s.trapFront g w 0x01
    else if take == 0 then s1.jump g w fall
    else if stay == 0 then s1.branch g w target
    else if !w.storeQ.isEmpty then s
    else
      let minority := if laneCount take < laneCount stay then take else stay
      let leave := if laneCount minority ≤ t.toNat then minority else w.active &&& ~~~minority
      match s1.depositLanes g w leave (if leave == take then target else fall) (w.sreg sL.toNat).toNat none with
      | .error c => s.trapFront g w c
      | .ok (s', g', w') =>
        (if leave == take then s'.jump g' w' fall else s'.branch g' w' target).checkBarrier g.uid)

-- hardware loops (R175 to R177)
/-- Open loop N with a count (R175). -/
def State.openLoop (s : State) (g : Workgroup) (w : Warp) (n : Nat) (c : DWord) (len : BitVec 9) : State :=
  let start := w.pc + 4
  let stop := start + len.zeroExtend 48 * 2
  let outer := match w.uni.loops[n - 1]? with
    | some f => decide (0 < n) && decide (f.stop.toNat < stop.toNat)
    | none => false
  let w1 := { w with uni := { w.uni with lc := setNth 0#32 w.uni.lc n (c.extractLsb' 0 32) } }
  if c.extractLsb' 32 32 != 0 || w.uni.loops.length != n || outer then s.trapFront g w 0x10
  else if c == 0 then s.jump g w1 stop
  else s.jump g { w1 with uni := { w1.uni with loops := w.uni.loops ++ [{ start := start, stop := stop }] } } start

/-- LOOP0 (R175). -/
def execLoop0 (sx : BitVec 6) (len : BitVec 9) (s : State) : Out := s.fence (fun g w => s.openLoop g w 0 (w.sreg sx.toNat) len)
/-- LOOP1. -/
def execLoop1 (sx : BitVec 6) (len : BitVec 9) (s : State) : Out := s.fence (fun g w => s.openLoop g w 1 (w.sreg sx.toNat) len)
/-- LOOP2. -/
def execLoop2 (sx : BitVec 6) (len : BitVec 9) (s : State) : Out := s.fence (fun g w => s.openLoop g w 2 (w.sreg sx.toNat) len)
/-- LOOPI0: the count is field A. -/
def execLoopi0 (c : BitVec 6) (len : BitVec 9) (s : State) : Out := s.fence (fun g w => s.openLoop g w 0 (c.zeroExtend 64) len)
/-- LOOPI1. -/
def execLoopi1 (c : BitVec 6) (len : BitVec 9) (s : State) : Out := s.fence (fun g w => s.openLoop g w 1 (c.zeroExtend 64) len)
/-- LOOPI2. -/
def execLoopi2 (c : BitVec 6) (len : BitVec 9) (s : State) : Out := s.fence (fun g w => s.openLoop g w 2 (c.zeroExtend 64) len)

/-- The front end stands at the end of the innermost active loop (R176). -/
def Warp.atLoopEnd (w : Warp) : Bool :=
  match w.uni.loops.getLast? with
  | none => false
  | some f => f.stop == w.pc

/-- The loop buffer's check at the end of the innermost loop (R176): the loop ends, or its back-edge is taken as a slip fence, which
takes no dispatch slot. -/
def execLoopBackEdge (s : State) : Out :=
  s.onWarp (fun g w =>
    match w.uni.loops.getLast? with
    | none => .next s
    | some f =>
      if f.stop != w.pc then .next s
      else
        let n := w.uni.loops.length - 1
        let lc := w.lc n
        if lc.toNat ≤ 1 then
          .next (s.put g { w with uni := { w.uni with lc := setNth 0#32 w.uni.lc n 0, loops := w.uni.loops.dropLast } })
        else if !w.drained then .next s
        else
          .next (s.put g { w with pc := f.start, hdr := hdrK0, resume := none, skipBp := none,
                                  uni := { w.uni with lc := setNth 0#32 w.uni.lc n (lc - 1) } }))

end Sys2Proof.Machine
end

