-- ==== Sys2Proof/Machine/EngineRun.lean ====
section
/-!
DEFINITION. Engine operations after their issue: what each does when it runs, how it fails or waits, and its retirement
(R57, R110, R179, R201, R208, R211 to R237, R240).
-/
namespace Sys2Proof.Machine

/-- What running an operation comes to: the whole effect in the state, its workgroup and its warp; a failure; or a wait, with what it
has done so far, for a page or for something else. -/
inductive OpRun where
  | done (s : State) (g : Workgroup) (w : Warp)
  | fail (s : State) (g : Workgroup) (code va access : Nat)
  | absent (s : State) (g : Workgroup) (va access : Nat)
  | wait (s : State) (g : Workgroup)
deriving DecidableEq, Repr

/-- The warp that holds an operation, among the live ones or the freed ones with operations outstanding (R57). -/
def Workgroup.opHolder (g : Workgroup) (op : Nat) : Option Warp := (g.warps ++ g.ghosts).find? (fun w => w.ops.any (fun o => o.id == op))

/-- Whether the holder of an operation is a freed slot. -/
def Workgroup.opGone (g : Workgroup) (op : Nat) : Bool := !(g.warps.any (fun w => w.ops.any (fun o => o.id == op)))

/-- Replace the warp that holds an operation; a freed slot with nothing outstanding goes. -/
def Workgroup.putHolder (g : Workgroup) (op : Nat) (w : Warp) : Workgroup :=
  let f (x : Warp) : Warp := if x.ops.any (fun o => o.id == op) then w else x
  { g with warps := g.warps.map f, ghosts := (g.ghosts.map f).filter (fun x => !x.ops.isEmpty) }

/-- Change an operation in place. -/
def Workgroup.onOp (g : Workgroup) (op : Nat) (f : EngOp → EngOp) : Workgroup :=
  let h (x : Warp) : Warp := { x with ops := updateFirst (fun o => o.id == op) f x.ops }
  { g with warps := g.warps.map h, ghosts := g.ghosts.map h }

/-- Operations that wait for others, as R209 lists them: an MMA that has not fired, CHSEND, CHRECV, and a LAUNCH that found its ring full.
They do not retire while the workgroup is stopped or halted (R345). -/
def EngOp.waitsForOthers (o : EngOp) : Bool :=
  match o.kind with
  | .mma _ _ _ _ _ => o.prog.phase == 0
  | .chsend _ _ | .chrecv _ _ => true
  | .launch _ _ => o.prog.link.isSome
  | _ => false

/-- An operation may run (R109): its workgroup is resident, no older operation of its class is outstanding, every older access of
the warp has been performed (R108), and it is not stopped, waiting for a page or for its next attempt. -/
def EngOp.turn (s : State) (g : Workgroup) (w : Warp) (o : EngOp) : Bool :=
  g.residence == .resident && !o.prog.stopped && (o.prog.page.isNone || o.prog.failed.isSome)
    && ((w.ops.find? (fun x => x.kind.cls == o.kind.cls)).map EngOp.id) == some o.id
    && w.olderDone o.seq && decide (o.prog.notBefore ≤ s.clk)
    && !(g.formerStill && o.waitsForOthers && !o.prog.done)

/-- Remove an operation that retires (R57): counter down, the registers it cleared present again (R24), the failure reported (R179). -/
def Warp.retire (w : Warp) (o : EngOp) (rep : Option Report) : Warp :=
  let w1 := w.markG o.clearedG
  let w2 := match o.kind.cls with
    | none => w1
    | some c => w1.decCounter c
  { w2 with ops := w2.ops.filter (fun x => x.id != o.id), reports := w2.reports ++ rep.toList }

/-- Lines that an operation cleared and that have not landed are present again, in each workgroup whose bits it cleared (R93, R208,
R216). -/
def State.landFor (s : State) (g : Workgroup) (o : EngOp) : State :=
  match o.kind with
  | .cpy .mcast _ _ _ aux _ _ _ => { s with wgs := s.wgs.map (fun y => if g.receives aux y then y.landLines o.prog.pendingLines else y) }
  | _ => { s with wgs := s.wgs.map (fun y => if y.uid == g.uid then y.landLines o.prog.pendingLines else y) }

/-- Retire with a report, or from a freed slot with a record of kind 7 (R179). -/
def State.retireFailed (s : State) (g : Workgroup) (o : EngOp) (code va access : Nat) : State :=
  match g.opHolder o.id with
  | none => s.setWg g
  | some w =>
    let gone := g.opGone o.id
    let r : Report := { cls := (o.kind.cls).getD .cpy, code := code, pc := o.addr, va := va, access := access }
    let s1 := (s.setWg (g.putHolder o.id (w.retire o (if gone then none else some r)))).landFor g o
    if gone then s1.send { s.record g 7 with code := code, code2 := code2Of code, wid := w.wid, pc := o.addr.toNat, va := va, access := access } else s1

/-- Retire with every effect made. The lines of a multicast land with its deliveries (R216). -/
def State.retireDone (s : State) (g : Workgroup) (w : Warp) (o : EngOp) : State :=
  let s1 := s.setWg (g.putHolder o.id (w.retire o none))
  match o.kind with
  | .cpy .mcast _ _ _ _ _ _ _ => s1
  | _ => s1.landFor g o

-- the copy engine
/-- The bytes of its source row that byte j of a destination row is made from (R212, R213). -/
def cpySource (m : CpyMode) (d : DWord) (j : Nat) : List Nat :=
  match m with
  | .canon .cbk | .norms .cbk =>
    if j < cpyCols d then [2 * (j / 8), 2 * (j / 8) + 1] else [cpyCols d / 4 + (j - cpyCols d)]
  | .plain | .ver | .mcast | .canon _ | .norms _ => [j]

/-- A destination row from the bytes of its source row. -/
def cpyForm (m : CpyMode) (d : DWord) (row : List Byte) : List Byte :=
  match m with
  | .plain | .ver | .mcast => row
  | .canon f | .norms f => panelRow f (cpyCols d) row

/-- Some source row of a copy holds a byte (R211). -/
def cpyReads (m : CpyMode) (src d : DWord) (ssp sp : Space) (a : Nat) : Bool :=
  ssp == sp && (cpySrcRegions m src d ssp 0).any (fun r => decide (r.addr ≤ a) && decide (a < r.addr + r.len))

/-- A byte of the destination that is also a source byte ends with a free value (R211, log 14). -/
def cpyOpen (v : View) (m : CpyMode) (src d : DWord) (ssp dsp : Space) (b : Nat × Byte) : Nat × Byte :=
  if cpyReads m src d ssp dsp b.1 then (b.1, Config.openByte (freeAt v.st.free b.1)) else b

/-- The bytes of a source row; none where it has not been reached. -/
def cpyRow? (v : View) (g : Workgroup) (m : CpyMode) (src d : DWord) (ssp : Space) (i : Nat) : List (Option Byte) :=
  (List.range (cpySrcRow m d)).map (fun j => v.byte? g ssp (src.toNat + i * cpySstride d + j))

/-- What a copy writes of row i: the bytes whose source it has reached. -/
def cpyCells (v : View) (g : Workgroup) (m : CpyMode) (src dst d : DWord) (ssp : Space) (i : Nat) : List (Nat × Byte) :=
  let row := cpyRow? v g m src d ssp i
  let out := cpyForm m d (row.map (fun b => b.getD 0))
  (out.zipIdx.filter (fun b => (cpySource m d b.2).all (fun k => (nth none row k).isSome))).map (fun b => (dst.toNat + i * cpyStep m d + b.2, b.1))

/-- The norm table of mode 2 as bytes (R214), from the panel rows. -/
def cpyNormBytes (rows : List (List Byte)) (f : CpyFmt) (cols : Nat) : List Byte :=
  let span := (rows.headD []).length
  let rd (a : Nat) : Byte := if span == 0 then 0 else nth 0 (nth [] rows (a / span)) (a % span)
  ((List.range cols).map (fun j =>
    let e := normEntry rd (storeElem f) 0 span rows.length cols j
    leBytes 4 e.1.toNat ++ leBytes 4 e.2.toNat)).flatten

/-- The norm table that a copy writes after its rows, once it has reached them all (R214). -/
def cpyTable (v : View) (g : Workgroup) (m : CpyMode) (src dst d : DWord) (ssp : Space) : List (Nat × Byte) :=
  match m with
  | .norms f =>
    let got := (List.range (cpyRows d)).map (cpyRow? v g m src d ssp)
    let rows := got.map (fun r => cpyForm m d (r.map (fun b => b.getD 0)))
    if got.any (fun r => r.any Option.isNone) then []
    else cellsFrom (dst.toNat + cpyRows d * cpyStep m d) (cpyNormBytes rows f (cpyCols d))
  | .plain | .canon _ | .ver | .mcast => []

/-- Everything that a copy writes from row `from'` on, as far as it has reached its source. Rows land in any order (R211): where two of them
cover a byte, the later row's stays (log 56). -/
def cpyWrites (v : View) (g : Workgroup) (m : CpyMode) (src dst d : DWord) (ssp : Space) (from' : Nat) : List (Nat × Byte) :=
  ((List.range (cpyRows d)).drop from').flatMap (cpyCells v g m src dst d ssp) ++ cpyTable v g m src dst d ssp

/-- The destination lines that an operation has not written: 256 bytes of the scratchpad, or of global memory. -/
def EngOp.left (o : EngOp) (dsp : Space) : List Nat :=
  match dsp with
  | .global => o.prog.out
  | .scratch => o.prog.pendingLines

/-- Bytes whose destination line has not been written yet. -/
def EngOp.stillOut (o : EngOp) (dsp : Space) (bs : List (Nat × Byte)) : List (Nat × Byte) := bs.filter (fun b => (o.left dsp).contains (b.1 / 256))

/-- Of the bytes that a failed operation could write, those that may have been written: whole aligned words, on pages that it reached (R92). -/
def EngOp.failCells (o : EngOp) (v : View) (dsp : Space) (bs : List (Nat × Byte)) : List (Nat × Byte) :=
  let want := (o.kind.dstRegions o.bind o.prog.pos).flatMap (fun r => (List.range r.len).map (r.addr + ·))
  wholeWords want ((o.stillOut dsp bs).filter (fun b => v.lands dsp b.1))

/-- The source rows that a copy meets from a row on; a norm table needs the rows before as well. -/
def cpyReadRegions (m : CpyMode) (src d : DWord) (ssp : Space) (from' : Nat) : List Region :=
  cpySrcRegions m src d ssp (match m with
    | .norms _ => 0
    | .plain | .canon _ | .ver | .mcast => from')

/-- The regions that a copy meets from a row on, row by row: each source row before its destination row (R346). -/
def cpyRegions (m : CpyMode) (src dst d : DWord) (ssp dsp : Space) (from' : Nat) : List Region :=
  let rd := cpyReadRegions m src d ssp from'
  let wr := cpyDstRegions m dst d dsp from'
  (rd.zip wr).flatMap (fun r => [r.1, r.2]) ++ rd.drop wr.length

/-- An operation that copies meets its regions (R93, R208, R209, R346): it writes everything that is left; or it waits, for a page or for a line, while
the lines that need neither land (`State.landLine`); or it fails, and each word that it could write holds its old value or the new one, since
rows land in any order (R211). `all` gives what it writes, as far as a view reaches. -/
def State.copyRun (s : State) (g : Workgroup) (w : Warp) (o : EngOp) (dsp : Space) (rs : List Region) (all : View → List (Nat × Byte)) : OpRun :=
  let v := s.view g w o rs
  let s1 := { v.st with free := v.st.free + 1 }
  match v.out with
  | .ok => let r := v.write s1 g dsp (o.stillOut dsp (all v)); .done r.1 r.2 w
  | .line => .wait v.st g
  | .absent va access => .absent v.st g va access
  | .fail c va access =>
    let u := v.reach g w o rs
    let r := u.write { u.st with free := u.st.free + 2 } g dsp (mixBytes (u.st.free + 1) (o.failCells u dsp (all u)))
    .fail r.1 r.2 c va access

/-- Deliver a multicast to one receiver (R216, R95): landed, or dropped with LANDST, its absent lines orphaned. -/
def mcastTo (dst desc : DWord) (lines : List Nat) (bs : List (Nat × Byte)) (x : Workgroup) : Workgroup :=
  if reaches dst desc x then (x.scratchWrite bs).landLines lines
  else
    { x with drops := min (x.drops + 1) 65535, lost := true,
             orphan := (lines.filter (fun l => x.absent.contains l)).foldl addOnce x.orphan }

/-- One line of a multicast lands in one receiver before the rest (R93); where the delivery will be dropped, it is orphaned (R95). -/
def mcastLine (dst desc : DWord) (line : Nat) (bs : List (Nat × Byte)) (x : Workgroup) : Workgroup :=
  if reaches dst desc x then (x.scratchWrite bs).landLines [line]
  else { x with orphan := if x.absent.contains line then addOnce x.orphan line else x.orphan }

/-- What a multicast writes in one receiver: only in the issuer's own scratchpad can a byte of its source be one of its destination (R211,
R216). -/
def mcastBytes (v : View) (g : Workgroup) (src d : DWord) (ssp : Space) (bs : List (Nat × Byte)) (x : Workgroup) : List (Nat × Byte) :=
  if x.uid == g.uid then bs.map (cpyOpen v .mcast src d ssp .scratch) else bs

/-- A multicast (R216): what has not landed line by line is delivered to every receiver at once, then the count of the dropped ones is added to the
status word. Of one that fails, each receiver's words are old or new by a choice of its own (R208, log 71). -/
def runMcast (s : State) (g : Workgroup) (w : Warp) (o : EngOp) (src dst d aux : DWord) (ssp : Space) : OpRun :=
  let status := (aux.extractLsb' 16 48).toNat
  let rs := cpyRegions .mcast src dst d ssp .scratch o.prog.pos ++ (if status == 0 then [] else [.glob .atomic status 4])
  let v := s.view g w o rs
  let bytes (v : View) : List (Nat × Byte) := o.stillOut .scratch (cpyWrites v g .mcast src dst d ssp o.prog.pos)
  match v.out with
  | .line => .wait v.st g
  | .absent va access => .absent v.st g va access
  | .fail c va access =>
    let u := v.reach g w o rs
    let bs := o.failCells u .scratch (bytes u)
    let s2 := { u.st with free := u.st.free + 17,
                          wgs := u.st.wgs.map (fun x => if g.receives aux x && reaches dst d x then
                            x.scratchWrite (mixBytes (u.st.free + 1 + x.rank) (mcastBytes u g src d ssp bs x)) else x) }
    .fail s2 ((s2.wg g.uid).getD g) c va access
  | .ok =>
    let bs := bytes v
    let want := laneCount (BitVec.ofNat 32 (aux.toNat % 65536))
    let landed := ((s.receivers g aux).filter (reaches dst d)).length
    let s2 := { v.st with free := v.st.free + 1,
                          wgs := v.st.wgs.map (fun x => if g.receives aux x then
                            mcastTo dst d o.prog.pendingLines (mcastBytes v g src d ssp bs x) x else x) }
    let s3 := match v.physW status with
      | none => s2
      | some pk => if status == 0 then s2 else s2.putBytes (s2.wgKey g) (cellsFrom pk (leBytes 4 ((v.num g .global status 4 + (want - landed)) % 2 ^ 32)))
    .done s3 ((s3.wg g.uid).getD g) w

/-- CPY in modes 0, 1, 2 and 4 (R211 to R214, R216). -/
def runCpy (s : State) (g : Workgroup) (w : Warp) (o : EngOp) (m : CpyMode) (src dst d aux : DWord) (ssp dsp : Space) : OpRun :=
  match m with
  | .mcast => runMcast s g w o src dst d aux ssp
  | .plain | .canon _ | .norms _ | .ver =>
    s.copyRun g w o dsp (cpyRegions m src dst d ssp dsp o.prog.pos)
      (fun v => (cpyWrites v g m src dst d ssp o.prog.pos).map (cpyOpen v m src d ssp dsp))

/-- The source bytes that a destination line of a copy is made from (R93): of each row that touches it, or of every row for the norm
table. -/
def cpyLineRegions (m : CpyMode) (src dst d : DWord) (ssp : Space) (from' line : Nat) : List Region :=
  let row (i : Nat) : List Region :=
    let base := dst.toNat + i * cpyStep m d
    ((List.range 256).filter (fun b => decide (base ≤ line * 256 + b) && decide (line * 256 + b < base + cpyDstRow m d))).flatMap (fun b =>
      (cpySource m d (line * 256 + b - base)).map (fun k => { sp := .mem ssp, acc := .read, addr := src.toNat + i * cpySstride d + k, len := 1 }))
  ((List.range (cpyRows d)).drop from').flatMap row
    ++ (match m with
        | .norms _ =>
          let table := dst.toNat + cpyRows d * cpyStep m d
          if decide (table < line * 256 + 256) && decide (line * 256 < table + 8 * cpyCols d) then cpySrcRegions m src d ssp 0 else []
        | .plain | .canon _ | .ver | .mcast => [])

/-- A row of a tile as CPYO writes it (R217, R237). -/
def cpyoRowBytes (g : Workgroup) (b : Binding) (out : CpyoOut) (i : Nat) : List Byte :=
  let ws := (List.range b.n).map (fun c => g.slotWord b.slot (i * b.n + c))
  match out with
  | .f32 => (ws.map (fun x => leBytes 4 x.toNat)).flatten
  | .bf16 => (ws.map (fun x => leBytes 2 (toBf16 x))).flatten
  | .e4m3 => quantRow b.n ws

/-- What CPYO writes of row i. -/
def cpyoCells (g : Workgroup) (b : Binding) (dst stride : DWord) (out : CpyoOut) (i : Nat) : List (Nat × Byte) :=
  cellsFrom (dst.toNat + i * (stride.extractLsb' 0 28).toNat) (cpyoRowBytes g b out i)

/-- What CPYO writes of its tile from a row on. -/
def cpyoWrites (g : Workgroup) (b : Binding) (dst stride : DWord) (out : CpyoOut) (from' : Nat) : List (Nat × Byte) :=
  ((List.range b.m).drop from').flatMap (fun i => if g.slotMarked b.slot (i * b.n) b.n then [] else cpyoCells g b dst stride out i)

/-- The regions that CPYO meets from a row on: the row of its tile, then where it goes. -/
def cpyoAll (b : Binding) (dst stride : DWord) (out : CpyoOut) (dsp : Space) (from' : Nat) : List Region :=
  ((List.range b.m).drop from').flatMap (fun i =>
    [{ sp := .slot b.slot, acc := .read, addr := i * b.n, len := b.n },
     { sp := .mem dsp, acc := .write, addr := dst.toNat + i * (stride.extractLsb' 0 28).toNat, len := cpyoRow out b.n }])

/-- CPYO (R217, R237): the whole tile bound at its issue. -/
def runCpyo (s : State) (g : Workgroup) (w : Warp) (o : EngOp) (dst stride : DWord) (out : CpyoOut) (dsp : Space) : OpRun :=
  match o.bind with
  | none => .wait s g
  | some b => s.copyRun g w o dsp (cpyoAll b dst stride out dsp o.prog.pos) (fun _ => cpyoWrites g b dst stride out o.prog.pos)

/-- The rows of a copy that have been written whole, from its position on (R209). -/
def EngOp.landed (o : EngOp) (left : List Nat) : Nat :=
  let rs := o.kind.dstRegions o.bind o.prog.pos
  let rows := match o.kind with
    | .cpy _ _ _ d _ _ _ _ => cpyRows d
    | _ => (o.bind.map Binding.m).getD 0
  o.prog.pos + ((rs.take (rows - o.prog.pos)).findIdx? (fun r => (linesOf r.addr r.len).any (fun l => left.contains l))).getD (rows - o.prog.pos)

/-- A line of an operation's destination has been written: it is no longer left, and where it lies in the scratchpad its bit is set. -/
def Workgroup.lineDone (g : Workgroup) (o : EngOp) (dsp : Space) (line : Nat) : Workgroup :=
  let left := (o.left dsp).filter (· != line)
  match dsp with
  | .scratch => (g.landLines [line]).onOp o.id (fun x => { x with prog := { x.prog with pendingLines := left, pos := x.landed left } })
  | .global => g.onOp o.id (fun x => { x with prog := { x.prog with out := left, pos := x.landed left } })

/-- One line of a copy is written once the bytes that it is made from, and its own page, can be reached (R93, R211). -/
def State.landCopy (s : State) (g : Workgroup) (w : Warp) (o : EngOp) (dsp : Space) (line : Nat) (rs : List Region)
    (all : View → List (Nat × Byte)) : State :=
  let v := s.view g w o (rs ++ [{ sp := .mem dsp, acc := .write, addr := line * 256, len := 256 }])
  if v.out != .ok || !((o.left dsp).contains line) then s
  else
    let r := v.write { v.st with free := v.st.free + 1 } g dsp ((all v).filter (fun b => b.1 / 256 == line))
    r.1.setWg ((r.2).lineDone o dsp line)

/-- One line of a copy lands, while others wait (R93, R211, R216, R217). -/
def State.landLine (s : State) (g : Workgroup) (w : Warp) (o : EngOp) (line : Nat) : State :=
  match o.kind with
  | .cpy m src dst d aux ssp dsp _ =>
    (match m with
    | .ver => s
    | .mcast =>
      let v := s.view g w o (cpyLineRegions m src dst d ssp o.prog.pos line)
      if v.out != .ok || !(o.prog.pendingLines.contains line) then s
      else
        let bs := (cpyWrites v g m src dst d ssp o.prog.pos).filter (fun b => b.1 / 256 == line)
        let s1 := { v.st with free := v.st.free + 1,
                              wgs := v.st.wgs.map (fun x => if g.receives aux x then mcastLine dst d line (mcastBytes v g src d ssp bs x) x else x) }
        (match s1.wg g.uid with
        | none => s1
        | some g1 => s1.setWg (g1.onOp o.id (fun x =>
          let left := x.prog.pendingLines.filter (· != line)
          { x with prog := { x.prog with pendingLines := left, pos := x.landed left } })))
    | .plain | .canon _ | .norms _ =>
      s.landCopy g w o dsp line (cpyLineRegions m src dst d ssp o.prog.pos line)
        (fun v => (cpyWrites v g m src dst d ssp o.prog.pos).map (cpyOpen v m src d ssp dsp)))
  | .cpyo dst stride out dsp _ =>
    (match o.bind with
    | none => s
    | some b => s.landCopy g w o dsp line ((cpyoAll b dst stride out dsp o.prog.pos).filter (fun r => r.acc == .read))
        (fun _ => cpyoWrites g b dst stride out o.prog.pos))
  | _ => s

-- the matrix engine
/-- Element (j, c) of B from the registers its members hold (R222): `q` is the member's data by rank, K the contraction length. -/
def mmaB (f : MmaFmt) (quartet : Bool) (k : Nat) (q : List (List Lanes)) (j c : Nat) : FVal :=
  let e := (mmaElems f).2
  let blk := j / 4
  let per := if quartet then k / 16 else k / 4
  let who := if quartet then blk / per else 0
  let reg := nth zeroLanes (nth [] q who) (c / 16 * per + (blk - who * per))
  let word := (laneOf reg (c % 16 + 16 * (j % 4 / 2))).toNat
  if e.bits == 16 then unpack e.fmt (field word (16 * (j % 2)) 16)
  else if e.bits == 8 then unpack e.fmt (field word (8 * (j % 2)) 8)
  else unpack e.fmt (field word (8 * (j % 2)) 4)

/-- The new tile of a fired MMA (R83, R84, R221, R224). -/
def mmaTile (g : Workgroup) (b : Binding) (base panel : DWord) (f : MmaFmt) (quartet : Bool) (q : List (List Lanes)) : List (Nat × Word) :=
  let e := (mmaElems f).1
  let k := kOf e.bits
  let col := (panel.extractLsb' 32 16).toNat
  let c := (panel.extractLsb' 16 16).toNat
  let st := (panel.extractLsb' 0 16).toNat
  let rowA (i : Nat) : Nat := base.toNat + i * st
  let elem (i n : Nat) : Word :=
    mmaSum (f32 (g.slotWord b.slot (i * b.n + n))) ((List.range k).map (fun j =>
      let blk := (col + j) / 32
      mmaTerm (elemAt g.scratchByte e (rowA i) (col + j)) (mmaB f quartet k q j n)
        (scaleAt g.scratchByte e (rowA i) c blk) (scaleAt g.scratchByte e (rowA (b.m + n)) c blk)))
  ((List.range b.m).map (fun i => (List.range b.n).map (fun n => (i * b.n + n, elem i n)))).flatten

/-- Panel rows that an MMA reads: those of A, and for scaled formats those of B whose scales it reads (R221). -/
def mmaRegions (b : Binding) (base panel : DWord) (f : MmaFmt) : List Region :=
  let e := (mmaElems f).1
  let st := (panel.extractLsb' 0 16).toNat
  let c := (panel.extractLsb' 16 16).toNat
  let rows := if e.bits == 16 then b.m else b.m + b.n
  (List.range rows).map (fun i => .scr .read (base.toNat + i * st) (elemRow e.bits c + scaleRow e.bits c))

/-- The operations of a firing, by member in ascending WID (R223). -/
def Workgroup.firing (g : Workgroup) (fire : Nat) : List (Nat × EngOp) :=
  let all := (g.warps ++ g.ghosts).flatMap (fun w => (w.ops.filter (fun o => o.prog.link == some fire && o.kind.cls == some .mat)).map (fun o => (w.wid, o)))
  (List.range 32).filterMap (fun i => all.find? (fun p => p.1 == i))

/-- Retire every member's operation of a firing. -/
def Workgroup.retireAll (g : Workgroup) (os : List EngOp) : Workgroup :=
  os.foldl (fun g o => match g.opHolder o.id with
    | none => g
    | some w => g.putHolder o.id (w.retire o none)) g

/-- Retire every member's operation of a firing with a report. -/
def State.failAll (s : State) (uid : Nat) (os : List EngOp) (code va access : Nat) : State :=
  os.foldl (fun s o => match s.wg uid with
    | none => s
    | some g => s.retireFailed g o code va access) s

/-- An MMA whose members have all signed (R223, R224): once each member's earlier matrix operations have run, it runs or fails, and every
member retires it. -/
def State.runMma (s : State) (g : Workgroup) (w : Warp) (o : EngOp) (base panel : DWord) (f : MmaFmt) (fire : Nat) : State :=
  let ms := g.firing fire
  let os := ms.map Prod.snd
  let ok := ms.all (fun p => match g.opHolder p.2.id with
    | none => false
    | some w => EngOp.turn s g w p.2)
  if !ok then s
  else match o.prog.failed, o.bind with
    | some c, _ => (s.setWg g).failAll g.uid os c 0 0
    | none, none => s
    | none, some b =>
      let v := s.view g w o (mmaRegions b base panel f ++ [{ sp := .slot b.slot, acc := .read, addr := 0, len := b.m * b.n }])
      match v.out with
      | .fail c va access => (v.st.setWg g).failAll g.uid os c va access
      | .line | .absent _ _ => s
      | .ok =>
        let g1 := g.engineWords b.slot (mmaTile g b base panel f (laneCount o.lanes == 4) (os.map EngOp.data))
        (v.st.setWg (g1.retireAll os)).count g ((ms.head?.map Prod.fst).getD 0) 0x0E 1

/-- Elements, slots and tables of a sampled product (R225). -/
structure SampArgs where
  m : Nat
  n : Nat
  slot : Nat
  sum : Nat
  sA : Nat
  sB : Nat
  cw : Nat
  k : Nat
  nmax : Nat
  thr : FVal
deriving DecidableEq, Repr

def sampArgs (b : Binding) (d0 d1 : DWord) : SampArgs :=
  { m := b.m, n := b.n, slot := b.slot, sum := (d0.extractLsb' 40 8).toNat, sA := (d0.extractLsb' 56 8).toNat * 64,
    sB := (d0.extractLsb' 48 8).toNat * 64, cw := (d0.extractLsb' 28 12).toNat, k := (d0.extractLsb' 16 12).toNat,
    nmax := (d0.extractLsb' 0 16).toNat, thr := f32 (d1.extractLsb' 0 32) }

/-- Panels and norm tables that MSAMP reads (R225). -/
def sampRegions (x : SampArgs) (a b : DWord) (f : MmaFmt) : List Region :=
  let e := (mmaElems f).1
  let rows (base st n : Nat) : List Region := (List.range n).map (fun i =>
    .scr .read (base + i * st) (elemRow e.bits x.cw + scaleRow e.bits x.cw))
  rows a.toNat x.sA x.m ++ [.scr .read (a.toNat + x.m * x.sA) (8 * x.cw)]
    ++ rows b.toNat x.sB x.n ++ [.scr .read (b.toNat + x.n * x.sB) (8 * x.cw)]

/-- The norm tables of an MSAMP's panels, with its weights and their sum (R226). -/
structure SampTables where
  ws : List FVal
  total : FVal
  sgA : List FVal
  sgB : List FVal
deriving DecidableEq, Repr

/-- They are read from the scratchpad (R225, R226). -/
def Workgroup.sampTables (g : Workgroup) (x : SampArgs) (a b : DWord) : SampTables :=
  let fl (p : Nat) : FVal := f32 (BitVec.ofNat 32 (g.scratchRead p 4))
  let tabA (j : Nat) : Nat := a.toNat + x.m * x.sA + 8 * j
  let tabB (j : Nat) : Nat := b.toNat + x.n * x.sB + 8 * j
  let cols := List.range x.k
  let ws := cols.map (fun j => rn (fvMul (fl (tabA j)) (fl (tabB j))))
  { ws := ws, total := ws.foldl (fun t y => rn (fvAdd t y)) fvZero, sgA := cols.map (fun j => fl (tabA j + 4)), sgB := cols.map (fun j => fl (tabB j + 4)) }

/-- An MSAMP as it stands: its progress record and its sum slot. -/
def Workgroup.sampling (g : Workgroup) (x : SampArgs) (o : EngOp) : Sampling :=
  { n := o.prog.pos, sum := (List.range (x.m * x.n)).map (g.slotWord x.sum), mean := f32 o.prog.mean, m2 := f32 o.prog.m2 }

/-- The statistics that MSTAT will read of an accumulator (R231). -/
def Warp.sampled (w : Warp) (o : EngOp) (st : MStat) : Warp := { w with mstat := setNth noStat w.mstat o.n st }

/-- MSAMP's table build (R226, R228, R230): it fails, finds nothing to draw, or zeroes the sum slot and goes on to the draws. Empty or
failed, it leaves the sum slot as it was, and MSTAT reads its mean and variance as 0 (log 57). -/
def sampBuild (s : State) (g : Workgroup) (w : Warp) (o : EngOp) (x : SampArgs) (t : SampTables) : OpRun :=
  let stat (status : Nat) : Warp := w.sampled o { status := status, n := 0, mean := 0, var := 0 }
  if t.total.nonFinite || t.ws.any FVal.nonFinite then .fail s (g.putHolder o.id (stat 4)) 0x0F 0 0
  else if t.total.isZero then .done s g (stat 3)
  else .wait s ((g.engineWords x.sum ((List.range (x.m * x.n)).map (fun i => (i, 0)))).onOp o.id (fun o => { o with prog := { o.prog with phase := 1 } }))

/-- One sample of an MSAMP (R227 to R229). -/
def sampDraw (s : State) (g : Workgroup) (w : Warp) (o : EngOp) (x : SampArgs) (t : SampTables) (a b : DWord) (f : MmaFmt) (seed : Word) : OpRun :=
  let e := mmaElems f
  let elA (r j : Nat) : FVal := underScale (elemAt g.scratchByte e.1 (a.toNat + r * x.sA) j) (scaleAt g.scratchByte e.1 (a.toNat + r * x.sA) x.cw (j / 32))
  let elB (c j : Nat) : FVal := underScale (elemAt g.scratchByte e.2 (b.toNat + c * x.sB) j) (scaleAt g.scratchByte e.2 (b.toNat + c * x.sB) x.cw (j / 32))
  let term (c : FVal) (j i : Nat) : FVal := fvMul (fvMul c (elA (i / x.n) j)) (elB (i % x.n) j)
  let y := (g.sampling x o).sample seed.toNat x.k (aliasTable t.ws t.total) t.ws t.total t.sgA t.sgB term
  let finished := y.status x.thr x.nmax != 0
  .wait (s.count g w.wid 0x0F 1) ((g.engineWords x.sum (y.sum.zipIdx.map (fun z => (z.2, z.1)))).onOp o.id (fun o =>
    { o with prog := { o.prog with pos := y.n, mean := rnWord y.mean, m2 := rnWord y.m2, phase := if finished then 2 else 1 } }))

/-- MSAMP's final pass (R228). The status of one that a PROG write took past its draws (R209) is a free value where neither test of R229
holds (log 57). -/
def sampFinal (s : State) (g : Workgroup) (w : Warp) (o : EngOp) (x : SampArgs) : OpRun :=
  let y := g.sampling x o
  let fin := y.sum.zipIdx.map (fun z => (z.2, rnWord (fvAdd (f32 (g.slotWord x.slot z.2)) (rn (fvDiv (f32 z.1) (fvOfNat y.n))))))
  let status := if y.status x.thr x.nmax == 0 then (Config.openByte s.free).toNat % 16 else y.status x.thr x.nmax
  .done { s with free := s.free + 1 } (g.engineWords x.slot fin)
    (w.sampled o { status := status, n := y.n, mean := rnWord y.mean, var := rnWord y.var })

/-- One step of an MSAMP (R226 to R230): the table build, one draw, or the final pass; it may stop between two of them (R209). -/
def runMsamp (s : State) (g : Workgroup) (w : Warp) (o : EngOp) (a b d0 d1 : DWord) (f : MmaFmt) (seed : Word) : OpRun :=
  match o.bind with
  | none => .wait s g
  | some bd =>
    let x := sampArgs bd d0 d1
    let slot (t : Nat) : Region := { sp := .slot t, acc := .read, addr := 0, len := x.m * x.n }
    let v := s.view g w o (match o.prog.phase with
      | 0 => sampRegions x a b f
      | 1 => sampRegions x a b f ++ [slot x.sum]
      | _ => [slot x.sum, slot x.slot])
    match v.out with
    | .line => .wait v.st g
    | .absent va access => .absent v.st g va access
    | .fail c va access => .fail v.st (g.putHolder o.id (w.sampled o { status := 4, n := o.prog.pos, mean := 0, var := 0 })) c va access
    | .ok =>
      match o.prog.phase with
      | 0 => sampBuild v.st g w o x (g.sampTables x a b)
      | 1 => if o.prog.pos < x.nmax then sampDraw v.st g w o x (g.sampTables x a b) a b f seed else sampFinal v.st g w o x
      | _ => sampFinal v.st g w o x

/-- MSTAT (R231). -/
def runMstat (w : Warp) (o : EngOp) (r : Nat) : Warp :=
  let st := nth noStat w.mstat o.n
  let put (w : Warp) (i : Nat) (v : Word) : Warp := w.setG (r + i) o.lanes (List.replicate 32 v)
  put (put (put w 0 (BitVec.ofNat 32 (st.status * 65536 + st.n % 65536))) 1 st.mean) 2 st.var

-- the optimizer path
/-- The shape tag of a slot (R220): what the last KBIND set, 64×64 when none has bound it since the core was assigned to the context, or
what an earlier workgroup's bindings left (log 9). -/
def Workgroup.slotTag (g : Workgroup) (t : Nat) : Nat × Nat :=
  match (g.slots[t]?).bind Slot.tag with
  | some x => x
  | none =>
    let d (i : Nat) : Nat := if i == 0 then 16 else if i == 1 then 32 else 64
    let r := Config.residueTag g.uid t
    (d r.1, d r.2)

/-- A word of an operation's view. -/
def View.word (v : View) (g : Workgroup) (a : Nat) : Word := BitVec.ofNat 32 (v.num g .global a 4)

/-- Write a word of an operation's view to global memory. -/
def View.put (v : View) (s : State) (g : Workgroup) (a : Nat) (x : Word) : State := (v.write s g .global (cellsFrom a (leBytes 4 x.toNat))).1

/-- Write several words of an operation's view. -/
def View.puts (v : View) (s : State) (g : Workgroup) (l : List (Nat × Word)) : State := l.foldl (fun s p => v.put s g p.1 p.2) s

/-- ACHECK (R232). -/
def runAcheck (s : State) (g : Workgroup) (w : Warp) (o : EngOp) (slot : Nat) (status : DWord) : OpRun :=
  let tag := g.slotTag slot
  let bad := (List.range (tag.1 * tag.2)).any (fun i => field (g.slotWord slot i).toNat 23 8 == 0xFF)
  let v := s.view g w o [{ sp := .slot slot, acc := .read, addr := 0, len := tag.1 * tag.2 }, .glob .atomic status.toNat 4]
  match v.out with
  | .line => .wait v.st g
  | .absent va access => .absent v.st g va access
  | .fail c va access => .fail v.st g c va access
  | .ok => .done (v.put v.st g status.toNat (v.word g status.toNat ||| (if bad then 1 else 0))) g w

/-- The record after an LSUPD step, and whether the floor was hit (R234). Fields as R233 lists them. -/
def lsStep (scale clean lower upper interval flags step : Word) (overflow : Bool) : Word × Word × Word × Word × Word × Bool :=
  let keep := flags &&& ~~~(2#32)
  if overflow then
    if decide (cmpVal (f32 scale) (f32 lower) ≤ 0) && !(f32 scale).isNan && !(f32 lower).isNan then
      (scale, 0, keep ||| 3#32, scale, step + 1, true)
    else
      let half := rn (fvMul (f32 scale) (.fin false 1 (-1)))
      (rnWord (maxVal false half (f32 lower)).1, 0, keep ||| 2#32, scale, step + 1, false)
  else
    let c := clean + 1
    if interval.toNat ≤ c.toNat then
      let grown := if cmpVal (f32 scale) (f32 upper) < 0 then rnWord (maxVal true (rn (fvMul (f32 scale) (fvOfNat 2))) (f32 upper)).1 else scale
      (grown, 0, keep, scale, step + 1, false)
    else (scale, c, keep, scale, step + 1, false)

/-- `LSCALE` from a scale record (R64). -/
def lscaleOf (scale clean flags : Word) : DWord :=
  BitVec.ofNat 64 (scale.toNat + clean.toNat % 65536 * 2 ^ 32 + (flags.toNat % 2) * 2 ^ 48)

/-- LSUPD's publication (R234): `r` is the record's next scale, inverse, overflow count, words 24 and 28, and whether the scale is
at its end. -/
def lsPublish (v : View) (g : Workgroup) (w : Warp) (op a : Nat) (stops : Bool) (r : Word × Word × Word × Word × Word × Bool) : OpRun :=
  let s1 := v.puts v.st g [(a, r.1), (a + 4, r.2.1), (a + 20, r.2.2.1), (a + 24, r.2.2.2.1), (a + 28, r.2.2.2.2.1)]
  let w1 := { w with lscale := lscaleOf r.1 r.2.1 r.2.2.1 }
  if r.2.2.2.2.2 && stops then .fail s1 (g.putHolder op w1) 0x15 0 0 else .done s1 g w1

/-- LSUPD (R234). One that fails leaves LSCALE as it was (log 58). -/
def runLsupd (s : State) (g : Workgroup) (w : Warp) (o : EngOp) (rec' status : DWord) : OpRun :=
  let a := rec'.toNat
  let v := s.view g w o [.glob .read status.toNat 4, .glob .atomic a 32]
  match v.out with
  | .line => .wait v.st g
  | .absent va access => .absent v.st g va access
  | .fail c va access => .fail v.st g c va access
  | .ok =>
    let f (i : Nat) : Word := v.word g (a + 4 * i)
    lsPublish v g w o.id a ((f 5).getLsbD 2) (lsStep (f 0) (f 1) (f 2) (f 3) (f 4) (f 5) (f 7) ((v.word g status.toNat).getLsbD 0))

/-- The addresses of a tile record (R235). -/
structure TileRec where
  master : Nat
  mom1 : Nat
  mom2 : Nat
  work : Nat
  q8 : Nat
  status : Nat
deriving DecidableEq, Repr

/-- The addresses that a tile record holds (R235). -/
def View.tileRec (v : View) (g : Workgroup) (a : Nat) : TileRec :=
  let d (o : Nat) : Nat := v.num g .global (a + o) 8
  { master := d 8, mom1 := d 16, mom2 := d 24, work := d 32, q8 := d 40, status := d 48 }

/-- The arrays of a tile record with the multiples that their addresses must be (R235). -/
def TileRec.arrays (t : TileRec) (m n : Nat) (opt : Optim) : List (Region × Nat) :=
  [(.glob .atomic t.master (4 * m * n), 4), (.glob .atomic t.mom1 (4 * m * n), 4)]
    ++ (match opt with
        | .adamw => [(.glob .atomic t.mom2 (4 * m * n), 4)]
        | .sgdm => [])
    ++ [(.glob .write t.work (2 * m * n), 2), (.glob .write t.q8 (m * (n + n / 32)), 1)]

/-- The first address of a tile record that is out of range, or else the first that is not aligned (R88, R208, R235). -/
def TileRec.fault (t : TileRec) (m n : Nat) (opt : Optim) : Option (Nat × Region) :=
  let rs := (Region.glob .read t.status 4, 4) :: t.arrays m n opt
  match rs.find? (fun r => decide (2 ^ 48 < r.1.addr + r.1.len)) with
  | some r => some (0x05, r.1)
  | none => (rs.find? (fun r => r.1.addr % r.2 != 0)).map (fun r => (0x04, r.1))

/-- The regions of an ADRAIN's update (R111, R235). -/
def adrainRegions (t : TileRec) (slot a m n : Nat) (opt : Optim) : List Region :=
  [.glob .atomic a 256, { sp := .slot slot, acc := .read, addr := 0, len := m * n }] ++ (t.arrays m n opt).map Prod.fst

/-- The bytes that an ADRAIN writes (R236, R237), with PREV of the scale record: the arrays, the working copies, and the version last. -/
def adrainBytes (v : View) (g : Workgroup) (t : TileRec) (slot a : Nat) (prev : Word) (m n : Nat) (opt : Optim) : List (Nat × Byte) :=
  let p (o : Nat) : FVal := f32 (v.word g (a + o))
  let prm : OptParams :=
    { lr := p 56, b1 := p 60, b2 := p 64, eps := p 68, wd := p 72, c1 := p 76, c2 := p 80, prev := f32 prev }
  let res := (List.range (m * n)).map (fun i =>
    optStep opt prm (f32 (g.slotWord slot i)) (f32 (v.word g (t.master + 4 * i))) (f32 (v.word g (t.mom1 + 4 * i)))
      (match opt with
       | .adamw => f32 (v.word g (t.mom2 + 4 * i))
       | .sgdm => fvZero))
  let ws := res.map Prod.fst
  let words (base : Nat) (xs : List Word) : List (Nat × Byte) := cellsFrom base ((xs.map (fun x => leBytes 4 x.toNat)).flatten)
  let q8 := ((List.range m).map (fun i => cellsFrom (t.q8 + i * (n + n / 32)) (quantRow n ((ws.drop (i * n)).take n)))).flatten
  words t.master ws ++ words t.mom1 (res.map (fun x => x.2.1))
    ++ (match opt with
        | .adamw => words t.mom2 (res.map (fun x => x.2.2))
        | .sgdm => [])
    ++ cellsFrom t.work ((ws.map (fun x => leBytes 2 (toBf16 x))).flatten) ++ q8
    ++ cellsFrom a (leBytes 4 ((v.num g .global a 4 + 2) % 2 ^ 32))

/-- The update of an ADRAIN that is not skipped (R236). -/
def adrainUpdate (s : State) (g : Workgroup) (w : Warp) (o : EngOp) (t : TileRec) (slot a : Nat) (prev : Word) (m n : Nat) (opt : Optim) (keep : Bool) : OpRun :=
  let v := s.view g w o (adrainRegions t slot a m n opt)
  match v.out with
  | .line => .wait v.st g
  | .absent va access => .absent v.st g va access
  | .fail c va access => .fail v.st g c va access
  | .ok => .done (v.write v.st g .global (adrainBytes v g t slot a prev m n opt)).1 (if keep then g else g.zeroSlot slot) w

/-- An ADRAIN that has read its status word and scale record (R236): skipped, or its update is made. `r` gives the status word and the words of the
scale record. -/
def adrainGo (s : State) (g : Workgroup) (w : Warp) (o : EngOp) (t : TileRec) (slot a : Nat) (r : List Word) (m n : Nat) (opt : Optim) (keep : Bool) : OpRun :=
  if (nth 0#32 r 0).getLsbD 0 || (nth 0#32 r 6).getLsbD 1 then .done s (if keep then g else g.zeroSlot slot) w
  else adrainUpdate s g w o t slot a (nth 0#32 r 7) m n opt keep

/-- ADRAIN (R111, R113, R114, R235 to R237): what it read at its issue, or reads now where it could not then; all inputs, then the publication, in one
step (log 3). -/
def runAdrain (s : State) (g : Workgroup) (w : Warp) (o : EngOp) (slot : Nat) (rec' scale : DWord) (opt : Optim) (keep : Bool) : OpRun :=
  let tag := g.slotTag slot
  let a := rec'.toNat
  let v0 := s.view g w o ((if o.data.isEmpty then [.glob .read scale.toNat 32] else []) ++ [.glob .atomic a 256])
  match v0.out with
  | .line => .wait v0.st g
  | .absent va access => .absent v0.st g va access
  | .fail c va access => .fail v0.st g c va access
  | .ok =>
    let t := v0.tileRec g a
    match t.fault tag.1 tag.2 opt, o.data with
    | some (c, r), _ => .fail v0.st g c (r.addr % 2 ^ 64) (engAccess r.acc)
    | none, r :: _ => adrainGo v0.st g w o t slot a r tag.1 tag.2 opt keep
    | none, [] =>
      let vs := v0.st.view g w o [.glob .read t.status 4]
      match vs.out with
      | .line => .wait vs.st g
      | .absent va access => .absent vs.st g va access
      | .fail c va access => .fail vs.st g c va access
      | .ok => adrainGo vs.st g w o t slot a (vs.word g t.status :: (List.range 8).map (fun i => v0.word g (scale.toNat + 4 * i))) tag.1 tag.2 opt keep

-- channels, SLD, SST, LAUNCH
/-- The channel of a gang (R201). -/
def State.channel (s : State) (g : Workgroup) (c : Nat) : Option Channel :=
  (s.gangs.find? (fun x => x.uid == g.gang)).bind (fun x => x.channels[c]?)
/-- Replace a channel. -/
def State.setChannel (s : State) (g : Workgroup) (c : Nat) (ch : Channel) : State :=
  { s with gangs := s.gangs.map (fun x => if x.uid == g.gang then { x with channels := x.channels.set c ch } else x) }
/-- Whether the workgroup of a rank of the gang has ended. -/
def State.rankEnded (s : State) (g : Workgroup) (rank : Nat) : Bool := !(s.wgs.any (fun x => x.gang == g.gang && x.rank == rank))

/-- CHSEND (R201, R202). -/
def runChsend (s : State) (g : Workgroup) (w : Warp) (o : EngOp) (ch : DWord) : OpRun :=
  match s.channel g ch.toNat with
  | none => .fail s g 0x14 0 0
  | some c =>
    if c.msgs.length < c.slots then .done (s.setChannel g ch.toNat { c with msgs := c.msgs ++ [nth zeroLanes o.data 0] }) g w
    else if s.rankEnded g c.receiver then .fail s g 0x14 0 0
    else .wait s g

/-- CHRECV (R201, R202). -/
def runChrecv (s : State) (g : Workgroup) (w : Warp) (o : EngOp) (ch : DWord) (r : Nat) : OpRun :=
  match s.channel g ch.toNat with
  | none => .fail s g 0x14 0 0
  | some c =>
    match c.msgs with
    | m :: rest => .done (s.setChannel g ch.toNat { c with msgs := rest }) g (w.setG r o.lanes m)
    | [] => if s.rankEnded g c.sender then .fail s g 0x14 0 0 else .wait s g

/-- SLD and SST (R200). -/
def runSld (s : State) (g : Workgroup) (w : Warp) (o : EngOp) (a : DWord) (r : Nat) : OpRun :=
  if o.lanes == 0 then .done s g w
  else
    let v := s.view g w o [.glob .read a.toNat 8]
    match v.out with
    | .line => .wait v.st g
    | .absent va access => .absent v.st g va access
    | .fail c va access => .fail v.st g c va access
    | .ok =>
      let w1 := w.setG r o.lanes (List.replicate 32 (v.word g a.toNat))
      .done v.st g (w1.setG (r + 1) o.lanes (List.replicate 32 (v.word g (a.toNat + 4))))

def runSst (s : State) (g : Workgroup) (w : Warp) (o : EngOp) (a x : DWord) : OpRun :=
  if o.lanes == 0 then .done s g w
  else
    let v := s.view g w o [.glob .write a.toNat 8]
    match v.out with
    | .line => .wait v.st g
    | .absent va access => .absent v.st g va access
    | .fail c va access => .fail v.st g c va access
    | .ok =>
      let r := v.write v.st g .global (cellsFrom a.toNat (leBytes 8 x.toNat))
      .done r.1 ((r.1.wg g.uid).getD g) w

/-- LAUNCH with its index reserved (R308): it waits for ring space, then writes the entry and rings. -/
def launchEntry (s : State) (g : Workgroup) (w : Warp) (o : EngOp) (q i : Nat) (body : List Byte) : OpRun :=
  let log2 := s.qField q 24 1
  if 2 ^ log2 ≤ (i + 2 ^ 32 - s.qHead q) % 2 ^ 32 then .wait s g
  else
    let entry := (s.qField q 0 8 + 256 * (i % 2 ^ log2)) % 2 ^ 48
    let v := s.view g w o [.glob .write entry 256]
    match v.out with
    | .line => .wait v.st g
    | .absent va access => .absent v.st g va access
    | .fail c va access => .fail v.st g c va access
    | .ok => .done ((v.write v.st g .global (cellsFrom entry (leBytes 8 (i + 2 ^ 32) ++ body))).1.ringDoorbell q) g w

/-- LAUNCH (R184, R308): reserve an index, wait for ring space, write the entry, ring. -/
def runLaunch (s : State) (g : Workgroup) (w : Warp) (o : EngOp) (rec' queue : DWord) : OpRun :=
  let q := queue.toNat
  if o.lanes == 0 then .done s g w
  else if s.qField q 26 2 % 512 != g.asid then .fail s g 0x06 0 0
  else
    let v := s.view g w o [.glob .read rec'.toNat 256]
    match v.out with
    | .line => .wait v.st g
    | .absent va access => .absent v.st g va access
    | .fail c va access => .fail v.st g c va access
    | .ok =>
      let body := (List.range 248).map (fun k => v.byte g .global (rec'.toNat + 8 + k))
      match o.prog.link with
      | some i => launchEntry v.st g w o q i body
      | none =>
        let i := v.st.qResv q
        launchEntry (v.st.qPut q 8 4 ((i + 1) % 2 ^ 32)) (g.onOp o.id (fun x => { x with prog := { x.prog with link := some i } })) w o q i body

/-- What an operation does when it runs. Those that another step carries out wait here. -/
def State.runOp (s : State) (g : Workgroup) (w : Warp) (o : EngOp) : OpRun :=
  match o.kind with
  | .cpy .ver _ _ _ _ _ _ _ => .wait s g
  | .cpy m src dst d aux ssp dsp _ => runCpy s g w o m src dst d aux ssp dsp
  | .cpyo dst st out dsp _ => runCpyo s g w o dst st out dsp
  | .mzero t => .done s (g.zeroSlot t) w
  | .mma _ _ _ _ _ => .wait s g
  | .msamp a b d0 d1 f seed => runMsamp s g w o a b d0 d1 f seed
  | .mstat r => .done s g (runMstat w o r)
  | .acheck t st => runAcheck s g w o t st
  | .adrain t r sc opt keep => runAdrain s g w o t r sc opt keep
  | .lsupd r st => runLsupd s g w o r st
  | .tmove _ _ _ => .wait s g
  | .solicit _ _ _ _ _ _ => .wait s g
  | .chsend c _ => runChsend s g w o c
  | .chrecv c r => runChrecv s g w o c r
  | .spawn _ _ => .done s g w
  | .launch r q => runLaunch s g w o r q
  | .sld a _ _ r => runSld s g w o a r
  | .sst a x _ _ => runSst s g w o a x
  | .kbind _ _ _ | .kfree | .treg _ _ _ | .tdrop _ | .reply | .pmrd _ _ | .pmctl _ _ => .done s g w

/-- An operation meets a page that is not present and waits for it (R208, R326), which counts as a data fault (R342). -/
def State.opAbsent (s : State) (g : Workgroup) (w : Warp) (o : EngOp) (va access : Nat) : State :=
  ((s.setWg (g.onOp o.id (fun x => { x with prog := { x.prog with page := some { va := BitVec.ofNat 48 va, since := s.clk, access := access, told := false } } }))).send
    { s.record g 2 with access := access, wid := w.wid, va := va, pc := o.addr.toNat }).count g w.wid 0x16 1

/-- One access of a versioned read: its version word, or with the copy words as well (R112, R215). -/
def State.versionView (s : State) (g : Workgroup) (w : Warp) (o : EngOp) (copy : Bool) : View :=
  match o.kind with
  | .cpy .ver src dst d aux ssp dsp _ =>
    s.view g w o (.glob .read aux.toNat 4 :: (if copy then cpyRegions .ver src dst d ssp dsp 0 else []))
  | _ => s.view g w o []

/-- The copy words of an attempt of a versioned read, written to its destination (R112, R215). -/
def View.attempt (v : View) (g : Workgroup) (o : EngOp) : State × Workgroup :=
  match o.kind with
  | .cpy .ver src dst d _ ssp dsp _ =>
    v.write { v.st with free := v.st.free + 1 } g dsp ((cpyWrites v g .ver src dst d ssp 0).map (cpyOpen v .ver src d ssp dsp))
  | _ => (v.st, g)

/-- An attempt of a versioned read has failed (R112): the next one follows 256 clk later, and the fifth leaves trap 0x17. -/
def EngOp.nextAttempt (o : EngOp) (clk : Nat) : EngOp :=
  let p := { o.prog with pos := o.prog.pos + 1, link := none, notBefore := clk + 256 }
  if o.prog.pos + 1 < 5 then { o with prog := p } else { (o.fail 0x17) with prog := { (o.fail 0x17).prog with pos := o.prog.pos + 1, link := none } }

/-- An access of a versioned read meets its pages (R208, R346): `go` with what it has reached, or it waits, or it fails. -/
def State.versioned (s : State) (g : Workgroup) (w : Warp) (o : EngOp) (copy : Bool) (go : View → State) : State :=
  let v := s.versionView g w o copy
  match v.out with
  | .ok => go v
  | .line => v.st
  | .absent va access => v.st.opAbsent g w o va access
  | .fail c va access => v.st.setWg (g.onOp o.id (fun x => x.failAt c va access))

/-- One step of an attempt of a versioned read (R112, R215). The first loads the version, ends the attempt where it is odd, and otherwise reads the
copy words; the second loads the version again, and the attempt has failed where it has changed. The fifth attempt copies its words also
where the version is odd, and the trap follows. -/
def State.versionedAttempt (s : State) (g : Workgroup) (w : Warp) (o : EngOp) : State :=
  match o.kind with
  | .cpy .ver _ _ _ aux _ _ _ =>
    if !(EngOp.turn s g w o) || o.prog.done then s
    else
      let ver (v : View) : Nat := v.num g .global aux.toNat 4
      match o.prog.link with
      | none =>
        s.versioned g w o false (fun v =>
          if ver v % 2 == 1 && decide (o.prog.pos < 4) then v.st.setWg (g.onOp o.id (fun x => x.nextAttempt s.clk))
          else v.st.versioned g w o true (fun u =>
            let r := u.attempt g o
            r.1.setWg (r.2.onOp o.id (fun x => if ver u % 2 == 1 then x.nextAttempt s.clk else { x with prog := { x.prog with link := some (ver u) } }))))
      | some v1 =>
        s.versioned g w o false (fun v => v.st.setWg (g.onOp o.id (fun x =>
          if ver v == v1 then { x with prog := { x.prog with pos := x.prog.pos + 1, link := none, done := true } } else x.nextAttempt s.clk)))
  | _ => s

/-- ENGINE_RETIRE (R57, R208): an operation whose turn it is runs and retires, fails with a report, or waits. -/
def State.retireOp (s : State) (g : Workgroup) (op : Nat) : State :=
  match g.opHolder op with
  | none => s
  | some w =>
    match w.ops.find? (fun o => o.id == op) with
    | none => s
    | some o =>
      if !(EngOp.turn s g w o) then s
      else match o.kind, o.prog.link, o.prog.failed with
        | .mma base panel f _ _, some fire, _ => s.runMma g w o base panel f fire
        | _, _, some c => s.retireFailed g o c ((o.prog.page.map (fun p => p.va.toNat)).getD 0) ((o.prog.page.map PageWait.access).getD 0)
        | _, _, none =>
          if o.prog.done then s.retireDone g w o
          else match s.runOp g w o with
            | .done s' g' w' => s'.retireDone g' w' o
            | .fail s' g' c va access => s'.retireFailed g' o c va access
            | .absent s' g' va access => s'.opAbsent g' w o va access
            | .wait s' g' => s'.setWg g'

end Sys2Proof.Machine
end

