-- ==== Sys2Proof/Machine/Steps.lean ====
section
/-!
DEFINITION. Steps of the clusters, the load/store unit and the engines: starting and finishing a queued instruction (R18, R22, R27,
R100), issuing, landing and retiring an engine operation (R57, R93, R112, R207, R223). A step that is not due has no effect.
-/
namespace Sys2Proof.Machine

/-- An MMA waits at the head of its queue for its signature, which is a step of its own (R223). -/
def QEntry.isMma (e : QEntry) : Bool :=
  match e.op with
  | .eng (.mma _ _ _ _ _) => true
  | _ => false

/-- An instruction whose completion is the return of data: a load, `LDTR`, or an atomic, which delivers the old value (R195, R197,
R199). -/
def QEntry.isLoad (e : QEntry) : Bool :=
  match e.op with
  | .ld _ _ | .ldtr _ _ _ _ _ | .atom _ _ => true
  | _ => false

/-- A warp without the head of one of its queues. -/
def Warp.popHead (w : Warp) (cl : Nat) : Warp := { w with queues := setNth [] w.queues cl ((nth [] w.queues cl).drop 1) }
/-- A warp without a started entry. -/
def Warp.popStarted (w : Warp) (e : QEntry) : Warp := { w with started := w.started.filter (fun x => x.seq != e.seq) }

/-- The warps of a core that offer a head to a cluster. -/
def State.starters (s : State) (die core cl : Nat) : List (Workgroup × Warp × QEntry) :=
  (s.onCore die core).flatMap (fun g => g.warps.filterMap (fun w => (s.offers g w cl).map (fun e => (g, w, e))))

/-- The oldest of them (R18). -/
def oldestStarter (l : List (Workgroup × Warp × QEntry)) : Option (Workgroup × Warp × QEntry) :=
  l.foldl (fun a x => match a with
    | none => some x
    | some y => if x.2.1.age < y.2.1.age then some x else some y) none

/-- Whether running an entry now meets a page that is not present; such an instruction does not start (R326). -/
def State.faultOf (s : State) (g : Workgroup) (w : Warp) (e : QEntry) : Option (State × Nat × Nat) :=
  match s.runEntry g w e with
  | .fault s' va access => some (s', va, access)
  | .done _ | .trap _ _ _ _ _ | .wait => none

/-- A cluster starts an entry (R18); an `RDSR` reads its register now (R166). -/
def State.startEntry (s : State) (g : Workgroup) (w : Warp) (cl : Nat) (e : QEntry) : State :=
  let w0 := w.popHead cl
  match s.faultOf g w0 e with
  | some (s', va, access) => s'.meetAbsent g w0 w e va access
  | none =>
    match e.op with
    | .rdsr i =>
      let r := if w0.exec e.hdr == 0 then (zeroLanes, w0) else s.rdsrRead g w0 i
      s.put g { r.2 with started := r.2.started ++ [{ e with op := .ready r.1 }] }
    | _ => s.put g { w0 with started := w0.started ++ [e] }

/-- STRAND_START (R18): one cluster starts the ready head of the oldest warp. -/
def execStrandStart (die : BitVec 2) (core : BitVec 6) (cl : BitVec 3) (s : State) : Out :=
  match oldestStarter (s.starters die.toNat core.toNat cl.toNat) with
  | none => .next s
  | some (g, w, e) => .next (s.startEntry g w cl.toNat e)

/-- A started instruction that finds its page gone has not started after all: it stays queued, or a stop under way records it
(R326, R29). -/
def State.unstart (s : State) (g : Workgroup) (w0 : Warp) (e : QEntry) (va access : Nat) : State :=
  match w0.stopping with
  | some st =>
    s.put g { w0.giveBack e with stopping := some { st with left := (e.n, e.addr, e.hdr) :: st.left } }
  | none =>
    let c := cluster e.n
    s.meetAbsent g w0 { w0 with queues := setNth [] w0.queues c (e :: nth [] w0.queues c) } e va access

/-- A started instruction completes (R22), traps (R27), or goes on waiting. -/
def State.completeEntry (s : State) (g : Workgroup) (w : Warp) (e : QEntry) : State :=
  let w0 := w.popStarted e
  match s.runEntry g w0 e with
  | .done s' => s'
  | .trap s' c va access c2 => s'.trapStrand g w0 e c va access c2
  | .wait => s
  | .fault s' va access => s'.unstart g w0 e va access

/-- The started entry of a strand, of the loads or of the others. -/
def Warp.startedOf (w : Warp) (n : Nat) (load : Bool) : Option QEntry := w.started.find? (fun e => e.n == n && e.isLoad == load)

/-- Complete the started entry of a strand. -/
def State.complete (s : State) (wg wid n : Nat) (load : Bool) : Out :=
  s.onWarpOf wg wid (fun g w => match w.startedOf n load with
    | none => .next s
    | some e => .next (s.completeEntry g w e))

/-- STRAND_INSTRUCTION_COMPLETE (R22, R27). -/
def execStrandInstructionComplete (wg wid : Nat) (n : BitVec 4) (s : State) : Out := s.complete wg wid n.toNat false

/-- LOAD_COMPLETE (R100, R195). -/
def execLoadComplete (wg wid : Nat) (n : BitVec 4) (s : State) : Out := s.complete wg wid n.toNat true

/-- The engine instruction at the head of a queue, an MMA or another (R207). -/
def Warp.engineHead (w : Warp) (cl : Nat) (mma : Bool) : Bool :=
  match nth [] w.queues cl with
  | e :: _ => e.isEngine && e.isMma == mma
  | [] => false

/-- ENGINE_ISSUE (R207): a waiting head leaves its queue and its operation starts. -/
def execEngineIssue (wg wid : Nat) (cl : BitVec 3) (s : State) : Out :=
  s.onWarpOf wg wid (fun g w => if w.engineHead cl.toNat false then .next (s.runHead g w cl.toNat) else .next s)

/-- MMA_SIGN (R223): an MMA at the head of its queue checks its register again and signs it. -/
def execMmaSign (wg wid : Nat) (cl : BitVec 3) (s : State) : Out :=
  s.onWarpOf wg wid (fun g w => if w.engineHead cl.toNat true then .next (s.runHead g w cl.toNat) else .next s)

/-- The holder of an operation, by its warp's number: a live warp, or a freed slot with operations outstanding (R57). -/
def State.onHolder (s : State) (wg wid op : Nat) (f : Workgroup → Warp → EngOp → State) : Out :=
  s.onWg wg (fun g => match g.opHolder op with
    | none => .next s
    | some w => match w.ops.find? (fun o => o.id == op) with
      | none => .next s
      | some o => if w.wid == wid then .next (f g w o) else .next s)

/-- ENGINE_RETIRE (R57, R179, R208). -/
def execEngineRetire (wg wid op : Nat) (s : State) : Out := s.onHolder wg wid op (fun g _ _ => s.retireOp g op)

/-- LINE_LAND (R93): a line of a running copy lands before the operation retires. -/
def execLineLand (wg wid op line : Nat) (s : State) : Out :=
  s.onHolder wg wid op (fun g w o => if EngOp.turn s g w o && o.prog.failed.isNone then s.landLine g w o line else s)

/-- VERSIONED_READ_ATTEMPT (R112, R215). -/
def execVersionedReadAttempt (wg wid op : Nat) (s : State) : Out := s.onHolder wg wid op (fun g w o => s.versionedAttempt g w o)

/-- Whether every older load of the warp has performed (R100 item 2). -/
def Warp.olderLoads (w : Warp) (seq : Nat) : Bool := w.pending.any (fun e => decide (e.seq < seq) && e.isLoad)

/-- A completed entry of a store queue is performed (R100 item 2): to the scratchpad, or at the physical addresses that its store
translated to, for every agent (log 4). -/
def State.perform (s : State) (g : Workgroup) (sp : Space) (bs : List (Nat × Byte)) : State :=
  match sp with
  | .scratch => s.setWg (g.scratchWrite bs)
  | .global => (s.setWg g).putBytes (s.wgKey g) bs

/-- A scratchpad entry waits for its lines, and for an older copy that has yet to clear them (R93, R94). -/
def State.drainHeld (s : State) (g : Workgroup) (w : Warp) (e : StoreEntry) (bs : List (Nat × Byte)) : Bool :=
  match e.space with
  | .scratch => bs.any (fun b => s.heldBack g w e.seq (b.1 / 256))
  | .global => false

/-- The oldest store-queue entry drains (R100 item 2), once every older load has performed and its lines are present (R93). -/
def State.drainStore (s : State) (g : Workgroup) (w : Warp) : State :=
  match w.storeQ with
  | [] => s
  | e :: rest =>
    match e.bytes with
    | none => s
    | some bs =>
      if w.olderLoads e.seq || s.drainHeld g w e bs then s
      else s.perform (g.setWarp ({ w with storeQ := rest }.tidyFences)) e.space bs

/-- STORE_DRAIN (R100). -/
def execStoreDrain (wg wid : Nat) (s : State) : Out := s.onWarpOf wg wid (fun g w => .next (s.drainStore g w))

end Sys2Proof.Machine
end

