-- ==== Sys2Proof/Machine/Census.lean ====
section
/-!
DEFINITION. Steps of the census network and of TMOVE (R238 to R245): delivery, owes, responders, reports, completion, and the
installation of a moved entry.
-/
namespace Sys2Proof.Machine

/-- The uniform state at launch (R66), which a responder starts with (R242). -/
def Workgroup.launchUni (g : Workgroup) : UniState :=
  { s := (List.range 64).map (fun i => if i == 0 then 0#64 else nth 0#64 g.consts (i - 1)), lc := List.replicate 3 0, loops := [],
    part := if g.compat16 then 4 else 5, actl := 0, handler := false }

/-- Deposit the responder of an entry (R242); none while its owner cannot take it. -/
def State.depositResponder (s : State) (id : Nat) (entry : BitVec 48) (d : DirEntry) : Option (State × Nat × Nat) :=
  match s.wg d.owner with
  | none => none
  | some g =>
    if 1024 ≤ g.liveThreads then none
    else
      let tid := (freeTids 1024 0 1 g.tids).headD 0
      let first : List Word := [d.base.extractLsb' 0 32, (d.base.extractLsb' 32 16).zeroExtend 32, d.len, d.key.extractLsb' 0 32, d.key.extractLsb' 32 32]
      match s.deposit g { addr := entry, uni := g.launchUni } [newThread g.baseGranules tid (some id) first] with
      | none => none
      | some (g', spilled) =>
        some (((((s.spill g spilled).setWg g').count g' 255 0x11 1).count g' 255 0x13 (if spilled then 1 else 0)).count g' 255 0x19 1, g.uid, tid)

/-- A report of a location with nothing in it yet (R244). -/
def emptyReport (op : CenOp) (loc : Nat) (balance : Int) : LocReport :=
  { loc := loc, spawned := [], held := [], value := cenIdentity op, responders := 0, dormant := 0, balance := balance }

/-- Answer an entry at its location (R242, R244): a responder, deposited or held; in a dormant directory a dormant match (R240). -/
def State.answer (s : State) (c : Census) (d : DirEntry) (r : LocReport) : State × LocReport :=
  if 192 ≤ d.loc then (s, { r with dormant := r.dormant + 1 })
  else match s.depositResponder c.id c.entry d with
    | some (s', uid, tid) => (s', { r with spawned := r.spawned ++ [(uid, tid)], responders := r.responders + 1 })
    | none => (s, { r with held := r.held ++ [d], responders := r.responders + 1 })

/-- An entry matches a census (R241). -/
def Census.matches (c : Census) (d : DirEntry) : Bool := d.asid == c.asid && ((c.key ^^^ d.key) &&& c.mask) == 0

/-- Meet one matching entry (R244): skip it, answer it, or forward an owe. A full tag set leaves it unanswered (R245). -/
def State.meetEntry (x : State × Census × LocReport) (d : DirEntry) : State × Census × LocReport :=
  let s := x.1
  let c := x.2.1
  let r := x.2.2
  if d.tags.contains c.id then x
  else if 8 ≤ d.tags.length then (s, { c with full := true }, r)
  else
    let s1 := s.setEntry { d with tags := d.tags ++ [c.id] }
    match d.st with
    | .valid => let a := s1.answer c d r; (a.1, c, a.2)
    | .moving | .moved =>
      (s1, { c with owes := c.owes ++ [{ src := d.loc, dst := d.dest, entry := d.uid, copy := d.copy }] }, { r with balance := r.balance + 1 })

/-- Replace a census. -/
def State.setCensus (s : State) (c : Census) : State := { s with censuses := s.censuses.map (fun x => if x.id == c.id then c else x) }

/-- Act on a census in flight. -/
def State.onCensus (s : State) (id : Nat) (f : Census → State) : Out :=
  match s.censuses.find? (fun c => c.id == id) with
  | none => .next s
  | some c => .next (f c)

/-- CENSUS_ISSUE (R241): a waiting SOLICIT takes a free id; the first that may, in the order they reached their queues' heads. -/
def execCensusIssue (s : State) : Out :=
  let may (q : Nat × Nat × Nat) : Bool := match s.at { wg := q.1, wid := q.2.1 } with
    | none => false
    | some (g, _) => s.solicitLive q && s.censusRoom g.coreIdx
  match s.solicits.find? may with
  | none => .next s
  | some q => match s.at { wg := q.1, wid := q.2.1 } with
    | none => .next s
    | some (g, w) =>
      match (List.range 8).find? (fun cl => ((nth [] w.queues cl).head?.map QEntry.seq) == some q.2.2) with
      | none => .next s
      | some cl => .next (s.runHead g w cl)

/-- CENSUS_DELIVERY (R244): one location handles the census, in one step. -/
def execCensusDelivery (id loc : Nat) (s : State) : Out :=
  s.onCensus id (fun c =>
    if !(c.toVisit.contains loc) then s
    else
      let c1 := { c with toVisit := c.toVisit.filter (· != loc) }
      let x := ((s.entriesAt loc).filter c.matches).foldl State.meetEntry (s, c1, emptyReport c.op loc 0)
      x.1.setCensus { x.2.1 with reports := x.2.1.reports ++ [x.2.2] })

/-- The first owe of a census at a location whose copy is installed. -/
def Census.oweAt (c : Census) (loc : Nat) : Option Owe := c.owes.find? (fun o => o.dst == loc && o.copy.isSome)

/-- OWE_ARRIVAL (R244): the copy is answered unless it carries the tag; one that has moved on forwards an owe in its turn. -/
def execOweArrival (id loc : Nat) (s : State) : Out :=
  s.onCensus id (fun c => match c.oweAt loc with
    | none => s
    | some o =>
      let c1 := { c with owes := c.owes.erase o }
      let x := ((s.directory.filter (fun d => some d.uid == o.copy)).take 1).foldl State.meetEntry (s, c1, emptyReport c.op loc (-1))
      x.1.setCensus { x.2.1 with reports := x.2.1.reports ++ [x.2.2] })

/-- RESPONDER_DEPOSIT (R242): a location deposits the responder of the first match it holds, whatever has become of the entry since. -/
def execResponderDeposit (id loc : Nat) (s : State) : Out :=
  s.onCensus id (fun c => match c.reports.find? (fun r => r.loc == loc && !r.held.isEmpty) with
    | none => s
    | some r => match r.held with
      | [] => s
      | d :: rest => match s.depositResponder c.id c.entry d with
        | none => s
        | some (s', uid, tid) =>
          s'.setCensus { c with reports := updateFirst (fun x => x == r) (fun x => { x with held := rest, spawned := x.spawned ++ [(uid, tid)] }) c.reports })

/-- A report whose responders have all exited. -/
def LocReport.ripe (r : LocReport) : Bool := r.spawned.isEmpty && r.held.isEmpty

/-- CENSUS_REPORT (R244). -/
def execCensusReport (id loc : Nat) (s : State) : Out :=
  s.onCensus id (fun c => match c.reports.find? (fun r => r.loc == loc && r.ripe) with
    | none => s
    | some r =>
      s.setCensus { c with reports := c.reports.erase r, value := cenCombine c.op c.value r.value, responders := c.responders + r.responders,
                           dormant := c.dormant + r.dormant, balance := c.balance + r.balance })

/-- A census is over: every location has reported and the balance is zero (R244). -/
def Census.finished (c : Census) : Bool := c.toVisit.isEmpty && c.owes.isEmpty && c.reports.isEmpty && c.balance == 0

/-- A census that has completed leaves no tag, and keeps no stub (R238, R240). -/
def State.dropCensus (s : State) (id : Nat) : State :=
  let clean (d : DirEntry) : DirEntry := { d with tags := d.tags.filter (· != id), keep := d.keep.filter (· != id) }
  { s with censuses := s.censuses.filter (fun c => c.id != id),
           directory := (s.directory.map clean).filter (fun d => !(d.st == DirState.moved && d.keep.isEmpty)) }

/-- The second result doubleword of a census (R245). -/
def Census.tally (c : Census) : DWord := BitVec.ofNat 64 (c.responders % 2 ^ 48 + min c.dormant 0xFFFF * 2 ^ 48)

/-- The destination register of a SOLICIT. -/
def EngOp.solicitReg (o : EngOp) : Nat :=
  match o.kind with
  | .solicit _ _ _ _ _ d => d
  | _ => 0

/-- CENSUS_COMPLETE (R245, R53): the result registers are written and the operation retires, in its class's order (R57). -/
def execCensusComplete (id : Nat) (s : State) : Out :=
  s.onCensus id (fun c =>
    if !c.finished then s
    else match s.wg c.wg with
      | none => s.dropCensus id
      | some g => match g.opHolder c.opId with
        | none => s.dropCensus id
        | some w => match w.ops.find? (fun o => o.kind.cls == some .cen) with
          | none => s
          | some o =>
            if o.id != c.opId then s
            else
              let v := if c.full then 0 else c.value
              let t := if c.full then 0 else c.tally
              let w1 := (w.setS o.solicitReg v).setS (o.solicitReg + 1) t
              let s1 := s.dropCensus id
              if c.full then s1.retireFailed (g.putHolder o.id w1) o 0x16 0 0 else s1.retireDone g w1 o)

-- TMOVE (R240)
/-- Install the copy of an entry at another location: the source becomes a stub for as long as a census in flight may reach it. -/
def State.installCopy (s : State) (e : DirEntry) (loc : Nat) (base : BitVec 48) (owner : Nat) (tags : List Nat) : State :=
  let n := s.fresh
  let copy : DirEntry :=
    { uid := n.1, loc := loc, key := e.key, base := base, len := e.len, owner := owner, asid := e.asid, st := .valid, dest := 0,
      tags := tags, keep := [], copy := none }
  let flying := s.censuses.map Census.id
  let stub : DirEntry := { e with st := .moved, dest := loc, keep := flying, copy := some n.1 }
  let dir := if flying.isEmpty then s.directory.filter (fun d => d.uid != e.uid) else s.directory.map (fun d => if d.uid == e.uid then stub else d)
  { n.2 with directory := dir ++ [copy],
             censuses := s.censuses.map (fun c => { c with owes := c.owes.map (fun o => if o.entry == e.uid then { o with copy := some n.1 } else o) }) }

/-- An aborted move (R240): the entry is valid again, and each owe held for it returns and is answered here. -/
def State.abortMove (s : State) (e : DirEntry) : State :=
  let valid : DirEntry := { e with st := .valid, dest := 0, keep := [] }
  (s.censuses.filter (fun c => c.owes.any (fun o => o.entry == e.uid))).foldl (fun s c =>
    let a := s.answer c valid (emptyReport c.op e.loc (-1))
    a.1.setCensus { c with owes := c.owes.filter (fun o => o.entry != e.uid), reports := c.reports ++ [a.2] }) (s.setEntry valid)

/-- The operation has done its work; ENGINE_RETIRE retires it. -/
def EngOp.finished (o : EngOp) : EngOp := { o with prog := { o.prog with done := true } }

/-- Fail a move: the entry is valid again, and the operation retires with its report. -/
def State.failMove (s : State) (g : Workgroup) (o : EngOp) (e : DirEntry) (f : EngOp → EngOp) : State := (s.setWg (g.onOp o.id f)).abortMove e

/-- TMOVE_INSTALL (R240): copy the bytes, then install the entry at its destination, or abort. -/
def execTmoveInstall (wg wid op : Nat) (s : State) : Out :=
  s.onHolder wg wid op (fun g w o => match o.kind with
    | .tmove _ _ nb =>
      if !(EngOp.turn s g w o) || o.prog.done then s
      else match s.directory.find? (fun d => some d.uid == o.prog.link) with
        | none => s.setWg (g.onOp op (fun x => x.fail 0x0F))
        | some e =>
          let base := nb.extractLsb' 0 48
          let n := e.len.toNat
          let v := s.view g w o [.glob .read e.base.toNat n, .glob .write base.toNat n]
          let overlap (a : Nat) : Bool := decide (e.base.toNat ≤ a) && decide (a < e.base.toNat + n)
          let bs := (List.range n).map (fun i =>
            (base.toNat + i, if overlap (base.toNat + i) && e.base != base then Config.openByte (freeAt v.st.free (base.toNat + i)) else v.byte g .global (e.base.toNat + i)))
          let s1 : State := { v.st with free := v.st.free + 1 }
          match v.out with
          | .line => s
          | .absent va access => v.st.opAbsent g w o va access
          | .fail c va access => ((v.write s1 g .global (mixBytes s1.free bs)).1).failMove g o e (fun x => x.failAt c va access)
          | .ok =>
            let s2 := (v.write s1 g .global bs).1
            let g2 := (s2.wg g.uid).getD g
            if e.dest == e.loc then
              (s2.setWg (g2.onOp op EngOp.finished)).setEntry { e with base := base, st := .valid, dest := 0, tags := e.keep, keep := [] }
                |> (fun s3 => { s3 with censuses := s3.censuses.map (fun c => { c with owes := c.owes.map (fun w => if w.entry == e.uid then { w with copy := some e.uid } else w) }) })
            else match s2.wgs.find? (fun y => y.gang == g.gang && y.residence == .resident && y.coreIdx == e.dest) with
              | none => s2.failMove g2 o e (fun x => x.fail 0x0F)
              | some y =>
                if Config.directoryEntries ≤ (s2.entriesAt e.dest).length then s2.failMove g2 o e (fun x => x.fail 0x16)
                else (s2.setWg (g2.onOp op EngOp.finished)).installCopy e e.dest base y.uid e.keep
    | _ => s)

/-- Move every valid entry of a workgroup to another location: its die's dormant directory, or back (R240). -/
def State.moveEntries (s : State) (g : Workgroup) (loc : Nat) : State :=
  (s.directory.filter (fun d => d.owner == g.uid && d.st == DirState.valid && d.loc != loc)).foldl
    (fun s d => s.installCopy d loc d.base d.owner d.tags) s

end Sys2Proof.Machine
end

