-- ==== Sys2Proof/WellFormed.lean ====
section
/-!
DEFINITION. Well-formed instructions: those that some encoding of Decode.lean stands for. Every check cites the
rule that reserves what it refuses. A step of the table that is no instruction is well-formed when its agent exists.
-/
namespace Sys2Proof

/-- A general register field holds 0 to 251 (R119). -/
def gOk (r : BitVec 8) : Bool := r.toNat < 252

/-- The kinds 0b000 to 0b010 (R120, R123, R124). -/
def Src.plain : Src → Bool
  | .g r => gOk r
  | .s _ => true
  | .imm _ => true
  | .bfly _ _ => false
  | .rot _ _ => false
  | .rev _ => false
  | .lane _ _ => false

/-- All operand kinds, with their params in range (R123). -/
def Src.wf : Src → Bool
  | .bfly r e => gOk r && e.toNat ≤ 4
  | .rot r d => gOk r && d != 0
  | .rev r => gOk r
  | .lane r _ => gOk r
  | .g r => gOk r
  | .s _ => true
  | .imm _ => true

/-- The kinds of KWIN (R167). -/
def Src.uniform : Src → Bool
  | .s _ => true
  | .imm _ => true
  | .g _ => false
  | .bfly _ _ => false
  | .rot _ _ => false
  | .rev _ => false
  | .lane _ _ => false

/-- MOV and MLAT long twins: param 1 selects the widening E and goes with an immediate (R125). -/
def longMoveOk (x : Src) (f : Bool) : Bool :=
  match x with
  | .imm _ => true
  | .g r => gOk r && !f
  | .s _ => !f
  | .bfly r e => gOk r && e.toNat ≤ 4 && !f
  | .rot r d => gOk r && d != 0 && !f
  | .rev r => gOk r && !f
  | .lane r _ => gOk r && !f

/-- The codes whose row of R76 allows `.sat`. -/
def CvtCode.satOk : CvtCode → Bool
  | .f32i32 | .f32z32 | .f32bf16 | .f32f16 | .f32e4m3 | .f32e5m2 => true
  | .i32f32 | .z32f32 | .f32int | .bf16f32 | .f16f32 | .e4m3f32 | .e5m2f32 | .f32e2m1 | .e2m1f32 => false

/-- A loop body has 1 to 256 parcels (R175). -/
def loopLenOk (len : BitVec 9) : Bool := 1 ≤ len.toNat && len.toNat ≤ 256

/-- Predicate 0 with sense 1 is reserved (R122, R132, R170). -/
def predSenseOk (p : BitVec 3) (sense : Bool) : Bool := !(p == 0 && sense)

/-- A register pair starts at an even number of at most 250 (R200, R246). -/
def pairOk (r : BitVec 8) : Bool := r.toNat % 2 == 0 && r.toNat ≤ 250

/-- The checks of R116 to R134 for every instruction; for a step, that the die it names exists. -/
def Instr.wf : Instr → Bool
  | .strandHeader _ g s => predSenseOk g s
  | .mov x => x.plain
  | .putg r => gOk r
  | .mlat x => x.plain
  | .nop => true
  | .movL _ x f => longMoveOk x f
  | .putgL _ r => gOk r
  | .mlatL _ x f => longMoveOk x f
  | .nopL _ => true
  | .fadd x => x.plain
  | .fsub x => x.plain
  | .frsub x => x.plain
  | .fmul x => x.plain
  | .fmac x => x.plain
  | .fnmac x => x.plain
  | .fmla x => x.plain
  | .fmax x => x.plain
  | .fmin x => x.plain
  | .iadd x => x.plain
  | .isub x => x.plain
  | .irsub x => x.plain
  | .imul x => x.plain
  | .imac x => x.plain
  | .imax x => x.plain
  | .imin x => x.plain
  | .zmax x => x.plain
  | .zmin x => x.plain
  | .and x => x.plain
  | .or x => x.plain
  | .xor x => x.plain
  | .andn x => x.plain
  | .shl x => x.plain
  | .shr x => x.plain
  | .sar x => x.plain
  | .rol x => x.plain
  | .faddL _ x => x.wf
  | .fsubL _ x => x.wf
  | .frsubL _ x => x.wf
  | .fmulL _ x => x.wf
  | .fmacL _ x => x.wf
  | .fnmacL _ x => x.wf
  | .fmlaL _ x => x.wf
  | .fmaxL _ x => x.wf
  | .fminL _ x => x.wf
  | .iaddL _ x => x.wf
  | .isubL _ x => x.wf
  | .irsubL _ x => x.wf
  | .imulL _ x => x.wf
  | .imacL _ x => x.wf
  | .imaxL _ x => x.wf
  | .iminL _ x => x.wf
  | .zmaxL _ x => x.wf
  | .zminL _ x => x.wf
  | .andL _ x => x.wf
  | .orL _ x => x.wf
  | .xorL _ x => x.wf
  | .andnL _ x => x.wf
  | .shlL _ x => x.wf
  | .shrL _ x => x.wf
  | .sarL _ x => x.wf
  | .rolL _ x => x.wf
  | .cvt _ _ code sat => code.satOk || !sat
  | .fdiv _ x | .idiv _ x | .zdiv _ x | .irem _ x | .zrem _ x => x.wf
  | .sfu _ _ | .fabs _ | .fneg _ | .popc _ | .clz _ | .brev _ => true
  | .selp _ x _ => x.plain
  | .fcmp _ _ x p _ | .icmp _ _ x p _ => x.plain && p != 0
  | .bfe _ x _ => x.plain
  | .faddx _ x _ | .fmulx _ x _ | .fmacx _ x _ | .fmlax _ x _ => x.plain
  | .hadd2 _ x _ _ | .hsub2 _ x _ _ | .hmul2 _ x _ _ | .hfma2 _ x _ _ | .hmax2 _ x _ _ | .hmin2 _ x _ _ => x.plain
  | .shfli _ r | .shfl16 _ r => gOk r
  | .vote _ _ _ | .red _ _ | .scan _ _ _ => true
  | .qx _ _ r => gOk r
  | .rdsr _ _ => true
  | .putp _ _ p => p != 0
  | .kwin _ x => x.uniform
  | .knext _ step _ => step != 0
  | .unpk _ _ r => gOk r
  | .nopl | .bra _ => true
  | .brany s p _ | .brall s p _ => predSenseOk p s
  | .brs _ _ => true
  | .call sx _ => sx != 0
  | .ret _ | .join _ _ => true
  | .loop0 _ l | .loop1 _ l | .loop2 _ l | .loopi0 _ l | .loopi1 _ l | .loopi2 _ l => loopLenOk l
  | .wait _ _ | .bar | .gbar | .exit | .give _ | .claim _ => true
  | .claimp _ p => p != 0
  | .part e => 1 ≤ e.toNat && e.toNat ≤ 5
  | .cvset _ _ _ | .fence _ _ | .yield => true
  | .trap code => 0x40 ≤ code.toNat
  | .bkpt | .ipf _ => true
  | .ipin c _ | .iunpin c _ => c != 0
  | .smov _ _ | .sadd _ _ _ | .ssub _ _ _ | .smul _ _ _ | .sand _ _ _ | .sor _ _ _ | .sxor _ _ _ => true
  | .sshl _ _ _ | .sshr _ _ _ | .saddi _ _ _ | .smovi _ _ | .scmp _ _ _ _ | .srd _ _ | .swr _ _ => true
  | .rte | .haltb _ _ | .resumeb _ _ => true
  | .ldB32 _ m | .ldI8 _ m | .ldZ8 _ m | .ldI16 _ m | .ldZ16 _ m | .ldBf16 _ m | .ldF16 _ m => gOk m.idx
  | .stB32 _ m | .stB16 _ m | .stB8 _ m | .stBf16 _ m | .stE4m3 _ m => gOk m.idx
  | .atomIadd _ m | .atomFadd _ m | .atomImax _ m | .atomImin _ m | .atomZmax _ m | .atomZmin _ m => gOk m.idx
  | .atomAnd _ m | .atomOr _ m | .atomXor _ m | .atomXchg _ m | .atomCas _ m => gOk m.idx
  | .ldtr _ r nb _ _ => r.toNat + nb.toNat ≤ 251
  | .cpyPlain _ | .cpyCanon _ _ | .cpyNorms _ _ => true
  | .cpyVer c => c.desc != 63
  | .cpyMcast c => c.desc != 63 && !c.pkg
  | .cpyo _ _ _ _ _ _ | .kbind _ _ _ _ _ | .kfree _ | .mzero _ _ => true
  | .mma _ _ _ _ _ gB => gOk gB
  | .msamp _ _ _ sC f => sC != 63 && f != .e2m1
  | .mstat _ r => r.toNat + 2 ≤ 251
  | .acheck _ _ _ | .adrain _ _ _ _ _ _ | .lsupd _ _ | .treg _ _ _ | .tdrop _ | .tmove _ _ _ => true
  | .solicit _ _ _ _ _ d => 1 ≤ d.toNat && d.toNat ≤ 62
  | .reply _ => true
  | .chsend _ r | .chrecv _ r => gOk r
  | .spawn _ _ | .launch _ _ => true
  | .sld _ _ _ _ r => pairOk r
  | .sst _ _ _ _ _ => true
  | .pmrd _ r => pairOk r
  | .pmctl _ _ => true
  | .brd _ p s _ _ => predSenseOk p s
  | .strandStart die _ _ => die.toNat < 3
  | .loadComplete _ _ _ => true
  | .engineIssue _ _ _ => true
  | .engineRetire _ _ _ => true
  | .lineLand _ _ _ _ => true
  | .storeDrain _ _ => true
  | .handlerEntry _ _ => true
  | .workgroupStop _ _ => true
  | .loopBackEdge => true
  | .binTimerExpiry _ _ => true
  | .warpFormation _ _ => true
  | .overflowKeyEntry _ => true
  | .poolGrant _ => true
  | .claimDeadlock _ => true
  | .workgroupEnd _ => true
  | .mmaSign _ _ _ => true
  | .versionedReadAttempt _ _ _ => true
  | .censusIssue => true
  | .censusDelivery _ _ => true
  | .oweArrival _ _ => true
  | .responderDeposit _ _ => true
  | .censusReport _ _ => true
  | .censusComplete _ => true
  | .tmoveInstall _ _ _ => true
  | .dataFaultTimeout _ => true
  | .fetchFault => true
  | .breakpointMatch => true
  | .stepComplete _ _ => true
  | .haltComplete _ => true
  | .sliceEnd die _ => die.toNat < 3
  | .contextSave _ => true
  | .contextRestore _ => true
  | .faultRecordSend => true
  | .gridStart => true
  | .gangPlacement _ => true
  | .gangReserve _ => true
  | .gridComplete _ => true
  | .dbLoadDescriptor _ => true
  | .dbRing _ => true
  | .pmaskWrite p _ => p.toNat < 192
  | .pcfgWrite p _ => p.toNat < 192
  | .fqcfgWrite _ => true
  | .registerWrite _ _ _ => true
  | .shootPage _ => true
  | .shootAsid _ => true
  | .shootAsidReload _ => true
  | .shootdownComplete => true
  | .frespRetry _ => true
  | .frespFail _ => true
  | .frespResume _ => true
  | .frespEnd _ => true
  | .dbgHalt _ => true
  | .dbgResume _ => true
  | .dbgStep _ => true
  | .apertureWrite _ _ => true
  | .progWrite _ _ => true
  | .keynew => true
  | .keykill => true
  | .classSet => true
  | .errread => true
  | .telem => true
  | .pcap => true
  | .portkey => true
  | .portKeynew f => f.op == 0x01
  | .portKeykill f => f.op == 0x02
  | .portClass f => f.op == 0x03
  | .portPcap f => f.op == 0x06
  | .portErrread f => f.op == 0x04
  | .portTelem f => f.op == 0x05
  | .portReset f => f.op == 0x10
  | .tripclr f => f.op == 0x11
  | .portState f => f.op == 0x12
  | .powerSample _ => true
  | .thermalThrottle die => die.toNat < 3
  | .thermalTrip die => die.toNat < 3
  | .linkDown l _ => l.toNat < 12
  | .linkUp l => l.toNat < 12
  | .errorCorrected _ loc => loc.unit.toNat ≤ 4
  | .errorUncorrectable _ loc _ => loc.unit.toNat ≤ 4
  | .patrolScrub => true
  | .bringUp k => k.toNat ≤ 7
  | .containerLoad _ _ _ => true
  | .strandInstructionComplete _ _ _ => true
  | .reservedEncoding => true
  | .shootReservedKind _ => true
  | .mailboxUnknownOp v => v.toNat < 1 || 7 < v.toNat
  | .portUnknownOp f => !([0x01, 0x02, 0x03, 0x04, 0x05, 0x06, 0x10, 0x11, 0x12].contains f.op.toNat)

/-- Encodings that revision 1 reserves (R134). -/
def Instr.onlyRev2 : Instr → Bool
  | .cpyo _ _ _ _ _ _ | .kbind _ _ _ _ _ | .kfree _ | .mzero _ _ | .mma _ _ _ _ _ _ | .msamp _ _ _ _ _ => true
  | .mstat _ _ | .acheck _ _ _ | .adrain _ _ _ _ _ _ | .lsupd _ _ => true
  | .treg _ _ _ | .tdrop _ | .tmove _ _ _ | .solicit _ _ _ _ _ _ | .reply _ => true
  | .kwin _ _ | .knext _ _ _ | .unpk _ _ _ | .cvset _ _ _ => true
  | .shfli _ _ => true
  | _ => false

/-- Well-formed under an encoding revision, 1 or 2 (R134). -/
def Instr.wfRev (rev : Nat) (i : Instr) : Bool :=
  i.wf && (if rev == 1 then !i.onlyRev2 else match i with | .shfl16 _ _ => false | _ => true)

end Sys2Proof
end

