-- ==== Sys2Proof/Decode.lean ====
section
/-!
DEFINITION. The decoder, total on any parcels and rejecting by name, and after it the encoder, both written from the
tables of R116 to R134. `decode` reads fields into a candidate and then refuses it unless it is well-formed under
the encoding revision; a pattern no table defines is refused on the way. The order of checks inside one parcel run does
not matter to software: every refusal is trap 0x02 (R118).
-/
namespace Sys2Proof

/-- Why a run of parcels is no instruction (R118). -/
inductive DecodeError where
  /-- a reserved opcode value -/
  | opcode
  /-- a reserved operand kind -/
  | kind
  /-- a reserved field value or a nonzero field marked 0 -/
  | field
  /-- a candidate that WellFormed.lean refuses: register numbers, params, revision -/
  | illFormed
  /-- fewer parcels than the class has (R117); the fetch never hands such a run over -/
  | truncated
deriving DecidableEq, Repr

/-- What decoding a run of parcels gives. -/
abbrev Decoded (α : Type) := Except DecodeError α

/-- Refuse unless a must-be-zero condition holds. -/
def need (b : Bool) : Decoded Unit := if b then .ok () else .error .field

/-- The field value of a `RM` (R61, R147). -/
def RM.code : RM → BitVec 2
  | .rne => 0
  | .rz => 1
  | .rd => 2
  | .ru => 3
/-- Its inverse; other values are reserved. -/
def RM.ofCode (b : BitVec 2) : Decoded RM :=
  match b.toNat with
  | 0 => .ok .rne
  | 1 => .ok .rz
  | 2 => .ok .rd
  | 3 => .ok .ru
  | _ => .error .field

/-- The field value of a `FCond` (R125). -/
def FCond.code : FCond → BitVec 3
  | .eq => 0
  | .ne => 1
  | .lt => 2
  | .le => 3
  | .gt => 4
  | .ge => 5
  | .un => 6
  | .or => 7
/-- Its inverse; other values are reserved. -/
def FCond.ofCode (b : BitVec 3) : Decoded FCond :=
  match b.toNat with
  | 0 => .ok .eq
  | 1 => .ok .ne
  | 2 => .ok .lt
  | 3 => .ok .le
  | 4 => .ok .gt
  | 5 => .ok .ge
  | 6 => .ok .un
  | 7 => .ok .or
  | _ => .error .field

/-- The field value of a `ICond` (R125, R127). -/
def ICond.code : ICond → BitVec 3
  | .eq => 0
  | .ne => 1
  | .lt => 2
  | .le => 3
  | .gt => 4
  | .ge => 5
  | .zlt => 6
  | .zge => 7
/-- Its inverse; other values are reserved. -/
def ICond.ofCode (b : BitVec 3) : Decoded ICond :=
  match b.toNat with
  | 0 => .ok .eq
  | 1 => .ok .ne
  | 2 => .ok .lt
  | 3 => .ok .le
  | 4 => .ok .gt
  | 5 => .ok .ge
  | 6 => .ok .zlt
  | 7 => .ok .zge
  | _ => .error .field

/-- The field value of a `Combine` (R157). -/
def Combine.code : Combine → BitVec 2
  | .set => 0
  | .and => 1
  | .or => 2
/-- Its inverse; other values are reserved. -/
def Combine.ofCode (b : BitVec 2) : Decoded Combine :=
  match b.toNat with
  | 0 => .ok .set
  | 1 => .ok .and
  | 2 => .ok .or
  | _ => .error .field

/-- The field value of a `CvtCode` (R76). -/
def CvtCode.code : CvtCode → BitVec 5
  | .f32i32 => 0
  | .f32z32 => 1
  | .i32f32 => 2
  | .z32f32 => 3
  | .f32int => 4
  | .f32bf16 => 5
  | .f32f16 => 6
  | .bf16f32 => 7
  | .f16f32 => 8
  | .f32e4m3 => 9
  | .f32e5m2 => 10
  | .e4m3f32 => 11
  | .e5m2f32 => 12
  | .f32e2m1 => 13
  | .e2m1f32 => 14
/-- Its inverse; other values are reserved. -/
def CvtCode.ofCode (b : BitVec 5) : Decoded CvtCode :=
  match b.toNat with
  | 0 => .ok .f32i32
  | 1 => .ok .f32z32
  | 2 => .ok .i32f32
  | 3 => .ok .z32f32
  | 4 => .ok .f32int
  | 5 => .ok .f32bf16
  | 6 => .ok .f32f16
  | 7 => .ok .bf16f32
  | 8 => .ok .f16f32
  | 9 => .ok .f32e4m3
  | 10 => .ok .f32e5m2
  | 11 => .ok .e4m3f32
  | 12 => .ok .e5m2f32
  | 13 => .ok .f32e2m1
  | 14 => .ok .e2m1f32
  | _ => .error .field

/-- The field value of a `SfuFn` (R125). -/
def SfuFn.code : SfuFn → BitVec 5
  | .sqrt => 0
  | .rsqrt => 1
  | .rcp => 2
  | .exp2 => 3
  | .log2 => 4
  | .sinpi => 5
  | .cospi => 6
  | .tanh => 7
/-- Its inverse; other values are reserved. -/
def SfuFn.ofCode (b : BitVec 5) : Decoded SfuFn :=
  match b.toNat with
  | 0 => .ok .sqrt
  | 1 => .ok .rsqrt
  | 2 => .ok .rcp
  | 3 => .ok .exp2
  | 4 => .ok .log2
  | 5 => .ok .sinpi
  | 6 => .ok .cospi
  | 7 => .ok .tanh
  | _ => .error .field

/-- The field value of a `TreeOp` (R125). -/
def TreeOp.code : TreeOp → BitVec 4
  | .fadd => 0
  | .fmax => 1
  | .fmin => 2
  | .iadd => 3
  | .imax => 4
  | .imin => 5
  | .zmax => 6
  | .zmin => 7
  | .and => 8
  | .or => 9
  | .xor => 10
/-- Its inverse; other values are reserved. -/
def TreeOp.ofCode (b : BitVec 4) : Decoded TreeOp :=
  match b.toNat with
  | 0 => .ok .fadd
  | 1 => .ok .fmax
  | 2 => .ok .fmin
  | 3 => .ok .iadd
  | 4 => .ok .imax
  | 5 => .ok .imin
  | 6 => .ok .zmax
  | 7 => .ok .zmin
  | 8 => .ok .and
  | 9 => .ok .or
  | 10 => .ok .xor
  | _ => .error .field

/-- The field value of a `VoteMode` (R162). -/
def VoteMode.code : VoteMode → BitVec 2
  | .ballot => 0
  | .any => 1
  | .all => 2
  | .uni => 3
/-- Its inverse; other values are reserved. -/
def VoteMode.ofCode (b : BitVec 2) : Decoded VoteMode :=
  match b.toNat with
  | 0 => .ok .ballot
  | 1 => .ok .any
  | 2 => .ok .all
  | 3 => .ok .uni
  | _ => .error .field

/-- The field value of a `QxDir` (R161). -/
def QxDir.code : QxDir → BitVec 5
  | .h => 1
  | .v => 2
  | .d => 3
/-- Its inverse; other values are reserved. -/
def QxDir.ofCode (b : BitVec 5) : Decoded QxDir :=
  match b.toNat with
  | 1 => .ok .h
  | 2 => .ok .v
  | 3 => .ok .d
  | _ => .error .field

/-- The field value of a `PutpTest` (R159). -/
def PutpTest.code : PutpTest → BitVec 2
  | .nz => 0
  | .z => 1
  | .neg => 2
/-- Its inverse; other values are reserved. -/
def PutpTest.ofCode (b : BitVec 2) : Decoded PutpTest :=
  match b.toNat with
  | 0 => .ok .nz
  | 1 => .ok .z
  | 2 => .ok .neg
  | _ => .error .field

/-- The field value of a `HFmt` (R156). -/
def HFmt.code : HFmt → BitVec 1
  | .bf16 => 0
  | .f16 => 1
/-- Its inverse; other values are reserved. -/
def HFmt.ofCode (b : BitVec 1) : Decoded HFmt :=
  match b.toNat with
  | 0 => .ok .bf16
  | 1 => .ok .f16
  | _ => .error .field

/-- The field value of a `Order` (R97). -/
def Order.code : Order → BitVec 2
  | .plain => 0
  | .acqRel => 1
  | .sc => 2
/-- Its inverse; other values are reserved. -/
def Order.ofCode (b : BitVec 2) : Decoded Order :=
  match b.toNat with
  | 0 => .ok .plain
  | 1 => .ok .acqRel
  | 2 => .ok .sc
  | _ => .error .field

/-- The field value of a `Scope` (R96). -/
def Scope.code : Scope → BitVec 2
  | .core => 0
  | .die => 1
  | .package => 2
  | .system => 3
/-- Its inverse; other values are reserved. -/
def Scope.ofCode (b : BitVec 2) : Decoded Scope :=
  match b.toNat with
  | 0 => .ok .core
  | 1 => .ok .die
  | 2 => .ok .package
  | 3 => .ok .system
  | _ => .error .field

/-- The field value of a `FenceKind` (R188). -/
def FenceKind.code : FenceKind → BitVec 2
  | .acq => 0
  | .rel => 1
  | .acqrel => 2
  | .sc => 3
/-- Its inverse; other values are reserved. -/
def FenceKind.ofCode (b : BitVec 2) : Decoded FenceKind :=
  match b.toNat with
  | 0 => .ok .acq
  | 1 => .ok .rel
  | 2 => .ok .acqrel
  | 3 => .ok .sc
  | _ => .error .field

/-- The field value of a `Space` (R87). -/
def Space.code : Space → BitVec 2
  | .global => 0
  | .scratch => 1
/-- Its inverse; other values are reserved. -/
def Space.ofCode (b : BitVec 2) : Decoded Space :=
  match b.toNat with
  | 0 => .ok .global
  | 1 => .ok .scratch
  | _ => .error .field

/-- The field value of a `Elem` (R130). -/
def Elem.code : Elem → BitVec 2
  | .b16 => 0
  | .b8 => 1
  | .b4 => 2
/-- Its inverse; other values are reserved. -/
def Elem.ofCode (b : BitVec 2) : Decoded Elem :=
  match b.toNat with
  | 0 => .ok .b16
  | 1 => .ok .b8
  | 2 => .ok .b4
  | _ => .error .field

/-- The field value of a `EngClass` (R57, R178). -/
def EngClass.code : EngClass → BitVec 3
  | .cpy => 0
  | .mat => 1
  | .drn => 2
  | .cen => 3
  | .chn => 4
  | .ldx => 5
  | .spw => 6
/-- Its inverse; other values are reserved. -/
def EngClass.ofCode (b : BitVec 3) : Decoded EngClass :=
  match b.toNat with
  | 0 => .ok .cpy
  | 1 => .ok .mat
  | 2 => .ok .drn
  | 3 => .ok .cen
  | 4 => .ok .chn
  | 5 => .ok .ldx
  | 6 => .ok .spw
  | _ => .error .field

/-- The field value of a `CvForm` (R187). -/
def CvForm.code : CvForm → BitVec 2
  | .idle => 0
  | .solo => 1
  | .quartet => 2
/-- Its inverse; other values are reserved. -/
def CvForm.ofCode (b : BitVec 2) : Decoded CvForm :=
  match b.toNat with
  | 0 => .ok .idle
  | 1 => .ok .solo
  | 2 => .ok .quartet
  | _ => .error .field

/-- The field value of a `CpyFmt` (R213). -/
def CpyFmt.code : CpyFmt → BitVec 4
  | .bf16 => 0
  | .f16 => 1
  | .e4m3 => 2
  | .e5m2 => 3
  | .e2m1 => 4
  | .cbk => 5
/-- Its inverse; other values are reserved. -/
def CpyFmt.ofCode (b : BitVec 4) : Decoded CpyFmt :=
  match b.toNat with
  | 0 => .ok .bf16
  | 1 => .ok .f16
  | 2 => .ok .e4m3
  | 3 => .ok .e5m2
  | 4 => .ok .e2m1
  | 5 => .ok .cbk
  | _ => .error .field

/-- The field value of a `CpyoOut` (R217). -/
def CpyoOut.code : CpyoOut → BitVec 3
  | .f32 => 0
  | .bf16 => 1
  | .e4m3 => 2
/-- Its inverse; other values are reserved. -/
def CpyoOut.ofCode (b : BitVec 3) : Decoded CpyoOut :=
  match b.toNat with
  | 0 => .ok .f32
  | 1 => .ok .bf16
  | 2 => .ok .e4m3
  | _ => .error .field

/-- The field value of a `Dim` (R218). -/
def Dim.code : Dim → BitVec 2
  | .d16 => 0
  | .d32 => 1
  | .d64 => 2
/-- Its inverse; other values are reserved. -/
def Dim.ofCode (b : BitVec 2) : Decoded Dim :=
  match b.toNat with
  | 0 => .ok .d16
  | 1 => .ok .d32
  | 2 => .ok .d64
  | _ => .error .field

/-- The field value of a `MmaFmt` (R221). -/
def MmaFmt.code : MmaFmt → BitVec 3
  | .bf16 => 0
  | .f16 => 1
  | .e4m3 => 2
  | .e5m2 => 3
  | .e4m3e5m2 => 4
  | .e5m2e4m3 => 5
  | .e2m1 => 6
/-- Its inverse; other values are reserved. -/
def MmaFmt.ofCode (b : BitVec 3) : Decoded MmaFmt :=
  match b.toNat with
  | 0 => .ok .bf16
  | 1 => .ok .f16
  | 2 => .ok .e4m3
  | 3 => .ok .e5m2
  | 4 => .ok .e4m3e5m2
  | 5 => .ok .e5m2e4m3
  | 6 => .ok .e2m1
  | _ => .error .field

/-- The field value of a `Optim` (R235). -/
def Optim.code : Optim → BitVec 2
  | .adamw => 0
  | .sgdm => 1
/-- Its inverse; other values are reserved. -/
def Optim.ofCode (b : BitVec 2) : Decoded Optim :=
  match b.toNat with
  | 0 => .ok .adamw
  | 1 => .ok .sgdm
  | _ => .error .field

/-- The field value of a `CenOp` (R243). -/
def CenOp.code : CenOp → BitVec 4
  | .iadd => 0
  | .imin => 1
  | .imax => 2
  | .zmin => 3
  | .zmax => 4
  | .or => 5
  | .and => 6
  | .count => 7
/-- Its inverse; other values are reserved. -/
def CenOp.ofCode (b : BitVec 4) : Decoded CenOp :=
  match b.toNat with
  | 0 => .ok .iadd
  | 1 => .ok .imin
  | 2 => .ok .imax
  | 3 => .ok .zmin
  | 4 => .ok .zmax
  | 5 => .ok .or
  | 6 => .ok .and
  | 7 => .ok .count
  | _ => .error .field

/-- The field value of a `HaltForm` (R204). -/
def HaltForm.code : HaltForm → BitVec 2
  | .warp => 0
  | .workgroup => 1
/-- Its inverse; other values are reserved. -/
def HaltForm.ofCode (b : BitVec 2) : Decoded HaltForm :=
  match b.toNat with
  | 0 => .ok .warp
  | 1 => .ok .workgroup
  | _ => .error .field

/-- S16 operand: kind and register or imm8 (R120). -/
def decodeSrcShort (kind : BitVec 2) (r : BitVec 8) : Decoded Src :=
  match kind.toNat with
  | 0 => .ok (.g r)
  | 1 => if r.toNat < 64 then .ok (.s (r.extractLsb' 0 6)) else .error .field
  | 2 => .ok (.imm r)
  | _ => .error .kind

/-- The S16 fields of an operand. -/
def encodeSrcShort : Src → BitVec 10
  | .g r => 0#2 ++ r
  | .s r => 1#2 ++ (0#2 ++ r)
  | .imm v => 2#2 ++ v
  | .bfly r _ | .rot r _ | .rev r | .lane r _ => 3#2 ++ r

/-- L32 operand of an opcode whose param is "perm" (R123, R125). -/
def decodeSrcPerm (kind : BitVec 3) (param : BitVec 5) (r : BitVec 8) : Decoded Src :=
  match kind.toNat with
  | 0 => if param == 0 then .ok (.g r) else .error .field
  | 1 => if param == 0 && r.toNat < 64 then .ok (.s (r.extractLsb' 0 6)) else .error .field
  | 2 => if param == 0 then .ok (.imm r) else .error .field
  | 3 => if param.toNat < 8 then .ok (.bfly r (param.extractLsb' 0 3)) else .error .field
  | 4 => if param.toNat < 8 then .ok (.rot r (param.extractLsb' 0 3)) else .error .field
  | 5 => if param == 0 then .ok (.rev r) else .error .field
  | 6 => .ok (.lane r param)
  | _ => .error .kind

/-- L32 operand of an opcode whose param is in use: kinds 0b000 to 0b010 (R124). -/
def decodeSrcPlain (kind : BitVec 3) (r : BitVec 8) : Decoded Src :=
  match kind.toNat with
  | 0 => .ok (.g r)
  | 1 => if r.toNat < 64 then .ok (.s (r.extractLsb' 0 6)) else .error .field
  | 2 => .ok (.imm r)
  | _ => .error .kind

/-- Parcel 2 of an L32 instruction from its three fields (R123). -/
def l32Second (kind : BitVec 3) (param : BitVec 5) (r : BitVec 8) : Half := kind ++ (param ++ r)

/-- Parcel 2 for an operand of a "perm" opcode. -/
def encodeSrcPerm : Src → Half
  | .g r => l32Second 0 0 r
  | .s r => l32Second 1 0 (0#2 ++ r)
  | .imm v => l32Second 2 0 v
  | .bfly r e => l32Second 3 (0#2 ++ e) r
  | .rot r d => l32Second 4 (0#2 ++ d) r
  | .rev r => l32Second 5 0 r
  | .lane r j => l32Second 6 j r

/-- Parcel 2 for an operand beside a param in use. -/
def encodeSrcPlain (param : BitVec 5) : Src → Half
  | .g r => l32Second 0 param r
  | .s r => l32Second 1 param (0#2 ++ r)
  | .imm v => l32Second 2 param v
  | .bfly r _ => l32Second 3 param r
  | .rot r _ => l32Second 4 param r
  | .rev r => l32Second 5 param r
  | .lane r _ => l32Second 6 param r

/-- Parcel 1 of an S16, L32, C32 and X48 instruction (R120, R123, R126, R128). -/
def s16Parcel (op : BitVec 6) (rest : BitVec 10) : Half := op ++ rest
def l32First (op : BitVec 8) (n : BitVec 4) : Half := 0xD#4 ++ (op ++ n)
def c32First (op : BitVec 6) (a : BitVec 6) : Half := 0xE#4 ++ (op ++ a)
def x48First (op : BitVec 8) (n : BitVec 4) : Half := 0xF#4 ++ (op ++ n)
/-- Parcels 2 and 3 of an X48 instruction from its field word (R128). -/
def x48Rest (f : Word) : List Half := [f.extractLsb' 0 16, f.extractLsb' 16 16]

/-- The S16 instruction of an op6 (R121). -/
def decodeS16 (p : Half) : Decoded Instr :=
  let kind := p.extractLsb' 8 2
  let r := p.extractLsb' 0 8
  match (p.extractLsb' 10 6).toNat with
  | 0x00 => return .mov (← decodeSrcShort kind r)
  | 0x01 => if kind == 0 then .ok (.putg r) else .error .kind
  | 0x0B => return .mlat (← decodeSrcShort kind r)
  | 0x1D => if p.extractLsb' 0 10 == 0 then .ok .nop else .error .field
  | 0x02 => return .fadd (← decodeSrcShort kind r)
  | 0x03 => return .fsub (← decodeSrcShort kind r)
  | 0x04 => return .frsub (← decodeSrcShort kind r)
  | 0x05 => return .fmul (← decodeSrcShort kind r)
  | 0x06 => return .fmac (← decodeSrcShort kind r)
  | 0x07 => return .fnmac (← decodeSrcShort kind r)
  | 0x08 => return .fmla (← decodeSrcShort kind r)
  | 0x09 => return .fmax (← decodeSrcShort kind r)
  | 0x0A => return .fmin (← decodeSrcShort kind r)
  | 0x0C => return .iadd (← decodeSrcShort kind r)
  | 0x0D => return .isub (← decodeSrcShort kind r)
  | 0x0E => return .irsub (← decodeSrcShort kind r)
  | 0x0F => return .imul (← decodeSrcShort kind r)
  | 0x10 => return .imac (← decodeSrcShort kind r)
  | 0x11 => return .imax (← decodeSrcShort kind r)
  | 0x12 => return .imin (← decodeSrcShort kind r)
  | 0x13 => return .zmax (← decodeSrcShort kind r)
  | 0x14 => return .zmin (← decodeSrcShort kind r)
  | 0x15 => return .and (← decodeSrcShort kind r)
  | 0x16 => return .or (← decodeSrcShort kind r)
  | 0x17 => return .xor (← decodeSrcShort kind r)
  | 0x18 => return .andn (← decodeSrcShort kind r)
  | 0x19 => return .shl (← decodeSrcShort kind r)
  | 0x1A => return .shr (← decodeSrcShort kind r)
  | 0x1B => return .sar (← decodeSrcShort kind r)
  | 0x1C => return .rol (← decodeSrcShort kind r)
  | _ => .error .opcode

/-- The strand header (R122). -/
def decodeH16 (p : Half) : Decoded Instr :=
  if p.extractLsb' 0 4 == 0 then
    .ok (.strandHeader (p.extractLsb' 8 4) (p.extractLsb' 5 3) (p.getLsbD 4))
  else .error .field

/-- Kind 0b010 with a given param check, for the rows of R125 that read no operand: the imm8 must be 0. -/
def needUnary (kind : BitVec 3) (r : BitVec 8) : Decoded Unit :=
  if kind != 2 then .error .kind else if r == 0 then .ok () else .error .field

/-- Kind 0b010 alone, for the rows of R125 whose imm8 is a field of its own. -/
def needImm (kind : BitVec 3) : Decoded Unit := if kind == 2 then .ok () else .error .kind

/-- Kind 0b000 alone, for the rows of R125 that read a general register. -/
def needG (kind : BitVec 3) : Decoded Unit := if kind == 0 then .ok () else .error .kind

/-- MOV and MLAT long twins: param 1 with kind 0b010 selects the widening E (R125). -/
def decodeLongMove (kind : BitVec 3) (param : BitVec 5) (r : BitVec 8) : Decoded (Src × Bool) :=
  if kind == 2 && param == 1 then .ok (.imm r, true)
  else (decodeSrcPerm kind param r).map (fun x => (x, false))

/-- A compare's predicate and combine (R157). -/
def decodeCmp (param : BitVec 5) : Decoded (BitVec 3 × Combine) :=
  (Combine.ofCode (param.extractLsb' 3 2)).map (fun c => (param.extractLsb' 0 3, c))

/-- A packed 16-bit instruction's format and rounding (R156). -/
def decodePacked (param : BitVec 5) : Decoded (HFmt × RM) := do
  need (param.extractLsb' 3 2 == 0)
  return (← HFmt.ofCode (param.extractLsb' 0 1), ← RM.ofCode (param.extractLsb' 1 2))

/-- An explicit rounding field (R147). -/
def decodeRound (param : BitVec 5) : Decoded RM := do
  need (param.extractLsb' 2 3 == 0)
  RM.ofCode (param.extractLsb' 0 2)

/-- The L32 instruction of an op8 (R125). Revision 1 reads op8 0x30 as SHFL16 (R134). -/
def decodeL32 (rev : Nat) (p q : Half) : Decoded Instr :=
  let n := p.extractLsb' 0 4
  let op := p.extractLsb' 4 8
  let kind := q.extractLsb' 13 3
  let param := q.extractLsb' 8 5
  let r := q.extractLsb' 0 8
  match op.toNat with
  | 0x00 | 0x01 | 0x02 | 0x03 => do
    needImm kind
    need (r.extractLsb' 1 7 == 0)
    return .cvt (← RM.ofCode (op.extractLsb' 0 2)) n (← CvtCode.ofCode param) (r.getLsbD 0)
  | 0x04 => return .fdiv n (← decodeSrcPerm kind param r)
  | 0x05 => return .idiv n (← decodeSrcPerm kind param r)
  | 0x06 => return .zdiv n (← decodeSrcPerm kind param r)
  | 0x07 => return .irem n (← decodeSrcPerm kind param r)
  | 0x08 => return .zrem n (← decodeSrcPerm kind param r)
  | 0x09 => do needUnary kind r; return .sfu n (← SfuFn.ofCode param)
  | 0x0A => do needUnary kind r; need (param == 0); return .fabs n
  | 0x0B => do needUnary kind r; need (param == 0); return .fneg n
  | 0x0C => do needUnary kind r; need (param == 0); return .popc n
  | 0x0D => do needUnary kind r; need (param == 0); return .clz n
  | 0x0E => do needUnary kind r; need (param == 0); return .brev n
  | 0x0F => do need (param.extractLsb' 3 2 == 0); return .selp n (← decodeSrcPlain kind r) (param.extractLsb' 0 3)
  | 0x10 | 0x11 | 0x12 | 0x13 | 0x14 | 0x15 | 0x16 | 0x17 => do
    let (y, c) ← decodeCmp param
    return .fcmp (← FCond.ofCode (op.extractLsb' 0 3)) n (← decodeSrcPlain kind r) y c
  | 0x18 | 0x19 | 0x1A | 0x1B | 0x1C | 0x1D | 0x1E | 0x1F => do
    let (y, c) ← decodeCmp param
    return .icmp (← ICond.ofCode (op.extractLsb' 0 3)) n (← decodeSrcPlain kind r) y c
  | 0x20 => return .bfe n (← decodeSrcPlain kind r) param
  | 0x22 => return .faddx n (← decodeSrcPlain kind r) (← decodeRound param)
  | 0x23 => return .fmulx n (← decodeSrcPlain kind r) (← decodeRound param)
  | 0x24 => return .fmacx n (← decodeSrcPlain kind r) (← decodeRound param)
  | 0x25 => return .fmlax n (← decodeSrcPlain kind r) (← decodeRound param)
  | 0x28 => do let (f, m) ← decodePacked param; return .hadd2 n (← decodeSrcPlain kind r) f m
  | 0x29 => do let (f, m) ← decodePacked param; return .hsub2 n (← decodeSrcPlain kind r) f m
  | 0x2A => do let (f, m) ← decodePacked param; return .hmul2 n (← decodeSrcPlain kind r) f m
  | 0x2B => do let (f, m) ← decodePacked param; return .hfma2 n (← decodeSrcPlain kind r) f m
  | 0x2C => do let (f, m) ← decodePacked param; return .hmax2 n (← decodeSrcPlain kind r) f m
  | 0x2D => do let (f, m) ← decodePacked param; return .hmin2 n (← decodeSrcPlain kind r) f m
  | 0x30 => do needG kind; need (param == 0); return if rev == 1 then .shfl16 n r else .shfli n r
  | 0x31 => do needUnary kind r; return .vote n (← VoteMode.ofCode (param.extractLsb' 3 2)) (param.extractLsb' 0 3)
  | 0x32 => do needUnary kind r; need (!param.getLsbD 4); return .red n (← TreeOp.ofCode (param.extractLsb' 0 4))
  | 0x33 => do needUnary kind r; return .scan n (← TreeOp.ofCode (param.extractLsb' 0 4)) (param.getLsbD 4)
  | 0x34 => do needG kind; return .qx n (← QxDir.ofCode param) r
  | 0x38 => do needImm kind; need (param == 0); return .rdsr n r
  | 0x39 => do needUnary kind r; return .putp n (← PutpTest.ofCode (param.extractLsb' 3 2)) (param.extractLsb' 0 3)
  | 0x40 => do need (param == 0); return .kwin n (← decodeSrcPlain kind r)
  | 0x41 => do needImm kind; need (param.extractLsb' 3 2 == 0); return .knext n r (param.extractLsb' 0 3)
  | 0x42 => do needG kind; need (param.extractLsb' 1 4 == 0); return .unpk n (param.getLsbD 0) r
  | 0x60 => do let (x, f) ← decodeLongMove kind param r; return .movL n x f
  | 0x61 => do needG kind; need (param == 0); return .putgL n r
  | 0x6B => do let (x, f) ← decodeLongMove kind param r; return .mlatL n x f
  | 0x7D => do need (q == 0); return .nopL n
  | 0x62 => return .faddL n (← decodeSrcPerm kind param r)
  | 0x63 => return .fsubL n (← decodeSrcPerm kind param r)
  | 0x64 => return .frsubL n (← decodeSrcPerm kind param r)
  | 0x65 => return .fmulL n (← decodeSrcPerm kind param r)
  | 0x66 => return .fmacL n (← decodeSrcPerm kind param r)
  | 0x67 => return .fnmacL n (← decodeSrcPerm kind param r)
  | 0x68 => return .fmlaL n (← decodeSrcPerm kind param r)
  | 0x69 => return .fmaxL n (← decodeSrcPerm kind param r)
  | 0x6A => return .fminL n (← decodeSrcPerm kind param r)
  | 0x6C => return .iaddL n (← decodeSrcPerm kind param r)
  | 0x6D => return .isubL n (← decodeSrcPerm kind param r)
  | 0x6E => return .irsubL n (← decodeSrcPerm kind param r)
  | 0x6F => return .imulL n (← decodeSrcPerm kind param r)
  | 0x70 => return .imacL n (← decodeSrcPerm kind param r)
  | 0x71 => return .imaxL n (← decodeSrcPerm kind param r)
  | 0x72 => return .iminL n (← decodeSrcPerm kind param r)
  | 0x73 => return .zmaxL n (← decodeSrcPerm kind param r)
  | 0x74 => return .zminL n (← decodeSrcPerm kind param r)
  | 0x75 => return .andL n (← decodeSrcPerm kind param r)
  | 0x76 => return .orL n (← decodeSrcPerm kind param r)
  | 0x77 => return .xorL n (← decodeSrcPerm kind param r)
  | 0x78 => return .andnL n (← decodeSrcPerm kind param r)
  | 0x79 => return .shlL n (← decodeSrcPerm kind param r)
  | 0x7A => return .shrL n (← decodeSrcPerm kind param r)
  | 0x7B => return .sarL n (← decodeSrcPerm kind param r)
  | 0x7C => return .rolL n (← decodeSrcPerm kind param r)
  | _ => .error .opcode

/-- A loop's body length field (R127). -/
def decodeLen (b : Half) : Decoded (BitVec 9) := do need (b.extractLsb' 9 7 == 0); return b.extractLsb' 0 9

/-- The two sources of a three-operand scalar instruction (R127): first, second. -/
def decodePair (b : Half) : Decoded (BitVec 6 × BitVec 6) := do
  need (b.extractLsb' 12 4 == 0)
  return (b.extractLsb' 0 6, b.extractLsb' 6 6)

/-- The C32 instruction of an op6 (R127). -/
def decodeC32 (p b : Half) : Decoded Instr :=
  let a := p.extractLsb' 0 6
  match (p.extractLsb' 6 6).toNat with
  | 0x00 => do need (a == 0 && b == 0); return .nopl
  | 0x01 => do need (a == 0); return .bra b
  | 0x02 => do need (a.extractLsb' 4 2 == 0); return .brany (a.getLsbD 3) (a.extractLsb' 0 3) b
  | 0x03 => do need (a.extractLsb' 4 2 == 0); return .brall (a.getLsbD 3) (a.extractLsb' 0 3) b
  | 0x04 => .ok (.brs a b)
  | 0x05 => .ok (.call a b)
  | 0x06 => do need (b == 0); return .ret a
  | 0x07 => .ok (.join a b)
  | 0x08 => return .loop0 a (← decodeLen b)
  | 0x09 => return .loop1 a (← decodeLen b)
  | 0x0A => return .loop2 a (← decodeLen b)
  | 0x0B => return .loopi0 a (← decodeLen b)
  | 0x0C => return .loopi1 a (← decodeLen b)
  | 0x0D => return .loopi2 a (← decodeLen b)
  | 0x0E => do
    need (a.extractLsb' 3 3 == 0 && b.extractLsb' 6 10 == 0)
    return .wait (← EngClass.ofCode (a.extractLsb' 0 3)) (b.extractLsb' 0 6)
  | 0x0F => do need (a == 0 && b == 0); return .bar
  | 0x10 => do need (a == 0 && b == 0); return .gbar
  | 0x11 => do need (a == 0 && b == 0); return .exit
  | 0x12 => do need (b == 0); return .give a
  | 0x13 => do need (b == 0); return .claim a
  | 0x14 => do need (b.extractLsb' 3 13 == 0); return .claimp a (b.extractLsb' 0 3)
  | 0x15 => do need (b == 0); return .part a
  | 0x16 => do
    need (!a.getLsbD 5 && b.extractLsb' 6 10 == 0)
    return .cvset (← CvForm.ofCode (a.extractLsb' 3 2)) (a.extractLsb' 0 3) (b.extractLsb' 0 6)
  | 0x17 => do
    need (a.extractLsb' 0 2 == 0 && b == 0)
    return .fence (← Scope.ofCode (a.extractLsb' 4 2)) (← FenceKind.ofCode (a.extractLsb' 2 2))
  | 0x18 => do need (a == 0 && b == 0); return .yield
  | 0x19 => do need (a == 0 && b.extractLsb' 8 8 == 0); return .trap (b.extractLsb' 0 8)
  | 0x1A => do need (a == 0 && b == 0); return .bkpt
  | 0x1B => do need (a == 0); return .ipf b
  | 0x1C => .ok (.ipin a b)
  | 0x1D => .ok (.iunpin a b)
  | 0x20 => do need (b.extractLsb' 6 10 == 0); return .smov a (b.extractLsb' 0 6)
  | 0x21 => do let (x, y) ← decodePair b; return .sadd a x y
  | 0x22 => do let (x, y) ← decodePair b; return .ssub a x y
  | 0x23 => do let (x, y) ← decodePair b; return .smul a x y
  | 0x24 => do let (x, y) ← decodePair b; return .sand a x y
  | 0x25 => do let (x, y) ← decodePair b; return .sor a x y
  | 0x26 => do let (x, y) ← decodePair b; return .sxor a x y
  | 0x27 => do let (x, y) ← decodePair b; return .sshl a x y
  | 0x28 => do let (x, y) ← decodePair b; return .sshr a x y
  | 0x29 => do need (b.extractLsb' 14 2 == 0); return .saddi a (b.extractLsb' 8 6) (b.extractLsb' 0 8)
  | 0x2A => do need (b.extractLsb' 8 8 == 0); return .smovi a (b.extractLsb' 0 8)
  | 0x2B => do
    need (!b.getLsbD 15)
    return .scmp a (← ICond.ofCode (b.extractLsb' 12 3)) (b.extractLsb' 0 6) (b.extractLsb' 6 6)
  | 0x2C => do need (b.extractLsb' 8 8 == 0); return .srd a (b.extractLsb' 0 8)
  | 0x2D => do need (b.extractLsb' 8 8 == 0); return .swr a (b.extractLsb' 0 8)
  | 0x30 => do need (a == 0 && b == 0); return .rte
  | 0x31 => do
    need (a.extractLsb' 2 4 == 0 && b.extractLsb' 6 10 == 0)
    return .haltb (← HaltForm.ofCode (a.extractLsb' 0 2)) (b.extractLsb' 0 6)
  | 0x32 => do
    need (a.extractLsb' 2 4 == 0 && b.extractLsb' 6 10 == 0)
    return .resumeb (← HaltForm.ofCode (a.extractLsb' 0 2)) (b.extractLsb' 0 6)
  | _ => .error .opcode

/-- The field word of layout M (R129). -/
def decodeM (f : Word) : Decoded MField := do
  let sp ← Space.ofCode (f.extractLsb' 16 2)
  let o ← Order.ofCode (f.extractLsb' 14 2)
  let sc ← Scope.ofCode (f.extractLsb' 10 2)
  return { base := f.extractLsb' 26 6, idx := f.extractLsb' 18 8, space := sp, order := o,
           hint := f.extractLsb' 12 2, scope := sc, off := f.extractLsb' 0 10 }

/-- One flag bit read as a space (R131). -/
def spaceOfBit (b : Bool) : Space := if b then .scratch else .global
/-- Its inverse. -/
def Space.bit : Space → BitVec 1
  | .global => 0
  | .scratch => 1
/-- One flag bit. -/
def bit1 (b : Bool) : BitVec 1 := if b then 1 else 0

/-- The five fields of layout E (R131, R207). -/
structure EFields where
  sA : BitVec 6
  sB : BitVec 6
  sC : BitVec 6
  flags : BitVec 6
  imm : BitVec 8
deriving DecidableEq, Repr

/-- Layout E read from a field word. -/
def EFields.of (f : Word) : EFields :=
  { sA := f.extractLsb' 26 6, sB := f.extractLsb' 20 6, sC := f.extractLsb' 14 6, flags := f.extractLsb' 8 6, imm := f.extractLsb' 0 8 }
/-- The field word of layout E: sA·2^26 + sB·2^20 + sC·2^14 + flags·2^8 + imm8 (R207). -/
def EFields.word (e : EFields) : Word := e.sA ++ (e.sB ++ (e.sC ++ (e.flags ++ e.imm)))

/-- CPY: the mode in flags [13:11] selects the row (R131, R211). -/
def decodeCpy (e : EFields) : Decoded Instr :=
  let c : CpyField := { src := e.sA, dst := e.sB, desc := e.sC, dsp := spaceOfBit (e.flags.getLsbD 2),
                        ssp := spaceOfBit (e.flags.getLsbD 1), pkg := e.flags.getLsbD 0 }
  match (e.flags.extractLsb' 3 3).toNat with
  | 0 => do need (e.imm == 0); return .cpyPlain c
  | 1 => do need (e.imm.extractLsb' 0 4 == 0); return .cpyCanon c (← CpyFmt.ofCode (e.imm.extractLsb' 4 4))
  | 2 => do need (e.imm.extractLsb' 0 4 == 0); return .cpyNorms c (← CpyFmt.ofCode (e.imm.extractLsb' 4 4))
  | 3 => do need (e.imm == 0); return .cpyVer c
  | 4 => do need (e.imm == 0); return .cpyMcast c
  | _ => .error .field

/-- The flags of CPY for a mode. -/
def CpyField.flags (c : CpyField) (mode : BitVec 3) : BitVec 6 := mode ++ (c.dsp.bit ++ (c.ssp.bit ++ bit1 c.pkg))
/-- The field word of CPY. -/
def CpyField.word (c : CpyField) (mode : BitVec 3) (imm : BitVec 8) : Word :=
  EFields.word { sA := c.src, sB := c.dst, sC := c.desc, flags := c.flags mode, imm := imm }

/-- The X48 instruction of an op8 (R129 to R132). -/
def decodeX48 (p q r : Half) : Decoded Instr :=
  let n := p.extractLsb' 0 4
  let f : Word := r ++ q
  let e := EFields.of f
  match (p.extractLsb' 4 8).toNat with
  | 0x00 => return .ldB32 n (← decodeM f)
  | 0x01 => return .ldI8 n (← decodeM f)
  | 0x02 => return .ldZ8 n (← decodeM f)
  | 0x03 => return .ldI16 n (← decodeM f)
  | 0x04 => return .ldZ16 n (← decodeM f)
  | 0x05 => return .ldBf16 n (← decodeM f)
  | 0x06 => return .ldF16 n (← decodeM f)
  | 0x08 => return .stB32 n (← decodeM f)
  | 0x09 => return .stB16 n (← decodeM f)
  | 0x0A => return .stB8 n (← decodeM f)
  | 0x0B => return .stBf16 n (← decodeM f)
  | 0x0C => return .stE4m3 n (← decodeM f)
  | 0x10 => return .atomIadd n (← decodeM f)
  | 0x11 => return .atomFadd n (← decodeM f)
  | 0x12 => return .atomImax n (← decodeM f)
  | 0x13 => return .atomImin n (← decodeM f)
  | 0x14 => return .atomZmax n (← decodeM f)
  | 0x15 => return .atomZmin n (← decodeM f)
  | 0x16 => return .atomAnd n (← decodeM f)
  | 0x17 => return .atomOr n (← decodeM f)
  | 0x18 => return .atomXor n (← decodeM f)
  | 0x19 => return .atomXchg n (← decodeM f)
  | 0x1A => return .atomCas n (← decodeM f)
  | 0x1C => do
    need (n == 0 && f.extractLsb' 0 7 == 0)
    return .ldtr (f.extractLsb' 26 6) (f.extractLsb' 18 8) (f.extractLsb' 15 3) (← Elem.ofCode (f.extractLsb' 13 2)) (f.extractLsb' 7 6)
  | 0x40 => do need (n == 0); decodeCpy e
  | 0x41 => do
    need (e.sC == 0 && !e.flags.getLsbD 1 && e.imm == 0)
    return .cpyo n e.sA e.sB (← CpyoOut.ofCode (e.flags.extractLsb' 3 3)) (spaceOfBit (e.flags.getLsbD 2)) (e.flags.getLsbD 0)
  | 0x42 => do
    need (e.sB == 0 && e.sC == 0 && e.flags.extractLsb' 0 2 == 0)
    return .kbind n e.sA (← Dim.ofCode (e.flags.extractLsb' 4 2)) (← Dim.ofCode (e.flags.extractLsb' 2 2)) e.imm
  | 0x43 => do need (f == 0); return .kfree n
  | 0x44 => do need (n == 0 && e.sB == 0 && e.sC == 0 && e.flags == 0); return .mzero e.sA e.imm
  | 0x45 => do
    need (e.sC == 0)
    return .mma n e.sA e.sB (← MmaFmt.ofCode (e.flags.extractLsb' 3 3)) (e.flags.extractLsb' 0 3) e.imm
  | 0x46 => do
    need (e.flags.extractLsb' 0 3 == 0 && e.imm == 0)
    return .msamp n e.sA e.sB e.sC (← MmaFmt.ofCode (e.flags.extractLsb' 3 3))
  | 0x47 => do need (e.sA == 0 && e.sB == 0 && e.sC == 0 && e.flags == 0); return .mstat n e.imm
  | 0x48 => do need (n == 0 && e.sC == 0 && e.flags == 0); return .acheck e.sA e.sB e.imm
  | 0x49 => do
    need (n == 0 && e.flags.extractLsb' 0 3 == 0)
    return .adrain e.sA e.sB e.sC (← Optim.ofCode (e.flags.extractLsb' 4 2)) (e.flags.getLsbD 3) e.imm
  | 0x4A => do need (n == 0 && e.sC == 0 && e.flags == 0 && e.imm == 0); return .lsupd e.sA e.sB
  | 0x50 => do need (n == 0 && e.flags == 0 && e.imm == 0); return .treg e.sA e.sB e.sC
  | 0x51 => do need (n == 0 && e.sB == 0 && e.sC == 0 && e.flags == 0 && e.imm == 0); return .tdrop e.sA
  | 0x52 => do need (n == 0 && e.flags == 0 && e.imm == 0); return .tmove e.sA e.sB e.sC
  | 0x53 => do
    need (n == 0 && !e.flags.getLsbD 1)
    return .solicit e.sA e.sB e.sC (← CenOp.ofCode (e.flags.extractLsb' 2 4)) (e.flags.getLsbD 0) e.imm
  | 0x54 => do need (f == 0); return .reply n
  | 0x58 => do need (n == 0 && e.sB == 0 && e.sC == 0 && e.flags == 0); return .chsend e.sA e.imm
  | 0x59 => do need (n == 0 && e.sB == 0 && e.sC == 0 && e.flags == 0); return .chrecv e.sA e.imm
  | 0x5C => do need (e.sB == 0 && e.sC == 0 && e.flags == 0 && e.imm == 0); return .spawn n e.sA
  | 0x5D => do need (n == 0 && e.sC == 0 && e.flags == 0 && e.imm == 0); return .launch e.sA e.sB
  | 0x60 => do
    need (n == 0 && e.sC == 0 && e.flags.extractLsb' 0 2 == 0)
    return .sld e.sA e.sB (← Order.ofCode (e.flags.extractLsb' 4 2)) (← Scope.ofCode (e.flags.extractLsb' 2 2)) e.imm
  | 0x61 => do
    need (n == 0 && e.flags.extractLsb' 0 2 == 0 && e.imm == 0)
    return .sst e.sA e.sB e.sC (← Order.ofCode (e.flags.extractLsb' 4 2)) (← Scope.ofCode (e.flags.extractLsb' 2 2))
  | 0x68 => do
    need (n == 0)
    return .brd (f.extractLsb' 16 16) (f.extractLsb' 13 3) (f.getLsbD 12) (f.extractLsb' 6 6) (f.extractLsb' 0 6)
  | 0x70 => do
    need (n == 0 && e.sA == 0 && e.sB == 0 && e.sC == 0 && e.flags.extractLsb' 4 2 == 0)
    return .pmrd (e.flags.extractLsb' 0 4) e.imm
  | 0x71 => do
    need (n == 0 && e.sB == 0 && e.sC == 0 && e.flags.extractLsb' 4 2 == 0 && e.imm == 0)
    return .pmctl e.sA (e.flags.extractLsb' 0 4)
  | _ => .error .opcode

/-- Parcels of the instruction that a first parcel begins (R117). -/
def parcelCount (p : Half) : Nat :=
  match (p.extractLsb' 12 4).toNat with
  | 0xD | 0xE => 2
  | 0xF => 3
  | _ => 1

/-- The candidate that a run of parcels encodes, before the checks of WellFormed.lean. -/
def decodeRaw (rev : Nat) : List Half → Decoded Instr
  | [] => .error .truncated
  | p :: rest =>
    match (p.extractLsb' 12 4).toNat, rest with
    | 0xC, _ => decodeH16 p
    | 0xD, q :: _ => decodeL32 rev p q
    | 0xE, q :: _ => decodeC32 p q
    | 0xF, q :: r :: _ => decodeX48 p q r
    | 0xD, _ => .error .truncated
    | 0xE, _ => .error .truncated
    | 0xF, _ => .error .truncated
    | _, _ => decodeS16 p

/-- The instruction that a run of parcels begins with, under an encoding revision, or why it is reserved (R118). -/
def decode (rev : Nat) (ps : List Half) : Decoded Instr :=
  match decodeRaw rev ps with
  | .ok i => if i.wfRev rev then .ok i else .error .illFormed
  | .error e => .error e

/-- Parcel run of an L32 instruction. -/
def l32 (op : BitVec 8) (n : BitVec 4) (q : Half) : List Half := [l32First op n, q]
/-- Parcel run of a C32 instruction. -/
def c32 (op : BitVec 6) (a : BitVec 6) (b : Half) : List Half := [c32First op a, b]
/-- Parcel run of an X48 instruction. -/
def x48 (op : BitVec 8) (n : BitVec 4) (f : Word) : List Half := x48First op n :: x48Rest f
/-- Parcel run of a layout E instruction. -/
def x48E (op : BitVec 8) (n : BitVec 4) (sA sB sC flags : BitVec 6) (imm : BitVec 8) : List Half :=
  x48 op n (EFields.word { sA := sA, sB := sB, sC := sC, flags := flags, imm := imm })
/-- The field word of layout M (R129). -/
def MField.word (m : MField) : Word :=
  m.base ++ (m.idx ++ (m.space.code ++ (m.order.code ++ (m.hint ++ (m.scope.code ++ m.off)))))
/-- Field B of a three-operand scalar instruction (R127). -/
def scalarB (top : BitVec 4) (x y : BitVec 6) : Half := top ++ (y ++ x)
/-- The param of a compare (R157). -/
def cmpParam (p : BitVec 3) (c : Combine) : BitVec 5 := c.code ++ p
/-- The param of a packed instruction (R156). -/
def packedParam (f : HFmt) (rm : RM) : BitVec 5 := 0#2 ++ (rm.code ++ f.code)

/-- The parcels of a well-formed instruction (R120 to R132); a step of the table has none. -/
def encode : Instr → List Half
  | .strandHeader n g s => [0xC#4 ++ (n ++ (g ++ (bit1 s ++ 0#4)))]
  | .mov x => [s16Parcel 0x00 (encodeSrcShort x)]
  | .putg r => [s16Parcel 0x01 (0#2 ++ r)]
  | .mlat x => [s16Parcel 0x0B (encodeSrcShort x)]
  | .nop => [s16Parcel 0x1D 0]
  | .fadd x => [s16Parcel 0x02 (encodeSrcShort x)]
  | .fsub x => [s16Parcel 0x03 (encodeSrcShort x)]
  | .frsub x => [s16Parcel 0x04 (encodeSrcShort x)]
  | .fmul x => [s16Parcel 0x05 (encodeSrcShort x)]
  | .fmac x => [s16Parcel 0x06 (encodeSrcShort x)]
  | .fnmac x => [s16Parcel 0x07 (encodeSrcShort x)]
  | .fmla x => [s16Parcel 0x08 (encodeSrcShort x)]
  | .fmax x => [s16Parcel 0x09 (encodeSrcShort x)]
  | .fmin x => [s16Parcel 0x0A (encodeSrcShort x)]
  | .iadd x => [s16Parcel 0x0C (encodeSrcShort x)]
  | .isub x => [s16Parcel 0x0D (encodeSrcShort x)]
  | .irsub x => [s16Parcel 0x0E (encodeSrcShort x)]
  | .imul x => [s16Parcel 0x0F (encodeSrcShort x)]
  | .imac x => [s16Parcel 0x10 (encodeSrcShort x)]
  | .imax x => [s16Parcel 0x11 (encodeSrcShort x)]
  | .imin x => [s16Parcel 0x12 (encodeSrcShort x)]
  | .zmax x => [s16Parcel 0x13 (encodeSrcShort x)]
  | .zmin x => [s16Parcel 0x14 (encodeSrcShort x)]
  | .and x => [s16Parcel 0x15 (encodeSrcShort x)]
  | .or x => [s16Parcel 0x16 (encodeSrcShort x)]
  | .xor x => [s16Parcel 0x17 (encodeSrcShort x)]
  | .andn x => [s16Parcel 0x18 (encodeSrcShort x)]
  | .shl x => [s16Parcel 0x19 (encodeSrcShort x)]
  | .shr x => [s16Parcel 0x1A (encodeSrcShort x)]
  | .sar x => [s16Parcel 0x1B (encodeSrcShort x)]
  | .rol x => [s16Parcel 0x1C (encodeSrcShort x)]
  | .movL n x f => l32 0x60 n (if f then encodeSrcPlain 1 x else encodeSrcPerm x)
  | .putgL n r => l32 0x61 n (l32Second 0 0 r)
  | .mlatL n x f => l32 0x6B n (if f then encodeSrcPlain 1 x else encodeSrcPerm x)
  | .nopL n => l32 0x7D n 0
  | .faddL n x => l32 0x62 n (encodeSrcPerm x)
  | .fsubL n x => l32 0x63 n (encodeSrcPerm x)
  | .frsubL n x => l32 0x64 n (encodeSrcPerm x)
  | .fmulL n x => l32 0x65 n (encodeSrcPerm x)
  | .fmacL n x => l32 0x66 n (encodeSrcPerm x)
  | .fnmacL n x => l32 0x67 n (encodeSrcPerm x)
  | .fmlaL n x => l32 0x68 n (encodeSrcPerm x)
  | .fmaxL n x => l32 0x69 n (encodeSrcPerm x)
  | .fminL n x => l32 0x6A n (encodeSrcPerm x)
  | .iaddL n x => l32 0x6C n (encodeSrcPerm x)
  | .isubL n x => l32 0x6D n (encodeSrcPerm x)
  | .irsubL n x => l32 0x6E n (encodeSrcPerm x)
  | .imulL n x => l32 0x6F n (encodeSrcPerm x)
  | .imacL n x => l32 0x70 n (encodeSrcPerm x)
  | .imaxL n x => l32 0x71 n (encodeSrcPerm x)
  | .iminL n x => l32 0x72 n (encodeSrcPerm x)
  | .zmaxL n x => l32 0x73 n (encodeSrcPerm x)
  | .zminL n x => l32 0x74 n (encodeSrcPerm x)
  | .andL n x => l32 0x75 n (encodeSrcPerm x)
  | .orL n x => l32 0x76 n (encodeSrcPerm x)
  | .xorL n x => l32 0x77 n (encodeSrcPerm x)
  | .andnL n x => l32 0x78 n (encodeSrcPerm x)
  | .shlL n x => l32 0x79 n (encodeSrcPerm x)
  | .shrL n x => l32 0x7A n (encodeSrcPerm x)
  | .sarL n x => l32 0x7B n (encodeSrcPerm x)
  | .rolL n x => l32 0x7C n (encodeSrcPerm x)
  | .cvt rm n code sat => l32 (0#6 ++ rm.code) n (l32Second 2 code.code (0#7 ++ bit1 sat))
  | .fdiv n x => l32 0x04 n (encodeSrcPerm x)
  | .idiv n x => l32 0x05 n (encodeSrcPerm x)
  | .zdiv n x => l32 0x06 n (encodeSrcPerm x)
  | .irem n x => l32 0x07 n (encodeSrcPerm x)
  | .zrem n x => l32 0x08 n (encodeSrcPerm x)
  | .sfu n fn => l32 0x09 n (l32Second 2 fn.code 0)
  | .fabs n => l32 0x0A n (l32Second 2 0 0)
  | .fneg n => l32 0x0B n (l32Second 2 0 0)
  | .popc n => l32 0x0C n (l32Second 2 0 0)
  | .clz n => l32 0x0D n (l32Second 2 0 0)
  | .brev n => l32 0x0E n (l32Second 2 0 0)
  | .selp n x p => l32 0x0F n (encodeSrcPlain (0#2 ++ p) x)
  | .fcmp c n x p comb => l32 (0x02#5 ++ c.code) n (encodeSrcPlain (cmpParam p comb) x)
  | .icmp c n x p comb => l32 (0x03#5 ++ c.code) n (encodeSrcPlain (cmpParam p comb) x)
  | .bfe n x pos => l32 0x20 n (encodeSrcPlain pos x)
  | .faddx n x rm => l32 0x22 n (encodeSrcPlain (0#3 ++ rm.code) x)
  | .fmulx n x rm => l32 0x23 n (encodeSrcPlain (0#3 ++ rm.code) x)
  | .fmacx n x rm => l32 0x24 n (encodeSrcPlain (0#3 ++ rm.code) x)
  | .fmlax n x rm => l32 0x25 n (encodeSrcPlain (0#3 ++ rm.code) x)
  | .hadd2 n x f rm => l32 0x28 n (encodeSrcPlain (packedParam f rm) x)
  | .hsub2 n x f rm => l32 0x29 n (encodeSrcPlain (packedParam f rm) x)
  | .hmul2 n x f rm => l32 0x2A n (encodeSrcPlain (packedParam f rm) x)
  | .hfma2 n x f rm => l32 0x2B n (encodeSrcPlain (packedParam f rm) x)
  | .hmax2 n x f rm => l32 0x2C n (encodeSrcPlain (packedParam f rm) x)
  | .hmin2 n x f rm => l32 0x2D n (encodeSrcPlain (packedParam f rm) x)
  | .shfli n r => l32 0x30 n (l32Second 0 0 r)
  | .shfl16 n r => l32 0x30 n (l32Second 0 0 r)
  | .vote n mode p => l32 0x31 n (l32Second 2 (mode.code ++ p) 0)
  | .red n op => l32 0x32 n (l32Second 2 (0#1 ++ op.code) 0)
  | .scan n op excl => l32 0x33 n (l32Second 2 (bit1 excl ++ op.code) 0)
  | .qx n dir r => l32 0x34 n (l32Second 0 dir.code r)
  | .rdsr n idx => l32 0x38 n (l32Second 2 0 idx)
  | .putp n t p => l32 0x39 n (l32Second 2 (t.code ++ p) 0)
  | .kwin n x => l32 0x40 n (encodeSrcPlain 0 x)
  | .knext n step p => l32 0x41 n (l32Second 2 (0#2 ++ p) step)
  | .unpk n hi r => l32 0x42 n (l32Second 0 (0#4 ++ bit1 hi) r)
  | .nopl => c32 0x00 0 0
  | .bra off => c32 0x01 0 off
  | .brany s p off => c32 0x02 (0#2 ++ (bit1 s ++ p)) off
  | .brall s p off => c32 0x03 (0#2 ++ (bit1 s ++ p)) off
  | .brs sx off => c32 0x04 sx off
  | .call sx off => c32 0x05 sx off
  | .ret sx => c32 0x06 sx 0
  | .join mn off => c32 0x07 mn off
  | .loop0 sx len => c32 0x08 sx (0#7 ++ len)
  | .loop1 sx len => c32 0x09 sx (0#7 ++ len)
  | .loop2 sx len => c32 0x0A sx (0#7 ++ len)
  | .loopi0 c len => c32 0x0B c (0#7 ++ len)
  | .loopi1 c len => c32 0x0C c (0#7 ++ len)
  | .loopi2 c len => c32 0x0D c (0#7 ++ len)
  | .wait cls n => c32 0x0E (0#3 ++ cls.code) (0#10 ++ n)
  | .bar => c32 0x0F 0 0
  | .gbar => c32 0x10 0 0
  | .exit => c32 0x11 0 0
  | .give n => c32 0x12 n 0
  | .claim n => c32 0x13 n 0
  | .claimp n p => c32 0x14 n (0#13 ++ p)
  | .part e => c32 0x15 e 0
  | .cvset form cv sm => c32 0x16 (0#1 ++ (form.code ++ cv)) (0#10 ++ sm)
  | .fence scope kind => c32 0x17 (scope.code ++ (kind.code ++ 0#2)) 0
  | .yield => c32 0x18 0 0
  | .trap code => c32 0x19 0 (0#8 ++ code)
  | .bkpt => c32 0x1A 0 0
  | .ipf off => c32 0x1B 0 off
  | .ipin c off => c32 0x1C c off
  | .iunpin c off => c32 0x1D c off
  | .smov d x => c32 0x20 d (0#10 ++ x)
  | .sadd d x y => c32 0x21 d (scalarB 0 x y)
  | .ssub d x y => c32 0x22 d (scalarB 0 x y)
  | .smul d x y => c32 0x23 d (scalarB 0 x y)
  | .sand d x y => c32 0x24 d (scalarB 0 x y)
  | .sor d x y => c32 0x25 d (scalarB 0 x y)
  | .sxor d x y => c32 0x26 d (scalarB 0 x y)
  | .sshl d x y => c32 0x27 d (scalarB 0 x y)
  | .sshr d x y => c32 0x28 d (scalarB 0 x y)
  | .saddi d x imm => c32 0x29 d (0#2 ++ (x ++ imm))
  | .smovi d imm => c32 0x2A d (0#8 ++ imm)
  | .scmp d c x y => c32 0x2B d (scalarB (0#1 ++ c.code) x y)
  | .srd d idx => c32 0x2C d (0#8 ++ idx)
  | .swr x idx => c32 0x2D x (0#8 ++ idx)
  | .rte => c32 0x30 0 0
  | .haltb form st => c32 0x31 (0#4 ++ form.code) (0#10 ++ st)
  | .resumeb form st => c32 0x32 (0#4 ++ form.code) (0#10 ++ st)
  | .ldB32 n m => x48 0x00 n m.word
  | .ldI8 n m => x48 0x01 n m.word
  | .ldZ8 n m => x48 0x02 n m.word
  | .ldI16 n m => x48 0x03 n m.word
  | .ldZ16 n m => x48 0x04 n m.word
  | .ldBf16 n m => x48 0x05 n m.word
  | .ldF16 n m => x48 0x06 n m.word
  | .stB32 n m => x48 0x08 n m.word
  | .stB16 n m => x48 0x09 n m.word
  | .stB8 n m => x48 0x0A n m.word
  | .stBf16 n m => x48 0x0B n m.word
  | .stE4m3 n m => x48 0x0C n m.word
  | .atomIadd n m => x48 0x10 n m.word
  | .atomFadd n m => x48 0x11 n m.word
  | .atomImax n m => x48 0x12 n m.word
  | .atomImin n m => x48 0x13 n m.word
  | .atomZmax n m => x48 0x14 n m.word
  | .atomZmin n m => x48 0x15 n m.word
  | .atomAnd n m => x48 0x16 n m.word
  | .atomOr n m => x48 0x17 n m.word
  | .atomXor n m => x48 0x18 n m.word
  | .atomXchg n m => x48 0x19 n m.word
  | .atomCas n m => x48 0x1A n m.word
  | .ldtr sA r nb elem sS => x48 0x1C 0 (sA ++ (r ++ (nb ++ (elem.code ++ (sS ++ 0#7)))))
  | .cpyPlain c => x48 0x40 0 (c.word 0 0)
  | .cpyCanon c f => x48 0x40 0 (c.word 1 (f.code ++ 0#4))
  | .cpyNorms c f => x48 0x40 0 (c.word 2 (f.code ++ 0#4))
  | .cpyVer c => x48 0x40 0 (c.word 3 0)
  | .cpyMcast c => x48 0x40 0 (c.word 4 0)
  | .cpyo n dst desc out dsp pkg => x48E 0x41 n dst desc 0 (out.code ++ (dsp.bit ++ (0#1 ++ bit1 pkg))) 0
  | .kbind n sA m nn off => x48E 0x42 n sA 0 0 (m.code ++ (nn.code ++ 0#2)) off
  | .kfree n => x48 0x43 n 0
  | .mzero sA off => x48E 0x44 0 sA 0 0 0 off
  | .mma n sA sB f cv gB => x48E 0x45 n sA sB 0 (f.code ++ cv) gB
  | .msamp n sA sB sC f => x48E 0x46 n sA sB sC (f.code ++ 0#3) 0
  | .mstat n r => x48E 0x47 n 0 0 0 0 r
  | .acheck sA sB off => x48E 0x48 0 sA sB 0 0 off
  | .adrain sA sB sC opt keep off => x48E 0x49 0 sA sB sC (opt.code ++ (bit1 keep ++ 0#3)) off
  | .lsupd sA sB => x48E 0x4A 0 sA sB 0 0 0
  | .treg sA sB sC => x48E 0x50 0 sA sB sC 0 0
  | .tdrop sA => x48E 0x51 0 sA 0 0 0 0
  | .tmove sA sB sC => x48E 0x52 0 sA sB sC 0 0
  | .solicit sA sB sC op pkg d => x48E 0x53 0 sA sB sC (op.code ++ (0#1 ++ bit1 pkg)) d
  | .reply n => x48 0x54 n 0
  | .chsend sA r => x48E 0x58 0 sA 0 0 0 r
  | .chrecv sA r => x48E 0x59 0 sA 0 0 0 r
  | .spawn n sA => x48E 0x5C n sA 0 0 0 0
  | .launch sA sB => x48E 0x5D 0 sA sB 0 0 0
  | .sld sA sB order scope r => x48E 0x60 0 sA sB 0 (order.code ++ (scope.code ++ 0#2)) r
  | .sst sA sB sC order scope => x48E 0x61 0 sA sB sC (order.code ++ (scope.code ++ 0#2)) 0
  | .pmrd cnt r => x48E 0x70 0 0 0 0 (0#2 ++ cnt) r
  | .pmctl sA cnt => x48E 0x71 0 sA 0 0 (0#2 ++ cnt) 0
  | .brd off p s sL t => x48 0x68 0 (off ++ (p ++ (bit1 s ++ (sL ++ t))))
  | .strandStart _ _ _ => []
  | .loadComplete _ _ _ => []
  | .engineIssue _ _ _ => []
  | .engineRetire _ _ _ => []
  | .lineLand _ _ _ _ => []
  | .storeDrain _ _ => []
  | .handlerEntry _ _ => []
  | .workgroupStop _ _ => []
  | .loopBackEdge => []
  | .binTimerExpiry _ _ => []
  | .warpFormation _ _ => []
  | .overflowKeyEntry _ => []
  | .poolGrant _ => []
  | .claimDeadlock _ => []
  | .workgroupEnd _ => []
  | .mmaSign _ _ _ => []
  | .versionedReadAttempt _ _ _ => []
  | .censusIssue => []
  | .censusDelivery _ _ => []
  | .oweArrival _ _ => []
  | .responderDeposit _ _ => []
  | .censusReport _ _ => []
  | .censusComplete _ => []
  | .tmoveInstall _ _ _ => []
  | .dataFaultTimeout _ => []
  | .fetchFault => []
  | .breakpointMatch => []
  | .stepComplete _ _ => []
  | .haltComplete _ => []
  | .sliceEnd _ _ => []
  | .contextSave _ => []
  | .contextRestore _ => []
  | .faultRecordSend => []
  | .gridStart => []
  | .gangPlacement _ => []
  | .gangReserve _ => []
  | .gridComplete _ => []
  | .dbLoadDescriptor _ => []
  | .dbRing _ => []
  | .pmaskWrite _ _ => []
  | .pcfgWrite _ _ => []
  | .fqcfgWrite _ => []
  | .registerWrite _ _ _ => []
  | .shootPage _ => []
  | .shootAsid _ => []
  | .shootAsidReload _ => []
  | .shootdownComplete => []
  | .frespRetry _ => []
  | .frespFail _ => []
  | .frespResume _ => []
  | .frespEnd _ => []
  | .dbgHalt _ => []
  | .dbgResume _ => []
  | .dbgStep _ => []
  | .apertureWrite _ _ => []
  | .progWrite _ _ => []
  | .keynew => []
  | .keykill => []
  | .classSet => []
  | .errread => []
  | .telem => []
  | .pcap => []
  | .portkey => []
  | .portKeynew _ => []
  | .portKeykill _ => []
  | .portClass _ => []
  | .portPcap _ => []
  | .portErrread _ => []
  | .portTelem _ => []
  | .portReset _ => []
  | .tripclr _ => []
  | .portState _ => []
  | .powerSample _ => []
  | .thermalThrottle _ => []
  | .thermalTrip _ => []
  | .linkDown _ _ => []
  | .linkUp _ => []
  | .errorCorrected _ _ => []
  | .errorUncorrectable _ _ _ => []
  | .patrolScrub => []
  | .bringUp _ => []
  | .containerLoad _ _ _ => []
  | .strandInstructionComplete _ _ _ => []
  | .reservedEncoding => []
  | .shootReservedKind _ => []
  | .mailboxUnknownOp _ => []
  | .portUnknownOp _ => []

/-- The parcels of a word of `nbits` bits that is numbered as spec/opcode_table.json numbers an instruction's bits: the
table's match and mask put parcel 1 in the highest 16 bits (0xE580_0000 is CVSET). Parcels the word does not hold are 0. -/
def tableParcels (nbits w : Nat) : List Half :=
  let count := nbits / 16
  let top := (List.range count).map (fun i => BitVec.ofNat 16 (w / 2 ^ (16 * (count - 1 - i))))
  let low := (List.range count).map (fun i => BitVec.ofNat 16 (w / 2 ^ (16 * i)))
  -- a word whose highest parcel begins no instruction of this length is read lowest parcel first (log 11)
  let ps := if count ≤ 1 || (top.head?.map parcelCount).getD 0 == count then top
            else if (low.head?.map parcelCount).getD 0 == count then low else top
  ps ++ List.replicate (3 - ps.length) 0

/-- The instruction the decoder reads from an opcode-table word. Revision 2 is tried first: SHFL16 is the one row that
only revision 1 decodes, and its word is that of SHFLI (R134), so it answers SHFLI. -/
def decodeTableWord (nbits w : Nat) : Option Instr :=
  match decode 2 (tableParcels nbits w) with
  | .ok i => some i
  | .error _ => (decode 1 (tableParcels nbits w)).toOption

end Sys2Proof
end

