-- ==== Sys2Proof/Machine/Fetch.lean ====
section
/-!
DEFINITION. Fetching an instruction's parcels (R116, R117, R324), the order of the front end's checks at an instruction (R118, R175,
R325, R339), and the traps that those checks raise.
-/
namespace Sys2Proof.Machine

/-- What fetching parcels gives (R324). -/
inductive Fetched where
  | ok (ps : List Half) (st : State)
  | trap (code va : Nat) (st : State)
  | absent (va : Nat) (st : State)
deriving DecidableEq, Repr

/-- Fetch n consecutive parcels from an address, lowest first. -/
def State.fetchParcels (g : Workgroup) : Nat → Nat → List Half → State → Fetched
  | 0, _, ps, s => .ok ps s
  | n + 1, a, ps, s =>
    if 2 ^ 48 ≤ a then .trap 0x05 a s
    else
      let t := s.xlat g .fetch (BitVec.ofNat 48 a)
      match t.1 with
      | .absent => .absent a t.2
      | .trap c => .trap c a t.2
      | .ok pk =>
        if t.2.marked pk || t.2.cutOff pk then .trap 0x0D a t.2
        else State.fetchParcels g n (a + 2) (ps ++ [BitVec.ofNat 16 (t.2.readPhys (t.2.wgKey g) pk 2)]) t.2

/-- Fetch the instruction at a warp's pc: its first parcel tells how many it has (R117). -/
def State.fetch (s : State) (g : Workgroup) (w : Warp) : Fetched :=
  match State.fetchParcels g 1 w.pc.toNat [] s with
  | .ok (p :: ps) st => State.fetchParcels g (parcelCount p - 1) (w.pc.toNat + 2) (p :: ps) st
  | r => r

/-- Whether an X48 opcode names an accumulator in its first parcel (R17, R129, R131): layout M, and the rows marked k. -/
def namesAcc (op8 : Nat) : Bool := decide (op8 < 0x1C) || [0x41, 0x42, 0x43, 0x45, 0x46, 0x47, 0x54, 0x5C].contains op8

/-- Whether R28 skips the instruction whose parcels are these: a strand or engine instruction by its strand's record (R17), any other
by `FEPC`. -/
def Warp.skips (w : Warp) (ps : List Half) : Bool :=
  match ps with
  | [] => false
  | p :: _ =>
    let top := (p.extractLsb' 12 4).toNat
    let n := (p.extractLsb' 0 4).toNat
    let op8 := (p.extractLsb' 4 8).toNat
    if top < 0xC then w.skipsStrand (hdrAcc w.hdr)
    else if top == 0xD then w.skipsStrand n
    else if top == 0xF && op8 != 0x68 then w.skipsStrand (if namesAcc op8 then n else hdrAcc w.hdr)
    else w.skipsFront

/-- An instruction that begins inside the innermost active loop's body ends beyond it (R175). -/
def Warp.overruns (w : Warp) (parcels : Nat) : Bool :=
  w.uni.loops.any (fun f => decide (f.start.toNat ≤ w.pc.toNat) && decide (w.pc.toNat < f.stop.toNat)
    && decide (f.stop.toNat < w.pc.toNat + 2 * parcels))

/-- An enabled breakpoint of the context lies at the warp's pc, and the warp does not pass over it (R339). -/
def State.breaks (s : State) (g : Workgroup) (w : Warp) : Bool :=
  s.debugOn g && w.skipBp != some w.pc
    && ((s.asidEntry g.asid).map (fun e => e.bps.any (fun b => b.getLsbD 0 && b.extractLsb' 1 47 == w.pc.extractLsb' 1 47))).getD false

/-- BREAKPOINT_MATCH (R339): trap 0x11 before the instruction takes any effect. -/
def execBreakpointMatch (s : State) : Out :=
  s.onWarp (fun g w => .next (if s.breaks g w then s.trapFront g w 0x11 else s))

/-- FETCH_FAULT (R325): trap 0x07 at the instruction; its record names the first parcel that could not be fetched (R330). -/
def execFetchFault (s : State) : Out :=
  s.onWarp (fun g w => match s.fetch g w with
    | .absent va st => .next (st.trapFrontAt g w 0x07 va 4)
    | .ok _ _ | .trap _ _ _ => .next s)

/-- RESERVED_ENCODING (R118): trap 0x02 before the dispatch; R28 may skip it, which raises nothing. -/
def execReservedEncoding (s : State) : Out :=
  s.onWarp (fun g w => match s.fetch g w with
    | .ok ps st => (match decode g.encRev ps with
      | .ok _ => .next s
      | .error _ => .next (if w.skips ps then st.put g (w.passOver (2 * ps.length)) else st.trapFront g w 0x02))
    | .absent _ _ | .trap _ _ _ => .next s)

/-- A fetch fault that system software has answered with FAIL: trap 0x05 at the same instruction after the restore (R325). -/
def Warp.failsFetch (w : Warp) : Bool := w.fetchFault == some (w.pc, true)

/-- What the front end does for one warp (R19, R118): `run` gives the decoded instruction its meaning. DESIGN CHOICE (log 66): an instruction
that overruns a loop body raises R175's 0x10 after the 0x02 check and before the 0x03 and 0x01 checks; R118's list does not place it. -/
def State.frontStep (run : Instr → State → Out) (s : State) (g : Workgroup) (w : Warp) : Out :=
  let s := { s with cur := some { wg := g.uid, wid := w.wid } }
  if w.atLoopEnd then run .loopBackEdge s
  else if w.failsFetch then .next (s.trapFrontAt g { w with fetchFault := none } 0x05 w.pc.toNat 4)
  else match s.fetch g w with
    | .absent _ _ => run .fetchFault s
    | .trap c va st => .next (st.trapFrontAt g w c va 4)
    | .ok ps st =>
      if !(w.skips ps) && st.breaks g w then run .breakpointMatch st
      else match decode g.encRev ps with
        | .error _ => run .reservedEncoding st
        | .ok i => if !(w.skips ps) && w.overruns ps.length then .next (st.trapFront g w 0x10) else run i st

/-- The front end may dispatch for a warp (R18, R19, R29, R205, R318, R326). -/
def Warp.dispatchable (w : Warp) : Bool :=
  w.active != 0 && w.stopping.isNone && w.dataFault.isNone && w.block == .none && w.stepping != some true
    && (w.stepping.isSome || !(w.halted || w.stopped))

/-- Slots after which a waiting warp comes before any that has waited less: with at most 32 warps on a core, none then waits 64 (R44). -/
def urgentAfter : Nat := 32
/-- Slots of its core that pass before a warp is considered again ahead of others that could dispatch (log 2). -/
def dispatchGap : Nat := 2

/-- The front end of a core takes one warp before another: one that has waited for long (R44), then one that did not dispatch just now
(log 2), then the older (R18). -/
def Warp.leads (x y : Warp) : Bool :=
  if urgentAfter ≤ x.passed || urgentAfter ≤ y.passed then decide (y.passed < x.passed) || (x.passed == y.passed && decide (x.age ≤ y.age))
  else if decide (dispatchGap ≤ x.passed) != decide (dispatchGap ≤ y.passed) then decide (dispatchGap ≤ x.passed)
  else decide (x.age ≤ y.age)

/-- Place of a core in the turn of the front ends, which passes on from the core that dispatched last (log 2). -/
def State.coreTurn (s : State) (g : Workgroup) : Nat := (g.coreIdx + 255 - s.frontCore) % 256

/-- One warp comes before another in the turn of the front ends. -/
def State.turnBefore (s : State) (x y : Workgroup × Warp) : Bool :=
  decide (s.coreTurn x.1 < s.coreTurn y.1) || (s.coreTurn x.1 == s.coreTurn y.1 && x.2.leads y.2)

/-- Put a warp into a list that is in the order of the turn. -/
def State.insertByTurn (s : State) (x : Workgroup × Warp) : List (Workgroup × Warp) → List (Workgroup × Warp)
  | [] => [x]
  | y :: rest => if s.turnBefore x y then x :: y :: rest else y :: s.insertByTurn x rest

/-- Every warp of the package that the front ends may dispatch for, in the order of their turn (R18, R44). -/
def State.readyWarps (s : State) : List (Workgroup × Warp) :=
  ((s.wgs.filter (fun g => g.residence == .resident)).flatMap
    (fun g => (g.warps.filter Warp.dispatchable).map (fun w => (g, w)))).foldr s.insertByTurn []

/-- A warp after its core gave a dispatch slot, to it or to another (R44). -/
def Warp.afterSlot (w : Warp) (own : Bool) : Warp := { w with passed := if own then 0 else w.passed + 1 }

/-- A workgroup after a core gave a dispatch slot to a warp. -/
def Workgroup.afterSlot (g : Workgroup) (core : Nat) (r : WarpRef) : Workgroup :=
  if g.residence == .resident && g.coreIdx == core then { g with warps := g.warps.map (fun w => w.afterSlot (g.uid == r.wg && w.wid == r.wid)) }
  else g

/-- A core gives its dispatch slot to a warp: the other warps of the core have waited one slot more (R44). -/
def State.serve (s : State) (core : Nat) (r : WarpRef) : State :=
  { s with frontCore := core, wgs := s.wgs.map (fun g => g.afterSlot core r) }

/-- What the front end does next for a warp takes a dispatch slot: it is neither an H16 header (R17) nor a loop's back-edge or end
(R272). -/
def State.takesSlot (s : State) (g : Workgroup) (w : Warp) : Bool :=
  !w.atLoopEnd && (match s.fetch g w with
    | .ok (p :: _) _ => p.extractLsb' 12 4 != 0xC
    | .ok [] _ | .trap _ _ _ | .absent _ _ => true)

/-- The front end turns to a warp, and gives it a dispatch slot where it takes one (R44). -/
def State.turnTo (s : State) (g : Workgroup) (w : Warp) : State × Workgroup × Warp :=
  let r : WarpRef := { wg := g.uid, wid := w.wid }
  if s.takesSlot g w then (s.serve g.coreIdx r, g.afterSlot g.coreIdx r, w.afterSlot true) else (s, g, w)

end Sys2Proof.Machine
end

