-- ==== Sys2Proof/Machine/Container.lean ====
section
/-!
DEFINITION. The loader (R281 to R300): the container's file header and records, the checks in three passes, the code each kernel runs,
and the copies and mappings that it makes.
-/
namespace Sys2Proof.Machine

/-- n bytes from an offset, and the number they stand for (R281). -/
def bytesAt (f : List Byte) (off n : Nat) : List Byte := (f.drop off).take n
def numAt (f : List Byte) (off n : Nat) : Nat := leNat (bytesAt f off n)

-- CRC-32 with the IEEE 802.3 polynomial, in the reflected form of the frame check sequence (R282)
def crcBits : Nat → Word → Word
  | 0, c => c
  | n + 1, c => crcBits n (if c.getLsbD 0 then (c >>> 1) ^^^ 0xEDB88320#32 else c >>> 1)
def crcByte (c : Word) (b : Byte) : Word := crcBits 8 (c ^^^ b.zeroExtend 32)
def crc32 (bs : List Byte) : Word := ~~~(bs.foldl crcByte 0xFFFFFFFF#32)

/-- A record: header fields, and the payload (R283). -/
structure Rec where
  type : Nat
  flags : Nat
  id : Nat
  owner : Nat
  payload : List Byte
deriving DecidableEq, Repr

/-- MAND of a record. -/
def Rec.mand (r : Rec) : Bool := r.flags % 2 == 1

/-- A refusal that names a record (R293). -/
def Rec.refusal (r : Rec) (reason : Nat) : LoadRefusal := { reason := reason, id := r.id, type := r.type, ntype := 0 }
/-- NTYPE of a note (R289). -/
def Rec.ntype (r : Rec) : Nat := numAt r.payload 0 2
/-- The same with NTYPE where the record is a note. -/
def Rec.noteRefusal (r : Rec) (reason : Nat) : LoadRefusal :=
  { r.refusal reason with ntype := if r.type == 0x20 then r.ntype else 0 }

/-- The file header but for its CRC (R282); FSIZE is the file's length. -/
def headerGood (f : List Byte) : Bool :=
  decide (64 ≤ f.length) && f.length % 16 == 0 && numAt f 0 4 == 0x4B535247 && numAt f 4 2 == 1 && numAt f 6 2 == 0 && numAt f 12 4 == 0
    && numAt f 16 8 == f.length && (bytesAt f 28 36).all (· == 0) && decide (1 ≤ numAt f 8 4) && decide (numAt f 8 4 ≤ 65535)

/-- What reading the records of a file gives: those that lie in it whole, the header of one that extends beyond it, and the refusal that this
is (R281, R292). -/
structure Records where
  whole : List Rec
  cut : Option Rec
  bad : Option LoadRefusal
deriving DecidableEq, Repr

/-- Every record whose header the file holds: what an OWNER or a reference may name (R292). -/
def Records.named (r : Records) : List Rec := r.whole ++ r.cut.toList

/-- The records from an offset: n of them, ending at FSIZE. -/
def readRecs (f : List Byte) : Nat → Nat → List Rec → Records
  | 0, off, acc =>
    { whole := acc.reverse, cut := none, bad := if off == f.length then none else some { reason := 1, id := 0, type := 0, ntype := 0 } }
  | n + 1, off, acc =>
    if f.length < off + 16 then { whole := acc.reverse, cut := none, bad := some { reason := 1, id := 0, type := 0, ntype := 0 } }
    else
      let r : Rec := { type := numAt f off 2, flags := numAt f (off + 2) 2, id := numAt f (off + 4) 4, owner := numAt f (off + 12) 4,
                       payload := bytesAt f (off + 16) (numAt f (off + 8) 4) }
      if f.length < off + 16 + numAt f (off + 8) 4 then { whole := acc.reverse, cut := some r, bad := some (r.refusal 1) }
      else readRecs f n (off + 16 + roundUp (numAt f (off + 8) 4) 16) (r :: acc)

-- text
/-- One byte of UTF-8: the continuation bytes still due and the bounds of the next; none once the text is ill-formed. -/
def utf8Next (s : Option (Nat × Nat × Nat)) (b : Byte) : Option (Nat × Nat × Nat) :=
  let n := b.toNat
  match s with
  | none => none
  | some (0, _, _) =>
    if n < 0x80 then some (0, 0, 0)
    else if 0xC2 ≤ n && n < 0xE0 then some (1, 0x80, 0xBF)
    else if n == 0xE0 then some (2, 0xA0, 0xBF)
    else if n == 0xED then some (2, 0x80, 0x9F)
    else if 0xE1 ≤ n && n < 0xF0 then some (2, 0x80, 0xBF)
    else if n == 0xF0 then some (3, 0x90, 0xBF)
    else if n == 0xF4 then some (3, 0x80, 0x8F)
    else if 0xF1 ≤ n && n < 0xF4 then some (3, 0x80, 0xBF)
    else none
  | some (k + 1, lo, hi) => if lo ≤ n && n ≤ hi then some (k, 0x80, 0xBF) else none
/-- Bytes are UTF-8 text. -/
def isUtf8 (bs : List Byte) : Bool :=
  match bs.foldl utf8Next (some (0, 0, 0)) with
  | some (0, _, _) => true
  | _ => false

/-- A list of numbers without repeats. -/
def noRepeat : List Nat → Bool
  | [] => true
  | a :: rest => !(rest.contains a) && noRepeat rest
/-- A list of numbers in ascending order. -/
def ascends : List Nat → Bool
  | [] => true
  | [_] => true
  | a :: b :: rest => decide (a < b) && ascends (b :: rest)

/-- Entries of n bytes from an offset of a payload. -/
def entriesAt (p : List Byte) (off n count : Nat) : List (List Byte) := (List.range count).map (fun i => bytesAt p (off + n * i) n)

-- payloads that refer to no other record (R285, R288)
def sectionOk (p : List Byte) : Bool :=
  decide (8 ≤ p.length) && (numAt p 0 1 == 1 || numAt p 0 1 == 2) && (bytesAt p 1 7).all (· == 0) && p.length % 2 == 0
def dataOk (p : List Byte) : Bool := decide (8 ≤ p.length) && ((List.range 13).map (2 ^ ·)).contains (numAt p 0 8)
def chanOk (p : List Byte) : Bool :=
  let n := numAt p 0 4
  decide (1 ≤ n) && decide (n ≤ 64) && p.length == 4 + 4 * n
    && (entriesAt p 4 4 n).all (fun e => decide (1 ≤ leNat e) && decide (leNat e ≤ 64))

-- the scalar level (R295, R296)
/-- A scalar entry's class and the fields that make an instruction. -/
def entCls (e : List Byte) : Nat := numAt e 0 1
/-- Opcodes of class 2 whose OPND is a label number. -/
def usesLabel (op : Nat) : Bool := (decide (1 ≤ op) && decide (op ≤ 5)) || op == 7 || (decide (8 ≤ op) && decide (op ≤ 0x0D)) || (decide (0x1B ≤ op) && decide (op ≤ 0x1D))

/-- The parcels of the instruction that an entry names, register and label numbers apart; none where a field is too wide. -/
def entParcels (e : List Byte) : Option (List Half) :=
  let op := numAt e 1 1
  let param := numAt e 2 1
  let opnd := numAt e 8 4
  match entCls e with
  | 1 =>
    let kind := opnd / 2 ^ 29
    let low := opnd % 2 ^ 29
    let plain := kind == 1 || kind == 2
    if 32 ≤ param || (plain && 256 ≤ low) || (op == 0x7D && low != 0) then none
    else some (l32 (BitVec.ofNat 8 op) 0 (l32Second (BitVec.ofNat 3 kind) (BitVec.ofNat 5 param) (if plain then BitVec.ofNat 8 low else 0)))
  | 2 =>
    if 64 ≤ op || 64 ≤ param || (!(usesLabel op) && 65536 ≤ opnd) then none
    else some (c32 (BitVec.ofNat 6 op) (BitVec.ofNat 6 param) (if usesLabel op then 2 else BitVec.ofNat 16 opnd))
  | 3 => some (x48 (BitVec.ofNat 8 op) 0 (BitVec.ofNat 32 (numAt e 12 4)))
  | _ => none

/-- Where the field word of an X48 instruction names a general register, and the width of the block that it begins, as far as op8 and FW
tell it (R129 to R131). -/
def fwReg (op fw : Nat) : Option (Nat × Nat) :=
  if op < 0x1C then some (18, 1)
  else if op == 0x1C then some (18, field fw 15 3 + 1)
  else if op == 0x47 then some (0, 3)
  else if op == 0x60 || op == 0x70 then some (0, 2)
  else if op == 0x45 || op == 0x58 || op == 0x59 then some (0, 1)
  else none

/-- The registers that an entry names are among the virtual ones that the record declares, ACC is 0 where parcel 1 [3:0] must be, and an FW's
register field is 0 (R295, R296). The twin of NOP, whose second parcel is 0, names no register (R125). -/
def entRegsOk (gprs accs : Nat) (e : List Byte) : Bool :=
  let op := numAt e 1 1
  let acc := numAt e 4 4
  let opnd := numAt e 8 4
  match entCls e with
  | 1 => decide (acc < accs) && (op == 0x7D || opnd / 2 ^ 29 == 1 || opnd / 2 ^ 29 == 2 || decide (opnd % 2 ^ 29 < gprs))
  | 3 => (if namesAcc op then decide (acc < accs) else acc == 0)
      && (match fwReg op (numAt e 12 4) with
        | none => true
        | some (lo, n) => field (numAt e 12 4) lo 8 == 0 && decide (opnd + n ≤ gprs))
  | _ => true

/-- One entry by itself (R296). -/
def entOk (e : List Byte) : Bool :=
  let g := numAt e 3 1
  decide (g < 16) && predSenseOk (BitVec.ofNat 3 g) (8 ≤ g) && (entCls e != 3 || numAt e 2 1 == 0)
    && (if entCls e == 4 then numAt e 1 1 == 0 && numAt e 2 1 == 0 && numAt e 8 8 == 0
        else (entCls e == 3 || numAt e 12 4 == 0) && (match entParcels e with
          | none => false
          | some ps => (match decode 2 ps with
            | .ok _ => true
            | .error _ => false)))

/-- Labels that a scalar record defines, and those it uses. -/
def labelsOf (p : List Byte) : List Nat :=
  ((entriesAt p 16 16 (numAt p 4 4)).filter (fun e => entCls e == 4)).map (fun e => numAt e 4 4)
/-- The label an entry uses: OPND of a class 2 branch, and the offset field of BRD, FW [31:16] (R132, R295). -/
def entLabel (e : List Byte) : Option Nat :=
  if entCls e == 2 && usesLabel (numAt e 1 1) then some (numAt e 8 4)
  else if entCls e == 3 && numAt e 1 1 == 0x68 then some (numAt e 14 2)
  else none
def labelsUsed (p : List Byte) : List Nat := (entriesAt p 16 16 (numAt p 4 4)).filterMap entLabel

/-- A level whose LVER the finaliser supports (R300). -/
def levelKnown (p : List Byte) : Bool := decide (numAt p 0 4 ≤ 1)

/-- A scalar record's own rules (R295, R296). -/
def scalarOk (p : List Byte) : Bool :=
  !(levelKnown p) || (p.length == 16 + 16 * numAt p 4 4 && (entriesAt p 16 16 (numAt p 4 4)).all (fun e => entOk e && entRegsOk (numAt p 8 4) (numAt p 12 4) e)
    && noRepeat (labelsOf p)
    && (labelsUsed p).all (fun l => (labelsOf p).contains l))

-- the levels of one portable form
/-- The payloads of a level that a form has: understood, and valid by a test. DESIGN CHOICE (log 74): the records of one form are those with
the same OWNER in the file; R286 and R299 name only the scalar record of a kernel. -/
def formPayloads (rs : List Rec) (owner type : Nat) (good : List Byte → Bool) : List (List Byte) :=
  (rs.filter (fun x => x.type == type && x.owner == owner && levelKnown x.payload && good x.payload)).map Rec.payload
/-- The labels of a form's scalar level. -/
def formLabels (rs : List Rec) (owner : Nat) : List Nat := (formPayloads rs owner 0x10 scalarOk).flatMap labelsOf

-- the loop level (R297)
/-- A nest: its ID, and its FIRST and END labels. -/
structure Nest where
  id : Nat
  first : Nat
  stop : Nat
deriving DecidableEq, Repr

/-- One level entry of a nest. -/
def levelOk (e : List Byte) : Bool := decide (1 ≤ numAt e 8 4) && decide (numAt e 8 4 ≤ 63) && (field (numAt e 0 8) 63 1 == 0 || decide (field (numAt e 0 8) 0 63 < 64))

/-- The nests from an offset; none where one breaks the rules. -/
def readNests (p : List Byte) : Nat → Nat → Option (List Nest)
  | 0, off => if off == p.length then some [] else none
  | n + 1, off =>
    let depth := numAt p (off + 4) 1
    if p.length < off + 16 || depth < 1 || 8 < depth || 4 ≤ numAt p (off + 5) 1 || numAt p (off + 6) 2 != 0
        || p.length < off + 16 + 16 * depth || !((entriesAt p (off + 16) 16 depth).all levelOk) then none
    else match readNests p n (off + 16 + 16 * depth) with
      | none => none
      | some rest => some ({ id := numAt p off 4, first := numAt p (off + 8) 4, stop := numAt p (off + 12) 4 } :: rest)

def nestsOf (p : List Byte) : List Nest := (readNests p (numAt p 4 4) 8).getD []
/-- A loop record's own rules (R297); `labels` are those of its form's scalar level, of which FIRST and END are two. -/
def loopOk (labels : List Nat) (p : List Byte) : Bool :=
  !(levelKnown p) || ((readNests p (numAt p 4 4) 8).isSome && noRepeat ((nestsOf p).map Nest.id)
    && (nestsOf p).all (fun n => labels.contains n.first && labels.contains n.stop))
/-- The nests of a form. -/
def formNests (rs : List Rec) (owner : Nat) : List Nest := (formPayloads rs owner 0x11 (loopOk (formLabels rs owner))).flatMap nestsOf

-- the tile level (R298)
/-- One operation; `ends` are the nests and labels that its EPI may name, besides 0. M, N and K are any shape. -/
def tileOpOk (ends : List Nat) (e : List Byte) : Bool :=
  decide (1 ≤ numAt e 4 1) && decide (numAt e 4 1 ≤ 5) && numAt e 7 1 == 0 && numAt e 24 8 == 0 && decide (numAt e 5 1 < 7)
    && decide (numAt e 6 1 < 3) && (bytesAt e 16 4).all (fun b => decide (b.toNat < 64)) && (numAt e 20 4 == 0 || ends.contains (numAt e 20 4))
def tilesOf (p : List Byte) : List Nat := (entriesAt p 8 32 (numAt p 4 4)).map (fun e => numAt e 0 4)
/-- A tile record's own rules. -/
def tileOk (ends : List Nat) (p : List Byte) : Bool :=
  !(levelKnown p) || (p.length == 8 + 32 * numAt p 4 4 && (entriesAt p 8 32 (numAt p 4 4)).all (tileOpOk ends) && noRepeat (tilesOf p))
/-- What an EPI of a form may name. -/
def formEnds (rs : List Rec) (owner : Nat) : List Nat := (formNests rs owner).map Nest.id ++ formLabels rs owner
/-- The tile operations of a form. -/
def formTiles (rs : List Rec) (owner : Nat) : List Nat := (formPayloads rs owner 0x12 (tileOk (formEnds rs owner))).flatMap tilesOf

-- cross references (R299)
/-- One cross reference: from level and ID, to level and ID or label. -/
structure XRef where
  src : Nat
  dst : Nat
  srcId : Nat
  dstId : Nat
deriving DecidableEq, Repr
def xrefsOf (p : List Byte) : List XRef :=
  (entriesAt p 0 12 (p.length / 12)).map (fun e => { src := numAt e 0 1, dst := numAt e 1 1, srcId := numAt e 4 4, dstId := numAt e 8 4 })
/-- A cross-reference record's own rules: an ID or label of a level that is dropped counts as missing. -/
def xrefOk (rs : List Rec) (r : Rec) : Bool :=
  let xs := xrefsOf r.payload
  let labels := formLabels rs r.owner
  let nests := formNests rs r.owner
  let tiles := formTiles rs r.owner
  r.payload.length % 12 == 0 && (entriesAt r.payload 0 12 (r.payload.length / 12)).all (fun e => numAt e 2 2 == 0)
    && xs.all (fun x => (x.src == 3 && tiles.contains x.srcId && ((x.dst == 2 && (nests.map Nest.id).contains x.dstId) || (x.dst == 1 && labels.contains x.dstId)))
      || (x.src == 2 && x.dst == 1 && nests.any (fun n => n.id == x.srcId && n.first == x.dstId) && labels.contains x.dstId))
    && tiles.all (fun t => (xs.filter (fun x => x.src == 3 && x.srcId == t)).length == 1)
    && nests.all (fun n => (xs.filter (fun x => x.src == 2 && x.srcId == n.id)).length == 1)

-- payloads that refer to records
/-- A reference of the right type, or 0. -/
def refOk (rs : List Rec) (id type : Nat) : Bool := id == 0 || rs.any (fun x => x.id == id && x.type == type)

/-- A data section that is loaded. -/
def goodData (rs : List Rec) (id : Nat) : Bool := rs.any (fun x => x.id == id && x.type == 5 && dataOk x.payload)
def constOk (rs : List Rec) (p : List Byte) : Bool :=
  let n := numAt p 0 4
  let reloc := numAt p 8 8
  let data := goodData rs (numAt p 4 4)
  decide (n ≤ 63) && p.length == 16 + 8 * n && refOk rs (numAt p 4 4) 5 && reloc % 2 == 0 && decide (reloc < 2 ^ (n + 1)) && (data || reloc == 0)

/-- A reference to a constant table that is dropped, which reads as 0 (R292). -/
def constDropped (rs : List Rec) (id : Nat) : Bool :=
  rs.any (fun x => x.id == id && x.type == 3 && !x.mand && !(constOk rs x.payload))

/-- A kernel record's own rules (R286): CONST is 0, or reads as 0, when the constant count is. -/
def kernelOk (rs : List Rec) (p : List Byte) : Bool :=
  let nlen := numAt p 32 1
  decide (1 ≤ nlen) && p.length == 36 + nlen && numAt p 33 3 == 0 && isUtf8 (bytesAt p 36 nlen) && (bytesAt p 36 nlen).all (· != 0)
    && numAt p 12 4 % 64 == 0 && refOk rs (numAt p 8 4) 1 && (field (numAt p 0 8) 8 8 != 0 || numAt p 20 4 == 0 || constDropped rs (numAt p 20 4))
    && refOk rs (numAt p 20 4) 3 && refOk rs (numAt p 24 4) 4 && refOk rs (numAt p 28 4) 0x10

/-- A note's own rules (R289); `owner` is what its OWNER reads as. -/
def noteOk (rs : List Rec) (owner : Nat) (r : Rec) : Bool :=
  let p := r.payload
  let ofKernel := rs.any (fun x => x.id == owner && x.type == 2)
  decide (4 ≤ p.length) && numAt p 2 2 == 0 && (match r.ntype with
    | 1 => p.length == 8 && ofKernel && decide (1 ≤ numAt p 4 1) && decide (numAt p 4 1 ≤ 16) && decide (1 ≤ numAt p 5 1) && decide (numAt p 5 1 ≤ 16)
        && decide (numAt p 6 1 ≤ 64) && numAt p 7 1 == 0
    | 2 => owner == 0 && isUtf8 (p.drop 4)
    | 3 => p.length == 4 && ofKernel
    | _ => p.length % 8 == 4 && rs.any (fun x => x.id == owner && x.type == 1)
        && ascends ((entriesAt p 4 8 ((p.length - 4) / 8)).map (fun e => numAt e 0 4)))

/-- The types and note types the loader knows (R284, R289). -/
def knownType (t : Nat) : Bool := [1, 2, 3, 4, 5, 0x10, 0x11, 0x12, 0x13, 0x20].contains t
def knownNote (t : Nat) : Bool := decide (1 ≤ t) && decide (t ≤ 4)

/-- A known record's payload keeps its own rules; `owner` is what its OWNER reads as. -/
def payloadOk (rs : List Rec) (owner : Nat) (r : Rec) : Bool :=
  match r.type with
  | 1 => sectionOk r.payload
  | 2 => kernelOk rs r.payload
  | 3 => constOk rs r.payload
  | 4 => chanOk r.payload
  | 5 => dataOk r.payload
  | 0x10 => scalarOk r.payload
  | 0x11 => loopOk (formLabels rs r.owner) r.payload
  | 0x12 => tileOk (formEnds rs r.owner) r.payload
  | 0x13 => xrefOk rs r
  | _ => noteOk rs owner r

/-- What the OWNER of a record reads as: 0 where it names a record that is dropped (R292). A chain of owners is followed for as many records
as are given. -/
def ownerRead (rs : List Rec) : List Rec → Rec → Nat
  | [], r => r.owner
  | _ :: rest, r =>
    match rs.find? (fun x => x.id == r.owner) with
    | none => r.owner
    | some x =>
      if !x.mand && knownType x.type && !(x.type == 0x20 && !(knownNote x.ntype)) && !(payloadOk rs (ownerRead rs rest x) x) then 0 else r.owner

/-- The second pass over one record (R292): refused, dropped or skipped (false), or kept. DESIGN CHOICE (log 75): NTYPE is 0 in the report of
a note whose record header fails. -/
def passTwo (rs : List Rec) (priv : Bool) (r : Rec) : Except LoadRefusal Bool :=
  if r.id == 0 || decide (1 < (rs.filter (fun x => x.id == r.id)).length) || decide (2 ≤ r.flags) || !(r.owner == 0 || rs.any (fun x => x.id == r.owner)) then
    .error (r.refusal 5)
  else if !(knownType r.type) then (if r.mand then .error (r.refusal 3) else .ok false)
  else if r.type == 0x20 && !(knownNote r.ntype) then (if r.mand then .error (r.noteRefusal 4) else .ok false)
  else if !(payloadOk rs (ownerRead rs rs r) r) then (if r.mand then .error (r.noteRefusal 5) else .ok false)
  else if r.type == 0x20 && r.ntype == 3 && !priv then .error (r.noteRefusal 8)
  else .ok true

/-- The second pass: the records kept, or the first refusal. -/
def passTwoAll (rs : List Rec) (priv : Bool) : List Rec → Except LoadRefusal (List Rec)
  | [] => .ok []
  | r :: rest =>
    match passTwo rs priv r with
    | .error e => .error e
    | .ok keep => match passTwoAll rs priv rest with
      | .error e => .error e
      | .ok ks => .ok (if keep then r :: ks else ks)

-- kernels (R291, R294)
/-- A kept record by ID and type; a reference to a dropped one reads as 0. -/
def findRec (ks : List Rec) (id type : Nat) : Option Rec := if id == 0 then none else ks.find? (fun x => x.id == id && x.type == type)
/-- Fields of a kernel record. -/
def Rec.header (r : Rec) : DWord := BitVec.ofNat 64 (numAt r.payload 0 8)
def Rec.name (r : Rec) : List Byte := bytesAt r.payload 36 (numAt r.payload 32 1)
def Rec.native (ks : List Rec) (r : Rec) : Option Rec := findRec ks (numAt r.payload 8 4) 1
def Rec.constTable (ks : List Rec) (r : Rec) : Option Rec := findRec ks (numAt r.payload 20 4) 3
def Rec.channels (ks : List Rec) (r : Rec) : Option Rec := findRec ks (numAt r.payload 24 4) 4
def Rec.portable (ks : List Rec) (r : Rec) : Option Rec := findRec ks (numAt r.payload 28 4) 0x10
/-- Revision of a kernel record's section; 2 where it has none (R286). -/
def Rec.rev (ks : List Rec) (r : Rec) : Nat := ((r.native ks).map (fun x => numAt x.payload 0 1)).getD 2

/-- The conditions of R291. -/
def kernelHeaderOk (ks : List Rec) (r : Rec) : Bool :=
  let h := r.header.toNat
  let enc := field h 60 4
  let mm := field h 57 3
  let c16 := field h 56 1
  let b := field h 48 8
  let w := field h 34 6
  let pool := field h 40 8
  let handler := numAt r.payload 16 4
  let none' := (r.native ks).isNone
  (enc == 1 || enc == 2) && enc == r.rev ks && (if enc == 2 then mm == 3 || mm == 2 else mm == 2) && (c16 == 1) == (enc == 1)
    && (decide (1 ≤ b) || none') && decide (b ≤ 63) && decide (1 ≤ w) && decide (w ≤ (if c16 == 1 then 16 else 32))
    && decide ((if c16 == 1 then 2 * w * b + pool else w * b + pool) ≤ 512) && decide (field h 24 10 ≤ 512)
    && field h 8 8 == ((r.constTable ks).map (fun x => numAt x.payload 0 4)).getD 0
    && ((field h 0 1 == 1) == (handler != 0))
    && (handler == 0 || (handler % 2 == 0 && decide (handler < ((r.native ks).map (fun x => x.payload.length - 8)).getD 0)))
    && ((field h 2 1 == 1) == (r.channels ks).isSome)

/-- The third pass over the kernel records, in file order: the valid ones, or the first refusal (R291, R292, R286). -/
def passThree (ks : List Rec) : List Rec → List Rec → Except LoadRefusal (List Rec)
  | [], acc => .ok acc.reverse
  | r :: rest, acc =>
    if r.type != 2 then passThree ks rest acc
    else if (ks.filter (fun x => x.type == 2 && x.name == r.name && (x.rev ks == 1) == (r.rev ks == 1))).length != 1 then .error (r.refusal 5)
    else if kernelHeaderOk ks r then passThree ks rest (r :: acc)
    else if r.mand then .error (r.refusal 6)
    else passThree ks rest acc

/-- What a kernel runs (R294): a record, and the scalar record it is finalised from. -/
def chooseCode (ks valid : List Rec) (finalise : Bool) (name : List Byte) : Option (Rec × Option Rec) :=
  let mine := valid.filter (fun r => r.name == name)
  let native (rev : Nat) : Option (Rec × Option Rec) :=
    (mine.find? (fun r => (r.native ks).isSome && r.rev ks == rev)).map (fun r => (r, none))
  let portable : Option (Rec × Option Rec) :=
    mine.findSome? (fun r => match r.portable ks with
      | none => none
      | some x => if levelKnown x.payload then some (r, some x) else none)
  if finalise then portable.or ((native 2).or (native 1)) else (native 2).or ((native 1).or portable)

/-- What a finaliser starts from (R300): the highest level that it understands and that cross references tie to the scalar level, and the
payloads of the levels that it uses. Of a form whose cross references are gone only the scalar level is usable (R299). -/
def finalForm (ks : List Rec) (x : Rec) : Nat × List (List Byte) :=
  let tied := ks.any (fun y => y.type == 0x13 && y.owner == x.owner)
  let loops := formPayloads ks x.owner 0x11 (loopOk (formLabels ks x.owner))
  let tiles := formPayloads ks x.owner 0x12 (tileOk (formEnds ks x.owner))
  if tied && !tiles.isEmpty then (3, x.payload :: (loops ++ tiles))
  else if tied && !loops.isEmpty then (2, x.payload :: loops)
  else (1, [x.payload])

/-- The header word a kernel runs with (R294). -/
def runHeader (ks : List Rec) (r : Rec) : Option Rec → DWord
  | none => r.header
  | some x =>
    let y := finalForm ks x
    (r.header &&& ~~~(0xF1FF000000000000#64)) ||| (2#64 <<< 60) ||| ((Config.finalisedBase y.1 y.2).zeroExtend 64 <<< 48)

/-- Address of a section in load number n (R285, R288): a multiple of its alignment in the lower half of the address space. -/
def secAddr (n align id : Nat) : Nat := align * (Config.loadAddress n id % (2 ^ 47 / align))
/-- Address of a code section. -/
def codeAddr (n id : Nat) : Nat := secAddr n 64 id

/-- The constants of a kernel, offsets into the data section relocated (R287). -/
def constValues (ks : List Rec) (n : Nat) (t : Rec) : List DWord :=
  let reloc := numAt t.payload 8 8
  let base := ((findRec ks (numAt t.payload 4 4) 5).map (fun d => secAddr n (numAt d.payload 0 8) d.id)).getD 0
  (List.range (numAt t.payload 0 4)).map (fun i =>
    BitVec.ofNat 64 (numAt t.payload (16 + 8 * i) 8 + (if field reloc (i + 1) 1 == 1 then base else 0)))

/-- The launch record that the loader writes for a kernel (R289, R309): header word, entry, handler, where the channel entries and the
constants stand, the number of channels, gang sizes, bins and SVCK; the rest is its producer's. -/
def launchOf (header : DWord) (entry handler chan nchan const gpref gfall bins : Nat) (svck : Bool) : LaunchRec :=
  { waits := [], cpl := 0, chan := BitVec.ofNat 64 chan, nchan := nchan, ovflSize := 0, ovfl := 0, const := BitVec.ofNat 64 const, seed := 0, bins := bins, dies := 0, svck := svck,
    gfall := gfall, gpref := gpref, nthr := 1, nwg := (1, 1, 1), handler := BitVec.ofNat 64 handler, entry := BitVec.ofNat 64 entry,
    header := header, clean := true }

/-- A kernel as it is handed over (R286 to R294). DESIGN CHOICE (log 76): of several launch notes the first in file order applies. -/
def loadKernel (ks : List Rec) (n : Nat) (r : Rec) (fin : Option Rec) : LoadedKernel :=
  let note (t : Nat) : Option Rec := ks.find? (fun x => x.type == 0x20 && x.ntype == t && x.owner == r.id)
  let base := codeAddr n ((fin.map Rec.id).getD (numAt r.payload 8 4))
  let offs : Nat × Nat := match fin.map (finalForm ks) with
    | none => (numAt r.payload 12 4, numAt r.payload 16 4)
    | some y => ((Config.finalisedEntry y.1 y.2).1 * 64, (Config.finalisedEntry y.1 y.2).2)
  let slots := ((r.channels ks).map (fun c => (List.range (numAt c.payload 0 4)).map (fun i => numAt c.payload (4 + 4 * i) 4))).getD []
  let bins : Nat := match note 1 with
    | none => 8
    | some x => if numAt x.payload 6 1 == 0 then 8 else numAt x.payload 6 1
  { name := r.name,
    launch := launchOf (runHeader ks r fin) (base + offs.1) (if r.header.getLsbD 0 then base + offs.2 else 0)
      (((r.channels ks).map (fun c => secAddr n 4 c.id)).getD 0) slots.length (((r.constTable ks).map (fun c => secAddr n 8 c.id)).getD 0)
      (((note 1).map (fun x => numAt x.payload 4 1)).getD 1) (((note 1).map (fun x => numAt x.payload 5 1)).getD 1) bins (note 3).isSome,
    consts := ((r.constTable ks).map (constValues ks n)).getD [], chanSlots := slots, finalised := fin.map (fun x => (finalForm ks x).1) }

/-- A kernel's name with its first record, once for each name. -/
def kernelNames : List Rec → List (List Byte) → List Rec
  | [], _ => []
  | r :: rest, seen => if seen.contains r.name then kernelNames rest seen else r :: kernelNames rest (r.name :: seen)

/-- Every kernel's code, or the refusal with reason 7 (R294). -/
def chooseAll (ks valid : List Rec) (finalise : Bool) : List Rec → Except LoadRefusal (List (Rec × Option Rec))
  | [] => .ok []
  | r :: rest =>
    match chooseCode ks valid finalise r.name with
    | none => .error (r.refusal 7)
    | some c => match chooseAll ks valid finalise rest with
      | .error e => .error e
      | .ok cs => .ok (c :: cs)

/-- The channel entries of a launch record (R309): the slots of the channel table, and the ranks, which are the launch's (R288). -/
def chanEntries (n : Nat) (t : Rec) : List Byte :=
  (List.range (numAt t.payload 0 4)).flatMap (fun i =>
    leBytes 4 (numAt t.payload (4 + 4 * i) 4 % 256 + 256 * (Config.chanRanks n t.id i % 256)))

/-- What the loader copies: native code, data, finalised code, and the constants and channel entries of the launch records (R309), each table
at a multiple of its entry. -/
def loadImages (ks : List Rec) (n : Nat) (cs : List (Rec × Option Rec)) : List LoadedImage :=
  ks.filterMap (fun r =>
    if r.type == 1 then some { addr := codeAddr n r.id, bytes := r.payload.drop 8, code := true }
    else if r.type == 5 then some { addr := secAddr n (numAt r.payload 0 8) r.id, bytes := r.payload.drop 8, code := false }
    else if r.type == 3 then some { addr := secAddr n 8 r.id, bytes := (constValues ks n r).flatMap (fun v => leBytes 8 v.toNat), code := false }
    else if r.type == 4 then some { addr := secAddr n 4 r.id, bytes := chanEntries n r, code := false }
    else none)
  ++ cs.filterMap (fun c => c.2.map (fun x => { addr := codeAddr n x.id, bytes := Config.finalised (finalForm ks x).1 (finalForm ks x).2, code := true }))

/-- Read a container in three passes (R292): what is loaded, or what is reported. -/
def loadFile (n : Nat) (f : List Byte) (priv finalise : Bool) : Except LoadRefusal Loaded :=
  if !(headerGood f) then .error { reason := 1, id := 0, type := 0, ntype := 0 }
  else if (crc32 (f.drop 64)).toNat != numAt f 24 4 then .error { reason := 2, id := 0, type := 0, ntype := 0 }
  else
    let rs := readRecs f (numAt f 8 4) 64 []
    match passTwoAll rs.named priv rs.whole, rs.bad with
    | .error e, _ => .error e
    | .ok _, some e => .error e
    | .ok ks, none =>
      match passThree ks ks [] with
      | .error e => .error e
      | .ok valid =>
        match chooseAll ks valid (priv && finalise) (kernelNames valid []) with
        | .error e => .error e
        | .ok cs => .ok { asid := Config.loadAsid n % 512, images := loadImages ks n cs, kernels := cs.map (fun c => loadKernel ks n c.1 c.2) }

-- the copies and mappings of a load (R285, R288, R322)
/-- A leaf of 4 KiB for a page of a load: code readable and executable, data readable, writable and not executable. -/
def loadLeaf (code : Bool) (frame : Nat) : Nat := frame * 4096 + (if code then 0x35 else 0x2D)

/-- Map a virtual page from a table at a level down, adding the tables that are missing (R322). -/
def State.mapPage (n va leaf : Nat) : Nat → Nat → State → State
  | 0, table, s => s.writePhys s.mgmt.sysKey (table + 8 * (va / 2 ^ 12 % 512)) 8 leaf
  | level + 1, table, s =>
    let at' := table + 8 * (va / 2 ^ (12 + 9 * (level + 1)) % 512)
    let e := BitVec.ofNat 64 (s.readPhys s.mgmt.sysKey at' 8)
    if pteV e && !pteLeaf e then s.mapPage n va leaf level (physKey (ptePkg e) (pteTier e) (ptePpn e * 4096))
    else
      let t := Config.tableFrame n level (va / 2 ^ (12 + 9 * (level + 1))) % 2 ^ 36 * 4096
      ((s.writePhys s.mgmt.sysKey (physKey 0 0 t) 4096 0).writePhys s.mgmt.sysKey at' 8 (t + 1)).mapPage n va leaf level (physKey 0 0 t)

/-- The frame of a virtual page of a load. -/
def frameOf (n page : Nat) : Nat := Config.loadFrame n page % 2 ^ 36

/-- Virtual pages of an image. -/
def LoadedImage.pages (x : LoadedImage) : List Nat :=
  if x.bytes.isEmpty then [] else (List.range ((x.addr + x.bytes.length - 1) / 4096 - x.addr / 4096 + 1)).map (· + x.addr / 4096)

/-- Copy an image to its address in a context and map it (R285, R288). -/
def State.copyImage (n key root : Nat) (s : State) (x : LoadedImage) : State :=
  let s1 := x.pages.foldl (fun (s : State) p => s.mapPage n (p * 4096) (loadLeaf x.code (frameOf n p)) 3 root) s
  s1.writeBytes key (x.bytes.zipIdx.map (fun b => (physKey 0 0 (frameOf n ((x.addr + b.2) / 4096) * 4096 + (x.addr + b.2) % 4096), b.1)))

/-- The images of a load in the context that it is for: an ASID that is enabled and has a key; for another, system software maps them when it
has made it one (log 16). -/
def State.install (s : State) (n : Nat) (x : Loaded) : State :=
  let e := s.asidInMemory x.asid
  match s.keyOf x.asid with
  | none => s
  | some key => if s.asidOn e then x.images.foldl (State.copyImage n key (physKey 0 0 (e.root.toNat % 2 ^ 48 / 4096 * 4096))) s else s

/-- CONTAINER_LOAD (R292): the file is loaded whole, or refused. -/
def execContainerLoad (file : List Byte) (priv finalise : Bool) (s : State) : Out :=
  match loadFile s.loaded.length file priv finalise with
  | .error e => .next { s with refused := s.refused ++ [e] }
  | .ok x => .next ({ s with loaded := s.loaded ++ [x] }.install s.loaded.length x)

end Sys2Proof.Machine
end

