-- ==== Sys2Proof/Machine/Moves.lean ====
section
/-!
DEFINITION. The strand header (R16, R122) and the move family (R145). Each instruction gives its dispatch the operation it performs
and its operand; the long twins name their accumulator and may permute their operand (R144).
-/
namespace Sys2Proof.Machine

/-- Dispatch data of a one-operand operation on an accumulator, its imm8 widened by a code (R119, R141). -/
def dispOp (n : Nat) (op : SOp) (imm : BitVec 8 → Word) (x : Src) (w : Warp) : Disp := (Disp.plain n op).withSrc w imm x

/-- H16 header (R16, R122): the current strand and its guard; no dispatch slot. -/
def execStrandHeader (n : BitVec 4) (guard : BitVec 3) (sense : Bool) (s : State) : Out :=
  s.onWarp (fun g w => .next (s.put g
    { w.passOver 2 with hdr := 0xC#4 ++ n ++ guard ++ (if sense then 1#1 else 0#1) ++ 0#4 }))

/-- MOV (R145): `k := b`. -/
def execMov (x : Src) (s : State) : Out := s.strand 2 (fun _ w => dispOp w.cur (.alu .mov) (widenImm .i) x w)
/-- PUTG (R145): `g[X] := a`; it reads no general register and writes one. -/
def execPutg (r : BitVec 8) (s : State) : Out :=
  s.strand 2 (fun _ w => { Disp.plain w.cur (.putg r.toNat) with regs := [r.toNat], writesG := [r.toNat] })
/-- MLAT (R145): `latch := b`. -/
def execMlat (x : Src) (s : State) : Out := s.strand 2 (fun _ w => dispOp w.cur .mlat (widenImm .i) x w)
/-- NOP (R121, R145): a dispatch slot and a queue entry, nothing else. -/
def execNop (s : State) : Out := s.strand 2 (fun _ w => Disp.plain w.cur .nop)

/-- Long twin of MOV; `f` is `mov.f`, whose imm8 widens by E (R145). -/
def execMovL (n : BitVec 4) (x : Src) (f : Bool) (s : State) : Out :=
  s.strand 4 (fun _ w => dispOp n.toNat (.alu .mov) (widenImm (if f then .e else .i)) x w)
/-- Long twin of PUTG. -/
def execPutgL (n : BitVec 4) (r : BitVec 8) (s : State) : Out :=
  s.strand 4 (fun _ _ => { Disp.plain n.toNat (.putg r.toNat) with regs := [r.toNat], writesG := [r.toNat] })
/-- Long twin of MLAT; `f` is `mlat.f`. -/
def execMlatL (n : BitVec 4) (x : Src) (f : Bool) (s : State) : Out :=
  s.strand 4 (fun _ w => dispOp n.toNat .mlat (widenImm (if f then .e else .i)) x w)
/-- Long twin of NOP. -/
def execNopL (n : BitVec 4) (s : State) : Out := s.strand 4 (fun _ _ => Disp.plain n.toNat .nop)

end Sys2Proof.Machine
end

