-- ==== Sys2Proof/Machine/CrossLane.lean ====
section
/-!
DEFINITION. Compares, selection and predicates (R157 to R159), cross-lane operations (R160 to R165), special-register reads
(R166) and tile windows (R167, R168).
-/
namespace Sys2Proof.Machine

/-- Predicates that a compare reads beside its guard: its own when it combines (R157). -/
def combineReads (p : BitVec 3) (comb : Combine) : List Nat :=
  match comb with
  | .set => []
  | .and | .or => [p.toNat]

/-- Widening of ICMP's imm8 (R125). -/
def icmpWidening (c : ICond) : Widening :=
  match c with
  | .zlt | .zge => .z
  | .eq | .ne | .lt | .le | .gt | .ge => .i

/-- SELP (R158). -/
def execSelp (n : BitVec 4) (x : Src) (p : BitVec 3) (s : State) : Out :=
  s.strand 4 (fun _ w => { dispOp n.toNat (.selp p.toNat) (widenImm .i) x w with readsP := [p.toNat] })
/-- FCMP (R157). -/
def execFcmp (c : FCond) (n : BitVec 4) (x : Src) (p : BitVec 3) (comb : Combine) (s : State) : Out :=
  s.strand 4 (fun _ w => { dispOp n.toNat (.fcmp c p.toNat comb) (widenImm .e) x w with
    readsP := combineReads p comb, writesP := [p.toNat] })
/-- ICMP (R157). -/
def execIcmp (c : ICond) (n : BitVec 4) (x : Src) (p : BitVec 3) (comb : Combine) (s : State) : Out :=
  s.strand 4 (fun _ w => { dispOp n.toNat (.icmp c p.toNat comb) (widenImm (icmpWidening c)) x w with
    readsP := combineReads p comb, writesP := [p.toNat] })
/-- PUTP (R159). -/
def execPutp (n : BitVec 4) (t : PutpTest) (p : BitVec 3) (s : State) : Out :=
  s.strand 4 (fun _ _ => { Disp.plain n.toNat (.putp t p.toNat) with writesP := [p.toNat] })

/-- Dispatch data of an operation that reads one general register across lanes. -/
def dispReg (n : Nat) (op : SOp) (r : BitVec 8) : Disp := { Disp.plain n op with regs := [r.toNat], readsG := [r.toNat] }

/-- SHFLI (R160). -/
def execShfli (n : BitVec 4) (r : BitVec 8) (s : State) : Out := s.strand 4 (fun _ _ => dispReg n.toNat (.shfli r.toNat) r)
/-- SHFL16, the same op8 under encoding revision 1 (R134, R160). -/
def execShfl16 (n : BitVec 4) (r : BitVec 8) (s : State) : Out := s.strand 4 (fun _ _ => dispReg n.toNat (.shfl16 r.toNat) r)
/-- QX (R161). -/
def execQx (n : BitVec 4) (dir : QxDir) (r : BitVec 8) (s : State) : Out := s.strand 4 (fun _ _ => dispReg n.toNat (.qx dir r.toNat) r)
/-- UNPK (R165). -/
def execUnpk (n : BitVec 4) (hi : Bool) (r : BitVec 8) (s : State) : Out := s.strand 4 (fun _ _ => dispReg n.toNat (.unpk hi r.toNat) r)
/-- VOTE (R162). -/
def execVote (n : BitVec 4) (mode : VoteMode) (p : BitVec 3) (s : State) : Out :=
  s.strand 4 (fun _ _ => { Disp.plain n.toNat (.vote mode p.toNat) with readsP := [p.toNat] })
/-- RED (R163). -/
def execRed (n : BitVec 4) (op : TreeOp) (s : State) : Out := s.strand 4 (fun _ _ => Disp.plain n.toNat (.red op))
/-- SCAN (R164). -/
def execScan (n : BitVec 4) (op : TreeOp) (excl : Bool) (s : State) : Out := s.strand 4 (fun _ _ => Disp.plain n.toNat (.scan op excl))
/-- RDSR (R58, R166): a service index outside a service kernel is refused at decode. -/
def execRdsr (n : BitVec 4) (idx : BitVec 8) (s : State) : Out :=
  s.strand 4 (fun g _ => { Disp.plain n.toNat (.rdsr idx.toNat) with
    trap := if srService idx.toNat && !s.isService g then some (0x03, 0, 0) else none })
/-- KWIN (R167). -/
def execKwin (n : BitVec 4) (x : Src) (s : State) : Out := s.strand 4 (fun _ w => dispOp n.toNat .kwin (widenImm .z) x w)
/-- KNEXT (R168). -/
def execKnext (n : BitVec 4) (step : BitVec 8) (p : BitVec 3) (s : State) : Out :=
  s.strand 4 (fun _ _ => { Disp.plain n.toNat (.knext step.toNat p.toNat) with writesP := if p == 0 then [] else [p.toNat] })

end Sys2Proof.Machine
end

