-- ==== Sys2Proof/Machine/Distributor.lean ====
section
/-!
DEFINITION. The distributor (R310 to R317): partitions, the checks of a record, starting a grid, fitting and placing a gang, reserving,
completing a grid, and the initial state of a workgroup (R66, R303).
-/
namespace Sys2Proof.Machine

/-- The controller's log takes a record, or counts one lost when it is full (R361). -/
def Mgmt.logged (m : Mgmt) (r : LogRec) : Mgmt :=
  if m.log.length < Config.errorLogRecords then { m with log := m.log ++ [r] } else { m with logLost := m.logLost + 1 }

-- partitions (R316)
def Partition.on (p : Partition) : Bool := p.cfg.getLsbD 9
def Partition.asid (p : Partition) : Nat := (p.cfg.extractLsb' 0 9).toNat
def Partition.group (p : Partition) : Nat := (p.cfg.extractLsb' 16 6).toNat
def Partition.die (p : Partition) : Nat := p.p / 64
/-- Slice length in µs; a smaller value acts as 250. -/
def Partition.quantum (p : Partition) : Nat := max 250 (p.cfg.extractLsb' 48 16).toNat

/-- A partition's registers; reset leaves the mask 0 and QUANTUM 0x03E8 (R316). -/
def State.partition (s : State) (p : Nat) : Partition :=
  (s.partitions.find? (fun x => x.p == p)).getD { p := p, mask := 0, cfg := 0x03E8000000000000#64 }

/-- Every enabled partition, in ascending number. -/
def State.partitionsOn (s : State) : List Partition := ((List.range 192).map s.partition).filter Partition.on

/-- The enabled partitions of a slice group (R317). -/
def State.mates (s : State) (die group : Nat) : List Partition := s.partitionsOn.filter (fun p => p.die == die && p.group == group)

/-- The partition of a slice group that runs now (R317): the one its slice names; a group that has one enabled partition runs that. -/
def State.running (s : State) (die group : Nat) : Option Nat :=
  let ms := s.mates die group
  match s.slices.find? (fun x => x.die == die && x.group == group && ms.any (fun p => p.p == x.running)) with
  | some x => some x.running
  | none => (ms.head?).map Partition.p

/-- Whether a partition's workgroups may be on their cores now. -/
def State.runs (s : State) (p : Partition) : Bool := s.running p.die p.group == some p.p

/-- The partition a workgroup was placed in. -/
def State.partitionOf (s : State) (g : Workgroup) : Option Nat := (s.gangs.find? (fun x => x.uid == g.gang)).map Gang.partition

-- what a workgroup needs of its core (R314)
/-- Warp slots, warp granules, KiB of scratchpad, tile slots, bins. -/
structure Need where
  slots : Nat
  granules : Nat
  scratch : Nat
  tiles : Nat
  bins : Nat
deriving DecidableEq, Repr

/-- The need of a kernel header (R303, R314). -/
def headerNeed (h : DWord) (bins : Nat) : Need :=
  let k := if h.getLsbD 56 then 2 else 1
  let w := hdrField h 34 6
  { slots := k * w, granules := k * w * hdrField h 48 8 + hdrField h 40 8, scratch := hdrField h 24 10, tiles := hdrField h 16 8, bins := bins }

/-- The sum of two needs. -/
def Need.add (a b : Need) : Need :=
  { slots := a.slots + b.slots, granules := a.granules + b.granules, scratch := a.scratch + b.scratch, tiles := a.tiles + b.tiles,
    bins := a.bins + b.bins }

/-- Within what one core has (R314). -/
def Need.within (n : Need) : Bool :=
  decide (n.slots ≤ Config.warpSlots) && decide (n.granules ≤ Config.warpGranules) && decide (n.scratch ≤ 512) && decide (n.tiles ≤ 256)
    && decide (n.bins ≤ 64)

/-- The workgroups that hold a core against a partition (R314): in a slice group of several partitions its own, resident or saved;
otherwise those resident. -/
def State.holders (s : State) (p : Partition) (core : Nat) : List Workgroup :=
  let here := s.wgs.filter (fun g => g.die == p.die && g.core == core)
  if 2 ≤ (s.mates p.die p.group).length then here.filter (fun g => s.partitionOf g == some p.p)
  else here.filter (fun g => g.residence == .resident)

/-- The lowest slot number that no workgroup of a context holds on a core (R314, R365), some workgroups apart. -/
def State.freeSlot (s : State) (die core ctxid : Nat) (but : List Nat) : Option Nat :=
  leastFree 32 0 ((s.wgs.filter (fun g => g.die == die && g.core == core && g.ctxid == ctxid && !(but.contains g.uid))).map Workgroup.slot)

/-- A core fits a workgroup of a context (R314), the workgroups `but` not counted. -/
def State.fits (s : State) (p : Partition) (ctxid : Nat) (n : Need) (but : List Nat) (core : Nat) : Bool :=
  let held := ((s.holders p core).filter (fun g => !(but.contains g.uid))).map (fun g => headerNeed g.header g.binsMax)
  p.mask.getLsbD core && (held.foldl Need.add n).within && (s.freeSlot p.die core ctxid but).isSome

/-- The cores of a partition that fit, in ascending number, some left out. -/
def State.fitting (s : State) (p : Partition) (ctxid : Nat) (n : Need) (but : List Nat) (blocked : Nat → Bool) : List Nat :=
  (List.range Config.coresPerDie).filter (fun c => !(blocked c) && s.fits p ctxid n but c)

-- grids
/-- Workgroups of a grid; a rejected record has none (R310). -/
def Grid.total (x : Grid) : Nat := if x.status == 1 then 0 else x.launch.nwg.1 * x.launch.nwg.2.1 * x.launch.nwg.2.2

/-- Whether a grid has memory-model revision 2 (R302). -/
def Grid.rev2 (x : Grid) : Bool := hdrField x.launch.header 57 3 == 2

/-- The partitions on which a grid's gangs may lie (R313, R302); an ASID without a key places no work (R355). -/
def State.gridPartitions (s : State) (x : Grid) : List Partition :=
  if (s.keyOf x.asid).isNone then []
  else s.partitionsOn.filter (fun p => p.asid == x.asid && x.launch.dies.testBit p.die
    && (match x.oneDie with
        | none => true
        | some d => !x.rev2 || d == p.die))

/-- The context of an ASID, as the entry in memory names it (R321). -/
def State.ctxOf (s : State) (asid : Nat) : Nat := (s.asidInMemory asid).ctxid

/-- Cores of a partition that could hold a workgroup if they were all empty. -/
def Partition.empties (p : Partition) (n : Need) : List Nat := (List.range Config.coresPerDie).filter (fun c => p.mask.getLsbD c && n.within)

/-- The sizes at which the next gang is tried (R313). -/
def Grid.sizes (x : Grid) : List Nat :=
  let r := x.total - x.next
  [min x.launch.gpref r, min x.launch.gfall r]

/-- The need of a grid's workgroup. -/
def Grid.need (x : Grid) : Need := headerNeed x.launch.header x.launch.bins

/-- One grid's gangs come before another's (R315): priority, then the order of starting. -/
def Grid.before (x y : Grid) : Bool := decide (y.prio < x.prio) || (x.prio == y.prio && decide (x.uid < y.uid))

/-- A gang that has waited 1 ms keeps a core from gangs of equal or lower priority, where its partition could hold one of its sizes (R315,
R313); of two that have, the one that waits longer comes first (log 29). -/
def State.keeps (s : State) (y x : Grid) (die core : Nat) : Bool :=
  y.uid != x.uid && y.reserved && decide (x.prio ≤ y.prio)
    && !(x.reserved && x.prio == y.prio && (decide (x.waitSince < y.waitSince) || (x.waitSince == y.waitSince && decide (x.uid < y.uid))))
    && (s.gridPartitions y).any (fun p => p.die == die && p.mask.getLsbD core && y.sizes.any (fun n => decide (n ≤ (p.empties y.need).length)))

/-- Where the next gang of a grid goes now (R313, R315): a partition and its cores. -/
def State.gangPlace (s : State) (x : Grid) : Option (Partition × List Nat) :=
  if x.total ≤ x.next then none
  else
    let ctxid := s.ctxOf x.asid
    let cores (p : Partition) : List Nat := s.fitting p ctxid x.need [] (fun c => s.grids.any (fun y => s.keeps y x p.die c))
    let try' (n : Nat) : Option (Partition × List Nat) :=
      ((s.gridPartitions x).find? (fun p => decide (n ≤ (cores p).length))).map (fun p => (p, (cores p).take n))
    match x.sizes with
    | [a, b] => (match try' a with
      | some r => some r
      | none => try' b)
    | _ => none

-- the checks of a record (R310)
/-- A channel entry's fields: slots, sending rank, receiving rank. -/
def chanEntry (e : Nat) : Nat × Nat × Nat := (e % 256, field e 8 4, field e 12 4)

/-- The channel table of a record; none where it cannot be read or an entry is outside its limits (R309). -/
def State.readChans (s : State) (asid : Nat) (l : LaunchRec) : Option (List (Nat × Nat × Nat)) :=
  let es := (List.range l.nchan).map (fun i => s.distRead asid (l.chan.toNat + 4 * i) 4)
  if es.all (fun e => match e with
      | none => false
      | some v => v < 65536 && 1 ≤ v % 256 && v % 256 ≤ 64) then
    some (es.map (fun e => chanEntry (e.getD 0)))
  else none

/-- The constant table of a record. -/
def State.readConsts (s : State) (asid : Nat) (l : LaunchRec) : Option (List DWord) :=
  let es := (List.range (hdrField l.header 8 8)).map (fun i => s.distRead asid (l.const.toNat + 8 * i) 8)
  if es.all Option.isSome then some (es.map (fun e => BitVec.ofNat 64 (e.getD 0))) else none

/-- Some allowed partition of the ASID could hold a gang if its cores were all empty (R310). -/
def State.couldHold (s : State) (asid : Nat) (l : LaunchRec) : Bool :=
  let n := min (min l.gpref l.gfall) (l.nwg.1 * l.nwg.2.1 * l.nwg.2.2)
  s.partitionsOn.any (fun p => p.asid == asid && l.dies.testBit p.die
    && decide (n ≤ (p.empties (headerNeed l.header l.bins)).length))

/-- The distributor accepts a record (R310, R321, R355). -/
def State.accepts (s : State) (asid : Nat) (l : LaunchRec) : Bool :=
  let e := s.asidInMemory asid
  l.fieldsOk && (s.readChans asid l).isSome && (s.readConsts asid l).isSome && (l.cpl == 0 || (s.distRead asid l.cpl.toNat 16).isSome)
    && s.couldHold asid l && (!l.svck || e.svc) && s.asidOn e && !e.reserved && (s.keyOf asid).isSome

/-- Every nonzero WAIT finds its queue's EVENT at or above its value (R311). -/
def State.waitsMet (s : State) (l : LaunchRec) : Bool := l.waits.all (fun w => w.2 == 0 || decide (w.2 ≤ s.qEvent w.1))

/-- A queue whose head record may start (R311). -/
def State.startable (s : State) (x : Queue) : Bool :=
  match x.waiting with
  | [] => false
  | (_, l) :: _ =>
    x.enabled && s.waitsMet l
      && (!(s.accepts x.asid l) || (decide ((s.grids.filter (fun g => g.queue == x.q && g.status != 1 && !g.written)).length < 64)
        && decide ((s.grids.filter (fun g => g.status != 1 && !g.written)).length < 4096)))

/-- The queue whose record starts next (R311): the highest priority, queues of equal priority in turn. -/
def State.nextQueue (s : State) : Option Queue :=
  (s.queues.filter s.startable).foldl (fun a x => match a with
    | none => some x
    | some y => if y.prio < x.prio then some x else some y) none

/-- GRID_START (R310, R311): the record's grid starts, or is rejected with status 1. The queue goes to the end of the turn. -/
def execGridStart (s : State) : Out :=
  match s.nextQueue with
  | none => .next s
  | some x => match x.waiting with
    | [] => .next s
    | (i, l) :: rest =>
      let n := s.fresh
      let ok := s.accepts x.asid l
      let grid : Grid :=
        { uid := n.1, queue := x.q, index := i, asid := x.asid, prio := x.prio, launch := l, consts := (s.readConsts x.asid l).getD [],
          chans := (s.readChans x.asid l).getD [], next := 0, ended := 0, killed := 0, waitSince := s.clk, reserved := false, oneDie := none,
          status := if ok then 0 else 1, written := false }
      .next { n.2 with grids := s.grids ++ [grid],
                       queues := s.queues.filter (fun y => y.q != x.q) ++ [{ x with waiting := rest }] }

-- the initial state of a workgroup (R66)
/-- A workgroup as it is placed, before its warps. `zero` tells that its storage is clear (R357), `bound` that a slot of its core may
have been bound since the core came to the context (R220). -/
def Grid.workgroup (x : Grid) (e : AsidEntry) (gang uid lin rank size die core slot : Nat) (zero bound : Bool) : Workgroup :=
  let l := x.launch
  let b := hdrField l.header 48 8
  let w := hdrField l.header 34 6
  let launched := (l.nthr + 31) / 32
  { uid := uid, grid := x.uid, gang := gang, lin := lin, rank := rank, asid := x.asid, ctxid := e.ctxid, die := die, core := core,
    slot := slot, residence := .resident, header := l.header, entry := l.entry.extractLsb' 0 48, handler := l.handler.extractLsb' 0 48,
    consts := x.consts, svck := l.svck, nwg := l.nwg, gangSize := size, seed := l.seed, astat := 0, drops := 0, lost := false,
    poolFree := hdrField l.header 40 8 + (w - launched) * b, splitReserve := if l.header.getLsbD 56 then w * b else 0, poolQ := [],
    cv := List.replicate 8 { form := .idle, signs := 0, signed := 0, members := 0, unusable := false, fixed := none, differs := false },
    gbarArrived := false, binsMax := l.bins, bins := [], held := [], ovfl := l.ovfl + BitVec.ofNat 64 (lin * l.ovflSize),
    ovflSize := l.ovflSize, scratch := [], scratchZero := zero, absent := [], orphan := [],
    sramMarks := [],
    slots := List.replicate (hdrField l.header 16 8) { words := [], tag := if zero || !bound then some (64, 64) else none, zeroed := zero }, warps := [], ghosts := [], stop := .none,
    awaiting := none, killed := false, pins := [], haltReport := [], imageLost := none, lossSent := false, saveTo := none, noRoom := false,
    counters := [] }

/-- The launched warps of a workgroup (R66): thread t in warp ⌊t/32⌋, lane t mod 32. `age` is the first warp's. -/
def Workgroup.launchWarps (g : Workgroup) (nthr age : Nat) : List Warp :=
  (List.range ((nthr + 31) / 32)).map (fun i =>
    g.buildWarp i (age + i) 0 { addr := g.entry, uni := g.launchUni }
      (((List.range 32).filter (fun l => decide (32 * i + l < nthr))).map (fun l => (l, newThread g.baseGranules (32 * i + l) none []))))

/-- A context comes to a core: what another context left there is cleared (R357, R66), and no slot has been bound for it (R220). A placement
into a partition that does not run leaves the core as it is (R317). The flag tells that the workgroup's storage is clear. -/
def State.assignCore (s : State) (core asid ctxid : Nat) (now : Bool) : State × Bool :=
  if s.coreUse.contains (core, asid, ctxid) then (s, false)
  else if !now then (s, true)
  else
    ({ s with coreUse := (core, asid, ctxid) :: s.coreUse.filter (fun u => u.1 != core), coreBound := s.coreBound.filter (· != core),
              tlb := s.tlb.filter (fun t => !(t.core == core && t.asid != asid)) }, true)

/-- Place the workgroups of a gang, one on each core, in order of rank (R313). -/
def State.placeMembers (x : Grid) (e : AsidEntry) (gang die : Nat) (size : Nat) (now : Bool) : List Nat → Nat → State → State
  | [], _, s => s
  | c :: rest, rank, s =>
    let n := s.fresh
    let a := n.2.assignCore (64 * die + c) x.asid e.ctxid now
    let slot := (a.1.freeSlot die c e.ctxid []).getD 0
    let g := x.workgroup e gang n.1 (x.next + rank) rank size die c slot a.2 (a.1.coreBound.contains (64 * die + c))
    let ws := g.launchWarps x.launch.nthr a.1.nextUid
    State.placeMembers x e gang die size now rest (rank + 1)
      { a.1 with wgs := a.1.wgs ++ [{ g with warps := ws }], nextUid := a.1.nextUid + ws.length }

/-- Workgroups placed into a partition that is not running go straight into its saved set (R317); none when no space takes them. DESIGN CHOICE
(log 77): the gang then stays unplaced and still counts as placeable. -/
def State.shelve (s : State) (uids : List Nat) : Option State :=
  (State.placeImages uids s).map (fun s1 =>
    let s' := (s1.wgs.filter (fun g => uids.contains g.uid)).foldl State.writeImage s1
    { s' with wgs := s'.wgs.map (fun g => if uids.contains g.uid then { g with residence := g.saveTo.getD .cooler, saveTo := none } else g) })

/-- No workgroup of another partition is still on a core (R317). -/
def State.coreFree (s : State) (p : Partition) (core : Nat) : Bool :=
  s.wgs.all (fun g => !(g.residence == .resident && g.die == p.die && g.core == core) || s.partitionOf g == some p.p)

/-- Form and place a gang (R313, R321). -/
def State.placeGang (s : State) (x : Grid) (p : Partition) (cores : List Nat) : Option State :=
  let s1 := s.loadAsid x.asid
  let n := s1.fresh
  let size := cores.length
  let now := s.runs p && cores.all (s.coreFree p)
  let before := n.2.wgs.map Workgroup.uid
  let s2 := State.placeMembers x (s1.asidInMemory x.asid) n.1 p.die size now cores 0 n.2
  let uids := (s2.wgs.map Workgroup.uid).filter (fun u => !(before.contains u))
  let chans := x.chans.map (fun c => if c.2.1 < size && c.2.2 < size then
    { slots := c.1, sender := c.2.1, receiver := c.2.2, msgs := [] } else ({ slots := 0, sender := 16, receiver := 16, msgs := [] } : Channel))
  let gang : Gang := { uid := n.1, grid := x.uid, size := size, members := uids, partition := p.p, channels := chans }
  let x' : Grid := { x with next := x.next + size, waitSince := s.clk, reserved := false, oneDie := some p.die }
  let s3 : State := { s2 with gangs := s2.gangs ++ [gang], grids := s2.grids.map (fun y => if y.uid == x.uid then x' else y) }
  if now then some s3 else s3.shelve uids

/-- A grid's next gang can be placed now. -/
def State.placeable (s : State) (x : Grid) : Bool := (s.gangPlace x).isSome

/-- GANG_PLACEMENT (R313 to R315): unless the next gang of a grid that comes before can be placed. -/
def execGangPlacement (grid : Nat) (s : State) : Out :=
  match s.grids.find? (fun x => x.uid == grid) with
  | none => .next s
  | some x =>
    if s.grids.any (fun y => y.before x && s.placeable y) then .next s
    else match s.gangPlace x with
      | none => .next s
      | some (p, cores) => .next ((s.placeGang x p cores).getD s)

/-- 1 ms at the nominal clock (R1, R315). -/
def reserveAfter : Nat := 1000 * Config.clkPerMicro

/-- GANG_RESERVE (R315). -/
def execGangReserve (grid : Nat) (s : State) : Out :=
  match s.grids.find? (fun x => x.uid == grid) with
  | none => .next s
  | some x =>
    if decide (x.next < x.total) && !x.reserved && decide (x.waitSince + reserveAfter ≤ s.clk) then
      .next { s with grids := s.grids.map (fun y => if y.uid == grid then { y with reserved := true } else y) }
    else .next s

/-- STATUS of a completion record (R311). -/
def Grid.finalStatus (x : Grid) : Nat := if x.status == 1 then 1 else if x.killed == 0 then 0 else 2

/-- Write the completion record (R311). -/
def State.writeCpl (s : State) (x : Grid) : State :=
  if x.launch.cpl == 0 || x.written then s
  else s.distWrite x.asid x.launch.cpl.toNat 16 (x.finalStatus + (if x.finalStatus == 2 then x.killed % 2 ^ 32 else 0) * 2 ^ 32 + s.clk * 2 ^ 64)

/-- Every workgroup of the grid has ended (R311). -/
def Grid.allEnded (x : Grid) : Bool := decide (x.total ≤ x.ended)

/-- GRID_COMPLETE (R311): the completion record is written; once every earlier record of the queue has completed, EVENT advances. -/
def execGridComplete (grid : Nat) (s : State) : Out :=
  match s.grids.find? (fun x => x.uid == grid) with
  | none => .next s
  | some x =>
    let first := (s.grids.find? (fun y => y.queue == x.queue)).map Grid.uid == some x.uid
    -- a rejected record completes only once every earlier record has (R310)
    if !x.allEnded || (x.status == 1 && !first) then .next s
    else
      let s1 := s.writeCpl x
      if first then
        .next { s1.qPut x.queue 16 8 ((s.qEvent x.queue + 1) % 2 ^ 48) with grids := s.grids.filter (fun y => y.uid != grid) }
      else .next { s1 with grids := s.grids.map (fun y => if y.uid == grid then { y with written := true } else y) }

end Sys2Proof.Machine
end

