-- ==== Sys2Proof/Machine/EngineInstr.lean ====
section
/-!
DEFINITION. Engine instructions at their dispatch (R131, R200 to R202, R207, R208, R210 to R246): the operands they read, the checks
of their own rules with the trap each raises, and the registers they name. What an operation does once it has left its queue is
in Engine.lean and EngineRun.lean.
-/
namespace Sys2Proof.Machine

/-- A failed operand check: code, address, access. -/
abbrev Check := Option (Nat × Nat × Nat)

/-- The first of several checks that fails. -/
def firstCheck : List Check → Check
  | [] => none
  | none :: rest => firstCheck rest
  | some t :: _ => some t

/-- Trap 0x01 unless a condition holds. -/
def require (b : Bool) : Check := if b then none else some (0x01, 0, 0)
/-- Another trap unless a condition holds. -/
def requireAs (code : Nat) (b : Bool) : Check := if b then none else some (code, 0, 0)
/-- A trap about an address that an engine operation would access, unless a condition holds: its record names both (R330). -/
def requireAt (code : Nat) (a : Nat) (acc : Access) (b : Bool) : Check := if b then none else some (code, a % 2 ^ 64, engAccess acc)

/-- The binding an instruction finds at its dispatch: what the last queued KBIND or KFREE of the accumulator will leave (R218). -/
def Warp.bindAt (w : Warp) (n : Nat) : Option Binding :=
  w.queued.foldl (fun b e => if e.n != n then b else match e.op with
    | .eng (.kbind slot m nn) => some { slot := slot, m := m, n := nn, win := 0 }
    | .eng .kfree => none
    | _ => b) (nth none w.bind n)

/-- A region lies inside its space (R88, R208). -/
def Region.inSpace (g : Workgroup) (r : Region) : Bool :=
  r.len == 0 || (match r.sp with
    | .mem .global => decide (r.addr + r.len ≤ 2 ^ 48)
    | .mem .scratch => decide (r.addr + r.len ≤ g.scratchSize)
    | .slot _ => true)

/-- The range check of R208: the record names the first region that does not fit, by its first byte (log 61). -/
def rangeCheck (g : Workgroup) (rs : List Region) : Check :=
  match rs.find? (fun r => !(Region.inSpace g r)) with
  | some r => requireAt 0x05 r.addr r.acc false
  | none => none

/-- The slot of KBIND, MZERO, ACHECK and ADRAIN (R131). -/
def slotNum (w : Warp) (sA : BitVec 6) (off : BitVec 8) : Nat := ((w.sreg sA.toNat).toNat + off.toNat) % 256

/-- A slot below the header's count (R218). -/
def slotCheck (g : Workgroup) (t : Nat) : Check := require (decide (t < g.slotCount))

/-- Dispatch data of an engine instruction on strand n. -/
def dispEng (n : Nat) (k : EngKind) (svals : List Nat) (check : List Check) : Disp :=
  { Disp.plain n (.eng k) with svals := svals, trap := firstCheck check }

/-- Extents of a tile (R50). -/
def dimNum : Dim → Nat
  | .d16 => 16
  | .d32 => 32
  | .d64 => 64

-- the copy engine
/-- CPY in any mode: the source, the destination, the descriptor and the further operand, with the checks of R208, R210 to R216. -/
def dispCpy (g : Workgroup) (w : Warp) (c : CpyField) (mode : CpyMode) : Disp :=
  let src := w.sreg c.src.toNat
  let dst := w.sreg c.dst.toNat
  let d := w.sreg c.desc.toNat
  let two := match mode with
    | .ver | .mcast => true
    | .plain | .canon _ | .norms _ => false
  let aux : DWord := if two then w.sreg (c.desc.toNat + 1) else 0
  let spaces := match mode with
    | .plain => true
    | .canon _ | .norms _ | .mcast => c.dsp == Space.scratch
    | .ver => c.ssp == Space.global
  let cols := match mode with
    | .canon _ | .norms _ => cpyCols d % 32 == 0
    | .plain | .ver | .mcast => true
  let dstRs := match mode with
    | .mcast => []
    | .plain | .canon _ | .norms _ | .ver => cpyDstRegions mode dst d c.dsp 0
  let status := (aux.extractLsb' 16 48).toNat
  let more := match mode with
    | .ver => [Region.glob .read aux.toNat 4]
    | .mcast => if status == 0 then [] else [Region.glob .atomic status 4]
    | .plain | .canon _ | .norms _ => []
  let own := match mode with
    | .mcast => require ((List.range 16).all (fun i => !aux.getLsbD i || decide (i < g.gangSize)))
    | .plain | .canon _ | .norms _ | .ver => none
  let layout (f : CpyFmt) : Bool := dst.toNat % 64 == 0 && cpyDstride d != 0
    && decide (leastStride (storeElem f).bits (cpyCols d) ≤ cpyDstride d)
  let align := match mode with
    | .plain => none
    | .canon f | .norms f => requireAt 0x04 dst.toNat .write (layout f)
    | .ver => requireAt 0x04 aux.toNat .read (aux.toNat % 4 == 0)
    | .mcast => requireAt 0x04 status .atomic (status % 4 == 0)
  dispEng w.cur (.cpy mode src dst d aux c.ssp c.dsp c.pkg)
    ([c.src.toNat, c.dst.toNat, c.desc.toNat] ++ (if two then [c.desc.toNat + 1] else []))
    [require (cpyRows d != 0 && cpyCols d != 0 && cols && spaces), own,
     rangeCheck g (cpySrcRegions mode src d c.ssp 0 ++ dstRs ++ more), align]

/-- CPY mode 0 (R212). -/
def execCpyPlain (c : CpyField) (s : State) : Out := s.strand 6 (fun g w => dispCpy g w c .plain)
/-- CPY mode 1 (R213). -/
def execCpyCanon (c : CpyField) (f : CpyFmt) (s : State) : Out := s.strand 6 (fun g w => dispCpy g w c (.canon f))
/-- CPY mode 2 (R214). -/
def execCpyNorms (c : CpyField) (f : CpyFmt) (s : State) : Out := s.strand 6 (fun g w => dispCpy g w c (.norms f))
/-- CPY mode 3 (R215). -/
def execCpyVer (c : CpyField) (s : State) : Out := s.strand 6 (fun g w => dispCpy g w c .ver)
/-- CPY mode 4 (R216). -/
def execCpyMcast (c : CpyField) (s : State) : Out := s.strand 6 (fun g w => dispCpy g w c .mcast)

/-- The checks of CPYO on a bound accumulator (R217). -/
def cpyoChecks (g : Workgroup) (b : Option Binding) (a st : DWord) (out : CpyoOut) (dsp : Space) : List Check :=
  match b with
  | none => [require false]
  | some b =>
    [require (st.extractLsb' 28 36 == 0 && !(out == CpyoOut.e4m3 && b.n == 16) && decide (cpyoRow out b.n ≤ (st.extractLsb' 0 28).toNat)),
     rangeCheck g (cpyoRegions b a st out dsp 0)]

/-- CPYO (R217). -/
def execCpyo (n : BitVec 4) (dst desc : BitVec 6) (out : CpyoOut) (dsp : Space) (pkg : Bool) (s : State) : Out :=
  s.strand 6 (fun g w =>
    let a := w.sreg dst.toNat
    let st := w.sreg desc.toNat
    dispEng n.toNat (.cpyo a st out dsp pkg) [dst.toNat, desc.toNat] (cpyoChecks g (w.bindAt n.toNat) a st out dsp))

-- tile slots
/-- KBIND (R218). -/
def execKbind (n : BitVec 4) (sA : BitVec 6) (m nn : Dim) (off : BitVec 8) (s : State) : Out :=
  s.strand 6 (fun g w => dispEng n.toNat (.kbind (slotNum w sA off) (dimNum m) (dimNum nn)) [sA.toNat] [slotCheck g (slotNum w sA off)])

/-- KFREE (R219). -/
def execKfree (n : BitVec 4) (s : State) : Out :=
  s.strand 6 (fun _ w => dispEng n.toNat .kfree [] [require (w.bindAt n.toNat).isSome])

/-- MZERO (R220). -/
def execMzero (sA : BitVec 6) (off : BitVec 8) (s : State) : Out :=
  s.strand 6 (fun g w => dispEng w.cur (.mzero (slotNum w sA off)) [sA.toNat] [slotCheck g (slotNum w sA off)])

-- matrix and sampled products
/-- The panel word's limits that raise trap 0x01 (R221). -/
def panelOk (panel : DWord) (f : MmaFmt) : Bool :=
  let k := kOf (mmaElems f).1.bits
  let col := (panel.extractLsb' 32 16).toNat
  let c := (panel.extractLsb' 16 16).toNat
  panel.extractLsb' 48 16 == 0 && col % k == 0 && decide (col + k ≤ c) && c % 32 == 0

/-- The base and stride limits of a panel, which raise trap 0x04 (R82, R221). -/
def panelAligned (base stride bits c : Nat) : Bool := base % 64 == 0 && stride % 64 == 0 && decide (leastStride bits c ≤ stride)

/-- The checks of MMA on its convergence register (R223). -/
def cvOk (g : Workgroup) (w : Warp) (cv : Nat) : Bool :=
  match g.cv[cv]? with
  | none => false
  | some c => c.form != .idle && c.members.getLsbD w.wid && g.membersLive c.members && !c.unusable

/-- The form of a convergence register. -/
def cvFormOf (g : Workgroup) (cv : Nat) : CvForm := ((g.cv[cv]?).map CvReg.form).getD .idle

/-- The B registers that an MMA names (R222). -/
def mmaRegs (g : Workgroup) (b : Option Binding) (f : MmaFmt) (cv gB : Nat) : List Nat :=
  match b with
  | none => [gB]
  | some b => (List.range (mmaRegCount (cvFormOf g cv) b.n (mmaElems f).1.bits)).map (gB + ·)

/-- The checks of MMA at its dispatch (R221 to R223). -/
def mmaChecks (g : Workgroup) (w : Warp) (b : Option Binding) (base panel : DWord) (f : MmaFmt) (cv : Nat) : List Check :=
  match b with
  | none => [require false]
  | some b =>
    [require (cvOk g w cv && panelOk panel f), rangeCheck g (mmaRegions b base panel f),
     requireAt 0x04 base.toNat .read (panelAligned base.toNat (panel.extractLsb' 0 16).toNat (mmaElems f).1.bits (panel.extractLsb' 16 16).toNat)]

/-- MMA (R221 to R224). -/
def execMma (n : BitVec 4) (sA sB : BitVec 6) (f : MmaFmt) (cv : BitVec 3) (gB : BitVec 8) (s : State) : Out :=
  s.strand 6 (fun g w =>
    let b := w.bindAt n.toNat
    let base := w.sreg sA.toNat
    let panel := w.sreg sB.toNat
    let rs := mmaRegs g b f cv.toNat gB.toNat
    { dispEng n.toNat (.mma base panel f cv.toNat gB.toNat) [sA.toNat, sB.toNat] (mmaChecks g w b base panel f cv.toNat) with
      regs := rs, readsG := rs })

/-- A threshold is finite and not below zero (R225). -/
def thresholdOk (v : FVal) : Bool := !v.nonFinite && decide (0 ≤ cmpVal v fvZero)

/-- The descriptor's limits (R225). -/
def sampOk (g : Workgroup) (b : Binding) (d0 d1 : DWord) : Bool :=
  let x := sampArgs b d0 d1
  decide (x.sum < g.slotCount) && x.sum != b.slot && x.cw % 32 == 0 && decide (1 ≤ x.k) && decide (x.k ≤ x.cw) && decide (1 ≤ x.nmax)
    && d1.extractLsb' 32 32 == 0 && thresholdOk x.thr

/-- The checks of MSAMP (R225); a header without the sampler flag refuses it (R291). -/
def sampChecks (g : Workgroup) (b : Option Binding) (a p d0 d1 : DWord) (f : MmaFmt) : List Check :=
  match b with
  | none => [require false]
  | some b =>
    let x := sampArgs b d0 d1
    let bits := (mmaElems f).1.bits
    [require (g.hasSampler && sampOk g b d0 d1), rangeCheck g (sampRegions x a p f),
     requireAt 0x04 a.toNat .read (panelAligned a.toNat x.sA bits x.cw), requireAt 0x04 p.toNat .read (panelAligned p.toNat x.sB bits x.cw)]

/-- MSAMP (R225 to R230); the generator key is `SEEDLO` at dispatch (R64). -/
def execMsamp (n : BitVec 4) (sA sB sC : BitVec 6) (f : MmaFmt) (s : State) : Out :=
  s.strand 6 (fun g w =>
    let a := w.sreg sA.toNat
    let p := w.sreg sB.toNat
    let d0 := w.sreg sC.toNat
    let d1 := w.sreg (sC.toNat + 1)
    dispEng n.toNat (.msamp a p d0 d1 f g.seed) [sA.toNat, sB.toNat, sC.toNat, sC.toNat + 1] (sampChecks g (w.bindAt n.toNat) a p d0 d1 f))

/-- MSTAT (R231): a block of three registers. -/
def execMstat (n : BitVec 4) (r : BitVec 8) (s : State) : Out :=
  s.strand 6 (fun _ w =>
    let rs := [r.toNat, r.toNat + 1, r.toNat + 2]
    { dispEng n.toNat (.mstat r.toNat) [] [require (w.bindAt n.toNat).isSome] with regs := rs, writesG := rs })

-- the optimizer path
/-- A record of global memory in range, then aligned (R208). -/
def recordCheck (g : Workgroup) (acc : Access) (a : DWord) (len align : Nat) : List Check :=
  [rangeCheck g [.glob acc a.toNat len], requireAt 0x04 a.toNat acc (a.toNat % align == 0)]

/-- ACHECK (R232). -/
def execAcheck (sA sB : BitVec 6) (off : BitVec 8) (s : State) : Out :=
  s.strand 6 (fun g w =>
    let t := slotNum w sA off
    let st := w.sreg sB.toNat
    dispEng w.cur (.acheck t st) [sA.toNat, sB.toNat] (slotCheck g t :: recordCheck g .atomic st 4 4))

/-- ADRAIN (R235, R236). -/
def execAdrain (sA sB sC : BitVec 6) (opt : Optim) (keep : Bool) (off : BitVec 8) (s : State) : Out :=
  s.strand 6 (fun g w =>
    let t := slotNum w sA off
    let r := w.sreg sB.toNat
    let sc := w.sreg sC.toNat
    dispEng w.cur (.adrain t r sc opt keep) [sA.toNat, sB.toNat, sC.toNat]
      [slotCheck g t, require ((g.slotTag t).2 != 16),
       rangeCheck g [.glob .atomic r.toNat 256, .glob .read sc.toNat 32],
       requireAt 0x04 r.toNat .atomic (r.toNat % 256 == 0), requireAt 0x04 sc.toNat .read (sc.toNat % 32 == 0)])

/-- LSUPD (R234). -/
def execLsupd (sA sB : BitVec 6) (s : State) : Out :=
  s.strand 6 (fun g w =>
    let r := w.sreg sA.toNat
    let st := w.sreg sB.toNat
    dispEng w.cur (.lsupd r st) [sA.toNat, sB.toNat]
      [rangeCheck g [.glob .atomic r.toNat 32, .glob .read st.toNat 4],
       requireAt 0x04 r.toNat .atomic (r.toNat % 32 == 0), requireAt 0x04 st.toNat .read (st.toNat % 4 == 0)])

-- directory, solicit and census; a header without the solicit flag refuses them (R291)
/-- TREG (R238). -/
def execTreg (sA sB sC : BitVec 6) (s : State) : Out :=
  s.strand 6 (fun g w =>
    let base := w.sreg sB.toNat
    let len := w.sreg sC.toNat
    dispEng w.cur (.treg (w.sreg sA.toNat) base len) [sA.toNat, sB.toNat, sC.toNat]
      [require g.hasSolicit, requireAt 0x05 base.toNat .read (decide (base.toNat < 2 ^ 48)), require (len.extractLsb' 32 32 == 0),
       requireAs 0x16 (decide ((s.entriesAt g.coreIdx).length < Config.directoryEntries))])

/-- TDROP (R239). -/
def execTdrop (sA : BitVec 6) (s : State) : Out :=
  s.strand 6 (fun g w => dispEng w.cur (.tdrop (w.sreg sA.toNat)) [sA.toNat] [require g.hasSolicit])

/-- The two regions of a TMOVE (R208, R240). -/
def tmoveRegions (d : DirEntry) (newBase : DWord) : List Region :=
  [.glob .read d.base.toNat d.len.toNat, .glob .write newBase.toNat d.len.toNat]

/-- TMOVE (R240). -/
def execTmove (sA sB sC : BitVec 6) (s : State) : Out :=
  s.strand 6 (fun g w =>
    let key := w.sreg sA.toNat
    let dest := w.sreg sB.toNat
    let nb := w.sreg sC.toNat
    let entry := match s.moveEntry g key with
      | none => [require false]
      | some d => [rangeCheck g (tmoveRegions d nb), requireAt 0x05 nb.toNat .write (decide (nb.toNat < 2 ^ 48))]
    dispEng w.cur (.tmove key dest nb) [sA.toNat, sB.toNat, sC.toNat]
      (require (g.hasSolicit && dest.extractLsb' 8 56 == 0 && dest.extractLsb' 6 2 != 3) :: entry))

/-- The checks of an entry address (R183, R241): range before alignment. -/
def entryChecks (a : DWord) : List Check := [requireAt 0x05 a.toNat .fetch (a.extractLsb' 48 16 == 0), requireAt 0x04 a.toNat .fetch (!a.getLsbD 0)]

/-- SOLICIT (R241). -/
def execSolicit (sA sB sC : BitVec 6) (op : CenOp) (pkg : Bool) (d : BitVec 8) (s : State) : Out :=
  s.strand 6 (fun g w =>
    let entry := w.sreg sC.toNat
    dispEng w.cur (.solicit (w.sreg sA.toNat) (w.sreg sB.toNat) entry op pkg d.toNat) [sA.toNat, sB.toNat, sC.toNat]
      (require g.hasSolicit :: entryChecks entry))

/-- REPLY (R243): each lane of its executing set holds a responder. The set is known at dispatch once the guard is present; otherwise
the check is made when it leaves its queue. -/
def execReply (n : BitVec 4) (s : State) : Out :=
  s.strand 6 (fun g w =>
    let known := w.pPresent (hdrGuard w.hdr)
    dispEng n.toNat .reply [] [require g.hasSolicit,
      require (!known || (lanesIn (w.exec w.hdr)).all (fun l => (nth none w.census l).isSome))])

-- channels
/-- The check of a channel's declaration and rank (R202). -/
def chanCheck (s : State) (g : Workgroup) (ch : DWord) (send : Bool) : Check :=
  requireAs 0x14 (match s.channel g ch.toNat with
    | none => false
    | some c => if send then c.sender == g.rank else c.receiver == g.rank)

/-- CHSEND (R201). -/
def execChsend (sA : BitVec 6) (r : BitVec 8) (s : State) : Out :=
  s.strand 6 (fun g w =>
    let ch := w.sreg sA.toNat
    { dispEng w.cur (.chsend ch r.toNat) [sA.toNat] [chanCheck s g ch true] with regs := [r.toNat], readsG := [r.toNat] })

/-- CHRECV (R201). -/
def execChrecv (sA : BitVec 6) (r : BitVec 8) (s : State) : Out :=
  s.strand 6 (fun g w =>
    let ch := w.sreg sA.toNat
    { dispEng w.cur (.chrecv ch r.toNat) [sA.toNat] [chanCheck s g ch false] with regs := [r.toNat], writesG := [r.toNat] })

-- spawn and launch
/-- SPAWN (R183): the uniform state is the one at dispatch, with the handler flag clear. -/
def execSpawn (n : BitVec 4) (sA : BitVec 6) (s : State) : Out :=
  s.strand 6 (fun _ w =>
    let entry := w.sreg sA.toNat
    dispEng n.toNat (.spawn entry { w.uni with handler := false }) [sA.toNat] (require (!w.uni.handler) :: entryChecks entry))

/-- LAUNCH (R184). -/
def execLaunch (sA sB : BitVec 6) (s : State) : Out :=
  s.strand 6 (fun g w =>
    let r := w.sreg sA.toNat
    let q := w.sreg sB.toNat
    dispEng w.cur (.launch r q) [sA.toNat, sB.toNat] (recordCheck g .read r 256 256 ++ [require (decide (q.toNat < 65536))]))

-- uniform memory accesses
/-- The checks of SLD and SST (R200): the 8 bytes lie below 2^48 (R88, R208), and the address is a multiple of 8. -/
def uniformChecks (a : DWord) (acc : Access) : List Check :=
  [requireAt 0x05 a.toNat acc (decide (a.toNat + 8 ≤ 2 ^ 48)), requireAt 0x04 a.toNat acc (a.toNat % 8 == 0)]

/-- SLD (R200): a register pair. -/
def execSld (sA sB : BitVec 6) (order : Order) (scope : Scope) (r : BitVec 8) (s : State) : Out :=
  s.strand 6 (fun _ w =>
    let a := w.sreg sA.toNat + w.sreg sB.toNat
    let rs := [r.toNat, r.toNat + 1]
    { dispEng w.cur (.sld a order scope r.toNat) [sA.toNat, sB.toNat] (uniformChecks a .read) with regs := rs, writesG := rs })

/-- SST (R200). -/
def execSst (sA sB sC : BitVec 6) (order : Order) (scope : Scope) (s : State) : Out :=
  s.strand 6 (fun _ w =>
    let a := w.sreg sA.toNat + w.sreg sB.toNat
    dispEng w.cur (.sst a (w.sreg sC.toNat) order scope) [sA.toNat, sB.toNat, sC.toNat] (uniformChecks a .write))

-- performance counters
/-- PMRD (R246). -/
def execPmrd (cnt : BitVec 4) (r : BitVec 8) (s : State) : Out :=
  s.strand 6 (fun _ w =>
    let rs := [r.toNat, r.toNat + 1]
    { dispEng w.cur (.pmrd cnt.toNat r.toNat) [] [] with regs := rs, writesG := rs })

/-- PMCTL (R246). -/
def execPmctl (sA : BitVec 6) (cnt : BitVec 4) (s : State) : Out :=
  s.strand 6 (fun _ w =>
    let v := w.sreg sA.toNat
    dispEng w.cur (.pmctl cnt.toNat v) [sA.toNat]
      [require (v.extractLsb' 32 32 == 0 && v.extractLsb' 16 13 == 0 && eventListed (v.extractLsb' 0 16).toNat)])

end Sys2Proof.Machine
end

