-- ==== Sys2Proof/Machine/FloatOps.lean ====
section
/-!
DEFINITION. Floating-point strand instructions: the FP32 family (R146), explicit rounding (R147), division (R152), special
functions (R154), conversions (R155) and packed 16-bit arithmetic (R156).
-/
namespace Sys2Proof.Machine

/-- FADD (R146): a + b. -/
def execFadd (x : Src) (s : State) : Out := s.strand 2 (fun _ w => dispOp w.cur (.alu (.fp .add none)) (widenImm .e) x w)
/-- FSUB (R146): a − b. -/
def execFsub (x : Src) (s : State) : Out := s.strand 2 (fun _ w => dispOp w.cur (.alu (.fp .sub none)) (widenImm .e) x w)
/-- FRSUB (R146): b − a. -/
def execFrsub (x : Src) (s : State) : Out := s.strand 2 (fun _ w => dispOp w.cur (.alu (.fp .rsub none)) (widenImm .e) x w)
/-- FMUL (R146): a × b. -/
def execFmul (x : Src) (s : State) : Out := s.strand 2 (fun _ w => dispOp w.cur (.alu (.fp .mul none)) (widenImm .e) x w)
/-- FMAC (R146): a + latch × b, fused. -/
def execFmac (x : Src) (s : State) : Out := s.strand 2 (fun _ w => dispOp w.cur (.alu (.fp .mac none)) (widenImm .e) x w)
/-- FNMAC (R146): a − latch × b, fused. -/
def execFnmac (x : Src) (s : State) : Out := s.strand 2 (fun _ w => dispOp w.cur (.alu (.fp .nmac none)) (widenImm .e) x w)
/-- FMLA (R146): a × latch + b, fused. -/
def execFmla (x : Src) (s : State) : Out := s.strand 2 (fun _ w => dispOp w.cur (.alu (.fp .mla none)) (widenImm .e) x w)
/-- FMAX (R146): the larger. -/
def execFmax (x : Src) (s : State) : Out := s.strand 2 (fun _ w => dispOp w.cur (.alu (.fp .max none)) (widenImm .e) x w)
/-- FMIN (R146): the smaller. -/
def execFmin (x : Src) (s : State) : Out := s.strand 2 (fun _ w => dispOp w.cur (.alu (.fp .min none)) (widenImm .e) x w)
/-- Long twin of FADD (R144). -/
def execFaddL (n : BitVec 4) (x : Src) (s : State) : Out := s.strand 4 (fun _ w => dispOp n.toNat (.alu (.fp .add none)) (widenImm .e) x w)
/-- Long twin of FSUB (R144). -/
def execFsubL (n : BitVec 4) (x : Src) (s : State) : Out := s.strand 4 (fun _ w => dispOp n.toNat (.alu (.fp .sub none)) (widenImm .e) x w)
/-- Long twin of FRSUB (R144). -/
def execFrsubL (n : BitVec 4) (x : Src) (s : State) : Out := s.strand 4 (fun _ w => dispOp n.toNat (.alu (.fp .rsub none)) (widenImm .e) x w)
/-- Long twin of FMUL (R144). -/
def execFmulL (n : BitVec 4) (x : Src) (s : State) : Out := s.strand 4 (fun _ w => dispOp n.toNat (.alu (.fp .mul none)) (widenImm .e) x w)
/-- Long twin of FMAC (R144). -/
def execFmacL (n : BitVec 4) (x : Src) (s : State) : Out := s.strand 4 (fun _ w => dispOp n.toNat (.alu (.fp .mac none)) (widenImm .e) x w)
/-- Long twin of FNMAC (R144). -/
def execFnmacL (n : BitVec 4) (x : Src) (s : State) : Out := s.strand 4 (fun _ w => dispOp n.toNat (.alu (.fp .nmac none)) (widenImm .e) x w)
/-- Long twin of FMLA (R144). -/
def execFmlaL (n : BitVec 4) (x : Src) (s : State) : Out := s.strand 4 (fun _ w => dispOp n.toNat (.alu (.fp .mla none)) (widenImm .e) x w)
/-- Long twin of FMAX (R144). -/
def execFmaxL (n : BitVec 4) (x : Src) (s : State) : Out := s.strand 4 (fun _ w => dispOp n.toNat (.alu (.fp .max none)) (widenImm .e) x w)
/-- Long twin of FMIN (R144). -/
def execFminL (n : BitVec 4) (x : Src) (s : State) : Out := s.strand 4 (fun _ w => dispOp n.toNat (.alu (.fp .min none)) (widenImm .e) x w)
/-- FADDX (R147): its own rounding mode. -/
def execFaddx (n : BitVec 4) (x : Src) (rm : RM) (s : State) : Out :=
  s.strand 4 (fun _ w => dispOp n.toNat (.alu (.fp .add (some rm))) (widenImm .e) x w)
/-- FMULX (R147): its own rounding mode. -/
def execFmulx (n : BitVec 4) (x : Src) (rm : RM) (s : State) : Out :=
  s.strand 4 (fun _ w => dispOp n.toNat (.alu (.fp .mul (some rm))) (widenImm .e) x w)
/-- FMACX (R147): its own rounding mode. -/
def execFmacx (n : BitVec 4) (x : Src) (rm : RM) (s : State) : Out :=
  s.strand 4 (fun _ w => dispOp n.toNat (.alu (.fp .mac (some rm))) (widenImm .e) x w)
/-- FMLAX (R147): its own rounding mode. -/
def execFmlax (n : BitVec 4) (x : Src) (rm : RM) (s : State) : Out :=
  s.strand 4 (fun _ w => dispOp n.toNat (.alu (.fp .mla (some rm))) (widenImm .e) x w)
/-- FDIV (R152). -/
def execFdiv (n : BitVec 4) (x : Src) (s : State) : Out :=
  s.strand 4 (fun _ w => dispOp n.toNat (.alu (.fp .div none)) (widenImm .e) x w)
/-- SFU (R154). -/
def execSfu (n : BitVec 4) (fn : SfuFn) (s : State) : Out := s.strand 4 (fun _ _ => Disp.plain n.toNat (.alu (.sfu fn)))
/-- CVT (R155, R76 to R78). -/
def execCvt (rm : RM) (n : BitVec 4) (code : CvtCode) (sat : Bool) (s : State) : Out :=
  s.strand 4 (fun _ _ => Disp.plain n.toNat (.alu (.cvt code rm sat)))
/-- HADD2 (R156): both halves. -/
def execHadd2 (n : BitVec 4) (x : Src) (f : HFmt) (rm : RM) (s : State) : Out :=
  s.strand 4 (fun _ w => dispOp n.toNat (.alu (.packed .add f rm)) (widenPacked f) x w)
/-- HSUB2 (R156): both halves. -/
def execHsub2 (n : BitVec 4) (x : Src) (f : HFmt) (rm : RM) (s : State) : Out :=
  s.strand 4 (fun _ w => dispOp n.toNat (.alu (.packed .sub f rm)) (widenPacked f) x w)
/-- HMUL2 (R156): both halves. -/
def execHmul2 (n : BitVec 4) (x : Src) (f : HFmt) (rm : RM) (s : State) : Out :=
  s.strand 4 (fun _ w => dispOp n.toNat (.alu (.packed .mul f rm)) (widenPacked f) x w)
/-- HFMA2 (R156): both halves. -/
def execHfma2 (n : BitVec 4) (x : Src) (f : HFmt) (rm : RM) (s : State) : Out :=
  s.strand 4 (fun _ w => dispOp n.toNat (.alu (.packed .mac f rm)) (widenPacked f) x w)
/-- HMAX2 (R156): both halves. -/
def execHmax2 (n : BitVec 4) (x : Src) (f : HFmt) (rm : RM) (s : State) : Out :=
  s.strand 4 (fun _ w => dispOp n.toNat (.alu (.packed .max f rm)) (widenPacked f) x w)
/-- HMIN2 (R156): both halves. -/
def execHmin2 (n : BitVec 4) (x : Src) (f : HFmt) (rm : RM) (s : State) : Out :=
  s.strand 4 (fun _ w => dispOp n.toNat (.alu (.packed .min f rm)) (widenPacked f) x w)

end Sys2Proof.Machine
end

