-- ==== Sys2Proof/Machine/FormerSteps.lean ====
section
/-!
DEFINITION. Steps of the former and the register pool (R33, R34, R35, R38, R39) and the end of a workgroup (R182). A step that is
not due has no effect.
-/
namespace Sys2Proof.Machine

/-- Mark the timer of a bin as run out. -/
def Workgroup.expire (g : Workgroup) (key : BinKey) (held : Bool) : Workgroup :=
  let f (b : Bin) : Bin := if b.key == key then { b with expired := true } else b
  if held then { g with held := g.held.map f } else { g with bins := g.bins.map f }

/-- A bin's timer has run out (R33): not while it stands still. -/
def Bin.due (b : Bin) (clk : Nat) : Bool := b.rest.isNone && !b.expired && !b.threads.isEmpty && decide (b.deadline ≤ clk)

/-- BIN_TIMER_EXPIRY (R33): the former builds a warp from the bin, at once when a slot and granules are free. -/
def execBinTimerExpiry (wg bin : Nat) (s : State) : Out :=
  s.onWg wg (fun g => match g.allBins[bin]? with
    | none => .next s
    | some b =>
      if b.due s.clk && g.residence == .resident && !g.formerStill then
        .next ((s.count g 0 0x14 1).tryForm (g.expire b.key (decide (g.bins.length ≤ bin))) { b with expired := true })
      else .next s)

/-- WARP_FORMATION (R33, R34). -/
def execWarpFormation (wg bin : Nat) (s : State) : Out :=
  s.onWg wg (fun g => match g.allBins[bin]? with
    | none => .next s
    | some b => if g.residence == .resident then .next (s.tryForm g b) else .next s)

/-- OVERFLOW_KEY_ENTRY (R35). -/
def execOverflowKeyEntry (wg : Nat) (s : State) : Out :=
  s.onWg wg (fun g => match s.promoteHeld g with
    | none => .next s
    | some g' => if g.residence == .resident then .next (s.setWg g') else .next s)

/-- POOL_GRANT (R38). -/
def execPoolGrant (wg : Nat) (s : State) : Out :=
  s.onWg wg (fun g => if g.residence == .resident && g.poolReady then .next (s.servePool g) else .next s)

/-- CLAIM_DEADLOCK (R39): trap 0x0C on every warp, each at its own blocked instruction. -/
def execClaimDeadlock (wg : Nat) (s : State) : Out :=
  s.onWg wg (fun g =>
    if g.residence == .resident && g.claimStuck then
      .next (s.trapAll g.uid 0x0C ((g.warps.filter (fun w => w.active != 0)).map Warp.wid))
    else .next s)

/-- A census holds a match that a workgroup owns: its responder is still to come (R242). -/
def State.owesResponder (s : State) (g : Workgroup) : Bool :=
  s.censuses.any (fun c => c.reports.any (fun r => r.held.any (fun d => d.owner == g.uid)))

/-- Everything of a workgroup is over (R182): no live thread, no operation outstanding. -/
def State.ended (s : State) (g : Workgroup) : Bool :=
  g.liveThreads == 0 && g.warps.isEmpty && g.ghosts.isEmpty && !s.owesResponder g

/-- A workgroup ends (R182): its directory entries, pins and pool go with it; its grid counts it (R311), and its gang's barrier no
longer waits for it (R181). -/
def State.endWg (s : State) (g : Workgroup) : State :=
  let wgs := s.wgs.filter (fun x => x.uid != g.uid)
  let s1 : State :=
    { s with wgs := wgs,
             directory := s.directory.filter (fun d => d.owner != g.uid),
             solicits := s.solicits.filter (fun q => q.1 != g.uid),
             grids := s.grids.map (fun x => if x.uid == g.grid then
               { x with ended := x.ended + 1, killed := x.killed + (if g.killed then 1 else 0) } else x),
             gangs := s.gangs.filter (fun x => x.uid != g.gang || wgs.any (fun y => y.gang == g.gang)) }
  (s1.vacate g).gangRelease g.gang

/-- WORKGROUP_END (R182). -/
def execWorkgroupEnd (wg : Nat) (s : State) : Out := s.onWg wg (fun g => .next (if s.ended g then s.endWg g else s))

end Sys2Proof.Machine
end

