-- ==== Sys2Proof/Machine/IntOps.lean ====
section
/-!
DEFINITION. Integer and bit strand instructions: arithmetic and logic (R148), shifts (R149), the unary family (R150), BFE
(R151) and division (R153).
-/
namespace Sys2Proof.Machine

/-- IADD (R148): a + b. -/
def execIadd (x : Src) (s : State) : Out := s.strand 2 (fun _ w => dispOp w.cur (.alu .iadd) (widenImm .i) x w)
/-- ISUB (R148): a − b. -/
def execIsub (x : Src) (s : State) : Out := s.strand 2 (fun _ w => dispOp w.cur (.alu .isub) (widenImm .i) x w)
/-- IRSUB (R148): b − a. -/
def execIrsub (x : Src) (s : State) : Out := s.strand 2 (fun _ w => dispOp w.cur (.alu .irsub) (widenImm .i) x w)
/-- IMUL (R148): a × b, low 32 bits. -/
def execImul (x : Src) (s : State) : Out := s.strand 2 (fun _ w => dispOp w.cur (.alu .imul) (widenImm .i) x w)
/-- IMAC (R148): a + latch × b, low 32 bits. -/
def execImac (x : Src) (s : State) : Out := s.strand 2 (fun _ w => dispOp w.cur (.alu .imac) (widenImm .i) x w)
/-- IMAX (R148): the larger as i32. -/
def execImax (x : Src) (s : State) : Out := s.strand 2 (fun _ w => dispOp w.cur (.alu .imax) (widenImm .i) x w)
/-- IMIN (R148): the smaller as i32. -/
def execImin (x : Src) (s : State) : Out := s.strand 2 (fun _ w => dispOp w.cur (.alu .imin) (widenImm .i) x w)
/-- ZMAX (R148): the larger as z32. -/
def execZmax (x : Src) (s : State) : Out := s.strand 2 (fun _ w => dispOp w.cur (.alu .zmax) (widenImm .z) x w)
/-- ZMIN (R148): the smaller as z32. -/
def execZmin (x : Src) (s : State) : Out := s.strand 2 (fun _ w => dispOp w.cur (.alu .zmin) (widenImm .z) x w)
/-- AND (R148): a and b. -/
def execAnd (x : Src) (s : State) : Out := s.strand 2 (fun _ w => dispOp w.cur (.alu .and) (widenImm .z) x w)
/-- OR (R148): a or b. -/
def execOr (x : Src) (s : State) : Out := s.strand 2 (fun _ w => dispOp w.cur (.alu .or) (widenImm .z) x w)
/-- XOR (R148): a exclusive or b. -/
def execXor (x : Src) (s : State) : Out := s.strand 2 (fun _ w => dispOp w.cur (.alu .xor) (widenImm .z) x w)
/-- ANDN (R148): a and not b. -/
def execAndn (x : Src) (s : State) : Out := s.strand 2 (fun _ w => dispOp w.cur (.alu .andn) (widenImm .z) x w)
/-- SHL (R149): shift left. -/
def execShl (x : Src) (s : State) : Out := s.strand 2 (fun _ w => dispOp w.cur (.alu .shl) (widenImm .z) x w)
/-- SHR (R149): shift right, logical. -/
def execShr (x : Src) (s : State) : Out := s.strand 2 (fun _ w => dispOp w.cur (.alu .shr) (widenImm .z) x w)
/-- SAR (R149): shift right, arithmetic. -/
def execSar (x : Src) (s : State) : Out := s.strand 2 (fun _ w => dispOp w.cur (.alu .sar) (widenImm .z) x w)
/-- ROL (R149): rotate left. -/
def execRol (x : Src) (s : State) : Out := s.strand 2 (fun _ w => dispOp w.cur (.alu .rol) (widenImm .z) x w)
/-- Long twin of IADD (R144). -/
def execIaddL (n : BitVec 4) (x : Src) (s : State) : Out := s.strand 4 (fun _ w => dispOp n.toNat (.alu .iadd) (widenImm .i) x w)
/-- Long twin of ISUB (R144). -/
def execIsubL (n : BitVec 4) (x : Src) (s : State) : Out := s.strand 4 (fun _ w => dispOp n.toNat (.alu .isub) (widenImm .i) x w)
/-- Long twin of IRSUB (R144). -/
def execIrsubL (n : BitVec 4) (x : Src) (s : State) : Out := s.strand 4 (fun _ w => dispOp n.toNat (.alu .irsub) (widenImm .i) x w)
/-- Long twin of IMUL (R144). -/
def execImulL (n : BitVec 4) (x : Src) (s : State) : Out := s.strand 4 (fun _ w => dispOp n.toNat (.alu .imul) (widenImm .i) x w)
/-- Long twin of IMAC (R144). -/
def execImacL (n : BitVec 4) (x : Src) (s : State) : Out := s.strand 4 (fun _ w => dispOp n.toNat (.alu .imac) (widenImm .i) x w)
/-- Long twin of IMAX (R144). -/
def execImaxL (n : BitVec 4) (x : Src) (s : State) : Out := s.strand 4 (fun _ w => dispOp n.toNat (.alu .imax) (widenImm .i) x w)
/-- Long twin of IMIN (R144). -/
def execIminL (n : BitVec 4) (x : Src) (s : State) : Out := s.strand 4 (fun _ w => dispOp n.toNat (.alu .imin) (widenImm .i) x w)
/-- Long twin of ZMAX (R144). -/
def execZmaxL (n : BitVec 4) (x : Src) (s : State) : Out := s.strand 4 (fun _ w => dispOp n.toNat (.alu .zmax) (widenImm .z) x w)
/-- Long twin of ZMIN (R144). -/
def execZminL (n : BitVec 4) (x : Src) (s : State) : Out := s.strand 4 (fun _ w => dispOp n.toNat (.alu .zmin) (widenImm .z) x w)
/-- Long twin of AND (R144). -/
def execAndL (n : BitVec 4) (x : Src) (s : State) : Out := s.strand 4 (fun _ w => dispOp n.toNat (.alu .and) (widenImm .z) x w)
/-- Long twin of OR (R144). -/
def execOrL (n : BitVec 4) (x : Src) (s : State) : Out := s.strand 4 (fun _ w => dispOp n.toNat (.alu .or) (widenImm .z) x w)
/-- Long twin of XOR (R144). -/
def execXorL (n : BitVec 4) (x : Src) (s : State) : Out := s.strand 4 (fun _ w => dispOp n.toNat (.alu .xor) (widenImm .z) x w)
/-- Long twin of ANDN (R144). -/
def execAndnL (n : BitVec 4) (x : Src) (s : State) : Out := s.strand 4 (fun _ w => dispOp n.toNat (.alu .andn) (widenImm .z) x w)
/-- Long twin of SHL (R144). -/
def execShlL (n : BitVec 4) (x : Src) (s : State) : Out := s.strand 4 (fun _ w => dispOp n.toNat (.alu .shl) (widenImm .z) x w)
/-- Long twin of SHR (R144). -/
def execShrL (n : BitVec 4) (x : Src) (s : State) : Out := s.strand 4 (fun _ w => dispOp n.toNat (.alu .shr) (widenImm .z) x w)
/-- Long twin of SAR (R144). -/
def execSarL (n : BitVec 4) (x : Src) (s : State) : Out := s.strand 4 (fun _ w => dispOp n.toNat (.alu .sar) (widenImm .z) x w)
/-- Long twin of ROL (R144). -/
def execRolL (n : BitVec 4) (x : Src) (s : State) : Out := s.strand 4 (fun _ w => dispOp n.toNat (.alu .rol) (widenImm .z) x w)
/-- IDIV (R153): trap 0x0B where a divisor in X is zero. -/
def execIdiv (n : BitVec 4) (x : Src) (s : State) : Out :=
  s.strand 4 (fun _ w => dispOp n.toNat (.alu .idiv) (widenImm .i) x w)
/-- ZDIV (R153): trap 0x0B where a divisor in X is zero. -/
def execZdiv (n : BitVec 4) (x : Src) (s : State) : Out :=
  s.strand 4 (fun _ w => dispOp n.toNat (.alu .zdiv) (widenImm .z) x w)
/-- IREM (R153): trap 0x0B where a divisor in X is zero. -/
def execIrem (n : BitVec 4) (x : Src) (s : State) : Out :=
  s.strand 4 (fun _ w => dispOp n.toNat (.alu .irem) (widenImm .i) x w)
/-- ZREM (R153): trap 0x0B where a divisor in X is zero. -/
def execZrem (n : BitVec 4) (x : Src) (s : State) : Out :=
  s.strand 4 (fun _ w => dispOp n.toNat (.alu .zrem) (widenImm .z) x w)
/-- FABS (R150). -/
def execFabs (n : BitVec 4) (s : State) : Out := s.strand 4 (fun _ _ => Disp.plain n.toNat (.alu .fabs))
/-- FNEG (R150). -/
def execFneg (n : BitVec 4) (s : State) : Out := s.strand 4 (fun _ _ => Disp.plain n.toNat (.alu .fneg))
/-- POPC (R150). -/
def execPopc (n : BitVec 4) (s : State) : Out := s.strand 4 (fun _ _ => Disp.plain n.toNat (.alu .popc))
/-- CLZ (R150). -/
def execClz (n : BitVec 4) (s : State) : Out := s.strand 4 (fun _ _ => Disp.plain n.toNat (.alu .clz))
/-- BREV (R150). -/
def execBrev (n : BitVec 4) (s : State) : Out := s.strand 4 (fun _ _ => Disp.plain n.toNat (.alu .brev))
/-- BFE (R151). -/
def execBfe (n : BitVec 4) (x : Src) (pos : BitVec 5) (s : State) : Out :=
  s.strand 4 (fun _ w => dispOp n.toNat (.alu (.bfe pos.toNat)) (widenImm .z) x w)

end Sys2Proof.Machine
end

