-- ==== Sys2Proof/Machine/MemInstr.lean ====
section
/-!
DEFINITION. Layout M instructions (R129, R194 to R198) and LDTR (R130, R199): what their dispatch reads and carries. What they do
when they run is in Lsu.lean.
-/
namespace Sys2Proof.Machine

/-- The address parts with the base register's value (R88). -/
def memOp (w : Warp) (m : MField) : MemOp :=
  { base := w.sreg m.base.toNat, idx := m.idx.toNat, space := m.space, order := m.order, hint := m.hint, scope := m.scope, off := m.off }

/-- Dispatch data of a layout M instruction: it reads its index register under presence (R194). -/
def dispMem (n : BitVec 4) (op : MemOp → SOp) (m : MField) (w : Warp) : Disp :=
  { Disp.plain n.toNat (op (memOp w m)) with svals := [m.base.toNat], regs := [m.idx.toNat], readsG := [m.idx.toNat] }

/-- LD.b32: a word (R195). -/
def execLdB32 (n : BitVec 4) (m : MField) (s : State) : Out := s.strand 6 (fun _ w => dispMem n (.ld .b32) m w)
/-- LD.i8: a byte, sign-extended (R195). -/
def execLdI8 (n : BitVec 4) (m : MField) (s : State) : Out := s.strand 6 (fun _ w => dispMem n (.ld .i8) m w)
/-- LD.z8: a byte, zero-extended (R195). -/
def execLdZ8 (n : BitVec 4) (m : MField) (s : State) : Out := s.strand 6 (fun _ w => dispMem n (.ld .z8) m w)
/-- LD.i16: a half, sign-extended (R195). -/
def execLdI16 (n : BitVec 4) (m : MField) (s : State) : Out := s.strand 6 (fun _ w => dispMem n (.ld .i16) m w)
/-- LD.z16: a half, zero-extended (R195). -/
def execLdZ16 (n : BitVec 4) (m : MField) (s : State) : Out := s.strand 6 (fun _ w => dispMem n (.ld .z16) m w)
/-- LD.bf16: BF16 widened (R195). -/
def execLdBf16 (n : BitVec 4) (m : MField) (s : State) : Out := s.strand 6 (fun _ w => dispMem n (.ld .bf16) m w)
/-- LD.f16: FP16 widened (R195). -/
def execLdF16 (n : BitVec 4) (m : MField) (s : State) : Out := s.strand 6 (fun _ w => dispMem n (.ld .f16) m w)
/-- ST.b32 (R196). -/
def execStB32 (n : BitVec 4) (m : MField) (s : State) : Out := s.strand 6 (fun _ w => dispMem n (.st .b32) m w)
/-- ST.b16 (R196). -/
def execStB16 (n : BitVec 4) (m : MField) (s : State) : Out := s.strand 6 (fun _ w => dispMem n (.st .b16) m w)
/-- ST.b8 (R196). -/
def execStB8 (n : BitVec 4) (m : MField) (s : State) : Out := s.strand 6 (fun _ w => dispMem n (.st .b8) m w)
/-- ST.bf16 (R196). -/
def execStBf16 (n : BitVec 4) (m : MField) (s : State) : Out := s.strand 6 (fun _ w => dispMem n (.st .bf16) m w)
/-- ST.e4m3 (R196). -/
def execStE4m3 (n : BitVec 4) (m : MField) (s : State) : Out := s.strand 6 (fun _ w => dispMem n (.st .e4m3) m w)
/-- ATOM.iadd (R197). -/
def execAtomIadd (n : BitVec 4) (m : MField) (s : State) : Out := s.strand 6 (fun _ w => dispMem n (.atom .iadd) m w)
/-- ATOM.fadd (R197). -/
def execAtomFadd (n : BitVec 4) (m : MField) (s : State) : Out := s.strand 6 (fun _ w => dispMem n (.atom .fadd) m w)
/-- ATOM.imax (R197). -/
def execAtomImax (n : BitVec 4) (m : MField) (s : State) : Out := s.strand 6 (fun _ w => dispMem n (.atom .imax) m w)
/-- ATOM.imin (R197). -/
def execAtomImin (n : BitVec 4) (m : MField) (s : State) : Out := s.strand 6 (fun _ w => dispMem n (.atom .imin) m w)
/-- ATOM.zmax (R197). -/
def execAtomZmax (n : BitVec 4) (m : MField) (s : State) : Out := s.strand 6 (fun _ w => dispMem n (.atom .zmax) m w)
/-- ATOM.zmin (R197). -/
def execAtomZmin (n : BitVec 4) (m : MField) (s : State) : Out := s.strand 6 (fun _ w => dispMem n (.atom .zmin) m w)
/-- ATOM.and (R197). -/
def execAtomAnd (n : BitVec 4) (m : MField) (s : State) : Out := s.strand 6 (fun _ w => dispMem n (.atom .and) m w)
/-- ATOM.or (R197). -/
def execAtomOr (n : BitVec 4) (m : MField) (s : State) : Out := s.strand 6 (fun _ w => dispMem n (.atom .or) m w)
/-- ATOM.xor (R197). -/
def execAtomXor (n : BitVec 4) (m : MField) (s : State) : Out := s.strand 6 (fun _ w => dispMem n (.atom .xor) m w)
/-- ATOM.xchg (R197). -/
def execAtomXchg (n : BitVec 4) (m : MField) (s : State) : Out := s.strand 6 (fun _ w => dispMem n (.atom .xchg) m w)
/-- ATOM.cas (R197). -/
def execAtomCas (n : BitVec 4) (m : MField) (s : State) : Out := s.strand 6 (fun _ w => dispMem n (.atom .cas) m w)
/-- LDTR (R199): it joins the current strand's queue; `nb` is the block count less one. -/
def execLdtr (sA : BitVec 6) (r : BitVec 8) (nb : BitVec 3) (elem : Elem) (sS : BitVec 6) (s : State) : Out :=
  s.strand 6 (fun _ w =>
    let dst := (List.range (nb.toNat + 1)).map (r.toNat + ·)
    { Disp.plain w.cur (.ldtr r.toNat (nb.toNat + 1) elem (w.sreg sA.toNat) (w.sreg sS.toNat)) with
      svals := [sA.toNat, sS.toNat], regs := dst, writesG := dst })

end Sys2Proof.Machine
end

