-- ==== Sys2Proof/Machine/Service.lean ====
section
/-!
DEFINITION. Special-register access from the front end (R58, R193, R279), RTE (R203), and halting and resuming from a service
kernel (R204, R205, R344).
-/
namespace Sys2Proof.Machine

/-- SRD (R19, R58, R193): LANE and TID split a compat16 warp whose halves would read different values (R279). DESIGN CHOICE (log 73): engine
instructions that are still queued at the split, for which R19 does not wait, act for half 0 alone. -/
def execSrd (d : BitVec 6) (idx : BitVec 8) (s : State) : Out :=
  s.frontEnd (fun g w =>
    let i := idx.toNat
    let low (h : Nat) : Nat := s.srRead g w i ((lanesIn (w.active &&& halfLanes h)).headD 0)
    if srService i && !s.isService g then s.trapFront g w 0x03
    else if w.strandPending || w.sBusy d.toNat then s
    else s.splitFirst g w (decide (i < 2) && low 0 != low 1) (fun s g w => s.pass g (w.setS d.toNat (s.srdRead g w i))))

/-- SWR (R19, R58, R193). -/
def execSwr (x : BitVec 6) (idx : BitVec 8) (s : State) : Out :=
  s.frontEnd (fun g w =>
    let i := idx.toNat
    if (srService i && !s.isService g) || !srWritable i then s.trapFront g w 0x03
    else if w.strandPending then s
    else
      let r := srWrite g w i (w.sreg x.toNat)
      s.pass r.1 r.2)

/-- RTE (R203, R118): leaves handler mode and resumes from the held record (R28). R177 lets the state of the loops travel with a trap
record, which R26 and R203 limit to PCs and headers: here the nesting stays the warp's own (log 59). -/
def execRte (s : State) : Out :=
  s.frontEnd (fun g w =>
    if !w.uni.handler then s.trapFront g w (if s.isService g then 0x01 else 0x03)
    else if !w.drained then s
    else
      let w1 := { w with uni := { w.uni with handler := false }, held := none, stepping := w.stepping.map (fun _ => true) }
      (s.put g (w1.resumeFrom (w.held.getD w.ownRecord))).count g w.wid 1 1)

/-- The fields of a target word (R204). -/
structure HaltTarget where
  ctxid : Nat
  die : Nat
  core : Nat
  slot : Nat
  wid : Nat
  ok : Bool
deriving DecidableEq, Repr

/-- A target word (R204). -/
def haltTarget (v : DWord) : HaltTarget :=
  { ctxid := (v.extractLsb' 48 16).toNat, die := (v.extractLsb' 22 2).toNat, core := (v.extractLsb' 16 6).toNat,
    slot := (v.extractLsb' 8 5).toNat, wid := (v.extractLsb' 0 5).toNat,
    ok := v.extractLsb' 24 24 == 0 && v.extractLsb' 13 3 == 0 && v.extractLsb' 5 3 == 0 && v.extractLsb' 22 2 != 3 }

/-- The workgroup of a context by the name of its last placement (R204, R365). -/
def State.named (s : State) (ctxid die core slot : Nat) : Option Workgroup :=
  s.wgs.find? (fun g => g.ctxid == ctxid && g.die == die && g.core == core && g.slot == slot)

/-- The warps that a target word names, by workgroup and number; none where it is invalid (R204). A workgroup is live while a thread of it
is, in a warp or in a bin (R43). -/
def State.haltTargets (s : State) (self : Workgroup) (w : Warp) (form : HaltForm) (v : DWord) : Option (List (Nat × Nat)) :=
  let t := haltTarget v
  if !t.ok then none
  else match s.named t.ctxid t.die t.core t.slot with
    | none => none
    | some g =>
      let live : List Warp := g.warps.filter (fun x => x.active != 0)
      let ws : List Warp := match form with
        | .warp => live.filter (fun x => x.wid == t.wid)
        | .workgroup => live
      let ts := ws.map (fun x => (g.uid, x.wid))
      let alive : Bool := match form with
        | .warp => !ts.isEmpty
        | .workgroup => g.liveThreads != 0
      if !alive || ts.contains (self.uid, w.wid) then none else some ts

/-- A warp that is halted, with no stop and no single step under way (R29, R205). -/
def Warp.heldStill (w : Warp) : Bool := w.halted && w.stopping.isNone && w.stepping.isNone

/-- Halt one warp (R205, R344): a halted one stays, a single step of it is cut short (R29), a stopped one is halted as well, a swapped-out one has the halt recorded; one that is
stopping already will be halted as well; any other stops through steps 1 to 3 of R25. -/
def State.haltWarp (s : State) (t : Nat × Nat) : State :=
  match s.at { wg := t.1, wid := t.2 } with
  | none => s
  | some (g, w) =>
    if w.halted && w.stepping.isNone then s
    else if (w.stopped && w.stepping.isNone) || g.residence != .resident then s.setWg ((g.setWarp { w with halted := true }).timers s.clk)
    else if w.stopping.isSome then s.put g (w.stopFor .halt)
    else s.settle g (w.stopFor .halt)

/-- A target that has not stopped yet. -/
def State.stillRuns (s : State) (t : Nat × Nat) : Bool :=
  match s.at { wg := t.1, wid := t.2 } with
  | none => false
  | some (_, w) => !w.heldStill

/-- HALTB (R205): holds the warp's dispatch until every target has stopped. -/
def execHaltb (form : HaltForm) (st : BitVec 6) (s : State) : Out :=
  s.frontEnd (fun g w =>
    if !s.isService g then s.trapFront g w 0x03
    else
      let go (ts : List (Nat × Nat)) : State :=
        let s1 := ts.foldl State.haltWarp s
        match s1.at { wg := g.uid, wid := w.wid } with
        | none => s1
        | some (g1, w1) => if ts.any s1.stillRuns then s1.put g1 { w1 with haltWait := ts } else s1.pass g1 { w1 with haltWait := [] }
      if !w.haltWait.isEmpty then go w.haltWait
      else match s.haltTargets g w form (w.sreg st.toNat) with
        | none => s.trapFront g w 0x01
        | some ts => go ts)

/-- Resume one halted warp (R205, R344). -/
def State.resumeWarp (s : State) (t : Nat × Nat) : State :=
  match s.at { wg := t.1, wid := t.2 } with
  | none => s
  | some (g, w) => s.setWg ((g.setWarp w.unhalt).timers s.clk)

/-- RESUMEB (R205). -/
def execResumeb (form : HaltForm) (st : BitVec 6) (s : State) : Out :=
  s.frontEnd (fun g w =>
    if !s.isService g then s.trapFront g w 0x03
    else match s.haltTargets g w form (w.sreg st.toNat) with
      | none => s.trapFront g w 0x01
      | some ts =>
        let s1 := ts.foldl State.resumeWarp s
        match s1.at { wg := g.uid, wid := w.wid } with
        | none => s1
        | some (g1, w1) => s1.pass g1 w1)

end Sys2Proof.Machine
end

