-- ==== Sys2Proof/Machine/TrapSteps.lean ====
section
/-!
DEFINITION. Steps of traps, stops, halts and the debugger (R29, R318, R332, R339 to R341), responses to faults (R325, R326, R331) and
the fault queue (R329, R330).
-/
namespace Sys2Proof.Machine

/-- A trap whose destination is a handler: the kernel's (R318), or a service kernel's own (R333). -/
def State.toHandler (s : State) (g : Workgroup) (w : Warp) (t : TrapInfo) : Bool :=
  g.stop == .none && g.hasHandler && !w.uni.handler && t.code != 0x07 && t.code != 0x12 && t.code != 0x13
    && !(t.code == 0x11 && s.debugOn g) && (s.isService g || !stopCode t.code)

/-- What a stop that has drained leads to: true for a handler. -/
def State.stopLeads (s : State) (g : Workgroup) (w : Warp) (st : Stopping) : Bool :=
  match st.goal, st.trap with
  | .trap, some t | .stop, some t => s.toHandler g w t
  | _, _ => false

/-- HANDLER_ENTRY (R25, R332): the record is final, and the warp enters its handler. -/
def execHandlerEntry (wg wid : Nat) (s : State) : Out :=
  s.onWarpOf wg wid (fun g w => match w.stopping with
    | none => .next s
    | some st => .next (if w.started.isEmpty && s.stopLeads g w st then s.settle g w else s))

/-- A stop that WORKGROUP_STOP finishes: one of a trap or of the workgroup, or a save that is not to be made after all. -/
def Workgroup.stopDue (g : Workgroup) (st : Stopping) : Bool :=
  match st.goal with
  | .trap | .stop => true
  | .save => g.saveTo.isNone && g.awaiting != some true
  | .halt => false

/-- WORKGROUP_STOP (R25, R318): the record is final, and the warp and its workgroup stop. -/
def execWorkgroupStop (wg wid : Nat) (s : State) : Out :=
  s.onWarpOf wg wid (fun g w => match w.stopping with
    | none => .next s
    | some st => .next (if w.started.isEmpty && g.stopDue st && !(s.stopLeads g w st) then s.settle g w else s))

/-- STEP_COMPLETE (R29, R340): the stepped instruction has completed; trap 0x13 follows. With no debugger attached the trap is not
raised, and the warp stops as it stood. -/
def execStepComplete (wg wid : Nat) (s : State) : Out :=
  s.onWarpOf wg wid (fun g w =>
    if w.stepping == some true && w.drained && w.stopping.isNone then
      if s.debugOn g then .next (s.settle g (w.raise { code := 0x13, addr := w.pc, va := 0, access := 0, code2 := 0 } w.front []))
      else .next (s.settle g (w.stopFor (if w.stopped then StopGoal.stop else StopGoal.halt)))
    else .next s)

/-- Settle the warps of a workgroup whose halts have drained (R29). -/
def State.settleHalts (s : State) (uid : Nat) : List Nat → State
  | [] => s
  | wid :: rest =>
    let s' := match s.at { wg := uid, wid := wid } with
      | none => s
      | some (g, w) => match (w.stopping : Option Stopping) with
        | none => s
        | some st => if st.goal == StopGoal.halt && w.started.isEmpty then s.settle g w else s
    s'.settleHalts uid rest

/-- Whether a halt that a DBGCMD asked for is complete: each warp that it named has stopped, or is no more. -/
def Workgroup.haltDone (g : Workgroup) (r : Nat × List Nat) : Bool :=
  g.warps.all (fun w => !(r.2.contains w.wid) || w.heldStill)

/-- Report the halts of a workgroup that are complete (R341). -/
def State.reportHalts (s : State) (g : Workgroup) : State :=
  let go := g.haltReport.filter g.haltDone
  let s1 := s.setWg { g with haltReport := g.haltReport.filter (fun i => !(g.haltDone i)) }
  go.foldl (fun s i => s.send { s.record g 6 with wid := i.1 }) s1

/-- HALT_COMPLETE (R29, R341): halted warps write their records; a halt of the debugger that is complete sends a record of kind 6. -/
def execHaltComplete (wg : Nat) (s : State) : Out :=
  s.onWg wg (fun g =>
    let s1 := s.settleHalts wg (g.warps.map Warp.wid)
    .next (match s1.wg wg with
      | none => s1
      | some g1 => s1.reportHalts g1))

/-- A data fault of a workgroup, of a warp or of an engine operation, has waited 200 µs (R326). -/
def Workgroup.overdue (g : Workgroup) (clk : Nat) : Bool :=
  g.warps.any (fun w => (w.dataFault.map (fun f => f.overdue clk)).getD false)
    || (g.warps ++ g.ghosts).any (fun w => w.ops.any (fun o => o.overdue clk))

/-- What the record of kind 8 says of the fault: warp, address, instruction and ACCESS (R330); the first warp with one, a load or store
before an engine operation (log 38). -/
def Workgroup.overdueRecord (g : Workgroup) (clk : Nat) (r : FaultRec) : FaultRec :=
  match g.warps.findSome? (fun w => (w.dataFault.filter (fun f => f.overdue clk)).map (fun f => (w.wid, f))) with
  | some (wid, f) => { r with wid := wid, va := f.va.toNat, pc := f.pc.toNat, access := f.access }
  | none => match (g.warps ++ g.ghosts).findSome? (fun w => (w.ops.find? (fun o => o.overdue clk)).map (fun o => (w.wid, o))) with
    | some (wid, o) => { r with wid := wid, va := (o.prog.page.map (fun p => p.va.toNat)).getD 0, pc := o.addr.toNat,
                                access := (o.prog.page.map PageWait.access).getD 0 }
    | none => r

/-- DATA_FAULT_TIMEOUT (R326): the gang is swapped out and a record of kind 8 is sent; with no space for the image it stays (R338). -/
def execDataFaultTimeout (wg : Nat) (s : State) : Out :=
  s.onWg wg (fun g =>
    if g.residence == .resident && g.awaiting.isNone && g.saveTo.isNone && g.overdue s.clk then
      match State.placeImages ((s.gangHere g.gang).map Workgroup.uid) s with
      | none => .next (s.beginSave g.gang)
      | some _ => .next (((s.setWg { g with awaiting := some false }).send (g.overdueRecord s.clk (s.record g 8))).beginSave g.gang)
    else .next s)

-- responses (R331)
/-- The fields of FRESP and DBGCMD (R331, R341). -/
structure FaultCmd where
  ctxid : Nat
  die : Nat
  core : Nat
  slot : Nat
  wid : Nat
  scope : Bool
deriving DecidableEq, Repr

/-- A value written to FRESP or DBGCMD; reserved bits are ignored (R6). -/
def faultCmd (v : DWord) : FaultCmd :=
  { ctxid := (v.extractLsb' 48 16).toNat, die := (v.extractLsb' 22 2).toNat, core := (v.extractLsb' 16 6).toNat,
    slot := (v.extractLsb' 8 5).toNat, wid := (v.extractLsb' 0 5).toNat, scope := v.getLsbD 44 }

/-- Act on the workgroup that a command names; a write that names none is ignored (R331, R365). -/
def State.onNamed (s : State) (v : DWord) (f : Workgroup → FaultCmd → State) : Out :=
  let c := faultCmd v
  match s.named c.ctxid c.die c.core c.slot with
  | none => .next s
  | some g => .next (f g c)

/-- The records of kind 3 and 8 of a workgroup are answered: it is eligible for restore (R325, R326). A fetch fault of a warp fails, or is
tried again. -/
def Workgroup.answered (g : Workgroup) (fail : Bool) : Workgroup :=
  { g with awaiting := none, noRoom := false,
           warps := if g.awaiting == some true then
             g.warps.map (fun w => { w with fetchFault := if fail then w.fetchFault.map (fun f => (f.1, true)) else w.fetchFault.filter Prod.snd })
             else g.warps }

/-- The warp that the pending record of kind 8 of a workgroup names (R326, R330). -/
def Workgroup.reported (g : Workgroup) (clk : Nat) (r : FaultRec) : Option Nat :=
  if g.awaiting == some false then some (g.overdueRecord clk r).wid else none

/-- A RETRY or FAIL matches a report: one of kind 2 of the warp that it names, or one of kind 3 or 8 of the workgroup (R331). -/
def Workgroup.matches (g : Workgroup) (c : FaultCmd) : Bool :=
  g.awaiting.isSome || (g.warps ++ g.ghosts).any (fun w => w.wid == c.wid && (w.dataFault.isSome || w.ops.any (fun o => o.prog.page.isSome && o.prog.failed.isNone)))

/-- RETRY of an operation's page: it translates again (R326). -/
def EngOp.retryPage (o : EngOp) : EngOp := if o.prog.failed.isSome then o else { o with prog := { o.prog with page := none } }

/-- FAIL of an operation's page: trap 0x05 at the next `WAIT` of its class (R326). -/
def EngOp.failPage (o : EngOp) : EngOp :=
  if o.prog.failed.isSome || o.prog.page.isNone then o else { o with prog := { o.prog with failed := some 0x05, done := true } }

/-- Answer the reports that a RETRY or FAIL names (R331): those of kind 2 of its warp, and the overdue ones of the warp that the record of
kind 8 names. `f` answers an operation's, `h` a load's or store's. -/
def Workgroup.onAnswered (g : Workgroup) (c : FaultCmd) (clk : Nat) (r : FaultRec) (f : EngOp → EngOp) (h : DataFault → Option DataFault) : Workgroup :=
  let late (w : Warp) : Bool := g.reported clk r == some w.wid
  let on (w : Warp) : Warp :=
    if w.wid == c.wid then { w with ops := w.ops.map f, dataFault := w.dataFault.bind h }
    else if late w then
      { w with ops := w.ops.map (fun o => if o.overdue clk then f o else o),
               dataFault := w.dataFault.bind (fun x => if x.overdue clk then h x else some x) }
    else w
  { g with warps := g.warps.map on, ghosts := g.ghosts.map on }

/-- FRESP_RETRY (R331): the access translates again. -/
def execFrespRetry (v : BitVec 64) (s : State) : Out :=
  s.onNamed v (fun g c =>
    if g.matches c then s.setWg ((g.onAnswered c s.clk (s.record g 8) EngOp.retryPage (fun _ => none)).answered false) else s)

/-- FAIL of a warp's data fault while the warp is on its core: trap 0x05 at the instruction, which is still queued (R326). -/
def State.failHere (s : State) (uid wid : Nat) : State :=
  match s.at { wg := uid, wid := wid } with
  | none => s
  | some (g, w) => match w.dataFault with
    | none => s
    | some f => match w.queued.find? (fun e => e.seq == f.seq) with
      | none => s
      | some e =>
        let w0 := { w with dataFault := none, queues := w.queues.map (fun q => q.filter (fun x => x.seq != e.seq)) }
        s.trapStrand g w0 e 0x05 f.va.toNat f.access 0

/-- Moves that an answer has failed are aborted: their entries are valid again (R240). -/
def State.abortMoves (s : State) (g : Workgroup) : State :=
  ((g.warps ++ g.ghosts).flatMap (fun w => w.ops.filter (fun o => o.prog.failed.isSome))).foldl (fun s o =>
    match o.kind, s.directory.find? (fun d => some d.uid == o.prog.link && d.st == DirState.moving) with
    | .tmove _ _ _, some d => s.abortMove d
    | _, _ => s) s

/-- FRESP_FAIL (R325, R326, R331). -/
def execFrespFail (v : BitVec 64) (s : State) : Out :=
  s.onNamed v (fun g c =>
    if !g.matches c then s
    else
      let g1 := (g.onAnswered c s.clk (s.record g 8) EngOp.failPage (fun f => some { f with fail := true })).answered true
      let s1 := (s.setWg g1).abortMoves g1
      ((g1.warps.filter (fun w => w.stopping.isNone && (w.dataFault.map DataFault.fail).getD false)).map Warp.wid).foldl
        (fun s wid => s.failHere g.uid wid) s1)

/-- FRESP_RESUME (R331, R344): every stopped or halted warp runs again. -/
def execFrespResume (v : BitVec 64) (s : State) : Out :=
  s.onNamed v (fun g _ =>
    -- a stop of the workgroup that is still draining resumes once it has
    let on (w : Warp) : Warp := match w.stopping with
      | none => w.unstop
      | some st => { w with stopping := some { st with goal := if st.goal == .stop && st.trap.isNone then .save else st.goal, halt := false } }
    s.setWg (({ g with stop := .none, lossSent := false, warps := g.warps.map on }).timers s.clk))

/-- A response ends a workgroup that is stopped, halted or swapped out (R331). -/
def Workgroup.mayEnd (g : Workgroup) : Bool :=
  g.residence != .resident || g.stop != .none || g.warps.any (fun w => w.halted || w.stopped)

/-- The completed stores of warps that end drain (R98). -/
def State.drainAll (s : State) (uid : Nat) : List (Warp × StoreEntry) → State
  | [] => s
  | (w, e) :: rest =>
    let s' := match s.wg uid, e.bytes with
      | some g, some bs => if s.drainHeld g w e bs then s else s.perform g e.space bs
      | _, _ => s
    s'.drainAll uid rest

/-- Responders that end with their workgroup (R244). -/
def State.endResponders (s : State) (g : Workgroup) : State :=
  let ids := (g.warps.flatMap (fun w => (lanesIn w.active).map (fun l => (nth 0 w.tids l, nth none w.census l))))
    ++ ((g.bins ++ g.held).flatMap (fun b => b.threads.map (fun t => (t.tid, t.census))))
  ids.foldl (fun s p => match p.2 with
    | none => s
    | some id => s.responderExit g.uid p.1 id) s

/-- END (R331): the threads of a workgroup end; what it holds goes once its engine operations have retired (R182). -/
def State.killWg (s : State) (g : Workgroup) : State :=
  let s1 := (s.drainAll g.uid (g.warps.flatMap (fun w => w.storeQ.map (fun e => (w, e))))).endResponders g
  let s2 : State :=
    { s1 with directory := s1.directory.filter (fun d => d.owner != g.uid),
              solicits := s1.solicits.filter (fun q => q.1 != g.uid),
              censuses := s1.censuses.map (fun c => { c with reports := c.reports.map (fun r => { r with held := r.held.filter (fun d => d.owner != g.uid) }) }) }
  match s2.wg g.uid with
  | none => s2
  | some g1 =>
    let clean (w : Warp) : Warp := { w.cancel with started := [], storeQ := [], fences := [], ops := w.ops.map EngOp.failPage, stopping := none }
    let g2 := { g1 with bins := [], held := [], poolQ := [], killed := true, stop := .none, awaiting := none, imageLost := none,
                        haltReport := [], warps := g1.warps.map clean }
    s2.setWg (g2.warps.foldl (fun g w => g.freeWarp ((g.warp w.wid).getD w)) g2)

/-- FRESP_END (R331). -/
def execFrespEnd (v : BitVec 64) (s : State) : Out := s.onNamed v (fun g _ => if g.mayEnd then s.killWg g else s)

-- the debugger (R341)
/-- The live warps that a command names. -/
def debugTargets (g : Workgroup) (c : FaultCmd) : List Nat :=
  (g.warps.filter (fun w => w.active != 0 && (c.scope || w.wid == c.wid))).map Warp.wid

/-- DBG_HALT (R341): as `HALTB`; a record of kind 6 follows once every target has stopped. -/
def execDbgHalt (v : BitVec 64) (s : State) : Out :=
  s.onNamed v (fun g c =>
    let ts := debugTargets g c
    if ts.isEmpty then s
    else
      let s1 := ts.foldl (fun s wid => s.haltWarp (g.uid, wid)) s
      match s1.wg g.uid with
      | none => s1
      | some g1 => s1.setWg { g1 with haltReport := g1.haltReport ++ [(if c.scope then 0xFF else c.wid, ts)] })

/-- DBG_RESUME (R341): as `RESUMEB`. -/
def execDbgResume (v : BitVec 64) (s : State) : Out :=
  s.onNamed v (fun g c => (debugTargets g c).foldl (fun s wid => s.resumeWarp (g.uid, wid)) s)

/-- Arm a single step of a halted or debug-stopped warp (R29): it resumes under R28 for one instruction. -/
def Warp.armStep (w : Warp) (debug : Bool) : Warp :=
  if (w.halted || (w.stopped && debug)) && w.stopping.isNone && w.stepping.isNone then
    { w.resumeFrom w.ownRecord with stepping := some false }
  else w

/-- DBG_STEP (R341). -/
def execDbgStep (v : BitVec 64) (s : State) : Out :=
  s.onNamed v (fun g c =>
    let ts := debugTargets g c
    s.setWg { g with warps := g.warps.map (fun w => if ts.contains w.wid then w.armStep (g.stop == .debug) else w) })

-- the fault queue (R329, R330)
/-- The 56 bytes of a fault record above its first doubleword, as a number. -/
def FaultRec.body (r : FaultRec) : List Byte :=
  leBytes 1 r.kind ++ leBytes 1 r.code ++ leBytes 1 r.code2 ++ leBytes 1 r.access ++ leBytes 2 r.asid ++ leBytes 2 r.ctxid
    ++ leBytes 1 r.die ++ leBytes 1 r.core ++ leBytes 1 r.slot ++ leBytes 1 r.wid ++ leBytes 4 0 ++ leBytes 8 r.va ++ leBytes 8 r.pc
    ++ leBytes 8 r.clk ++ leBytes 2 r.queue ++ leBytes 4 r.index ++ leBytes 2 0 ++ leBytes 8 0

/-- Log2 of the fault queue's size; the queue takes no record while it is out of range (R320). -/
def State.fqLog2 (s : State) : Nat := (s.fqCfg.extractLsb' 0 5).toNat

/-- The fault queue is enabled and has room (R320, R329). -/
def State.fqRoom (s : State) : Bool :=
  s.fqCfg.getLsbD 8 && decide (4 ≤ s.fqLog2) && decide (s.fqLog2 ≤ 16) && decide ((s.fqTail - s.fqHead).toNat < 2 ^ s.fqLog2)

/-- FAULT_RECORD_SEND (R329). -/
def execFaultRecordSend (s : State) : Out :=
  match s.faultsOut with
  | [] => .next s
  | r :: rest =>
    if s.fqRoom then
      let entry := s.fqBase.toNat + 64 * (s.fqTail.toNat % 2 ^ s.fqLog2)
      let s1 := s.writeBytes s.mgmt.sysKey (cellsFrom (physKey 0 0 (entry + 8)) (r.body.take 56))
      let s2 := s1.sysWrite entry 8 (2 ^ 32 + s.fqTail.toNat)
      .next { s2 with faultsOut := rest, fqTail := s.fqTail + 1, interrupts := s.interrupts + 1 }
    else .next s

end Sys2Proof.Machine
end

