-- ==== Sys2Proof/Machine/Swap.lean ====
section
/-!
DEFINITION. Saving and restoring gangs (R45, R209, R337, R338, R361) and the slices of a group of partitions (R317).
-/
namespace Sys2Proof.Machine

/-- Operations that a save stops at a boundary (R209). -/
def EngKind.stopsAtBoundary : EngKind → Bool
  | .cpy _ _ _ _ _ _ _ _ | .cpyo _ _ _ _ _ | .msamp _ _ _ _ _ _ | .adrain _ _ _ _ _ => true
  | _ => false

/-- Operations that complete before a save (R209). -/
def EngOp.completesFirst (o : EngOp) : Bool :=
  match o.kind with
  | .mma _ _ _ _ _ => o.prog.phase == 1
  | .tmove _ _ _ | .mzero _ | .mstat _ | .acheck _ _ | .lsupd _ _ | .sld _ _ _ _ | .sst _ _ _ _ | .spawn _ _ => true
  | _ => false

/-- Whether the first operation of a class cannot go on by itself: it waits for a page, a line or another warp. -/
def State.held (s : State) (g : Workgroup) (w : Warp) (o : EngOp) : Bool :=
  (o.prog.page.isSome && o.prog.failed.isNone) ||
    (!o.prog.done && (match o.kind with
      | .tmove _ _ _ => false
      | .mma _ _ _ _ _ => (match o.prog.link with
        | some fire => !((g.firing fire).all (fun p => match g.opHolder p.2.id with
          | none => false
          | some x => EngOp.turn s g x p.2))
        | none => true)
      | _ => (match s.runOp g w o with
        | .wait _ _ => true
        | .done _ _ _ | .fail _ _ _ _ _ | .absent _ _ _ _ => false)))

/-- An operation that a save stops at its next boundary, and with it those behind it in its class (R209, R262). -/
def EngOp.stopsShort (o : EngOp) : Bool := o.kind.stopsAtBoundary && !o.prog.done && o.prog.failed.isNone

/-- A warp still has an operation that completes before a save, and nothing before it in its class stops short or is held up. -/
def State.mustFinish (s : State) (g : Workgroup) (w : Warp) : Bool :=
  w.ops.any (fun o => o.completesFirst && !o.prog.done && (match w.ops.find? (fun x => x.kind.cls == o.kind.cls) with
    | none => false
    | some h => !(h.stopsShort || s.held g w h)))

/-- A warp has come to rest for a save: stopped by it and drained, or stopped or halted before. -/
def Warp.atRest (w : Warp) : Bool :=
  w.drained && w.storeQ.isEmpty && (match w.stopping with
    | none => (w.halted || w.stopped) && w.stepping.isNone
    | some st => st.goal == .save)

/-- A workgroup can be saved now (R337 steps 1 and 2). -/
def State.saveReady (s : State) (g : Workgroup) : Bool :=
  g.warps.all Warp.atRest && !((g.warps ++ g.ghosts).any (fun w => s.mustFinish g w))

/-- An operation as it is saved: stopped at its boundary, or waiting (R209): a versioned read before the attempt that it has begun. One that waits for a page translates it again, unless a
record of kind 8 awaits its answer (R326). -/
def EngOp.saved (keep : Bool) (clk : Nat) (o : EngOp) : EngOp :=
  { o with prog := { o.prog with stopped := o.prog.stopped || (o.kind.stopsAtBoundary && !o.prog.done),
                                 link := (match o.kind with
                                   | .cpy .ver _ _ _ _ _ _ _ => none
                                   | _ => o.prog.link),
                                 page := if o.prog.failed.isSome || (keep && o.overdue clk) then o.prog.page else none } }

/-- A warp as it is saved (R65): its record written, and the resume prepared, unless a halt came during the stop (R205). -/
def Warp.saved (keep : Bool) (clk : Nat) (w : Warp) : Warp :=
  let w1 := { w with ops := w.ops.map (EngOp.saved keep clk), fences := [] }
  match w.stopping with
  | none => w1
  | some st =>
    let r := makeRecord st.fepc st.left w.resume
    let w2 := { w1 with spc := r.spc, fepc := r.fepc, stopping := none, stepping := none, halted := w1.halted || st.halt }
    if st.halt then w2 else w2.resumeFrom r

/-- A workgroup as it is saved: its timers stand still and its pins are gone (R33, R191). -/
def Workgroup.saved (g : Workgroup) (clk : Nat) : Workgroup :=
  let keep := g.awaiting == some false
  { g.freezeBins clk with residence := g.saveTo.getD .cooler, saveTo := none, warps := g.warps.map (Warp.saved keep clk),
                          ghosts := g.ghosts.map (Warp.saved keep clk), pins := [] }

/-- A counter of a core for a context. -/
def Counter.belongs (c : Counter) (core ctxid : Nat) : Bool := c.core == core && c.ctxid == ctxid

/-- Every saved image holds the performance counters of its core for its context (R65); they leave the core with the last of the context's
workgroups there (R246, log 25). -/
def State.saveCounters (s : State) (g : Workgroup) : Workgroup × State :=
  ({ g with counters := s.counters.filter (fun c => c.belongs g.coreIdx g.ctxid) },
   if s.wgs.any (fun x => x.uid != g.uid && x.residence == .resident && x.coreIdx == g.coreIdx && x.ctxid == g.ctxid) then s
   else { s with counters := s.counters.filter (fun c => !(c.belongs g.coreIdx g.ctxid)) })

/-- They come back with it: to its core, those whose number the context lacks there (R65, log 25). -/
def State.loadCounters (s : State) (g : Workgroup) : State :=
  let back := (g.counters.map (fun c => { c with core := g.coreIdx })).filter (fun c => !(s.counters.any (fun y => y.belongs c.core c.ctxid && y.cnt == c.cnt)))
  { s with counters := back ++ s.counters }

/-- Save one workgroup: its image is written, its directory entries go to the dormant directory, its core keeps no translation for it (R240, R328). -/
def State.saveWg (s : State) (uid : Nat) : State :=
  match s.wg uid with
  | none => s
  | some g =>
    let s1 := (s.writeImage g).moveEntries g (192 + g.die)
    let c := s1.saveCounters (g.saved s.clk)
    let s2 := (c.2.setWg c.1).vacate g
    let stays := s2.wgs.any (fun x => x.residence == .resident && x.coreIdx == g.coreIdx && x.asid == g.asid)
    if stays then s2 else { s2 with tlb := s2.tlb.filter (fun t => !(t.core == g.coreIdx && t.asid == g.asid)) }

/-- A gang whose save has begun. -/
def State.leaving (s : State) (gang : Nat) : Bool := !(s.gangHere gang).isEmpty && (s.gangHere gang).all (fun g => g.saveTo.isSome)

/-- A gang that a fault or a slice takes off its cores (R325, R326, R317). -/
def State.mustLeave (s : State) (gang : Nat) : Bool :=
  !(s.gangHere gang).isEmpty && ((s.gangHere gang).any (fun g => g.awaiting.isSome)
    || (match (s.gangs.find? (fun x => x.uid == gang)).map Gang.partition with
        | none => false
        | some p => (s.partition p).on && !(s.runs (s.partition p))))

/-- CONTEXT_SAVE (R337, R338): the save of a gang begins, goes on stopping its warps, or is made once all is at rest. -/
def execContextSave (gang : Nat) (s : State) : Out :=
  if s.leaving gang then
    let s1 := s.stopGang gang
    if (s1.gangHere gang).all s1.saveReady then .next (((s1.gangHere gang).map Workgroup.uid).foldl State.saveWg s1)
    else .next s1
  else if s.mustLeave gang then .next (s.beginSave gang)
  else .next s

-- restoring (R337)
/-- The gang fits on the cores and in the slots of its last placement (R337). -/
def State.fitsOld (s : State) (p : Partition) (gs : List Workgroup) : Bool :=
  let but := gs.map Workgroup.uid
  gs.all (fun g => g.die == p.die && s.fits p g.ctxid (headerNeed g.header g.binsMax) but g.core
    && !(s.wgs.any (fun x => !(but.contains x.uid) && x.die == g.die && x.core == g.core && x.slot == g.slot
      && (x.ctxid == g.ctxid || x.residence == .resident))))

/-- Where a saved gang is restored (R337): its last placement, or else the lowest-numbered cores of its partition that fit, by rank. -/
def State.restorePlace (s : State) (p : Partition) (gs : List Workgroup) : Option (List (Nat × Nat × Nat)) :=
  let but := gs.map Workgroup.uid
  if s.fitsOld p gs then some (gs.map (fun g => (g.uid, g.core, g.slot)))
  else match gs with
    | [] => none
    | g0 :: _ =>
      let need := gs.foldl (fun n g => let m := headerNeed g.header g.binsMax
        { slots := max n.slots m.slots, granules := max n.granules m.granules, scratch := max n.scratch m.scratch,
          tiles := max n.tiles m.tiles, bins := max n.bins m.bins }) (headerNeed g0.header g0.binsMax)
      let cores := (s.fitting p g0.ctxid need but (fun _ => false))
      if cores.length < gs.length then none
      else some ((gs.zip cores).map (fun x => (x.1.uid, x.2, (s.freeSlot p.die x.2 g0.ctxid but).getD 0)))

/-- The members of a gang in order of rank. -/
def byRank (gs : List Workgroup) : List Workgroup := (List.range 16).flatMap (fun r => gs.filter (fun g => g.rank == r))

/-- A failed data fault of a restored warp: trap 0x05 at the instruction that its record holds (R326). -/
def State.failRestored (s : State) (uid wid : Nat) : State :=
  match s.at { wg := uid, wid := wid } with
  | none => s
  | some (g, w) => match w.dataFault with
    | none => s
    | some f =>
      let t : TrapInfo := { code := 0x05, addr := f.pc, va := f.va.toNat, access := f.access, code2 := 0 }
      if f.fail then s.deliverTrap g { w with dataFault := none, resume := none, trapCode := 0x05, trapAddr := f.pc, block := .none } t
      else s.put g { w with dataFault := none }

/-- Operations of a warp that a save stopped go on (R209). -/
def Warp.wake (w : Warp) : Warp := { w with ops := w.ops.map EngOp.goOn }

/-- Put one workgroup back (R337). -/
def State.restoreWg (p : Partition) (s : State) (x : Nat × Nat × Nat) : State :=
  match s.wg x.1 with
  | none => s
  | some g =>
    let a := (s.loadAsid g.asid).assignCore (64 * p.die + x.2.1) g.asid g.ctxid true
    let g0 : Workgroup := { g with residence := .resident, die := p.die, core := x.2.1, slot := x.2.2, noRoom := false, counters := [],
                                   warps := g.warps.map (fun w => if w.halted then w else w.wake), ghosts := g.ghosts.map Warp.wake }
    let g1 := g0.timers s.clk
    let s0 := a.1.loadCounters { g1 with counters := g.counters }
    let s1 := (s0.setWg g1).moveEntries g1 g1.coreIdx
    (g1.warps.map Warp.wid).foldl (fun s wid => s.failRestored g.uid wid) s1

/-- A saved gang may come back: none of it is on a core, none awaits a response (R325, R326), its images are whole, and its partition
runs and has its cores. -/
def State.mayRestore (s : State) (gang : Nat) : Option (Partition × List (Nat × Nat × Nat)) :=
  let gs := byRank (s.gangWgs gang)
  match (s.gangs.find? (fun x => x.uid == gang)).map (fun x => s.partition x.partition) with
  | none => none
  | some p =>
    if gs.isEmpty || gs.any (fun g => g.residence == .resident || g.awaiting.isSome) || !(s.runs p) then none
    else match s.restorePlace p gs with
      | none => none
      | some pl => if pl.all (fun x => s.coreFree p x.2.1) then some (p, pl) else none

/-- A restore that meets a marked sector of an image fails (R361): the workgroup stops, also one that was saved stopped, with a record of kind 1
and code 0x0D, sent once, and the controller logs kind 8 with the sector's address. -/
def State.loseImage (s : State) (g : Workgroup) : State :=
  if g.lossSent then s
  else
    let s1 := (s.setWg { g with stop := if g.stop == .none then .trap else g.stop, lossSent := true }).send { s.record g 1 with code := 0x0D }
    { s1 with mgmt := s1.mgmt.logged { kind := 8, loc := g.die + 4 * (if g.residence == .cooler then 2 else 0), pa := 64 * g.imageLost.getD 0, count := 0, clk := s.clk } }

/-- CONTEXT_RESTORE (R337, R361): its images whole, the gang comes back. -/
def execContextRestore (gang : Nat) (s : State) : Out :=
  match s.mayRestore gang with
  | none => .next s
  | some (p, pl) =>
    match (s.gangWgs gang).filter (fun g => g.imageLost.isSome) with
    | [] => .next (pl.foldl (State.restoreWg p) s)
    | lost => .next (lost.foldl State.loseImage s)

-- slices (R317)
/-- A partition has a placed workgroup, or a gang waiting to be placed (R317). -/
def State.hasWork (s : State) (p : Partition) : Bool :=
  s.gangs.any (fun x => x.partition == p.p)
    || s.grids.any (fun x => decide (x.next < x.total) && (s.gridPartitions x).any (fun q => q.p == p.p))

/-- The next partition of a group with work, in ascending turn after one (R317). -/
def State.nextSlice (s : State) (die group now : Nat) : Option Partition :=
  let ms := (s.mates die group).filter (fun p => s.hasWork p && p.p != now)
  match ms.find? (fun p => decide (now < p.p)) with
  | some p => some p
  | none => ms.head?

/-- The partition whose slice follows one that is no longer enabled: the next with work in turn, else the lowest. -/
def State.nextTurn (s : State) (die group now : Nat) : Option Partition :=
  (s.nextSlice die group now).orElse (fun _ => (s.mates die group).head?)

/-- A group that holds a strict partition ends no slice early (R358). -/
def State.strictGroup (s : State) (die group : Nat) : Bool := (s.mates die group).any (fun p => s.classOf p.asid == 1)

/-- The slice of a group. -/
def State.slice (s : State) (die group : Nat) : Option Slice := s.slices.find? (fun x => x.die == die && x.group == group)

/-- When the slice of a group began. -/
def State.sliceSince (s : State) (die group : Nat) : Nat := ((s.slice die group).map Slice.since).getD 0

/-- A slice is over (R317): its QUANTUM has passed, or its partition has run out of work. -/
def State.sliceOver (s : State) (die group now : Nat) : Bool :=
  decide (s.sliceSince die group + (s.partition now).quantum * Config.clkPerMicro ≤ s.clk)
    || (!(s.strictGroup die group) && !(s.hasWork (s.partition now)))

/-- Put in the slice of a group. -/
def State.putSlice (s : State) (x : Slice) : State :=
  { s with slices := x :: s.slices.filter (fun y => !(y.die == x.die && y.group == x.group)) }

/-- Start the slice of a partition. -/
def State.setSlice (s : State) (die group p : Nat) : State :=
  s.putSlice { die := die, group := group, running := p, since := s.clk, noRoom := false }

/-- The cores of a partition are its own ASID's: what another one left there is cleared, and no translation of another is left (R316, R357). -/
def State.giveCores (s : State) (p : Partition) : State :=
  let other (core asid : Nat) : Bool := core / 64 == p.die && p.mask.getLsbD (core % 64) && asid != p.asid
  let gone : List Nat := (s.coreUse.filter (fun u => other u.1 u.2.1)).map Prod.fst
  { s with coreUse := s.coreUse.filter (fun u => !(other u.1 u.2.1)), coreBound := s.coreBound.filter (fun c => !(gone.contains c)),
           tlb := s.tlb.filter (fun t => !(other t.core t.asid)) }

/-- When the cores of a group pass to another ASID, what they hold is cleared (R317, R357): the next workgroup there finds zeros, and no
translation of the former ASID is left. -/
def State.passCores (s : State) (old new : Partition) : State :=
  let gone (core : Nat) : Bool := core / 64 == old.die && old.mask.getLsbD (core % 64)
  if old.asid == new.asid then s
  else { s with coreUse := s.coreUse.filter (fun u => !(gone u.1)), coreBound := s.coreBound.filter (fun c => !(gone c)),
                tlb := s.tlb.filter (fun t => !(gone t.core && t.asid != new.asid)) }

/-- A slice change that finds no space: a record of kind 9 says so once, and the slice in force runs on (R338). -/
def State.noteSlice (s : State) (die group now : Nat) (uids : List Nat) : State :=
  if ((s.slice die group).map Slice.noRoom).getD false then s
  else (s.putSlice { die := die, group := group, running := now, since := s.sliceSince die group, noRoom := true }).sendNoRoom uids

/-- The gangs of a partition that are on their cores. -/
def State.gangsOn (s : State) (p : Nat) : List Nat :=
  (s.gangs.filter (fun x => x.partition == p && !(s.gangHere x.uid).isEmpty)).map Gang.uid

/-- SLICE_END (R317, R338): the next partition's turn, once every gang on the group's cores finds space for its images. -/
def execSliceEnd (die : BitVec 2) (group : BitVec 6) (s : State) : Out :=
  let d := die.toNat
  let k := group.toNat
  match s.running d k with
  | none => .next s
  | some now =>
    if !(s.sliceOver d k now) then .next s
    else match s.nextSlice d k now with
      | none => .next (if (s.mates d k).length < 2 then s else s.setSlice d k now)
      | some q =>
        let gangs := (s.gangsOn now).filter (fun x => !(s.leaving x))
        let uids := gangs.flatMap (fun x => (s.gangHere x).map Workgroup.uid)
        match State.placeImages uids s with
        | some s' => .next (((gangs.foldl (fun s x => s.stopGang x) s').passCores (s.partition now) q).setSlice d k q.p)
        | none => .next (s.noteSlice d k now uids)

end Sys2Proof.Machine
end

