-- ==== Sys2Proof/Machine/Windows.lean ====
section
/-!
DEFINITION. Writes of the control and service windows (R305, R307, R316, R320), shootdowns (R327, R328), and writes of a service
kernel into the dump aperture (R209, R336).
-/
namespace Sys2Proof.Machine

/-- DB_LOAD_DESCRIPTOR (R307): load the descriptor, then read records. -/
def execDbLoadDescriptor (q : BitVec 16) (s : State) : Out := .next ((s.loadQueue q.toNat).ringDoorbell q.toNat)

/-- DB_RING (R307). -/
def execDbRing (q : BitVec 16) (s : State) : Out := .next (s.ringDoorbell q.toNat)

/-- Replace a partition's registers. -/
def State.setPartition (s : State) (p : Partition) : State :=
  { s with partitions := p :: s.partitions.filter (fun x => x.p != p.p) }

/-- PMASK_WRITE (R316): ignored while the partition is enabled. -/
def execPmaskWrite (p : BitVec 8) (v : BitVec 64) (s : State) : Out :=
  let x := s.partition p.toNat
  if 192 ≤ p.toNat || x.on then .next s else .next (s.setPartition { x with mask := v })

/-- Number of cores of a mask. -/
def maskCount (m : DWord) : Nat := ((List.range 64).filter (fun i => m.getLsbD i)).length

/-- One or two whole core-group islands (R358). -/
def wholeIslands (m : DWord) : Bool :=
  (List.range 8).any (fun g => m == 0xFF#64 <<< (8 * g)) || (List.range 4).any (fun g => m == 0xFFFF#64 <<< (16 * g))

/-- Islands in the order of R1: die d's core groups 0 to 7, its fabric/L2 island, its system cores, ten to a die. -/
def coreIsland (die g : Nat) : Nat := 10 * die + g
def fabricIsland (die : Nat) : Nat := 10 * die + 8

/-- Clocks of some islands set by a rule. -/
def setClocks (cs : List Nat) (is : List Nat) (f : Nat → Nat) : List Nat := is.foldl (fun cs i => cs.set i (f (nth 0 cs i))) cs

/-- Core-group islands of a partition. -/
def Partition.islands (x : Partition) : List Nat :=
  ((List.range 8).filter (fun g => (x.mask &&& (0xFF#64 <<< (8 * g))) != 0)).map (coreIsland x.die)

/-- The islands of strict partitions run at the clock that was fixed for them, but for those of a die that the temperature holds down (R359,
R360, log 64). -/
def State.fixStrict (s : State) : State :=
  let ps := s.partitionsOn.filter (fun p => s.classOf p.asid == 1 && !(s.mgmt.throttled.contains p.die))
  { s with mgmt := { s.mgmt with clocks := ps.foldl (fun cs p => setClocks cs p.islands (fun _ => Config.strictClock p.asid)) s.mgmt.clocks } }

/-- The conditions of R316 and R358 for setting EN. -/
def State.mayEnable (s : State) (x : Partition) : Bool :=
  let others := s.partitionsOn.filter (fun y => y.die == x.die && y.p != x.p)
  decide (1 ≤ maskCount x.mask) && decide (maskCount x.mask ≤ 16)
    && others.all (fun y => if y.group == x.group then y.mask == x.mask else (y.mask &&& x.mask) == 0)
    && (s.classOf x.asid != 1 || wholeIslands x.mask)

/-- Fields of PCFG that can be written. -/
def pcfgMask : DWord := 0xFFFF0000003F03FF#64
/-- EN, and QUANTUM. -/
def pcfgEn : DWord := 0x200#64
def pcfgQuantum : DWord := 0xFFFF000000000000#64

/-- The slices of a partition's group after it was enabled or disabled (R317). A group that then has no slice in force starts one: of the
next enabled partition in turn. The first slice of a group that now has two partitions starts here, and so lasts its QUANTUM. -/
def State.resliced (s : State) (x : Partition) (on : Bool) : State :=
  let ms := s.mates x.die x.group
  match s.slice x.die x.group with
  | some y => if ms.any (fun p => p.p == y.running) then (if on && ms.length == 2 then s.setSlice x.die x.group y.running else s)
              else (match s.nextTurn x.die x.group y.running with
                | some p => s.setSlice x.die x.group p.p
                | none => s)
  | none => s.setSlice x.die x.group x.p

/-- The cores of a group go to the partition that now runs there (R357). -/
def State.coresTo (s : State) (die group : Nat) : State :=
  match s.running die group with
  | none => s
  | some p => s.giveCores (s.partition p)

/-- PCFG_WRITE (R316, R357). -/
def execPcfgWrite (p : BitVec 8) (v : BitVec 64) (s : State) : Out :=
  let x := s.partition p.toNat
  if 192 ≤ p.toNat then .next s
  else if x.on then
    let cfg := maskWrite pcfgQuantum x.cfg v
    let off := !(v.getLsbD 9) && !(s.hasWork x)
    .next (if off then ((s.setPartition { x with cfg := cfg &&& ~~~pcfgEn }).resliced x false).coresTo x.die x.group else s.setPartition { x with cfg := cfg })
  else
    let y : Partition := { x with cfg := v &&& pcfgMask &&& ~~~pcfgEn }
    .next (if v.getLsbD 9 && s.mayEnable y then (((s.setPartition { y with cfg := y.cfg ||| pcfgEn }).resliced y true).coresTo y.die y.group).fixStrict else s.setPartition y)

/-- FQCFG_WRITE (R320). -/
def execFqcfgWrite (v : BitVec 64) (s : State) : Out := .next { s with fqCfg := v &&& 0x11F#64 }

/-- REGISTER_WRITE (R305, R320, R353): a register with no behaviour of its own; read-only and unlisted offsets ignore it. -/
def execRegisterWrite (win : Window) (off : Nat) (v : BitVec 64) (s : State) : Out :=
  match win with
  | .control => .next (if off == 0x0008 then { s with qtBase := v &&& ~~~(0xFFF#64) } else s)
  | .service =>
    .next (if off == 0x0000 then { s with asidTb := v &&& ~~~(0xFFFF#64) }
      else if off == 0x0008 then { s with fqBase := v &&& ~~~(0xFFF#64) }
      else if off == 0x0020 then { s with fqHead := v.extractLsb' 0 32 }
      else if off == 0x0050 then { s with dapBase := v &&& ~~~(0xFFFFFFFFF#64) }
      else s)
  | .mailbox =>
    .next (if off == 0x08 then { s with mgmt := { s.mgmt with mbArg0 := v } }
      else if off == 0x10 then { s with mgmt := { s.mgmt with mbArg1 := v } }
      else s)

/-- BUSY: a mailbox command runs (R353). -/
def State.mbBusy (s : State) : Bool := decide (s.clk < s.mgmt.mbUntil)

/-- MBSTAT (R353). RESULT is not defined while a command runs (log 44). -/
def State.mbStat (s : State) : Nat :=
  if s.mbBusy then 1 + Config.busyResult s.mgmt.mbUntil % 256 * 256 else s.mgmt.mbResult * 256

/-- What a system core reads at an offset of a window (R305, R316, R320, R353); write-only registers and unlisted offsets read zero. -/
def State.windowRead (s : State) (win : Window) (off : Nat) : DWord :=
  match win with
  | .control =>
    if off == 0x0000 then 0x24C33#64
    else if off == 0x0008 then s.qtBase
    else if off == 0x0010 then BitVec.ofNat 64 (s.grids.filter (fun x => x.status != 1 && !x.written)).length
    else if decide (0x1000 ≤ off) && decide (off < 0x1000 + 16 * 192) then
      let x := s.partition ((off - 0x1000) / 16)
      if off % 16 == 0 then x.mask else if off % 16 == 8 then x.cfg else 0
    else 0
  | .service =>
    if off == 0x0000 then s.asidTb
    else if off == 0x0008 then s.fqBase
    else if off == 0x0010 then s.fqCfg
    else if off == 0x0018 then s.fqTail.setWidth 64
    else if off == 0x0020 then s.fqHead.setWidth 64
    else if off == 0x0028 then BitVec.ofNat 64 (s.faultsOut.length % 2 ^ 16)
    else if off == 0x0038 then s.shootSt.setWidth 64
    else if off == 0x0050 then s.dapBase
    else 0
  | .mailbox =>
    if off == 0x08 then s.mgmt.mbArg0
    else if off == 0x10 then s.mgmt.mbArg1
    else if off == 0x18 then BitVec.ofNat 64 s.mbStat
    else 0

-- shootdowns (R327)
/-- KIND of a SHOOT value. -/
def shootKind (v : DWord) : Nat := (v.extractLsb' 61 3).toNat
/-- A SHOOT value with a defined KIND and zero in its reserved fields. -/
def shootClean (v : DWord) : Bool :=
  (shootKind v == 0 || shootKind v == 2 || shootKind v == 3) && v.extractLsb' 48 2 == 0 && v.extractLsb' 0 12 == 0

/-- A shootdown as it starts. -/
def shootOf (v : DWord) (void : Bool) : Shootdown :=
  { kind := shootKind v, asid := (v.extractLsb' 52 9).toNat, size := (v.extractLsb' 50 2).toNat, vpn := (v.extractLsb' 12 36).toNat, void := void }

/-- A write of SHOOT starts one shootdown; they complete in the order written (R327). -/
def State.shoot (s : State) (v : DWord) (void : Bool) : State := { s with shoots := s.shoots ++ [shootOf v void] }

/-- SHOOT_PAGE (R327): kind 0. -/
def execShootPage (v : BitVec 64) (s : State) : Out := .next (if shootKind v == 0 then s.shoot v (!(shootClean v)) else s)
/-- SHOOT_ASID (R327): kind 2. -/
def execShootAsid (v : BitVec 64) (s : State) : Out := .next (if shootKind v == 2 then s.shoot v (!(shootClean v)) else s)
/-- SHOOT_ASID_RELOAD (R327): kind 3. -/
def execShootAsidReload (v : BitVec 64) (s : State) : Out := .next (if shootKind v == 3 then s.shoot v (!(shootClean v)) else s)
/-- SHOOT_RESERVED_KIND (R327): no effect beyond its completion. -/
def execShootReservedKind (v : BitVec 64) (s : State) : Out := .next (if shootClean v then s else s.shoot v true)

/-- Bytes of a page of a SIZE (R327). -/
def shootSpan (size : Nat) : Nat :=
  if size == 0 then 2 ^ 12 else if size == 1 then 2 ^ 16 else if size == 2 then 2 ^ 21 else 2 ^ 30

/-- Whether a shootdown names an address range: pages overlap, or every page of the ASID. -/
def Shootdown.covers (x : Shootdown) (a n : Nat) : Bool :=
  let span := shootSpan x.size
  let base := x.vpn * 4096 / span * span
  x.kind != 0 || (decide (base < a + n) && decide (a < base + span))

/-- A completed store of the ASID that used a named translation has not drained (R328). -/
def State.storesLeft (s : State) (x : Shootdown) : Bool :=
  s.wgs.any (fun g => g.asid == x.asid && g.warps.any (fun w => w.storeQ.any (fun e =>
    e.pages.any (fun p => x.covers (p * 4096) 4096))))

/-- SHOOTDOWN_COMPLETE (R328): the oldest one, once every access that used its translations has been performed. -/
def execShootdownComplete (s : State) : Out :=
  match s.shoots with
  | [] => .next s
  | x :: rest =>
    if x.void then .next { s with shoots := rest, shootSt := s.shootSt + 1 }
    else if s.storesLeft x then .next s
    else
      let keep (t : TlbEntry) : Bool := !(t.asid == x.asid && x.covers (t.vpn * 2 ^ (12 + 9 * t.level)) (2 ^ (12 + 9 * t.level)))
      let pins (g : Workgroup) : Workgroup :=
        if g.asid == x.asid then { g with pins := g.pins.filter (fun l => !(x.covers (256 * l) 256)) } else g
      let s1 : State := { s with shoots := rest, shootSt := s.shootSt + 1, tlb := s.tlb.filter keep, wgs := s.wgs.map pins }
      .next (if x.kind == 3 then s1.loadAsid x.asid else s1)

-- the dump aperture (R336)
/-- APERTURE_WRITE (R335, R336): one aligned word. -/
def execApertureWrite (pa : Nat) (v : BitVec 32) (s : State) : Out :=
  .next (if s.inAperture pa && pa % 4 == 0 then s.apWrite (pa - s.dapBase.toNat) v else s)

/-- The warp whose PROG word an aperture offset names. -/
def progWid (off : Nat) : Option Nat :=
  let o := off % apSlotSpan
  if 0x1000 ≤ o && o < 0x21000 && o % 0x1000 == 0x0A8 then some ((o - 0x1000) / 0x1000) else none

/-- PROG_WRITE (R209, R336): the whole doubleword. -/
def execProgWrite (pa : Nat) (v : BitVec 64) (s : State) : Out :=
  if !(s.inAperture pa) then .next s
  else
    let off := pa - s.dapBase.toNat
    match s.windowWg (off / 2 ^ 34) (off / 2 ^ 28 % 64) (off / 2 ^ 23 % 32), progWid off with
    | some g, some wid => (match g.warp wid with
      | none => .next s
      | some w => .next (if g.apOpen then s.put g (w.putProg v) else s))
    | _, _ => .next s

end Sys2Proof.Machine
end

