-- ==== Sys2Proof/Machine/Mgmt.lean ====
section
/-!
DEFINITION. The management controller (R352 to R364): mailbox commands, keys and classes, power and temperature, links, errors and
their log, telemetry, bring-up, and the management port.
-/
namespace Sys2Proof.Machine

/-- Record an event of the error log (R361). -/
def State.logEvent (s : State) (kind loc pa count : Nat) : State :=
  { s with mgmt := s.mgmt.logged { kind := kind, loc := loc, pa := pa, count := count, clk := s.clk } }

/-- LOC of a record: die and unit (R361). -/
def locCode (die unit : Nat) : Nat := die + 4 * unit

-- keys and classes (R355, R358)
/-- A fault record that names the ASID is pending: not sent, or sent and not consumed (R329). -/
def State.faultNames (s : State) (asid : Nat) : Bool :=
  let n := min (s.fqTail - s.fqHead).toNat (2 ^ s.fqLog2)
  s.faultsOut.any (fun r => r.asid == asid)
    || (List.range n).any (fun i => s.sysRead (s.fqBase.toNat + 64 * ((s.fqHead.toNat + i) % 2 ^ s.fqLog2) + 12) 2 == asid)

/-- The queue whose descriptor has its CTL byte at a physical byte (R306). -/
def State.queueOfCtl (s : State) (pk : Nat) : Option Nat :=
  let o := pk - (s.qtBase.toNat + 28)
  if s.qtBase.toNat + 28 ≤ pk && o % 64 == 0 && decide (o / 64 < 2 ^ 16) then some (o / 64) else none

/-- A queue descriptor in memory has EN set and names the ASID (R306, R355). EN of a descriptor that nothing has written is 0 (log 42). -/
def State.queueNames (s : State) (asid : Nat) : Bool :=
  s.mem.cells.any (fun c => match s.queueOfCtl c.1 with
    | none => false
    | some q => s.qField q 28 1 % 2 == 1 && s.qField q 26 2 % 512 == asid)

/-- Something names the ASID, so that KEYNEW, KEYKILL and CLASS are refused (R355). -/
def State.asidInUse (s : State) (asid : Nat) : Bool :=
  s.partitionsOn.any (fun p => p.asid == asid) || s.queueNames asid
    || s.wgs.any (fun g => g.asid == asid) || s.faultNames asid

/-- Every on-die structure that holds data of an ASID is cleared of it (R355). -/
def State.clearAsid (s : State) (asid : Nat) : State :=
  { s with tlb := s.tlb.filter (fun t => t.asid != asid), directory := s.directory.filter (fun e => e.asid != asid) }

/-- The arguments of KEYNEW and KEYKILL are in their limits (R354). -/
def keyArgsOk (a0 a1 : DWord) : Bool := decide (a0.toNat < 512) && a1 == 0

/-- KEYNEW: its RESULT and what it leaves (R355). A key is named by a number that no other key has. -/
def State.keyNew (s : State) (a0 a1 : DWord) : Nat × State :=
  if !(keyArgsOk a0 a1) then (1, s)
  else if s.asidInUse a0.toNat then (2, s)
  else
    let n := s.fresh
    let s1 := n.2.clearAsid a0.toNat
    (0, { s1 with mgmt := { s1.mgmt with keys := (a0.toNat, n.1) :: s1.mgmt.keys.filter (fun k => k.1 != a0.toNat) } })

/-- KEYKILL (R355). -/
def State.keyKill (s : State) (a0 a1 : DWord) : Nat × State :=
  if !(keyArgsOk a0 a1) then (1, s)
  else if s.asidInUse a0.toNat then (2, s)
  else
    let s1 := s.clearAsid a0.toNat
    (0, { s1 with mgmt := { s1.mgmt with keys := s1.mgmt.keys.filter (fun k => k.1 != a0.toNat) } })

/-- The class that the arguments of CLASS ask for, in its limits (R354). The table gives bit 8 both to the ASID and to the class; the
model reads both fields as written (log 30). -/
def classArgs (a0 a1 : DWord) : Option ClassReg :=
  let c : ClassReg := { asid := (a0.extractLsb' 0 9).toNat, cls := (a0.extractLsb' 8 2).toNat, ways := (a1.extractLsb' 0 4).toNat,
                        loops := (a1.extractLsb' 4 3).toNat, share := (a1.extractLsb' 8 6).toNat }
  if a0.extractLsb' 10 54 != 0 then none
  else if c.cls == 0 then some { c with ways := 0, loops := 0, share := 0 }
  else if c.cls == 1 && a1.getLsbD 7 == false && a1.extractLsb' 14 50 == 0 && decide (1 ≤ c.ways) && decide (c.ways ≤ 6)
      && decide (1 ≤ c.loops) && decide (c.loops ≤ 2) && decide (1 ≤ c.share) && decide (c.share ≤ 16) then some c
  else none

/-- The totals over the strict ASIDs stay in the limits of R358. -/
def strictFits (cs : List ClassReg) : Bool :=
  let st := cs.filter (fun c => c.cls == 1)
  decide (st.length ≤ 8) && decide ((st.map ClassReg.ways).sum ≤ 10) && decide ((st.map ClassReg.loops).sum ≤ 6)
    && decide ((st.map ClassReg.share).sum ≤ 48)

/-- CLASS (R358). -/
def State.setClass (s : State) (a0 a1 : DWord) : Nat × State :=
  match classArgs a0 a1 with
  | none => (1, s)
  | some c =>
    if s.asidInUse c.asid then (2, s)
    else
      let cs := c :: s.mgmt.classes.filter (fun x => x.asid != c.asid)
      if c.cls == 1 && !(strictFits cs) then (3, s) else (0, { s with mgmt := { s.mgmt with classes := cs } })

/-- PCAP (R354). -/
def State.setCap (s : State) (a0 a1 : DWord) : Nat × State :=
  if decide (600 ≤ a0.toNat) && decide (a0.toNat ≤ 2600) && a1 == 0 then (0, { s with mgmt := { s.mgmt with capWatts := a0.toNat } }) else (1, s)

-- the error log and telemetry
/-- The bytes of a log record (R361). -/
def LogRec.bytes (r : LogRec) (lost : Nat) : List Byte :=
  leBytes 4 r.kind ++ leBytes 4 r.loc ++ leBytes 8 r.pa ++ leBytes 8 r.count ++ leBytes 8 r.clk ++ leBytes 8 lost ++ List.replicate 24 0

/-- The record that ERRREAD gives: the oldest, or one of kind 0 (R361); it leaves the log. -/
def Mgmt.takeLog (m : Mgmt) : List Byte × Mgmt :=
  match m.log with
  | [] => (LogRec.bytes { kind := 0, loc := 0, pa := 0, count := 0, clk := 0 } m.logLost, { m with logLost := 0 })
  | r :: rest => (r.bytes m.logLost, { m with log := rest, logLost := 0 })

/-- Mean package power of the last 1 ms, in mW (R359). -/
def Mgmt.meanPower (m : Mgmt) : Nat := m.power.sum / max 1 m.power.length

/-- The block of a telemetry sample (R362). Voltages, powers and temperatures are sensor readings (log 17). -/
def TelemSample.block (t : TelemSample) : List Byte :=
  leBytes 8 t.clk ++ leBytes 4 t.power ++ leBytes 2 t.capWatts ++ List.replicate 50 0
    ++ (List.range 32).flatMap (fun i =>
      leBytes 2 (nth 0 t.clocks i) ++ leBytes 2 (Config.sensor (1000 + i) t.reading) ++ leBytes 4 (Config.sensor (1100 + i) t.reading)
        ++ leBytes 2 (Config.sensor (1200 + i) t.reading) ++ List.replicate 6 0)

/-- The telemetry samples every 1 ms, at each tenth power sample (R359, R362). -/
def State.sampleTelem (s : State) : State :=
  let m := s.mgmt
  if m.sinceTelem + 1 < 10 then { s with mgmt := { m with sinceTelem := m.sinceTelem + 1 } }
  else
    let t : TelemSample := { clk := s.clk, power := m.meanPower, capWatts := m.capWatts, clocks := m.clocks, reading := s.free }
    { s with free := s.free + 1, mgmt := { m with sinceTelem := 0, telem := t } }

/-- A physical address that is a multiple of 64 (R354). -/
def sectorArg (a0 a1 : DWord) : Bool := decide (a0.toNat < 2 ^ 48) && a0.toNat % 64 == 0 && a1 == 0

-- requests of the management port (R364)
/-- Bytes [31:0] of a frame's payload, `extra` standing in [7:6]. -/
def frameBytes (magic op extra seq v0 v1 : Nat) : List Byte :=
  leBytes 4 magic ++ leBytes 2 op ++ leBytes 2 extra ++ leBytes 8 seq ++ leBytes 8 v0 ++ leBytes 8 v1

/-- MAGIC (R364). -/
def portMagic : Nat := 0x4C584D50

/-- The TAG of a payload under the port key (R364). -/
def portTag (key : BitVec 256) (payload : List Byte) : BitVec 256 := BitVec.ofNat 256 (leNat (hmac (leBytes 32 key.toNat) payload))

/-- The controller takes a frame as a request (R364). -/
def State.portAccepts (s : State) (f : PortFrame) : Bool :=
  f.dest == Config.portMac && f.etherType == 0x88B5 && f.magic.toNat == portMagic && f.rsvd == 0 && decide (s.mgmt.portSeq < f.seq.toNat)
    && f.tag == portTag s.mgmt.portKey (frameBytes f.magic.toNat f.op.toNat f.rsvd.toNat f.seq.toNat f.arg0.toNat f.arg1.toNat)

/-- The reply to a request (R364). -/
def portReply (key : BitVec 256) (f : PortFrame) (result : Nat) (v0 v1 : DWord) (body : List Byte) : PortReply :=
  { dest := f.source, op := f.op, seq := f.seq, result := result, value0 := v0, value1 := v1,
    tag := portTag key (frameBytes portMagic f.op.toNat result f.seq.toNat v0.toNat v1.toNat), body := body }

/-- Send a reply; the request's SEQ is the last accepted. -/
def State.portAnswer (s : State) (f : PortFrame) (result : Nat) (v0 v1 : DWord) (body : List Byte) : State :=
  { s with mgmt := { s.mgmt with portSeq := f.seq.toNat,
                                 portReplies := s.mgmt.portReplies ++ [portReply s.mgmt.portKey f result v0 v1 body] } }

/-- A command that the mailbox has too: refused with RESULT 3 while the package is held in reset (R364). -/
def State.portCommand (s : State) (f : PortFrame) (run : State → Nat × State) : State :=
  if s.mgmt.heldInReset then s.portAnswer f 3 0 0 []
  else
    let r := run s
    r.2.portAnswer f r.1 0 0 []

/-- KEYNEW, KEYKILL, CLASS and PCAP through the port. -/
def State.portDoKeynew (s : State) (f : PortFrame) : State := s.portCommand f (fun s => s.keyNew f.arg0 f.arg1)
def State.portDoKeykill (s : State) (f : PortFrame) : State := s.portCommand f (fun s => s.keyKill f.arg0 f.arg1)
def State.portDoClass (s : State) (f : PortFrame) : State := s.portCommand f (fun s => s.setClass f.arg0 f.arg1)
def State.portDoPcap (s : State) (f : PortFrame) : State := s.portCommand f (fun s => s.setCap f.arg0 f.arg1)

/-- ERRREAD through the port: answered while the package is held in reset too. -/
def State.portDoErrread (s : State) (f : PortFrame) : State :=
  if f.arg0 == 0 && f.arg1 == 0 then
    let t := s.mgmt.takeLog
    ({ s with mgmt := t.2 } : State).portAnswer f 0 0 0 t.1
  else s.portAnswer f 1 0 0 []

/-- TELEM through the port. -/
def State.portDoTelem (s : State) (f : PortFrame) : State :=
  if s.mgmt.heldInReset then s.portAnswer f 3 0 0 []
  else if f.arg0 == 0 && f.arg1 == 0 then s.portAnswer f 0 0 0 s.mgmt.telem.block
  else s.portAnswer f 1 0 0 []

/-- The controller is back before step 1 of R363: nothing runs until BRING_UP. -/
def State.restartSteps (s : State) : State := { s with mgmt := { s.mgmt with lastStep := 0, failedStep := 0 } }

/-- RESET: the reply first, then the steps of R363 from step 1. -/
def State.portDoReset (s : State) (f : PortFrame) : State := (s.portAnswer f 0 0 0 []).restartSteps

/-- The temperature a die reports, in °C (R360, log 17). -/
def State.dieTemp (s : State) (die : Nat) : Nat := Config.sensor (1300 + die) s.free
/-- Every die reports below 97 °C. -/
def State.allCool (s : State) : Bool := (List.range Config.dies).all (fun d => decide (s.dieTemp d < 97))

/-- TRIPCLR. With no trip to clear it is refused too (log 30). -/
def State.portDoTripclr (s : State) (f : PortFrame) : State :=
  let s1 : State := { s with free := s.free + 1 }
  if s.allCool && !s.mgmt.tripped.isEmpty then
    let s2 := (s1.portAnswer f 0 0 0 []).restartSteps
    { s2 with mgmt := { s2.mgmt with tripped := [], heldInReset := false } }
  else s1.portAnswer f 2 0 0 []

/-- VALUE0 of STATE (R364). -/
def Mgmt.stateWord (m : Mgmt) : Nat :=
  m.lastStep % 16 + m.failedStep % 16 * 2 ^ 4
    + ((List.range Config.dies).foldl (fun a d => if m.tripped.contains d then a + 2 ^ d else a) 0) * 2 ^ 8
    + (if m.heldInReset then 2 ^ 11 else 0)

/-- STATE. -/
def State.portDoState (s : State) (f : PortFrame) : State :=
  s.portAnswer f 0 (BitVec.ofNat 64 s.mgmt.stateWord) (BitVec.ofNat 64 s.mgmt.meanPower) []

/-- What the controller does with a request when its turn has come: dropped without a reply unless it accepts it; else its command (R364). -/
def State.portRun (s : State) (f : PortFrame) : State :=
  if !(s.portAccepts f) then s
  else match f.op.toNat with
    | 0x01 => s.portDoKeynew f
    | 0x02 => s.portDoKeykill f
    | 0x03 => s.portDoClass f
    | 0x04 => s.portDoErrread f
    | 0x05 => s.portDoTelem f
    | 0x06 => s.portDoPcap f
    | 0x10 => s.portDoReset f
    | 0x11 => s.portDoTripclr f
    | 0x12 => s.portDoState f
    | _ => s.portAnswer f 1 0 0 []

/-- The requests that have waited take their turn, in the order of their arrival (R364). -/
def State.portDrain (s : State) : State :=
  s.mgmt.portQueue.foldl State.portRun { s with mgmt := { s.mgmt with portQueue := [] } }

/-- A request arrives (R364): while a mailbox command runs it waits; else it has its turn after those that wait. -/
def State.portRequest (s : State) (f : PortFrame) (mine : Bool) : Out :=
  .next (if !mine then s
    else if s.mbBusy then { s with mgmt := { s.mgmt with portQueue := s.mgmt.portQueue ++ [f] } }
    else s.portDrain.portRun f)

/-- PORT_KEYNEW (R364). -/
def execPortKeynew (f : PortFrame) (s : State) : Out := s.portRequest f (f.op == 0x01)
/-- PORT_KEYKILL (R364). -/
def execPortKeykill (f : PortFrame) (s : State) : Out := s.portRequest f (f.op == 0x02)
/-- PORT_CLASS (R364). -/
def execPortClass (f : PortFrame) (s : State) : Out := s.portRequest f (f.op == 0x03)
/-- PORT_PCAP (R364). -/
def execPortPcap (f : PortFrame) (s : State) : Out := s.portRequest f (f.op == 0x06)
/-- PORT_ERRREAD (R364). -/
def execPortErrread (f : PortFrame) (s : State) : Out := s.portRequest f (f.op == 0x04)
/-- PORT_TELEM (R364). -/
def execPortTelem (f : PortFrame) (s : State) : Out := s.portRequest f (f.op == 0x05)
/-- PORT_RESET (R364). -/
def execPortReset (f : PortFrame) (s : State) : Out := s.portRequest f (f.op == 0x10)
/-- TRIPCLR (R364). -/
def execTripclr (f : PortFrame) (s : State) : Out := s.portRequest f (f.op == 0x11)
/-- PORT_STATE (R364). -/
def execPortState (f : PortFrame) (s : State) : Out := s.portRequest f (f.op == 0x12)

/-- The OPs of R364. -/
def portKnown (op : Nat) : Bool := [0x01, 0x02, 0x03, 0x04, 0x05, 0x06, 0x10, 0x11, 0x12].contains op

/-- PORT_UNKNOWN_OP (R364). -/
def execPortUnknownOp (f : PortFrame) (s : State) : Out := s.portRequest f (!(portKnown f.op.toNat))

-- the mailbox (R353, R354)
/-- 10 ms at the nominal clock (R353). -/
def mailboxLimit : Nat := 10000 * Config.clkPerMicro

/-- A command that a write of MBCMD starts (R353): ignored while BUSY; else its effect, after the requests of the port that came before it
(R364), its RESULT, and BUSY for a time that the manual leaves open (log 44). -/
def State.mailbox (s : State) (run : State → Nat × State) : Out :=
  .next (if s.mbBusy then s
    else
      let r := run s.portDrain
      { r.2 with free := r.2.free + 1,
                 mgmt := { r.2.mgmt with mbResult := r.1, mbUntil := s.clk + min mailboxLimit (Config.mailboxTime r.2.free) } })

/-- KEYNEW (R354, R355). -/
def execKeynew (s : State) : Out := s.mailbox (fun s => s.keyNew s.mgmt.mbArg0 s.mgmt.mbArg1)
/-- KEYKILL (R354, R355). -/
def execKeykill (s : State) : Out := s.mailbox (fun s => s.keyKill s.mgmt.mbArg0 s.mgmt.mbArg1)
/-- CLASS (R354, R358). -/
def execClassSet (s : State) : Out := s.mailbox (fun s => s.setClass s.mgmt.mbArg0 s.mgmt.mbArg1)

/-- Bytes that the controller writes to memory (R354). -/
def State.mbWrite (s : State) (bs : List Byte) : State := s.writeBytes s.mgmt.sysKey (cellsFrom (physKey 0 0 s.mgmt.mbArg0.toNat) bs)

/-- ERRREAD (R354, R361). -/
def execErrread (s : State) : Out :=
  s.mailbox (fun s =>
    if sectorArg s.mgmt.mbArg0 s.mgmt.mbArg1 then
      let t := s.mgmt.takeLog
      (0, { s with mgmt := t.2 }.mbWrite t.1)
    else (1, s))

/-- TELEM (R354, R362). -/
def execTelem (s : State) : Out :=
  s.mailbox (fun s => if sectorArg s.mgmt.mbArg0 s.mgmt.mbArg1 then (0, s.mbWrite s.mgmt.telem.block) else (1, s))

/-- PCAP (R354, R359). -/
def execPcap (s : State) : Out := s.mailbox (fun s => s.setCap s.mgmt.mbArg0 s.mgmt.mbArg1)

/-- PORTKEY (R354, R364). -/
def execPortkey (s : State) : Out :=
  s.mailbox (fun s =>
    if sectorArg s.mgmt.mbArg0 s.mgmt.mbArg1 then
      (0, { s with mgmt := { s.mgmt with portKey := BitVec.ofNat 256 (s.sysRead s.mgmt.mbArg0.toNat 32), portSeq := 0 } })
    else (1, s))

/-- A write of MBCMD that names no command: an unknown OP, or bits [63:8] not zero (R353, R354). -/
def mbUnknown (v : DWord) : Bool := !(decide (1 ≤ v.toNat) && decide (v.toNat ≤ 7))

/-- MAILBOX_UNKNOWN_OP (R353, R354). -/
def execMailboxUnknownOp (v : BitVec 64) (s : State) : Out := if mbUnknown v then s.mailbox (fun s => (1, s)) else .next s

-- power (R359)
/-- A core group that a strict partition holds, and one of shared-class partitions only. -/
def State.strictIsland (s : State) (die g : Nat) : Bool :=
  s.partitionsOn.any (fun p => p.die == die && s.classOf p.asid == 1 && (p.mask &&& (0xFF#64 <<< (8 * g))) != 0)
def State.sharedIsland (s : State) (die g : Nat) : Bool :=
  !(s.strictIsland die g) && s.partitionsOn.any (fun p => p.die == die && (p.mask &&& (0xFF#64 <<< (8 * g))) != 0)

/-- Core-group islands of shared-class partitions, and the fabric/L2 islands of dies that hold no strict partition. -/
def State.sharedIslands (s : State) : List Nat :=
  (List.range Config.dies).flatMap (fun d => ((List.range 8).filter (s.sharedIsland d)).map (coreIsland d))
def State.openFabrics (s : State) : List Nat :=
  ((List.range Config.dies).filter (fun d => !((List.range 8).any (s.strictIsland d)))).map fabricIsland

/-- The lowest clock that the cap brings an island to, and the nominal one, in MHz. -/
def capFloor : Nat := 900
def nominalMHz : Nat := 1750

/-- The three stages while the average exceeds the cap (R359). -/
def State.lowerPower (s : State) : State :=
  let cs := s.mgmt.clocks
  let above (is : List Nat) : List Nat := is.filter (fun i => decide (capFloor < nth 0 cs i))
  let down (c : Nat) : Nat := max capFloor (c - 25)
  if !(above s.sharedIslands).isEmpty then { s with mgmt := { s.mgmt with clocks := setClocks cs (above s.sharedIslands) down } }
  else if !(above s.openFabrics).isEmpty then { s with mgmt := { s.mgmt with clocks := setClocks cs (above s.openFabrics) down } }
  else if s.mgmt.withheld < 16 then { s with mgmt := { s.mgmt with withheld := s.mgmt.withheld + 1 } }
  else s.logEvent 6 0 0 0

/-- Every fabric/L2 island, and every core-group island that no strict partition holds. -/
def fabrics : List Nat := (List.range Config.dies).map fabricIsland
def State.looseIslands (s : State) : List Nat :=
  (List.range Config.dies).flatMap (fun d => ((List.range 8).filter (fun g => !(s.strictIsland d g))).map (coreIsland d))

/-- The same steps back, the last stage first, for every island that was lowered and that the temperature does not hold down (R359, R360). -/
def State.raisePower (s : State) : State :=
  let cs := s.mgmt.clocks
  let below (is : List Nat) : List Nat := is.filter (fun i => decide (nth 0 cs i < nominalMHz) && !(s.mgmt.throttled.contains (i / 10)))
  let up (c : Nat) : Nat := min nominalMHz (c + 25)
  if 0 < s.mgmt.withheld then { s with mgmt := { s.mgmt with withheld := s.mgmt.withheld - 1 } }
  else if !(below fabrics).isEmpty then { s with mgmt := { s.mgmt with clocks := setClocks cs (below fabrics) up } }
  else { s with mgmt := { s.mgmt with clocks := setClocks cs (below s.looseIslands) up } }

/-- POWER_SAMPLE (R359): every 100 µs; ten samples make the average, and a sample of the telemetry (R362). A die that has cooled below 97 °C
is no longer throttled (R360), and its strict islands run at their own clock again. -/
def execPowerSample (milliwatts : Nat) (s : State) : Out :=
  let m := s.mgmt
  let s1 : State := { s with free := s.free + 1, mgmt := { m with power := (milliwatts :: m.power).take 10,
                                                                  throttled := m.throttled.filter (fun d => decide (97 ≤ s.dieTemp d)) } }
  let avg := s1.mgmt.meanPower
  let s2 := s1.fixStrict
  .next (if m.capWatts * 1000 < avg then s2.lowerPower else if avg < m.capWatts * 950 then s2.raisePower else s2).sampleTelem

-- temperature (R360)
/-- THERMAL_THROTTLE (R360): one millisecond at 100 °C, or above 97 °C after it; the first one is logged with kind 6. -/
def execThermalThrottle (die : BitVec 2) (s : State) : Out :=
  let d := die.toNat
  let s1 := if s.mgmt.throttled.contains d then s else s.logEvent 6 (locCode d 0) 0 0
  .next { s1 with mgmt := { s1.mgmt with throttled := addOnce s1.mgmt.throttled d,
                                         clocks := setClocks s1.mgmt.clocks ((List.range 10).map (fun i => 10 * d + i)) (· - 25) } }

/-- THERMAL_TRIP (R360): logged with kind 7; the package is held in reset. -/
def execThermalTrip (die : BitVec 2) (s : State) : Out :=
  let s1 := s.logEvent 7 (locCode die.toNat 0) 0 0
  .next { s1 with mgmt := { s1.mgmt with tripped := addOnce s1.mgmt.tripped die.toNat, heldInReset := true } }

-- links (R352)
/-- LINK_DOWN (R352): `packages` are those that only this link reaches. -/
def execLinkDown (link : BitVec 4) (packages : List Nat) (s : State) : Out :=
  if s.linksDown.any (fun l => l.1 == link.toNat) then .next s
  else .next (({ s with linksDown := (link.toNat, packages) :: s.linksDown } : State).logEvent 4 (locCode 0 5) link.toNat 0)

/-- The links that are down once a link is up again: a package that it reaches is cut off by none of them (R352, log 63). -/
def linksAfter (link : Nat) (ls : List (Nat × List Nat)) : List (Nat × List Nat) :=
  (ls.filter (fun l => l.1 != link)).map (fun l => (l.1, l.2.filter (fun p => !(Config.linkReaches link p))))

/-- LINK_UP (R352). -/
def execLinkUp (link : BitVec 4) (s : State) : Out :=
  if s.linksDown.any (fun l => l.1 == link.toNat) then
    .next (({ s with linksDown := linksAfter link.toNat s.linksDown } : State).logEvent 5 (locCode 0 5) link.toNat 0)
  else .next s

-- errors (R361, R115)
/-- Clk in an hour at the nominal clock. -/
def hourClk : Nat := 3600000000 * Config.clkPerMicro

/-- The memory byte an error report names: DDR-5 is tier 1, everything else lies in front of tier 0 (log 6). -/
def errKey (pa : Nat) (unit : Nat) : Nat := physKey 0 (if unit == 1 then 1 else 0) pa

/-- ERROR_CORRECTED (R361): fixed in place, counted, and logged once per sector per hour. -/
def execErrorCorrected (pa : Nat) (loc : ErrLoc) (s : State) : Out :=
  let sector := errKey pa loc.unit.toNat / 64
  let old := s.mgmt.corrected.find? (fun c => c.sector == sector)
  let count := ((old.map Corrected.count).getD 0) + 1
  let last := (old.map Corrected.loggedAt).getD none
  let due := (last.map (fun t => decide (t + hourClk ≤ s.clk))).getD true
  let c : Corrected := { sector := sector, count := count, loggedAt := if due then some s.clk else last }
  let s1 : State := { s with mgmt := { s.mgmt with corrected := c :: s.mgmt.corrected.filter (fun x => x.sector != sector) } }
  .next (if due then s1.logEvent 1 (locCode loc.die.toNat loc.unit.toNat) (pa / 64 * 64) count else s1)

/-- Whether a saved workgroup's image may lie in a sector: in a die's cooler, or in its ASID's save area (R337, log 20). -/
def State.imageAt (s : State) (loc : ErrLoc) (pa : Nat) (g : Workgroup) : Bool :=
  match g.residence with
  | .resident => false
  | .cooler => loc.unit == 2 && g.die == loc.die.toNat && Config.imageHit g.uid (pa / 64)
  | .saveArea => loc.unit != 2 && loc.unit != 1 && s.inSaveArea g.asid (pa / 64) && Config.imageHit g.uid (pa / 64)

/-- A sector marked as of now: none of its bytes written since (R115). -/
def markSector (ms : List Mark) (sector : Nat) : List Mark := { sector := sector, written := 0 } :: ms.filter (fun m => m.sector != sector)

/-- The sector of a workgroup's scratchpad or of one of its tile slots that an offset of its window names (R336). -/
def Workgroup.sramSector (g : Workgroup) (off : Nat) : Option Nat :=
  if 0x180000 ≤ off && off < 0x200000 then (if off - 0x180000 < g.scratchSize then some (scratchSector (off - 0x180000)) else none)
  else if 0x400000 ≤ off && decide ((off - 0x400000) / 0x4000 < g.slotCount) then some (slotSector ((off - 0x400000) / 0x4000) (off % 0x4000 / 4))
  else none

/-- An uncorrectable error of core SRAM: a PA in the dump aperture names the workgroup's storage (log 65). -/
def State.markSram (s : State) (pa : Nat) : State :=
  let off := pa - s.dapBase.toNat
  match s.windowWg (off / 2 ^ 34) (off / 2 ^ 28 % 64) (off / 2 ^ 23 % 32) with
  | none => s
  | some g => match g.sramSector (off % apSlotSpan) with
    | none => s
    | some k => s.setWg { g with sramMarks := markSector g.sramMarks k }

/-- An uncorrectable error marks its sector (R115): of core SRAM, of memory, or of the images that lie in it, which cannot be restored. -/
def State.markError (s : State) (pa : Nat) (loc : ErrLoc) : State :=
  if loc.unit == 4 && s.inAperture pa then s.markSram pa
  else
    { s with marks := if loc.unit == 2 then s.marks else markSector s.marks (errKey pa loc.unit.toNat / 64),
             wgs := s.wgs.map (fun g => if s.imageAt loc pa g && g.imageLost.isNone then { g with imageLost := some (pa / 64) } else g) }

/-- ERROR_UNCORRECTABLE (R115, R361): the sector is marked and the error logged. -/
def execErrorUncorrectable (pa : Nat) (loc : ErrLoc) (scrub : Bool) (s : State) : Out :=
  .next ((s.markError pa loc).logEvent (if scrub then 3 else 2) (locCode loc.die.toNat loc.unit.toNat) (pa / 64 * 64) 0)

/-- PATROL_SCRUB (R361): it reads all memory and rewrites corrected data, which changes no data; what it finds are errors of their own
(ERROR_CORRECTED, ERROR_UNCORRECTABLE). -/
def execPatrolScrub (s : State) : Out := .next s

-- bring-up (R363)
/-- The cores that have responded once bring-up has carried out `done` steps (R2, R363): all of them after step 6; what a failed step 6
finds is a free value (log 50). -/
def coresFound (done failing n : Nat) : Nat × Nat :=
  if 6 ≤ done then (192, 48) else if failing == 6 then (min 192 (Config.sensor 1400 n), min 48 (Config.sensor 1401 n)) else (0, 0)

/-- The controller after bring-up has carried out `done` steps: what survives a reset is the error log, the port key with the last SEQ,
and the replies already sent (log 31). -/
def Mgmt.afterReset (m : Mgmt) (done failing key : Nat) : Mgmt :=
  { Mgmt.reset with keys := if 4 ≤ done then [] else m.keys, sysKey := if 4 ≤ done then key else m.sysKey, lastStep := done, failedStep := failing,
                    cores := coresFound done failing key, log := m.log, logLost := m.logLost, portKey := m.portKey, portSeq := m.portSeq, portReplies := m.portReplies }

/-- The package after `done` steps of R363, step `failing` having failed (0 for none). -/
def State.afterReset (s : State) (done failing : Nat) : State :=
  let n := s.fresh
  let wiped := decide (3 ≤ done)
  { State.reset with mem := if wiped then { cells := [], owners := [], epoch := s.mem.epoch + 1 } else { s.mem with epoch := s.mem.epoch + 1 }, marks := if wiped then [] else s.marks,
                     linksDown := if 2 ≤ done then [] else s.linksDown, mgmt := s.mgmt.afterReset done failing n.1,
                     inbox := s.inbox, free := s.free, nextUid := n.2.nextUid }

/-- BRING_UP (R363): the steps in order; `failing` is the step that fails, 0 for none. Not while a thermal trip holds the package (R360). -/
def execBringUp (failing : BitVec 4) (s : State) : Out :=
  if s.mgmt.heldInReset then .next s
  else if failing == 0 || 7 < failing.toNat then .next (s.afterReset 7 0)
  else .next (s.afterReset (failing.toNat - 1) failing.toNat)

end Sys2Proof.Machine
end

