-- ==== Sys2Proof/Machine/Scalar.lean ====
section
/-!
DEFINITION. Scalar instructions (R192): 64-bit uniform arithmetic at dispatch.
-/
namespace Sys2Proof.Machine

/-- Write sD at dispatch, after the wait of R19. -/
def State.scalar (s : State) (d : BitVec 6) (f : Warp → DWord) : Out :=
  s.frontEnd (fun g w => if w.sBusy d.toNat then s else s.pass g (w.setS d.toNat (f w)))

/-- SMOV. -/
def execSmov (d x : BitVec 6) (s : State) : Out := s.scalar d (fun w => w.sreg x.toNat)
/-- SADD. -/
def execSadd (d x y : BitVec 6) (s : State) : Out := s.scalar d (fun w => w.sreg x.toNat + w.sreg y.toNat)
/-- SSUB. -/
def execSsub (d x y : BitVec 6) (s : State) : Out := s.scalar d (fun w => w.sreg x.toNat - w.sreg y.toNat)
/-- SMUL. -/
def execSmul (d x y : BitVec 6) (s : State) : Out := s.scalar d (fun w => w.sreg x.toNat * w.sreg y.toNat)
/-- SAND. -/
def execSand (d x y : BitVec 6) (s : State) : Out := s.scalar d (fun w => w.sreg x.toNat &&& w.sreg y.toNat)
/-- SOR. -/
def execSor (d x y : BitVec 6) (s : State) : Out := s.scalar d (fun w => w.sreg x.toNat ||| w.sreg y.toNat)
/-- SXOR. -/
def execSxor (d x y : BitVec 6) (s : State) : Out := s.scalar d (fun w => w.sreg x.toNat ^^^ w.sreg y.toNat)
/-- SSHL: 0 from a count of 64 on. -/
def execSshl (d x y : BitVec 6) (s : State) : Out :=
  s.scalar d (fun w => if (w.sreg y.toNat).toNat < 64 then w.sreg x.toNat <<< (w.sreg y.toNat).toNat else 0)
/-- SSHR: 0 from a count of 64 on. -/
def execSshr (d x y : BitVec 6) (s : State) : Out :=
  s.scalar d (fun w => if (w.sreg y.toNat).toNat < 64 then w.sreg x.toNat >>> (w.sreg y.toNat).toNat else 0)
/-- SADDI. -/
def execSaddi (d x : BitVec 6) (imm : BitVec 8) (s : State) : Out := s.scalar d (fun w => w.sreg x.toNat + imm.signExtend 64)
/-- SMOVI. -/
def execSmovi (d : BitVec 6) (imm : BitVec 8) (s : State) : Out := s.scalar d (fun _ => imm.signExtend 64)
/-- SCMP. -/
def execScmp (d : BitVec 6) (c : ICond) (x y : BitVec 6) (s : State) : Out :=
  s.scalar d (fun w => if icmpBits c (w.sreg x.toNat) (w.sreg y.toNat) then 1 else 0)

end Sys2Proof.Machine
end

