-- ==== Sys2Proof/Machine/Sync.lean ====
section
/-!
DEFINITION. Waiting, barriers, exit, the register pool, partition, convergence records, fences, hints and software traps (R178 to
R191).
-/
namespace Sys2Proof.Machine

/-- The next instruction after a fence. -/
def State.fallThrough (s : State) (g : Workgroup) (w : Warp) : State := s.jump g w (w.pc + 4)

/-- A report is raised (R179): in a service kernel an unanswered page is trap 0x19 with CODE2 0x05 (R333). -/
def Report.raise (r : Report) (a : BitVec 48) : TrapInfo :=
  { code := r.code, addr := a, va := r.va, access := r.access, code2 := code2Of r.code }

/-- WAIT (R178, R179). -/
def execWait (cls : EngClass) (n : BitVec 6) (s : State) : Out :=
  s.fence (fun g w =>
    match w.reports.find? (fun r => r.cls == cls) with
    | some r => s.settle g ({ w with reports := w.reports.erase r }.raise (r.raise w.pc) w.front [])
    | none => if w.counter cls ≤ n.toNat then s.fallThrough g w else s)

/-- A warp arrives at a barrier and blocks there (R180, R181): its older stores have drained (R107). -/
def State.arrive (s : State) (b : Block) : Out :=
  s.fence (fun g w =>
    if w.block != .none then s
    else if w.uni.handler then s.trapFront g w 0x01
    else if !w.storeQ.isEmpty then s
    else ((s.put g { w with block := b }).count g w.wid 1 1).checkBarrier g.uid)

/-- BAR (R180). -/
def execBar (s : State) : Out := s.arrive .bar
/-- GBAR (R181). -/
def execGbar (s : State) : Out := s.arrive .gbar

/-- The active threads of a warp end (R182): responders tell their census (R244), a pending report is sent (R179), the warp is
freed. -/
def State.endWarp (s : State) (g : Workgroup) (w : Warp) : State :=
  let s1 := s.lanesExit g w (lanesIn w.active)
  let s2 := match w.reports with
    | [] => s1
    | r :: _ => s1.send { s1.record g 7 with code := r.code, code2 := code2Of r.code, wid := w.wid, pc := r.pc.toNat, va := r.va, access := r.access }
  s2.setWg (g.freeWarp w)

/-- EXIT (R182): the store queue has drained. -/
def execExit (s : State) : Out :=
  s.fence (fun g w => if !w.storeQ.isEmpty then s else ((s.endWarp g w).count g w.wid 1 1).checkBarrier g.uid)

/-- GIVE (R38, R185): every register it destroys is present. -/
def execGive (n : BitVec 6) (s : State) : Out :=
  s.fence (fun g w =>
    let k := n.toNat
    let lost := (List.range (4 * k)).map (· + 4 * (w.granules - k))
    if w.uni.handler || decide (w.granules < k) then s.trapFront g w 0x01
    else if lost.any (fun r => !w.gPresent r) then s
    else s.fallThrough { g with poolFree := g.poolFree + k } { w with granules := w.granules - k })

/-- CLAIM (R38, R185): served at once when no request waits and the pool can; otherwise the warp blocks. -/
def execClaim (n : BitVec 6) (s : State) : Out :=
  s.fence (fun g w =>
    let k := n.toNat
    if w.block != .none then s
    else if w.uni.handler || decide (63 < w.granules + k) then s.trapFront g w 0x01
    else if k == 0 then s.fallThrough g w
    else if g.poolQ.isEmpty && decide (k ≤ g.poolFree) then s.fallThrough { g with poolFree := g.poolFree - k } (w.claim k)
    else (s.put { g with poolQ := g.poolQ ++ [.claim w.wid k] } { w with block := .claim k }).count g w.wid 1 1)

/-- CLAIMP (R38, R185): the predicate tells in every lane whether the claim was served. -/
def execClaimp (n : BitVec 6) (p : BitVec 3) (s : State) : Out :=
  s.fence (fun g w =>
    let k := n.toNat
    let ok := g.poolQ.isEmpty && decide (k ≤ g.poolFree) && decide (w.granules + k ≤ 63)
    if w.uni.handler then s.trapFront g w 0x01
    else if ok then s.fallThrough { g with poolFree := g.poolFree - k } ((w.claim k).setP p.toNat allLanes allLanes)
    else s.fallThrough g (w.setP p.toNat allLanes 0))

/-- PART (R40, R186): under compat16 a value of 5 acts as 4. -/
def execPart (e : BitVec 6) (s : State) : Out :=
  s.frontEnd (fun g w =>
    if w.strandPending then s
    else s.pass g { w with uni := { w.uni with part := if g.compat16 && e == 5 then 4 else e.toNat } })

/-- A convergence record as CVSET writes it (R56, R187). -/
def cvRecord (form : CvForm) (m : LaneSet) : CvReg :=
  { form := form, signs := 0, signed := 0, members := m, unusable := false, fixed := none, differs := false }

/-- CVSET (R187). -/
def execCvset (form : CvForm) (cv : BitVec 3) (sm : BitVec 6) (s : State) : Out :=
  s.frontEnd (fun g w =>
    let m := w.sreg sm.toNat
    let ms := m.extractLsb' 0 32
    let busy := ((g.cv[cv.toNat]?).map CvReg.signs).getD 0 != 0
    let want := if form == .solo then 1 else 4
    let set (m : LaneSet) : State := s.pass { g with cv := g.cv.set cv.toNat (cvRecord form m) } w
    if busy then s.trapFront g w 0x01
    else if form == .idle then set 0
    else if m.extractLsb' 32 32 != 0 || laneCount ms != want || !g.membersLive ms then s.trapFront g w 0x01
    else set ms)

/-- The mark that a fence leaves for younger accesses (R103): a release needs none, since entries drain in order (R100). -/
def fenceMarks (kind : FenceKind) (seq : Nat) : List FenceMark :=
  match kind with
  | .rel => []
  | .acq | .acqrel => [{ seq := seq, sc := false }]
  | .sc => [{ seq := seq, sc := true }]

/-- A fence leaves its mark at its place in program order. -/
def Warp.addFence (w : Warp) (kind : FenceKind) : Warp :=
  let w1 := w.tidyFences
  { w1 with fences := w1.fences ++ fenceMarks kind w.seq, seq := w.seq + 1 }

/-- FENCE (R103, R104, R188): no slip fence; younger accesses wait by the mark (log 4). One that a resume passes over leaves its mark again:
accesses on both sides of it may be dispatched anew (R28). -/
def execFence (_scope : Scope) (kind : FenceKind) (s : State) : Out :=
  s.onWarp (fun g w => .next (if w.skipsFront then s.put g ((w.addFence kind).passOver 4) else s.pass g (w.addFence kind)))

/-- NOPL (R189). -/
def execNopl (s : State) : Out := s.frontEnd (fun g w => s.pass g w)

/-- YIELD (R18, R189): the warp becomes the youngest. -/
def execYield (s : State) : Out :=
  s.frontEnd (fun g w =>
    let n := s.fresh
    n.2.pass g { w with age := n.1 })

/-- TRAP (R190). -/
def execTrap (code : BitVec 8) (s : State) : Out := s.frontEnd (fun g w => s.trapAfter g w code.toNat)

/-- BKPT (R190). -/
def execBkpt (s : State) : Out := s.frontEnd (fun g w => s.trapAfter g w 0x11)

/-- IPF (R191): timing only. -/
def execIpf (_off : BitVec 16) (s : State) : Out := s.frontEnd (fun g w => s.pass g w)

/-- Pinned lines of a core (R191). DESIGN CHOICE (log 68): a line pinned by two workgroups of the core counts once for each. -/
def State.pinned (s : State) (core : Nat) : Nat := ((s.wgs.filter (fun g => g.coreIdx == core)).map (fun g => g.pins.length)).sum

/-- Pin one code line, if the limit allows and its page can be fetched (R191). -/
def State.pinLine (s : State) (uid line : Nat) : State :=
  match s.wg uid with
  | none => s
  | some g =>
    if g.pins.contains line || decide (Config.pinnedLines ≤ s.pinned g.coreIdx) then s
    else
      let t := s.xlat g .fetch (BitVec.ofNat 48 (256 * line))
      match t.1 with
      | .ok _ => t.2.setWg { g with pins := g.pins ++ [line] }
      | .trap _ | .absent => t.2

/-- Code lines that a hint names: c of them from the line of the target (R191). -/
def hintLines (w : Warp) (c : BitVec 6) (off : BitVec 16) : List Nat :=
  (List.range c.toNat).map (fun i => ((w.target off).toNat / 256 + i) % 2 ^ 40)

/-- IPIN (R191). -/
def execIpin (c : BitVec 6) (off : BitVec 16) (s : State) : Out :=
  s.frontEnd (fun g w => (hintLines w c off).foldl (fun s l => s.pinLine g.uid l) (s.pass g w))

/-- IUNPIN (R191). -/
def execIunpin (c : BitVec 6) (off : BitVec 16) (s : State) : Out :=
  s.frontEnd (fun g w => s.pass { g with pins := g.pins.filter (fun l => !((hintLines w c off).contains l)) } w)

end Sys2Proof.Machine
end

