-- ==== Sys2Proof/Machine/Dispatch.lean ====
section
/-!
DEFINITION. Which meaning each instruction has.
-/
namespace Sys2Proof.Machine

/-- The meaning of each instruction, and of each step of the machine. -/
def exec (i : Instr) (s : State) : Host.Outcome State Fault Refusal :=
  match i with
  | .strandHeader n guard sense => Sys2Proof.Machine.execStrandHeader n guard sense s
  | .mov x => Sys2Proof.Machine.execMov x s
  | .putg r => Sys2Proof.Machine.execPutg r s
  | .fadd x => Sys2Proof.Machine.execFadd x s
  | .fsub x => Sys2Proof.Machine.execFsub x s
  | .frsub x => Sys2Proof.Machine.execFrsub x s
  | .fmul x => Sys2Proof.Machine.execFmul x s
  | .fmac x => Sys2Proof.Machine.execFmac x s
  | .fnmac x => Sys2Proof.Machine.execFnmac x s
  | .fmla x => Sys2Proof.Machine.execFmla x s
  | .fmax x => Sys2Proof.Machine.execFmax x s
  | .fmin x => Sys2Proof.Machine.execFmin x s
  | .mlat x => Sys2Proof.Machine.execMlat x s
  | .iadd x => Sys2Proof.Machine.execIadd x s
  | .isub x => Sys2Proof.Machine.execIsub x s
  | .irsub x => Sys2Proof.Machine.execIrsub x s
  | .imul x => Sys2Proof.Machine.execImul x s
  | .imac x => Sys2Proof.Machine.execImac x s
  | .imax x => Sys2Proof.Machine.execImax x s
  | .imin x => Sys2Proof.Machine.execImin x s
  | .zmax x => Sys2Proof.Machine.execZmax x s
  | .zmin x => Sys2Proof.Machine.execZmin x s
  | .and x => Sys2Proof.Machine.execAnd x s
  | .or x => Sys2Proof.Machine.execOr x s
  | .xor x => Sys2Proof.Machine.execXor x s
  | .andn x => Sys2Proof.Machine.execAndn x s
  | .shl x => Sys2Proof.Machine.execShl x s
  | .shr x => Sys2Proof.Machine.execShr x s
  | .sar x => Sys2Proof.Machine.execSar x s
  | .rol x => Sys2Proof.Machine.execRol x s
  | .nop => Sys2Proof.Machine.execNop s
  | .movL n x f => Sys2Proof.Machine.execMovL n x f s
  | .putgL n r => Sys2Proof.Machine.execPutgL n r s
  | .faddL n x => Sys2Proof.Machine.execFaddL n x s
  | .fsubL n x => Sys2Proof.Machine.execFsubL n x s
  | .frsubL n x => Sys2Proof.Machine.execFrsubL n x s
  | .fmulL n x => Sys2Proof.Machine.execFmulL n x s
  | .fmacL n x => Sys2Proof.Machine.execFmacL n x s
  | .fnmacL n x => Sys2Proof.Machine.execFnmacL n x s
  | .fmlaL n x => Sys2Proof.Machine.execFmlaL n x s
  | .fmaxL n x => Sys2Proof.Machine.execFmaxL n x s
  | .fminL n x => Sys2Proof.Machine.execFminL n x s
  | .mlatL n x f => Sys2Proof.Machine.execMlatL n x f s
  | .iaddL n x => Sys2Proof.Machine.execIaddL n x s
  | .isubL n x => Sys2Proof.Machine.execIsubL n x s
  | .irsubL n x => Sys2Proof.Machine.execIrsubL n x s
  | .imulL n x => Sys2Proof.Machine.execImulL n x s
  | .imacL n x => Sys2Proof.Machine.execImacL n x s
  | .imaxL n x => Sys2Proof.Machine.execImaxL n x s
  | .iminL n x => Sys2Proof.Machine.execIminL n x s
  | .zmaxL n x => Sys2Proof.Machine.execZmaxL n x s
  | .zminL n x => Sys2Proof.Machine.execZminL n x s
  | .andL n x => Sys2Proof.Machine.execAndL n x s
  | .orL n x => Sys2Proof.Machine.execOrL n x s
  | .xorL n x => Sys2Proof.Machine.execXorL n x s
  | .andnL n x => Sys2Proof.Machine.execAndnL n x s
  | .shlL n x => Sys2Proof.Machine.execShlL n x s
  | .shrL n x => Sys2Proof.Machine.execShrL n x s
  | .sarL n x => Sys2Proof.Machine.execSarL n x s
  | .rolL n x => Sys2Proof.Machine.execRolL n x s
  | .nopL n => Sys2Proof.Machine.execNopL n s
  | .cvt rm n code sat => Sys2Proof.Machine.execCvt rm n code sat s
  | .fdiv n x => Sys2Proof.Machine.execFdiv n x s
  | .idiv n x => Sys2Proof.Machine.execIdiv n x s
  | .zdiv n x => Sys2Proof.Machine.execZdiv n x s
  | .irem n x => Sys2Proof.Machine.execIrem n x s
  | .zrem n x => Sys2Proof.Machine.execZrem n x s
  | .sfu n fn => Sys2Proof.Machine.execSfu n fn s
  | .fabs n => Sys2Proof.Machine.execFabs n s
  | .fneg n => Sys2Proof.Machine.execFneg n s
  | .popc n => Sys2Proof.Machine.execPopc n s
  | .clz n => Sys2Proof.Machine.execClz n s
  | .brev n => Sys2Proof.Machine.execBrev n s
  | .selp n x p => Sys2Proof.Machine.execSelp n x p s
  | .fcmp c n x p comb => Sys2Proof.Machine.execFcmp c n x p comb s
  | .icmp c n x p comb => Sys2Proof.Machine.execIcmp c n x p comb s
  | .bfe n x pos => Sys2Proof.Machine.execBfe n x pos s
  | .faddx n x rm => Sys2Proof.Machine.execFaddx n x rm s
  | .fmulx n x rm => Sys2Proof.Machine.execFmulx n x rm s
  | .fmacx n x rm => Sys2Proof.Machine.execFmacx n x rm s
  | .fmlax n x rm => Sys2Proof.Machine.execFmlax n x rm s
  | .hadd2 n x f rm => Sys2Proof.Machine.execHadd2 n x f rm s
  | .hsub2 n x f rm => Sys2Proof.Machine.execHsub2 n x f rm s
  | .hmul2 n x f rm => Sys2Proof.Machine.execHmul2 n x f rm s
  | .hfma2 n x f rm => Sys2Proof.Machine.execHfma2 n x f rm s
  | .hmax2 n x f rm => Sys2Proof.Machine.execHmax2 n x f rm s
  | .hmin2 n x f rm => Sys2Proof.Machine.execHmin2 n x f rm s
  | .shfli n r => Sys2Proof.Machine.execShfli n r s
  | .shfl16 n r => Sys2Proof.Machine.execShfl16 n r s
  | .vote n mode p => Sys2Proof.Machine.execVote n mode p s
  | .red n op => Sys2Proof.Machine.execRed n op s
  | .scan n op excl => Sys2Proof.Machine.execScan n op excl s
  | .qx n dir r => Sys2Proof.Machine.execQx n dir r s
  | .rdsr n idx => Sys2Proof.Machine.execRdsr n idx s
  | .putp n t p => Sys2Proof.Machine.execPutp n t p s
  | .kwin n x => Sys2Proof.Machine.execKwin n x s
  | .knext n step p => Sys2Proof.Machine.execKnext n step p s
  | .unpk n hi r => Sys2Proof.Machine.execUnpk n hi r s
  | .nopl => Sys2Proof.Machine.execNopl s
  | .bra off => Sys2Proof.Machine.execBra off s
  | .brany sense p off => Sys2Proof.Machine.execBrany sense p off s
  | .brall sense p off => Sys2Proof.Machine.execBrall sense p off s
  | .brs sx off => Sys2Proof.Machine.execBrs sx off s
  | .call sx off => Sys2Proof.Machine.execCall sx off s
  | .ret sx => Sys2Proof.Machine.execRet sx s
  | .join min off => Sys2Proof.Machine.execJoin min off s
  | .loop0 sx len => Sys2Proof.Machine.execLoop0 sx len s
  | .loop1 sx len => Sys2Proof.Machine.execLoop1 sx len s
  | .loop2 sx len => Sys2Proof.Machine.execLoop2 sx len s
  | .loopi0 c len => Sys2Proof.Machine.execLoopi0 c len s
  | .loopi1 c len => Sys2Proof.Machine.execLoopi1 c len s
  | .loopi2 c len => Sys2Proof.Machine.execLoopi2 c len s
  | .wait cls n => Sys2Proof.Machine.execWait cls n s
  | .bar => Sys2Proof.Machine.execBar s
  | .gbar => Sys2Proof.Machine.execGbar s
  | .exit => Sys2Proof.Machine.execExit s
  | .give n => Sys2Proof.Machine.execGive n s
  | .claim n => Sys2Proof.Machine.execClaim n s
  | .claimp n p => Sys2Proof.Machine.execClaimp n p s
  | .part e => Sys2Proof.Machine.execPart e s
  | .cvset form cv sm => Sys2Proof.Machine.execCvset form cv sm s
  | .fence scope kind => Sys2Proof.Machine.execFence scope kind s
  | .yield => Sys2Proof.Machine.execYield s
  | .trap code => Sys2Proof.Machine.execTrap code s
  | .bkpt => Sys2Proof.Machine.execBkpt s
  | .ipf off => Sys2Proof.Machine.execIpf off s
  | .ipin c off => Sys2Proof.Machine.execIpin c off s
  | .iunpin c off => Sys2Proof.Machine.execIunpin c off s
  | .smov d x => Sys2Proof.Machine.execSmov d x s
  | .sadd d x y => Sys2Proof.Machine.execSadd d x y s
  | .ssub d x y => Sys2Proof.Machine.execSsub d x y s
  | .smul d x y => Sys2Proof.Machine.execSmul d x y s
  | .sand d x y => Sys2Proof.Machine.execSand d x y s
  | .sor d x y => Sys2Proof.Machine.execSor d x y s
  | .sxor d x y => Sys2Proof.Machine.execSxor d x y s
  | .sshl d x y => Sys2Proof.Machine.execSshl d x y s
  | .sshr d x y => Sys2Proof.Machine.execSshr d x y s
  | .saddi d x imm => Sys2Proof.Machine.execSaddi d x imm s
  | .smovi d imm => Sys2Proof.Machine.execSmovi d imm s
  | .scmp d c x y => Sys2Proof.Machine.execScmp d c x y s
  | .srd d idx => Sys2Proof.Machine.execSrd d idx s
  | .swr x idx => Sys2Proof.Machine.execSwr x idx s
  | .rte => Sys2Proof.Machine.execRte s
  | .haltb form st => Sys2Proof.Machine.execHaltb form st s
  | .resumeb form st => Sys2Proof.Machine.execResumeb form st s
  | .ldB32 n m => Sys2Proof.Machine.execLdB32 n m s
  | .ldI8 n m => Sys2Proof.Machine.execLdI8 n m s
  | .ldZ8 n m => Sys2Proof.Machine.execLdZ8 n m s
  | .ldI16 n m => Sys2Proof.Machine.execLdI16 n m s
  | .ldZ16 n m => Sys2Proof.Machine.execLdZ16 n m s
  | .ldBf16 n m => Sys2Proof.Machine.execLdBf16 n m s
  | .ldF16 n m => Sys2Proof.Machine.execLdF16 n m s
  | .stB32 n m => Sys2Proof.Machine.execStB32 n m s
  | .stB16 n m => Sys2Proof.Machine.execStB16 n m s
  | .stB8 n m => Sys2Proof.Machine.execStB8 n m s
  | .stBf16 n m => Sys2Proof.Machine.execStBf16 n m s
  | .stE4m3 n m => Sys2Proof.Machine.execStE4m3 n m s
  | .atomIadd n m => Sys2Proof.Machine.execAtomIadd n m s
  | .atomFadd n m => Sys2Proof.Machine.execAtomFadd n m s
  | .atomImax n m => Sys2Proof.Machine.execAtomImax n m s
  | .atomImin n m => Sys2Proof.Machine.execAtomImin n m s
  | .atomZmax n m => Sys2Proof.Machine.execAtomZmax n m s
  | .atomZmin n m => Sys2Proof.Machine.execAtomZmin n m s
  | .atomAnd n m => Sys2Proof.Machine.execAtomAnd n m s
  | .atomOr n m => Sys2Proof.Machine.execAtomOr n m s
  | .atomXor n m => Sys2Proof.Machine.execAtomXor n m s
  | .atomXchg n m => Sys2Proof.Machine.execAtomXchg n m s
  | .atomCas n m => Sys2Proof.Machine.execAtomCas n m s
  | .ldtr sA r nb elem sS => Sys2Proof.Machine.execLdtr sA r nb elem sS s
  | .cpyPlain c => Sys2Proof.Machine.execCpyPlain c s
  | .cpyCanon c f => Sys2Proof.Machine.execCpyCanon c f s
  | .cpyNorms c f => Sys2Proof.Machine.execCpyNorms c f s
  | .cpyVer c => Sys2Proof.Machine.execCpyVer c s
  | .cpyMcast c => Sys2Proof.Machine.execCpyMcast c s
  | .cpyo n dst desc out dsp pkg => Sys2Proof.Machine.execCpyo n dst desc out dsp pkg s
  | .kbind n sA m nn off => Sys2Proof.Machine.execKbind n sA m nn off s
  | .kfree n => Sys2Proof.Machine.execKfree n s
  | .mzero sA off => Sys2Proof.Machine.execMzero sA off s
  | .mma n sA sB f cv gB => Sys2Proof.Machine.execMma n sA sB f cv gB s
  | .msamp n sA sB sC f => Sys2Proof.Machine.execMsamp n sA sB sC f s
  | .mstat n r => Sys2Proof.Machine.execMstat n r s
  | .acheck sA sB off => Sys2Proof.Machine.execAcheck sA sB off s
  | .adrain sA sB sC opt keep off => Sys2Proof.Machine.execAdrain sA sB sC opt keep off s
  | .lsupd sA sB => Sys2Proof.Machine.execLsupd sA sB s
  | .treg sA sB sC => Sys2Proof.Machine.execTreg sA sB sC s
  | .tdrop sA => Sys2Proof.Machine.execTdrop sA s
  | .tmove sA sB sC => Sys2Proof.Machine.execTmove sA sB sC s
  | .solicit sA sB sC op pkg d => Sys2Proof.Machine.execSolicit sA sB sC op pkg d s
  | .reply n => Sys2Proof.Machine.execReply n s
  | .chsend sA r => Sys2Proof.Machine.execChsend sA r s
  | .chrecv sA r => Sys2Proof.Machine.execChrecv sA r s
  | .spawn n sA => Sys2Proof.Machine.execSpawn n sA s
  | .launch sA sB => Sys2Proof.Machine.execLaunch sA sB s
  | .sld sA sB order scope r => Sys2Proof.Machine.execSld sA sB order scope r s
  | .sst sA sB sC order scope => Sys2Proof.Machine.execSst sA sB sC order scope s
  | .pmrd cnt r => Sys2Proof.Machine.execPmrd cnt r s
  | .pmctl sA cnt => Sys2Proof.Machine.execPmctl sA cnt s
  | .brd off p sense sL t => Sys2Proof.Machine.execBrd off p sense sL t s
  | .strandStart die core cl => Sys2Proof.Machine.execStrandStart die core cl s
  | .loadComplete wg wid n => Sys2Proof.Machine.execLoadComplete wg wid n s
  | .strandInstructionComplete wg wid n => Sys2Proof.Machine.execStrandInstructionComplete wg wid n s
  | .engineIssue wg wid cl => Sys2Proof.Machine.execEngineIssue wg wid cl s
  | .engineRetire wg wid op => Sys2Proof.Machine.execEngineRetire wg wid op s
  | .lineLand wg wid op line => Sys2Proof.Machine.execLineLand wg wid op line s
  | .storeDrain wg wid => Sys2Proof.Machine.execStoreDrain wg wid s
  | .handlerEntry wg wid => Sys2Proof.Machine.execHandlerEntry wg wid s
  | .workgroupStop wg wid => Sys2Proof.Machine.execWorkgroupStop wg wid s
  | .binTimerExpiry wg bin => Sys2Proof.Machine.execBinTimerExpiry wg bin s
  | .warpFormation wg bin => Sys2Proof.Machine.execWarpFormation wg bin s
  | .overflowKeyEntry wg => Sys2Proof.Machine.execOverflowKeyEntry wg s
  | .poolGrant wg => Sys2Proof.Machine.execPoolGrant wg s
  | .claimDeadlock wg => Sys2Proof.Machine.execClaimDeadlock wg s
  | .workgroupEnd wg => Sys2Proof.Machine.execWorkgroupEnd wg s
  | .mmaSign wg wid cl => Sys2Proof.Machine.execMmaSign wg wid cl s
  | .versionedReadAttempt wg wid op => Sys2Proof.Machine.execVersionedReadAttempt wg wid op s
  | .censusDelivery id loc => Sys2Proof.Machine.execCensusDelivery id loc s
  | .oweArrival id loc => Sys2Proof.Machine.execOweArrival id loc s
  | .responderDeposit id loc => Sys2Proof.Machine.execResponderDeposit id loc s
  | .censusReport id loc => Sys2Proof.Machine.execCensusReport id loc s
  | .censusComplete id => Sys2Proof.Machine.execCensusComplete id s
  | .tmoveInstall wg wid op => Sys2Proof.Machine.execTmoveInstall wg wid op s
  | .dataFaultTimeout wg => Sys2Proof.Machine.execDataFaultTimeout wg s
  | .stepComplete wg wid => Sys2Proof.Machine.execStepComplete wg wid s
  | .haltComplete wg => Sys2Proof.Machine.execHaltComplete wg s
  | .sliceEnd die group => Sys2Proof.Machine.execSliceEnd die group s
  | .contextSave gang => Sys2Proof.Machine.execContextSave gang s
  | .contextRestore gang => Sys2Proof.Machine.execContextRestore gang s
  | .gangPlacement grid => Sys2Proof.Machine.execGangPlacement grid s
  | .gangReserve grid => Sys2Proof.Machine.execGangReserve grid s
  | .gridComplete grid => Sys2Proof.Machine.execGridComplete grid s
  | .dbLoadDescriptor q => Sys2Proof.Machine.execDbLoadDescriptor q s
  | .dbRing q => Sys2Proof.Machine.execDbRing q s
  | .pmaskWrite p v => Sys2Proof.Machine.execPmaskWrite p v s
  | .pcfgWrite p v => Sys2Proof.Machine.execPcfgWrite p v s
  | .fqcfgWrite v => Sys2Proof.Machine.execFqcfgWrite v s
  | .registerWrite win off v => Sys2Proof.Machine.execRegisterWrite win off v s
  | .shootPage v => Sys2Proof.Machine.execShootPage v s
  | .shootAsid v => Sys2Proof.Machine.execShootAsid v s
  | .shootAsidReload v => Sys2Proof.Machine.execShootAsidReload v s
  | .frespRetry v => Sys2Proof.Machine.execFrespRetry v s
  | .frespFail v => Sys2Proof.Machine.execFrespFail v s
  | .frespResume v => Sys2Proof.Machine.execFrespResume v s
  | .frespEnd v => Sys2Proof.Machine.execFrespEnd v s
  | .dbgHalt v => Sys2Proof.Machine.execDbgHalt v s
  | .dbgResume v => Sys2Proof.Machine.execDbgResume v s
  | .dbgStep v => Sys2Proof.Machine.execDbgStep v s
  | .apertureWrite pa v => Sys2Proof.Machine.execApertureWrite pa v s
  | .progWrite pa v => Sys2Proof.Machine.execProgWrite pa v s
  | .portKeynew f => Sys2Proof.Machine.execPortKeynew f s
  | .portKeykill f => Sys2Proof.Machine.execPortKeykill f s
  | .portClass f => Sys2Proof.Machine.execPortClass f s
  | .portPcap f => Sys2Proof.Machine.execPortPcap f s
  | .portErrread f => Sys2Proof.Machine.execPortErrread f s
  | .portTelem f => Sys2Proof.Machine.execPortTelem f s
  | .portReset f => Sys2Proof.Machine.execPortReset f s
  | .tripclr f => Sys2Proof.Machine.execTripclr f s
  | .portState f => Sys2Proof.Machine.execPortState f s
  | .powerSample milliwatts => Sys2Proof.Machine.execPowerSample milliwatts s
  | .thermalThrottle die => Sys2Proof.Machine.execThermalThrottle die s
  | .thermalTrip die => Sys2Proof.Machine.execThermalTrip die s
  | .linkDown link packages => Sys2Proof.Machine.execLinkDown link packages s
  | .linkUp link => Sys2Proof.Machine.execLinkUp link s
  | .errorCorrected pa loc => Sys2Proof.Machine.execErrorCorrected pa loc s
  | .errorUncorrectable pa loc scrub => Sys2Proof.Machine.execErrorUncorrectable pa loc scrub s
  | .bringUp failing => Sys2Proof.Machine.execBringUp failing s
  | .containerLoad file priv finalise => Sys2Proof.Machine.execContainerLoad file priv finalise s
  | .shootReservedKind v => Sys2Proof.Machine.execShootReservedKind v s
  | .mailboxUnknownOp v => Sys2Proof.Machine.execMailboxUnknownOp v s
  | .portUnknownOp f => Sys2Proof.Machine.execPortUnknownOp f s
  | .loopBackEdge => Sys2Proof.Machine.execLoopBackEdge s
  | .censusIssue => Sys2Proof.Machine.execCensusIssue s
  | .fetchFault => Sys2Proof.Machine.execFetchFault s
  | .breakpointMatch => Sys2Proof.Machine.execBreakpointMatch s
  | .faultRecordSend => Sys2Proof.Machine.execFaultRecordSend s
  | .gridStart => Sys2Proof.Machine.execGridStart s
  | .shootdownComplete => Sys2Proof.Machine.execShootdownComplete s
  | .keynew => Sys2Proof.Machine.execKeynew s
  | .keykill => Sys2Proof.Machine.execKeykill s
  | .classSet => Sys2Proof.Machine.execClassSet s
  | .errread => Sys2Proof.Machine.execErrread s
  | .telem => Sys2Proof.Machine.execTelem s
  | .pcap => Sys2Proof.Machine.execPcap s
  | .portkey => Sys2Proof.Machine.execPortkey s
  | .patrolScrub => Sys2Proof.Machine.execPatrolScrub s
  | .reservedEncoding => Sys2Proof.Machine.execReservedEncoding s

end Sys2Proof.Machine
end

