-- ==== Sys2Proof/Machine/Schedule.lean ====
section
/-!
DEFINITION. What moves next. The manual leaves the interleaving of the package's agents open (R18, R33, R91, R241); the model lets one
agent move at each step: an event that stands in `inbox`, else the agents that have something to do take turns with the front end by
the clock count (log 2, log 3).
-/
namespace Sys2Proof.Machine

/-- Events that software on the system cores causes: its writes to the windows, the mailbox and the aperture, and the loader. -/
def ofSystem : Instr → Bool
  | .dbLoadDescriptor _ | .dbRing _ | .pmaskWrite _ _ | .pcfgWrite _ _ | .fqcfgWrite _ | .registerWrite _ _ _ | .shootPage _ | .shootAsid _
  | .shootAsidReload _ | .shootReservedKind _ | .frespRetry _ | .frespFail _ | .frespResume _ | .frespEnd _ | .dbgHalt _ | .dbgResume _
  | .dbgStep _ | .apertureWrite _ _ | .progWrite _ _ | .keynew | .keykill | .classSet | .errread | .telem | .pcap | .portkey
  | .mailboxUnknownOp _ | .containerLoad _ _ _ => true
  | _ => false

/-- Events of the operator, of the controller's sensors and of the hardware's environment. -/
def ofOutside : Instr → Bool
  | .portKeynew _ | .portKeykill _ | .portClass _ | .portPcap _ | .portErrread _ | .portTelem _ | .portReset _ | .tripclr _ | .portState _
  | .portUnknownOp _ | .powerSample _ | .thermalThrottle _ | .thermalTrip _ | .linkDown _ _ | .linkUp _ | .errorCorrected _ _
  | .errorUncorrectable _ _ _ | .patrolScrub | .bringUp _ => true
  | _ => false

/-- Steps of the machine's own agents. -/
def ofAgent : Instr → Bool
  | .strandStart _ _ _ | .loadComplete _ _ _ | .strandInstructionComplete _ _ _ | .engineIssue _ _ _ | .engineRetire _ _ _ | .lineLand _ _ _ _
  | .storeDrain _ _ | .handlerEntry _ _ | .workgroupStop _ _ | .binTimerExpiry _ _ | .warpFormation _ _ | .overflowKeyEntry _ | .poolGrant _
  | .claimDeadlock _ | .workgroupEnd _ | .mmaSign _ _ _ | .versionedReadAttempt _ _ _ | .censusIssue | .censusDelivery _ _ | .oweArrival _ _
  | .responderDeposit _ _ | .censusReport _ _ | .censusComplete _ | .tmoveInstall _ _ _ | .dataFaultTimeout _ | .stepComplete _ _
  | .haltComplete _ | .sliceEnd _ _ | .contextSave _ | .contextRestore _ | .faultRecordSend | .gridStart | .gangPlacement _ | .gangReserve _
  | .gridComplete _ | .shootdownComplete => true
  | _ => false

/-- The package is up: bring-up has completed, and no thermal trip holds it in reset (R360, R363). -/
def State.powered (s : State) : Bool := s.mgmt.lastStep == 7 && !s.mgmt.heldInReset

/-- Whether an event may happen now: software and the machine's agents need a package that is up. Instructions of kernels come from
memory alone. -/
def State.mayHappen (s : State) (i : Instr) : Bool := ofOutside i || (s.powered && (ofSystem i || ofAgent i))

/-- Requests of the management port that waited for a mailbox command are due when that has ended (R364). -/
def State.portDue (s : State) : Bool := !s.mbBusy && !s.mgmt.portQueue.isEmpty

-- the agents that have something to do
/-- An event that is due under a condition. -/
def onlyIf (b : Bool) (i : Instr) : List Instr := if b then [i] else []

/-- Steps of the cluster queues of a warp. -/
def State.queueSteps (s : State) (g : Workgroup) (w : Warp) : List Instr :=
  (List.range 8).flatMap (fun cl => match nth [] w.queues cl with
    | [] => []
    | e :: _ =>
      if !(s.ready g w e) then []
      else if !e.isEngine then [.strandStart (BitVec.ofNat 2 g.die) (BitVec.ofNat 6 g.core) (BitVec.ofNat 3 cl)]
      else if e.isMma then [.mmaSign g.uid w.wid (BitVec.ofNat 3 cl)]
      else if e.engClass == some .cen && s.solicits.contains (g.uid, w.wid, e.seq) then []
      else [.engineIssue g.uid w.wid (BitVec.ofNat 3 cl)])

/-- Completions of the instructions that have started. -/
def Warp.startedSteps (g : Workgroup) (w : Warp) : List Instr :=
  w.started.map (fun e => if e.isLoad then .loadComplete g.uid w.wid (BitVec.ofNat 4 e.n)
    else .strandInstructionComplete g.uid w.wid (BitVec.ofNat 4 e.n))

/-- Steps of the engine operations of a warp, or of a freed slot. -/
def State.opSteps (s : State) (g : Workgroup) (w : Warp) : List Instr :=
  (w.ops.filter (fun o => EngOp.turn s g w o)).flatMap (fun o =>
    let retire : Instr := .engineRetire g.uid w.wid o.id
    if o.prog.done || o.prog.failed.isSome then [retire]
    else match o.kind with
      | .solicit _ _ _ _ _ _ => []
      | .tmove _ _ _ => [.tmoveInstall g.uid w.wid o.id]
      | .cpy .ver _ _ _ _ _ _ _ => [.versionedReadAttempt g.uid w.wid o.id]
      | _ => retire :: (o.prog.pendingLines ++ o.prog.out).map (fun l => .lineLand g.uid w.wid o.id l))

/-- Steps of the stops of a warp. -/
def State.stopSteps (s : State) (g : Workgroup) (w : Warp) : List Instr :=
  (match w.stopping with
   | none => []
   | some st =>
     if !w.started.isEmpty then []
     else if s.stopLeads g w st then [.handlerEntry g.uid w.wid]
     else if g.stopDue st then [.workgroupStop g.uid w.wid]
     else onlyIf (st.goal == StopGoal.halt) (.haltComplete g.uid))
  ++ onlyIf (w.stepping == some true && w.drained && w.stopping.isNone) (.stepComplete g.uid w.wid)

/-- Steps of a warp. -/
def State.warpSteps (s : State) (g : Workgroup) (w : Warp) : List Instr :=
  s.queueSteps g w ++ w.startedSteps g ++ s.opSteps g w ++ onlyIf ((w.storeQ.head?.bind StoreEntry.bytes).isSome) (.storeDrain g.uid w.wid)
    ++ s.stopSteps g w

/-- A formation that can be made, or can join the pool queue (R33, R34, R38). -/
def Workgroup.formable (g : Workgroup) (b : Bin) : Bool :=
  g.triggered b && !g.formerStill && (g.splitDue b || (g.plainDue b && !(g.poolQ.any (fun r => r == .form b.key))))

/-- Steps of the former, of the pool and of the workgroup itself. -/
def State.groupSteps (s : State) (g : Workgroup) : List Instr :=
  g.allBins.zipIdx.flatMap (fun b => onlyIf (b.1.due s.clk && !g.formerStill) (.binTimerExpiry g.uid b.2)
      ++ onlyIf (g.formable b.1) (.warpFormation g.uid b.2))
    ++ onlyIf (!g.held.isEmpty && (s.promoteHeld g).isSome) (.overflowKeyEntry g.uid) ++ onlyIf g.poolReady (.poolGrant g.uid)
    ++ onlyIf g.claimStuck (.claimDeadlock g.uid) ++ onlyIf (!(g.haltReport.filter g.haltDone).isEmpty) (.haltComplete g.uid)
    ++ onlyIf (g.awaiting.isNone && g.saveTo.isNone && g.overdue s.clk) (.dataFaultTimeout g.uid)

/-- Steps of a workgroup. -/
def State.wgSteps (s : State) (g : Workgroup) : List Instr :=
  onlyIf (s.ended g) (.workgroupEnd g.uid) ++
    (if g.residence == .resident then
       s.groupSteps g ++ g.warps.flatMap (s.warpSteps g) ++ g.ghosts.flatMap (s.opSteps g)
     else [])

/-- Steps of the census network. -/
def Census.steps (c : Census) : List Instr :=
  c.toVisit.map (fun l => .censusDelivery c.id l) ++ (c.owes.filter (fun o => o.copy.isSome)).map (fun o => .oweArrival c.id o.dst)
    ++ c.reports.map (fun r => if r.ripe then .censusReport c.id r.loc else .responderDeposit c.id r.loc)
    ++ onlyIf c.finished (.censusComplete c.id)

/-- Steps of the distributor for a grid. -/
def State.gridSteps (s : State) (x : Grid) : List Instr :=
  onlyIf (decide (x.next < x.total)) (.gangPlacement x.uid)
    ++ onlyIf (decide (x.next < x.total) && !x.reserved && decide (x.waitSince + reserveAfter ≤ s.clk)) (.gangReserve x.uid)
    ++ onlyIf x.allEnded (.gridComplete x.uid)

/-- Saving and restoring a gang. -/
def State.gangSteps (s : State) (x : Gang) : List Instr :=
  onlyIf (s.leaving x.uid || s.mustLeave x.uid) (.contextSave x.uid)
    ++ onlyIf ((s.gangHere x.uid).isEmpty && (s.mayRestore x.uid).isSome) (.contextRestore x.uid)

/-- Slices of the groups of partitions. -/
def State.sliceSteps (s : State) : List Instr :=
  (s.partitionsOn.filter (fun p => s.running p.die p.group == some p.p && s.sliceOver p.die p.group p.p
    && decide (2 ≤ (s.mates p.die p.group).length))).map (fun p => .sliceEnd (BitVec.ofNat 2 p.die) (BitVec.ofNat 6 p.group))

/-- Every step of the machine's agents that is due. -/
def State.due (s : State) : List Instr :=
  onlyIf (!s.faultsOut.isEmpty && s.fqRoom) .faultRecordSend ++ onlyIf (!s.shoots.isEmpty) .shootdownComplete
    ++ s.wgs.flatMap s.wgSteps ++ onlyIf (!s.solicits.isEmpty) .censusIssue ++ s.censuses.flatMap Census.steps
    ++ onlyIf s.nextQueue.isSome .gridStart ++ s.grids.flatMap s.gridSteps ++ s.gangs.flatMap s.gangSteps ++ s.sliceSteps

-- the front end
/-- Clk in 100 µs at the nominal clock (R359). -/
def withholdPeriod : Nat := 100 * Config.clkPerMicro

/-- Dispatch is withheld from the island of a workgroup's core now (R359). -/
def State.withholds (s : State) (g : Workgroup) : Bool :=
  decide (0 < s.mgmt.withheld) && s.sharedIsland g.die (g.core / 8)
    && decide (s.clk % withholdPeriod * 16 < s.mgmt.withheld * withholdPeriod)

/-- The front end has done something for a warp: it moved on, or blocked, or began to stop. -/
def State.advanced (s t : State) (g : Workgroup) (w : Warp) : Bool :=
  match s.at { wg := g.uid, wid := w.wid }, t.at { wg := g.uid, wid := w.wid } with
  | some (_, a), some (_, b) =>
    !(a.pc == b.pc && a.hdr == b.hdr && a.block == b.block && a.stopping.isSome == b.stopping.isSome && a.halted == b.halted
      && a.stopped == b.stopped && a.haltWait == b.haltWait && a.uni.handler == b.uni.handler && a.uni.loops.length == b.uni.loops.length
      && a.active == b.active)
  | _, _ => true

/-- The front ends serve the first warp, in the order of their turn, for which they can do something; where there is none, what they do
for the first stands. -/
def State.frontTurn (run : Instr → State → Out) (s : State) : List (Workgroup × Warp) → Option State → Out
  | [], first => .next (first.getD s)
  | (g, w) :: rest, first =>
    let v := s.turnTo g w
    match v.1.frontStep run v.2.1 v.2.2 with
    | .next t => if s.advanced t g w then .next t else s.frontTurn run rest (some (first.getD t))
    | .fault f => .fault f
    | .refused r => .refused r

/-- The front ends' turn. -/
def State.frontEnds (run : Instr → State → Out) (s : State) : Out :=
  s.frontTurn run (s.readyWarps.filter (fun p => !(s.withholds p.1))) none

/-- One step of the package at its new clk: the next event of the inbox, the requests that the management port has kept waiting, or the
turn of an agent or of the front ends. -/
def State.tick (run : Instr → State → Out) (s : State) : Out :=
  match s.inbox with
  | i :: rest =>
    let s1 : State := { s with inbox := rest }
    if s1.mayHappen i then run i s1 else .next s1
  | [] =>
    if s.portDue then .next s.portDrain
    else if !s.powered then .next s
    else
      let d := s.due
      match d[s.clk % (d.length + 1)]? with
      | some i => run i s
      | none => s.frontEnds run

/-- The clock counts, and no warp executes until the front end names one. -/
def State.clocked (s : State) : State := { s with clk := s.clk + 1, cur := none }

end Sys2Proof.Machine
end

