-- ==== Sys2Proof/Machine/Placing.lean ====
section
/-!
DEFINITION. A package with one warp about to execute one instruction: how `State.withFetchWord` stands for the launch of a program,
which system software makes through a queue (R306 to R314, log 12).
-/
namespace Sys2Proof.Machine

/-- Where the instruction stands, and its page tables: a root, and a table whose first entry maps 1 GiB. -/
def probeCode : Nat := 0x40000
def probeRoot : Nat := 0x1000
def probeTable : Nat := 0x2000

/-- The ASID entry of the context: number 1, EN, context 0. -/
def probeAsid : AsidEntry :=
  { asid := 1, root := BitVec.ofNat 64 (probeRoot + 1), ctx := 0, save := 0, saveSz := 0, bps := [], wps := [] }

/-- The launch record: one workgroup of 32 threads with every register, 64 KiB of scratchpad, 8 tile slots, and every feature of the
header that needs no table. -/
def probeLaunch (rev : Nat) : LaunchRec :=
  { waits := [], cpl := 0, chan := 0, nchan := 0, ovflSize := 65536, ovfl := 0x20000000, const := 0, seed := 0, bins := 8, dies := 7,
    svck := false, gfall := 1, gpref := 1, nthr := 32, nwg := (1, 1, 1), handler := 0, entry := BitVec.ofNat 64 probeCode,
    header := BitVec.ofNat 64 ((if rev == 1 then 0x1500000000000000 else 0x2600000000000000) + 63 * 2 ^ 48 + 2 ^ 34 + 64 * 2 ^ 24 + 8 * 2 ^ 16 + 10),
    clean := true }

/-- Its grid. -/
def probeGrid (rev : Nat) : Grid :=
  { uid := 0, queue := 0, index := 0, asid := 1, prio := 0, launch := probeLaunch rev, consts := [], chans := [], next := 1, ended := 0,
    killed := 0, waitSince := 0, reserved := false, oneDie := none, status := 0, written := false }

/-- The package with a workgroup of one warp at `probeCode` of ASID 1, and the parcels there; no other work is left in it. -/
def State.withProgram (s : State) (rev : Nat) (ps : List Half) : State :=
  let n := s.nextUid
  let g := (probeGrid rev).workgroup probeAsid (n + 1) n 0 0 1 0 0 0 true false
  let g1 : Workgroup := { g with warps := g.launchWarps 32 (n + 2) }
  let gang : Gang := { uid := n + 1, grid := 0, size := 1, members := [n], partition := 0, channels := [] }
  let s1 : State :=
    { s with wgs := [g1], gangs := [gang], grids := [], queues := [], partitions := [], slices := [], directory := [], censuses := [],
             solicits := [], marks := [], tlb := [], asids := [probeAsid], shoots := [], faultsOut := [], cur := none, inbox := [],
             mgmt := { s.mgmt with keys := [(1, n + 3)], withheld := 0, heldInReset := false, lastStep := 7 }, nextUid := n + 4 }
  let s2 := (s1.sysWrite probeRoot 8 (probeTable + 1)).sysWrite probeTable 8 0x35
  s2.writePhys (n + 3) (physKey 0 0 probeCode) (2 * ps.length) (leNat (ps.flatMap (fun p => leBytes 2 p.toNat)))

end Sys2Proof.Machine
end

