-- ==== Sys2Proof/Machine/Step.lean ====
section
/-!
DEFINITION. One step of the package: the clock counts (R60), and the event or agent whose turn it is moves.
-/
namespace Sys2Proof.Machine

/-- One step. -/
def step (s : State) : Host.Outcome State Fault Refusal := s.clocked.tick exec

/-- The state with the instruction of an opcode-table word where `step` fetches next: system software's launch of a program that
begins with it (log 12). An instruction that only encoding revision 1 has gets a revision-1 kernel. -/
def State.withFetchWord (s : State) (nbits w : Nat) : State :=
  let ps := Sys2Proof.tableParcels nbits w
  let rev := match Sys2Proof.decode 2 ps, Sys2Proof.decode 1 ps with
    | .error _, .ok _ => 1
    | _, _ => 2
  s.withProgram rev ps

end Sys2Proof.Machine
end

