-- ==== Sys2Proof/Laws/Lists.lean ====
section
/-!
SUPPORT. Laws of the small operations of Machine/Bits.lean: reading a list after a write of it, lanes, and cells, whose canonical form
every operation keeps.
-/
namespace Sys2Proof.Machine

/-- Reading an element after writing one. -/
theorem nth_setNth {α : Type} (d : α) (l : List α) (i j : Nat) (a : α) :
    nth d (setNth d l i a) j = if j = i then a else nth d l j := by
  induction l generalizing i j with
  | nil =>
    induction i generalizing j with
    | zero => cases j <;> simp [setNth, nth]
    | succ i ih =>
      cases j with
      | zero => simp [setNth, nth]
      | succ j => simpa [setNth, nth] using ih j
  | cons b l ih =>
    cases i with
    | zero => cases j <;> simp [setNth, nth]
    | succ i =>
      cases j with
      | zero => simp [setNth, nth]
      | succ j => simpa [setNth, nth] using ih i j

@[simp] theorem nth_setNth_self {α : Type} (d : α) (l : List α) (i : Nat) (a : α) : nth d (setNth d l i a) i = a := by
  simp [nth_setNth]

theorem nth_setNth_ne {α : Type} (d : α) (l : List α) (i j : Nat) (a : α) (h : j ≠ i) :
    nth d (setNth d l i a) j = nth d l j := by
  simp [nth_setNth, h]

/-- A lane of a list of lanes given by a function. -/
theorem laneOf_tab (f : Nat → Word) (l : Nat) : laneOf (tab f) l = if l < 32 then f l else 0 := by
  simp only [laneOf, nth, tab, laneNums, List.getElem?_map]
  by_cases h : l < 32
  · simp [h]
  · simp [h]

/-- A lane of a merge: the new value in the set, the old one elsewhere (R49). -/
theorem laneOf_merge (x : LaneSet) (new old : Lanes) (l : Nat) (h : l < 32) :
    laneOf (merge x new old) l = if x.getLsbD l then laneOf new l else laneOf old l := by
  simp [merge, laneOf_tab, h]

/-- The bits of a lane set given by a test. -/
theorem laneBits (f : Nat → Bool) (n : Nat) :
    ((List.range n).foldl (fun a l => if f l then a + 2 ^ l else a) 0 < 2 ^ n) ∧
    ∀ i, ((List.range n).foldl (fun a l => if f l then a + 2 ^ l else a) 0).testBit i = (decide (i < n) && f i) := by
  induction n with
  | zero => simp
  | succ n ih =>
    rw [List.range_succ, List.foldl_append]
    simp only [List.foldl_cons, List.foldl_nil]
    obtain ⟨h1, h2⟩ := ih
    generalize (List.range n).foldl (fun a l => if f l then a + 2 ^ l else a) 0 = v at *
    have hp : (2 : Nat) ^ (n + 1) = 2 ^ n + 2 ^ n := by rw [Nat.pow_succ]; omega
    cases hf : f n with
    | false =>
      simp only [Bool.false_eq_true, if_false]
      refine ⟨by omega, fun i => ?_⟩
      rw [h2 i]
      by_cases hi : i = n
      · subst hi; simp [hf]
      · have : (i < n + 1) ↔ i < n := by omega
        simp [this]
    | true =>
      simp only [if_true]
      refine ⟨by omega, fun i => ?_⟩
      rw [Nat.add_comm]
      by_cases hi : i = n
      · subst hi
        rw [Nat.testBit_two_pow_add_eq, h2]
        simp [hf]
      · by_cases hl : i < n
        · rw [Nat.testBit_two_pow_add_gt hl, h2]
          have : i < n + 1 := by omega
          simp [hl, this]
        · have hge : n + 1 ≤ i := by omega
          have : 2 ^ n + v < 2 ^ i := Nat.lt_of_lt_of_le (by omega) (Nat.pow_le_pow_right (by omega) hge)
          rw [Nat.testBit_lt_two_pow this]
          have : ¬ i < n + 1 := by omega
          simp [this]

/-- A lane set given by a test holds the lanes that pass it. -/
theorem getLsbD_laneSet (f : Nat → Bool) (l : Nat) : (laneSet f).getLsbD l = (decide (l < 32) && f l) := by
  have h := (laneBits f 32).2 l
  rw [laneSet, BitVec.getLsbD_ofNat, show laneNums = List.range 32 from rfl, h]
  by_cases hl : l < 32 <;> simp [hl]

/-- Reading a cell after setting one. -/
theorem cellAt_cellSet {β : Type} (m : List (Nat × β)) (x y : Nat) (v : β) :
    cellAt (cellSet m x v) y = if y = x then some v else cellAt m y := by
  induction m with
  | nil =>
    by_cases h : y = x
    · simp [cellSet, cellAt, h]
    · simp [cellSet, cellAt, h, Ne.symm h]
  | cons c m ih =>
    obtain ⟨a, b⟩ := c
    simp only [cellSet]
    by_cases h1 : a = x
    · subst h1
      by_cases h : y = a
      · simp [cellAt, h]
      · simp [cellAt, h, Ne.symm h]
    · by_cases h2 : x < a
      · by_cases h : y = x
        · simp [cellAt, h, h1, h2]
        · simp [cellAt, h, h1, h2, Ne.symm h]
      · by_cases h3 : a = y
        · subst h3
          simp [cellAt, h1, h2]
        · simp [cellAt, ih, h1, h2, h3]

/-- Reading a cell after dropping one. -/
theorem cellAt_cellDrop {β : Type} (m : List (Nat × β)) (x y : Nat) :
    cellAt (cellDrop m x) y = if y = x then none else cellAt m y := by
  induction m with
  | nil => simp [cellDrop, cellAt]
  | cons c m ih =>
    obtain ⟨a, b⟩ := c
    simp only [cellDrop] at ih
    by_cases h : y = x <;> by_cases h1 : a = x <;> by_cases h3 : a = y <;> simp_all [cellDrop, cellAt]

/-- A list with rising addresses: its tail rises, and every address of it is above the first. -/
theorem cellsRise_cons {β : Type} (a : Nat) (b : β) (m : List (Nat × β)) :
    cellsRise ((a, b) :: m) = true ↔ (∀ c ∈ m, a < c.1) ∧ cellsRise m = true := by
  induction m generalizing a b with
  | nil => simp [cellsRise]
  | cons c m ih =>
    obtain ⟨a', b'⟩ := c
    simp only [cellsRise, Bool.and_eq_true, decide_eq_true_eq, List.mem_cons, forall_eq_or_imp]
    constructor
    · rintro ⟨h1, h2⟩
      exact ⟨⟨h1, fun c hc => Nat.lt_trans h1 (((ih a' b').1 h2).1 c hc)⟩, h2⟩
    · rintro ⟨⟨h1, _⟩, h2⟩
      exact ⟨h1, h2⟩

theorem mem_cellSet {β : Type} (m : List (Nat × β)) (x : Nat) (v : β) (c : Nat × β) (h : c ∈ cellSet m x v) :
    c.1 = x ∨ c ∈ m := by
  induction m with
  | nil => simp_all [cellSet]
  | cons d m ih =>
    obtain ⟨a, b⟩ := d
    simp only [cellSet] at h
    split at h
    · simp_all; rcases h with h | h <;> simp_all
    · split at h
      · simp_all; rcases h with h | h | h <;> simp_all
      · simp_all; rcases h with h | h
        · simp_all
        · rcases ih h with h | h <;> simp_all

/-- Setting a cell keeps the canonical form. -/
theorem cellsRise_cellSet {β : Type} (m : List (Nat × β)) (x : Nat) (v : β) (h : cellsRise m = true) :
    cellsRise (cellSet m x v) = true := by
  induction m with
  | nil => simp [cellSet, cellsRise]
  | cons d m ih =>
    obtain ⟨a, b⟩ := d
    rw [cellsRise_cons] at h
    simp only [cellSet]
    split
    · rename_i e; simp at e; subst e; rw [cellsRise_cons]; exact h
    · split
      · rename_i e
        rw [cellsRise_cons, cellsRise_cons]
        refine ⟨?_, h⟩
        intro c hc
        rcases List.mem_cons.1 hc with rfl | hc
        · exact e
        · exact Nat.lt_trans e (h.1 c hc)
      · rename_i e1 e2
        simp at e1
        rw [cellsRise_cons]
        refine ⟨?_, ih h.2⟩
        intro c hc
        rcases mem_cellSet m x v c hc with hc | hc
        · omega
        · exact h.1 c hc

/-- Keeping some of the cells keeps the canonical form. -/
theorem cellsRise_filter {β : Type} (m : List (Nat × β)) (p : Nat × β → Bool) (h : cellsRise m = true) :
    cellsRise (m.filter p) = true := by
  induction m with
  | nil => simp [cellsRise]
  | cons d m ih =>
    obtain ⟨a, b⟩ := d
    rw [cellsRise_cons] at h
    simp only [List.filter_cons]
    split
    · rw [cellsRise_cons]
      exact ⟨fun c hc => h.1 c (List.mem_filter.1 hc).1, ih h.2⟩
    · exact ih h.2

/-- Changing values by address keeps the canonical form. -/
theorem cellsRise_map {β : Type} (m : List (Nat × β)) (f : Nat × β → β) (h : cellsRise m = true) :
    cellsRise (m.map (fun c => (c.1, f c))) = true := by
  induction m with
  | nil => simp [cellsRise]
  | cons d m ih =>
    obtain ⟨a, b⟩ := d
    rw [cellsRise_cons] at h
    rw [List.map_cons, cellsRise_cons]
    refine ⟨fun c hc => ?_, ih h.2⟩
    obtain ⟨x, hx, rfl⟩ := List.mem_map.1 hc
    exact h.1 x hx

/-- Putting a cell keeps the canonical form. -/
theorem cellsRise_cellPut {β : Type} [BEq β] (plain : Option β) (m : List (Nat × β)) (x : Nat) (v : β) (h : cellsRise m = true) :
    cellsRise (cellPut plain m x v) = true := by
  simp only [cellPut]
  split
  · exact cellsRise_filter m _ h
  · exact cellsRise_cellSet m x v h

theorem cellsRise_cellPutAll {β : Type} [BEq β] (plain : Option β) (m : List (Nat × β)) (cs : List (Nat × β)) (h : cellsRise m = true) :
    cellsRise (cellPutAll plain m cs) = true := by
  simp only [cellPutAll]
  induction cs generalizing m with
  | nil => exact h
  | cons c cs ih => exact ih _ (cellsRise_cellPut plain m c.1 c.2 h)

/-- Little-endian bytes stand for their number (R5). -/
theorem leNat_leBytes (n v : Nat) : leNat (leBytes n v) = v % 256 ^ n := by
  induction n generalizing v with
  | zero => simp [leBytes, leNat, Nat.mod_one]
  | succ n ih =>
    have h : v % 256 ^ (n + 1) = v % 256 + 256 * (v / 256 % 256 ^ n) := by
      rw [Nat.pow_succ, Nat.mul_comm (256 ^ n) 256, Nat.mod_mul]
    rw [h]
    simp [leBytes, leNat, ih]

theorem length_leBytes (n v : Nat) : (leBytes n v).length = n := by
  induction n generalizing v with
  | zero => rfl
  | succ n ih => simp [leBytes, ih]

end Sys2Proof.Machine
end

