-- ==== Sys2Proof/Laws/State.lean ====
section
/-!
SUPPORT. What each update of the state leaves as it is: one law for each field and each update, so that no proof unfolds a record
update; then how the executing warp is found again once it has been replaced, and what presence bits become.
-/
namespace Sys2Proof.Machine

@[simp] theorem State.setWg_gangs (s : State) (g : Workgroup) : (s.setWg g).gangs = s.gangs := rfl
@[simp] theorem State.setWg_grids (s : State) (g : Workgroup) : (s.setWg g).grids = s.grids := rfl
@[simp] theorem State.setWg_queues (s : State) (g : Workgroup) : (s.setWg g).queues = s.queues := rfl
@[simp] theorem State.setWg_partitions (s : State) (g : Workgroup) : (s.setWg g).partitions = s.partitions := rfl
@[simp] theorem State.setWg_slices (s : State) (g : Workgroup) : (s.setWg g).slices = s.slices := rfl
@[simp] theorem State.setWg_directory (s : State) (g : Workgroup) : (s.setWg g).directory = s.directory := rfl
@[simp] theorem State.setWg_censuses (s : State) (g : Workgroup) : (s.setWg g).censuses = s.censuses := rfl
@[simp] theorem State.setWg_solicits (s : State) (g : Workgroup) : (s.setWg g).solicits = s.solicits := rfl
@[simp] theorem State.setWg_mem (s : State) (g : Workgroup) : (s.setWg g).mem = s.mem := rfl
@[simp] theorem State.setWg_marks (s : State) (g : Workgroup) : (s.setWg g).marks = s.marks := rfl
@[simp] theorem State.setWg_tlb (s : State) (g : Workgroup) : (s.setWg g).tlb = s.tlb := rfl
@[simp] theorem State.setWg_asids (s : State) (g : Workgroup) : (s.setWg g).asids = s.asids := rfl
@[simp] theorem State.setWg_shoots (s : State) (g : Workgroup) : (s.setWg g).shoots = s.shoots := rfl
@[simp] theorem State.setWg_faultsOut (s : State) (g : Workgroup) : (s.setWg g).faultsOut = s.faultsOut := rfl
@[simp] theorem State.setWg_counters (s : State) (g : Workgroup) : (s.setWg g).counters = s.counters := rfl
@[simp] theorem State.setWg_qtBase (s : State) (g : Workgroup) : (s.setWg g).qtBase = s.qtBase := rfl
@[simp] theorem State.setWg_asidTb (s : State) (g : Workgroup) : (s.setWg g).asidTb = s.asidTb := rfl
@[simp] theorem State.setWg_fqBase (s : State) (g : Workgroup) : (s.setWg g).fqBase = s.fqBase := rfl
@[simp] theorem State.setWg_fqCfg (s : State) (g : Workgroup) : (s.setWg g).fqCfg = s.fqCfg := rfl
@[simp] theorem State.setWg_fqTail (s : State) (g : Workgroup) : (s.setWg g).fqTail = s.fqTail := rfl
@[simp] theorem State.setWg_fqHead (s : State) (g : Workgroup) : (s.setWg g).fqHead = s.fqHead := rfl
@[simp] theorem State.setWg_shootSt (s : State) (g : Workgroup) : (s.setWg g).shootSt = s.shootSt := rfl
@[simp] theorem State.setWg_dapBase (s : State) (g : Workgroup) : (s.setWg g).dapBase = s.dapBase := rfl
@[simp] theorem State.setWg_interrupts (s : State) (g : Workgroup) : (s.setWg g).interrupts = s.interrupts := rfl
@[simp] theorem State.setWg_linksDown (s : State) (g : Workgroup) : (s.setWg g).linksDown = s.linksDown := rfl
@[simp] theorem State.setWg_mgmt (s : State) (g : Workgroup) : (s.setWg g).mgmt = s.mgmt := rfl
@[simp] theorem State.setWg_coreUse (s : State) (g : Workgroup) : (s.setWg g).coreUse = s.coreUse := rfl
@[simp] theorem State.setWg_coreBound (s : State) (g : Workgroup) : (s.setWg g).coreBound = s.coreBound := rfl
@[simp] theorem State.setWg_frontCore (s : State) (g : Workgroup) : (s.setWg g).frontCore = s.frontCore := rfl
@[simp] theorem State.setWg_loaded (s : State) (g : Workgroup) : (s.setWg g).loaded = s.loaded := rfl
@[simp] theorem State.setWg_refused (s : State) (g : Workgroup) : (s.setWg g).refused = s.refused := rfl
@[simp] theorem State.setWg_cur (s : State) (g : Workgroup) : (s.setWg g).cur = s.cur := rfl
@[simp] theorem State.setWg_inbox (s : State) (g : Workgroup) : (s.setWg g).inbox = s.inbox := rfl
@[simp] theorem State.setWg_clk (s : State) (g : Workgroup) : (s.setWg g).clk = s.clk := rfl
@[simp] theorem State.setWg_free (s : State) (g : Workgroup) : (s.setWg g).free = s.free := rfl
@[simp] theorem State.setWg_nextUid (s : State) (g : Workgroup) : (s.setWg g).nextUid = s.nextUid := rfl

@[simp] theorem State.put_gangs (s : State) (g : Workgroup) (w : Warp) : (s.put g w).gangs = s.gangs := rfl
@[simp] theorem State.put_grids (s : State) (g : Workgroup) (w : Warp) : (s.put g w).grids = s.grids := rfl
@[simp] theorem State.put_queues (s : State) (g : Workgroup) (w : Warp) : (s.put g w).queues = s.queues := rfl
@[simp] theorem State.put_partitions (s : State) (g : Workgroup) (w : Warp) : (s.put g w).partitions = s.partitions := rfl
@[simp] theorem State.put_slices (s : State) (g : Workgroup) (w : Warp) : (s.put g w).slices = s.slices := rfl
@[simp] theorem State.put_directory (s : State) (g : Workgroup) (w : Warp) : (s.put g w).directory = s.directory := rfl
@[simp] theorem State.put_censuses (s : State) (g : Workgroup) (w : Warp) : (s.put g w).censuses = s.censuses := rfl
@[simp] theorem State.put_solicits (s : State) (g : Workgroup) (w : Warp) : (s.put g w).solicits = s.solicits := rfl
@[simp] theorem State.put_mem (s : State) (g : Workgroup) (w : Warp) : (s.put g w).mem = s.mem := rfl
@[simp] theorem State.put_marks (s : State) (g : Workgroup) (w : Warp) : (s.put g w).marks = s.marks := rfl
@[simp] theorem State.put_tlb (s : State) (g : Workgroup) (w : Warp) : (s.put g w).tlb = s.tlb := rfl
@[simp] theorem State.put_asids (s : State) (g : Workgroup) (w : Warp) : (s.put g w).asids = s.asids := rfl
@[simp] theorem State.put_shoots (s : State) (g : Workgroup) (w : Warp) : (s.put g w).shoots = s.shoots := rfl
@[simp] theorem State.put_faultsOut (s : State) (g : Workgroup) (w : Warp) : (s.put g w).faultsOut = s.faultsOut := rfl
@[simp] theorem State.put_counters (s : State) (g : Workgroup) (w : Warp) : (s.put g w).counters = s.counters := rfl
@[simp] theorem State.put_qtBase (s : State) (g : Workgroup) (w : Warp) : (s.put g w).qtBase = s.qtBase := rfl
@[simp] theorem State.put_asidTb (s : State) (g : Workgroup) (w : Warp) : (s.put g w).asidTb = s.asidTb := rfl
@[simp] theorem State.put_fqBase (s : State) (g : Workgroup) (w : Warp) : (s.put g w).fqBase = s.fqBase := rfl
@[simp] theorem State.put_fqCfg (s : State) (g : Workgroup) (w : Warp) : (s.put g w).fqCfg = s.fqCfg := rfl
@[simp] theorem State.put_fqTail (s : State) (g : Workgroup) (w : Warp) : (s.put g w).fqTail = s.fqTail := rfl
@[simp] theorem State.put_fqHead (s : State) (g : Workgroup) (w : Warp) : (s.put g w).fqHead = s.fqHead := rfl
@[simp] theorem State.put_shootSt (s : State) (g : Workgroup) (w : Warp) : (s.put g w).shootSt = s.shootSt := rfl
@[simp] theorem State.put_dapBase (s : State) (g : Workgroup) (w : Warp) : (s.put g w).dapBase = s.dapBase := rfl
@[simp] theorem State.put_interrupts (s : State) (g : Workgroup) (w : Warp) : (s.put g w).interrupts = s.interrupts := rfl
@[simp] theorem State.put_linksDown (s : State) (g : Workgroup) (w : Warp) : (s.put g w).linksDown = s.linksDown := rfl
@[simp] theorem State.put_mgmt (s : State) (g : Workgroup) (w : Warp) : (s.put g w).mgmt = s.mgmt := rfl
@[simp] theorem State.put_coreUse (s : State) (g : Workgroup) (w : Warp) : (s.put g w).coreUse = s.coreUse := rfl
@[simp] theorem State.put_coreBound (s : State) (g : Workgroup) (w : Warp) : (s.put g w).coreBound = s.coreBound := rfl
@[simp] theorem State.put_frontCore (s : State) (g : Workgroup) (w : Warp) : (s.put g w).frontCore = s.frontCore := rfl
@[simp] theorem State.put_loaded (s : State) (g : Workgroup) (w : Warp) : (s.put g w).loaded = s.loaded := rfl
@[simp] theorem State.put_refused (s : State) (g : Workgroup) (w : Warp) : (s.put g w).refused = s.refused := rfl
@[simp] theorem State.put_cur (s : State) (g : Workgroup) (w : Warp) : (s.put g w).cur = s.cur := rfl
@[simp] theorem State.put_inbox (s : State) (g : Workgroup) (w : Warp) : (s.put g w).inbox = s.inbox := rfl
@[simp] theorem State.put_clk (s : State) (g : Workgroup) (w : Warp) : (s.put g w).clk = s.clk := rfl
@[simp] theorem State.put_free (s : State) (g : Workgroup) (w : Warp) : (s.put g w).free = s.free := rfl
@[simp] theorem State.put_nextUid (s : State) (g : Workgroup) (w : Warp) : (s.put g w).nextUid = s.nextUid := rfl

@[simp] theorem State.count_wgs (s : State) (g : Workgroup) (a b c : Nat) : (s.count g a b c).wgs = s.wgs := rfl
@[simp] theorem State.count_gangs (s : State) (g : Workgroup) (a b c : Nat) : (s.count g a b c).gangs = s.gangs := rfl
@[simp] theorem State.count_grids (s : State) (g : Workgroup) (a b c : Nat) : (s.count g a b c).grids = s.grids := rfl
@[simp] theorem State.count_queues (s : State) (g : Workgroup) (a b c : Nat) : (s.count g a b c).queues = s.queues := rfl
@[simp] theorem State.count_partitions (s : State) (g : Workgroup) (a b c : Nat) : (s.count g a b c).partitions = s.partitions := rfl
@[simp] theorem State.count_slices (s : State) (g : Workgroup) (a b c : Nat) : (s.count g a b c).slices = s.slices := rfl
@[simp] theorem State.count_directory (s : State) (g : Workgroup) (a b c : Nat) : (s.count g a b c).directory = s.directory := rfl
@[simp] theorem State.count_censuses (s : State) (g : Workgroup) (a b c : Nat) : (s.count g a b c).censuses = s.censuses := rfl
@[simp] theorem State.count_solicits (s : State) (g : Workgroup) (a b c : Nat) : (s.count g a b c).solicits = s.solicits := rfl
@[simp] theorem State.count_mem (s : State) (g : Workgroup) (a b c : Nat) : (s.count g a b c).mem = s.mem := rfl
@[simp] theorem State.count_marks (s : State) (g : Workgroup) (a b c : Nat) : (s.count g a b c).marks = s.marks := rfl
@[simp] theorem State.count_tlb (s : State) (g : Workgroup) (a b c : Nat) : (s.count g a b c).tlb = s.tlb := rfl
@[simp] theorem State.count_asids (s : State) (g : Workgroup) (a b c : Nat) : (s.count g a b c).asids = s.asids := rfl
@[simp] theorem State.count_shoots (s : State) (g : Workgroup) (a b c : Nat) : (s.count g a b c).shoots = s.shoots := rfl
@[simp] theorem State.count_faultsOut (s : State) (g : Workgroup) (a b c : Nat) : (s.count g a b c).faultsOut = s.faultsOut := rfl
@[simp] theorem State.count_qtBase (s : State) (g : Workgroup) (a b c : Nat) : (s.count g a b c).qtBase = s.qtBase := rfl
@[simp] theorem State.count_asidTb (s : State) (g : Workgroup) (a b c : Nat) : (s.count g a b c).asidTb = s.asidTb := rfl
@[simp] theorem State.count_fqBase (s : State) (g : Workgroup) (a b c : Nat) : (s.count g a b c).fqBase = s.fqBase := rfl
@[simp] theorem State.count_fqCfg (s : State) (g : Workgroup) (a b c : Nat) : (s.count g a b c).fqCfg = s.fqCfg := rfl
@[simp] theorem State.count_fqTail (s : State) (g : Workgroup) (a b c : Nat) : (s.count g a b c).fqTail = s.fqTail := rfl
@[simp] theorem State.count_fqHead (s : State) (g : Workgroup) (a b c : Nat) : (s.count g a b c).fqHead = s.fqHead := rfl
@[simp] theorem State.count_shootSt (s : State) (g : Workgroup) (a b c : Nat) : (s.count g a b c).shootSt = s.shootSt := rfl
@[simp] theorem State.count_dapBase (s : State) (g : Workgroup) (a b c : Nat) : (s.count g a b c).dapBase = s.dapBase := rfl
@[simp] theorem State.count_interrupts (s : State) (g : Workgroup) (a b c : Nat) : (s.count g a b c).interrupts = s.interrupts := rfl
@[simp] theorem State.count_linksDown (s : State) (g : Workgroup) (a b c : Nat) : (s.count g a b c).linksDown = s.linksDown := rfl
@[simp] theorem State.count_mgmt (s : State) (g : Workgroup) (a b c : Nat) : (s.count g a b c).mgmt = s.mgmt := rfl
@[simp] theorem State.count_coreUse (s : State) (g : Workgroup) (a b c : Nat) : (s.count g a b c).coreUse = s.coreUse := rfl
@[simp] theorem State.count_coreBound (s : State) (g : Workgroup) (a b c : Nat) : (s.count g a b c).coreBound = s.coreBound := rfl
@[simp] theorem State.count_frontCore (s : State) (g : Workgroup) (a b c : Nat) : (s.count g a b c).frontCore = s.frontCore := rfl
@[simp] theorem State.count_loaded (s : State) (g : Workgroup) (a b c : Nat) : (s.count g a b c).loaded = s.loaded := rfl
@[simp] theorem State.count_refused (s : State) (g : Workgroup) (a b c : Nat) : (s.count g a b c).refused = s.refused := rfl
@[simp] theorem State.count_cur (s : State) (g : Workgroup) (a b c : Nat) : (s.count g a b c).cur = s.cur := rfl
@[simp] theorem State.count_inbox (s : State) (g : Workgroup) (a b c : Nat) : (s.count g a b c).inbox = s.inbox := rfl
@[simp] theorem State.count_clk (s : State) (g : Workgroup) (a b c : Nat) : (s.count g a b c).clk = s.clk := rfl
@[simp] theorem State.count_free (s : State) (g : Workgroup) (a b c : Nat) : (s.count g a b c).free = s.free := rfl
@[simp] theorem State.count_nextUid (s : State) (g : Workgroup) (a b c : Nat) : (s.count g a b c).nextUid = s.nextUid := rfl

@[simp] theorem State.send_wgs (s : State) (r : FaultRec) : (s.send r).wgs = s.wgs := rfl
@[simp] theorem State.send_gangs (s : State) (r : FaultRec) : (s.send r).gangs = s.gangs := rfl
@[simp] theorem State.send_grids (s : State) (r : FaultRec) : (s.send r).grids = s.grids := rfl
@[simp] theorem State.send_queues (s : State) (r : FaultRec) : (s.send r).queues = s.queues := rfl
@[simp] theorem State.send_partitions (s : State) (r : FaultRec) : (s.send r).partitions = s.partitions := rfl
@[simp] theorem State.send_slices (s : State) (r : FaultRec) : (s.send r).slices = s.slices := rfl
@[simp] theorem State.send_directory (s : State) (r : FaultRec) : (s.send r).directory = s.directory := rfl
@[simp] theorem State.send_censuses (s : State) (r : FaultRec) : (s.send r).censuses = s.censuses := rfl
@[simp] theorem State.send_solicits (s : State) (r : FaultRec) : (s.send r).solicits = s.solicits := rfl
@[simp] theorem State.send_mem (s : State) (r : FaultRec) : (s.send r).mem = s.mem := rfl
@[simp] theorem State.send_marks (s : State) (r : FaultRec) : (s.send r).marks = s.marks := rfl
@[simp] theorem State.send_tlb (s : State) (r : FaultRec) : (s.send r).tlb = s.tlb := rfl
@[simp] theorem State.send_asids (s : State) (r : FaultRec) : (s.send r).asids = s.asids := rfl
@[simp] theorem State.send_shoots (s : State) (r : FaultRec) : (s.send r).shoots = s.shoots := rfl
@[simp] theorem State.send_counters (s : State) (r : FaultRec) : (s.send r).counters = s.counters := rfl
@[simp] theorem State.send_qtBase (s : State) (r : FaultRec) : (s.send r).qtBase = s.qtBase := rfl
@[simp] theorem State.send_asidTb (s : State) (r : FaultRec) : (s.send r).asidTb = s.asidTb := rfl
@[simp] theorem State.send_fqBase (s : State) (r : FaultRec) : (s.send r).fqBase = s.fqBase := rfl
@[simp] theorem State.send_fqCfg (s : State) (r : FaultRec) : (s.send r).fqCfg = s.fqCfg := rfl
@[simp] theorem State.send_fqTail (s : State) (r : FaultRec) : (s.send r).fqTail = s.fqTail := rfl
@[simp] theorem State.send_fqHead (s : State) (r : FaultRec) : (s.send r).fqHead = s.fqHead := rfl
@[simp] theorem State.send_shootSt (s : State) (r : FaultRec) : (s.send r).shootSt = s.shootSt := rfl
@[simp] theorem State.send_dapBase (s : State) (r : FaultRec) : (s.send r).dapBase = s.dapBase := rfl
@[simp] theorem State.send_interrupts (s : State) (r : FaultRec) : (s.send r).interrupts = s.interrupts := rfl
@[simp] theorem State.send_linksDown (s : State) (r : FaultRec) : (s.send r).linksDown = s.linksDown := rfl
@[simp] theorem State.send_mgmt (s : State) (r : FaultRec) : (s.send r).mgmt = s.mgmt := rfl
@[simp] theorem State.send_coreUse (s : State) (r : FaultRec) : (s.send r).coreUse = s.coreUse := rfl
@[simp] theorem State.send_coreBound (s : State) (r : FaultRec) : (s.send r).coreBound = s.coreBound := rfl
@[simp] theorem State.send_frontCore (s : State) (r : FaultRec) : (s.send r).frontCore = s.frontCore := rfl
@[simp] theorem State.send_loaded (s : State) (r : FaultRec) : (s.send r).loaded = s.loaded := rfl
@[simp] theorem State.send_refused (s : State) (r : FaultRec) : (s.send r).refused = s.refused := rfl
@[simp] theorem State.send_cur (s : State) (r : FaultRec) : (s.send r).cur = s.cur := rfl
@[simp] theorem State.send_inbox (s : State) (r : FaultRec) : (s.send r).inbox = s.inbox := rfl
@[simp] theorem State.send_clk (s : State) (r : FaultRec) : (s.send r).clk = s.clk := rfl
@[simp] theorem State.send_free (s : State) (r : FaultRec) : (s.send r).free = s.free := rfl
@[simp] theorem State.send_nextUid (s : State) (r : FaultRec) : (s.send r).nextUid = s.nextUid := rfl

@[simp] theorem State.clocked_wgs (s : State) : (s.clocked).wgs = s.wgs := rfl
@[simp] theorem State.clocked_gangs (s : State) : (s.clocked).gangs = s.gangs := rfl
@[simp] theorem State.clocked_grids (s : State) : (s.clocked).grids = s.grids := rfl
@[simp] theorem State.clocked_queues (s : State) : (s.clocked).queues = s.queues := rfl
@[simp] theorem State.clocked_partitions (s : State) : (s.clocked).partitions = s.partitions := rfl
@[simp] theorem State.clocked_slices (s : State) : (s.clocked).slices = s.slices := rfl
@[simp] theorem State.clocked_directory (s : State) : (s.clocked).directory = s.directory := rfl
@[simp] theorem State.clocked_censuses (s : State) : (s.clocked).censuses = s.censuses := rfl
@[simp] theorem State.clocked_solicits (s : State) : (s.clocked).solicits = s.solicits := rfl
@[simp] theorem State.clocked_mem (s : State) : (s.clocked).mem = s.mem := rfl
@[simp] theorem State.clocked_marks (s : State) : (s.clocked).marks = s.marks := rfl
@[simp] theorem State.clocked_tlb (s : State) : (s.clocked).tlb = s.tlb := rfl
@[simp] theorem State.clocked_asids (s : State) : (s.clocked).asids = s.asids := rfl
@[simp] theorem State.clocked_shoots (s : State) : (s.clocked).shoots = s.shoots := rfl
@[simp] theorem State.clocked_faultsOut (s : State) : (s.clocked).faultsOut = s.faultsOut := rfl
@[simp] theorem State.clocked_counters (s : State) : (s.clocked).counters = s.counters := rfl
@[simp] theorem State.clocked_qtBase (s : State) : (s.clocked).qtBase = s.qtBase := rfl
@[simp] theorem State.clocked_asidTb (s : State) : (s.clocked).asidTb = s.asidTb := rfl
@[simp] theorem State.clocked_fqBase (s : State) : (s.clocked).fqBase = s.fqBase := rfl
@[simp] theorem State.clocked_fqCfg (s : State) : (s.clocked).fqCfg = s.fqCfg := rfl
@[simp] theorem State.clocked_fqTail (s : State) : (s.clocked).fqTail = s.fqTail := rfl
@[simp] theorem State.clocked_fqHead (s : State) : (s.clocked).fqHead = s.fqHead := rfl
@[simp] theorem State.clocked_shootSt (s : State) : (s.clocked).shootSt = s.shootSt := rfl
@[simp] theorem State.clocked_dapBase (s : State) : (s.clocked).dapBase = s.dapBase := rfl
@[simp] theorem State.clocked_interrupts (s : State) : (s.clocked).interrupts = s.interrupts := rfl
@[simp] theorem State.clocked_linksDown (s : State) : (s.clocked).linksDown = s.linksDown := rfl
@[simp] theorem State.clocked_mgmt (s : State) : (s.clocked).mgmt = s.mgmt := rfl
@[simp] theorem State.clocked_coreUse (s : State) : (s.clocked).coreUse = s.coreUse := rfl
@[simp] theorem State.clocked_coreBound (s : State) : (s.clocked).coreBound = s.coreBound := rfl
@[simp] theorem State.clocked_frontCore (s : State) : (s.clocked).frontCore = s.frontCore := rfl
@[simp] theorem State.clocked_loaded (s : State) : (s.clocked).loaded = s.loaded := rfl
@[simp] theorem State.clocked_refused (s : State) : (s.clocked).refused = s.refused := rfl
@[simp] theorem State.clocked_inbox (s : State) : (s.clocked).inbox = s.inbox := rfl
@[simp] theorem State.clocked_free (s : State) : (s.clocked).free = s.free := rfl
@[simp] theorem State.clocked_nextUid (s : State) : (s.clocked).nextUid = s.nextUid := rfl

@[simp] theorem Workgroup.setWarp_uid (g : Workgroup) (w : Warp) : (g.setWarp w).uid = g.uid := rfl
@[simp] theorem Workgroup.setWarp_grid (g : Workgroup) (w : Warp) : (g.setWarp w).grid = g.grid := rfl
@[simp] theorem Workgroup.setWarp_gang (g : Workgroup) (w : Warp) : (g.setWarp w).gang = g.gang := rfl
@[simp] theorem Workgroup.setWarp_lin (g : Workgroup) (w : Warp) : (g.setWarp w).lin = g.lin := rfl
@[simp] theorem Workgroup.setWarp_rank (g : Workgroup) (w : Warp) : (g.setWarp w).rank = g.rank := rfl
@[simp] theorem Workgroup.setWarp_asid (g : Workgroup) (w : Warp) : (g.setWarp w).asid = g.asid := rfl
@[simp] theorem Workgroup.setWarp_ctxid (g : Workgroup) (w : Warp) : (g.setWarp w).ctxid = g.ctxid := rfl
@[simp] theorem Workgroup.setWarp_die (g : Workgroup) (w : Warp) : (g.setWarp w).die = g.die := rfl
@[simp] theorem Workgroup.setWarp_core (g : Workgroup) (w : Warp) : (g.setWarp w).core = g.core := rfl
@[simp] theorem Workgroup.setWarp_slot (g : Workgroup) (w : Warp) : (g.setWarp w).slot = g.slot := rfl
@[simp] theorem Workgroup.setWarp_residence (g : Workgroup) (w : Warp) : (g.setWarp w).residence = g.residence := rfl
@[simp] theorem Workgroup.setWarp_header (g : Workgroup) (w : Warp) : (g.setWarp w).header = g.header := rfl
@[simp] theorem Workgroup.setWarp_entry (g : Workgroup) (w : Warp) : (g.setWarp w).entry = g.entry := rfl
@[simp] theorem Workgroup.setWarp_handler (g : Workgroup) (w : Warp) : (g.setWarp w).handler = g.handler := rfl
@[simp] theorem Workgroup.setWarp_consts (g : Workgroup) (w : Warp) : (g.setWarp w).consts = g.consts := rfl
@[simp] theorem Workgroup.setWarp_svck (g : Workgroup) (w : Warp) : (g.setWarp w).svck = g.svck := rfl
@[simp] theorem Workgroup.setWarp_nwg (g : Workgroup) (w : Warp) : (g.setWarp w).nwg = g.nwg := rfl
@[simp] theorem Workgroup.setWarp_gangSize (g : Workgroup) (w : Warp) : (g.setWarp w).gangSize = g.gangSize := rfl
@[simp] theorem Workgroup.setWarp_seed (g : Workgroup) (w : Warp) : (g.setWarp w).seed = g.seed := rfl
@[simp] theorem Workgroup.setWarp_astat (g : Workgroup) (w : Warp) : (g.setWarp w).astat = g.astat := rfl
@[simp] theorem Workgroup.setWarp_drops (g : Workgroup) (w : Warp) : (g.setWarp w).drops = g.drops := rfl
@[simp] theorem Workgroup.setWarp_lost (g : Workgroup) (w : Warp) : (g.setWarp w).lost = g.lost := rfl
@[simp] theorem Workgroup.setWarp_poolFree (g : Workgroup) (w : Warp) : (g.setWarp w).poolFree = g.poolFree := rfl
@[simp] theorem Workgroup.setWarp_splitReserve (g : Workgroup) (w : Warp) : (g.setWarp w).splitReserve = g.splitReserve := rfl
@[simp] theorem Workgroup.setWarp_poolQ (g : Workgroup) (w : Warp) : (g.setWarp w).poolQ = g.poolQ := rfl
@[simp] theorem Workgroup.setWarp_cv (g : Workgroup) (w : Warp) : (g.setWarp w).cv = g.cv := rfl
@[simp] theorem Workgroup.setWarp_gbarArrived (g : Workgroup) (w : Warp) : (g.setWarp w).gbarArrived = g.gbarArrived := rfl
@[simp] theorem Workgroup.setWarp_binsMax (g : Workgroup) (w : Warp) : (g.setWarp w).binsMax = g.binsMax := rfl
@[simp] theorem Workgroup.setWarp_bins (g : Workgroup) (w : Warp) : (g.setWarp w).bins = g.bins := rfl
@[simp] theorem Workgroup.setWarp_held (g : Workgroup) (w : Warp) : (g.setWarp w).held = g.held := rfl
@[simp] theorem Workgroup.setWarp_ovfl (g : Workgroup) (w : Warp) : (g.setWarp w).ovfl = g.ovfl := rfl
@[simp] theorem Workgroup.setWarp_ovflSize (g : Workgroup) (w : Warp) : (g.setWarp w).ovflSize = g.ovflSize := rfl
@[simp] theorem Workgroup.setWarp_scratch (g : Workgroup) (w : Warp) : (g.setWarp w).scratch = g.scratch := rfl
@[simp] theorem Workgroup.setWarp_scratchZero (g : Workgroup) (w : Warp) : (g.setWarp w).scratchZero = g.scratchZero := rfl
@[simp] theorem Workgroup.setWarp_absent (g : Workgroup) (w : Warp) : (g.setWarp w).absent = g.absent := rfl
@[simp] theorem Workgroup.setWarp_orphan (g : Workgroup) (w : Warp) : (g.setWarp w).orphan = g.orphan := rfl
@[simp] theorem Workgroup.setWarp_sramMarks (g : Workgroup) (w : Warp) : (g.setWarp w).sramMarks = g.sramMarks := rfl
@[simp] theorem Workgroup.setWarp_counters (g : Workgroup) (w : Warp) : (g.setWarp w).counters = g.counters := rfl
@[simp] theorem Workgroup.setWarp_slots (g : Workgroup) (w : Warp) : (g.setWarp w).slots = g.slots := rfl
@[simp] theorem Workgroup.setWarp_ghosts (g : Workgroup) (w : Warp) : (g.setWarp w).ghosts = g.ghosts := rfl
@[simp] theorem Workgroup.setWarp_stop (g : Workgroup) (w : Warp) : (g.setWarp w).stop = g.stop := rfl
@[simp] theorem Workgroup.setWarp_awaiting (g : Workgroup) (w : Warp) : (g.setWarp w).awaiting = g.awaiting := rfl
@[simp] theorem Workgroup.setWarp_lossSent (g : Workgroup) (w : Warp) : (g.setWarp w).lossSent = g.lossSent := rfl
@[simp] theorem Workgroup.setWarp_killed (g : Workgroup) (w : Warp) : (g.setWarp w).killed = g.killed := rfl
@[simp] theorem Workgroup.setWarp_pins (g : Workgroup) (w : Warp) : (g.setWarp w).pins = g.pins := rfl
@[simp] theorem Workgroup.setWarp_haltReport (g : Workgroup) (w : Warp) : (g.setWarp w).haltReport = g.haltReport := rfl
@[simp] theorem Workgroup.setWarp_imageLost (g : Workgroup) (w : Warp) : (g.setWarp w).imageLost = g.imageLost := rfl
@[simp] theorem Workgroup.setWarp_saveTo (g : Workgroup) (w : Warp) : (g.setWarp w).saveTo = g.saveTo := rfl
@[simp] theorem Workgroup.setWarp_noRoom (g : Workgroup) (w : Warp) : (g.setWarp w).noRoom = g.noRoom := rfl

@[simp] theorem Warp.past_wid (w : Warp) (len : Nat) : (w.past len).wid = w.wid := rfl
@[simp] theorem Warp.past_age (w : Warp) (len : Nat) : (w.past len).age = w.age := rfl
@[simp] theorem Warp.past_active (w : Warp) (len : Nat) : (w.past len).active = w.active := rfl
@[simp] theorem Warp.past_tids (w : Warp) (len : Nat) : (w.past len).tids = w.tids := rfl
@[simp] theorem Warp.past_census (w : Warp) (len : Nat) : (w.past len).census = w.census := rfl
@[simp] theorem Warp.past_granules (w : Warp) (len : Nat) : (w.past len).granules = w.granules := rfl
@[simp] theorem Warp.past_reserveGranules (w : Warp) (len : Nat) : (w.past len).reserveGranules = w.reserveGranules := rfl
@[simp] theorem Warp.past_g (w : Warp) (len : Nat) : (w.past len).g = w.g := rfl
@[simp] theorem Warp.past_k (w : Warp) (len : Nat) : (w.past len).k = w.k := rfl
@[simp] theorem Warp.past_latch (w : Warp) (len : Nat) : (w.past len).latch = w.latch := rfl
@[simp] theorem Warp.past_p (w : Warp) (len : Nat) : (w.past len).p = w.p := rfl
@[simp] theorem Warp.past_presG (w : Warp) (len : Nat) : (w.past len).presG = w.presG := rfl
@[simp] theorem Warp.past_presP (w : Warp) (len : Nat) : (w.past len).presP = w.presP := rfl
@[simp] theorem Warp.past_bind (w : Warp) (len : Nat) : (w.past len).bind = w.bind := rfl
@[simp] theorem Warp.past_mstat (w : Warp) (len : Nat) : (w.past len).mstat = w.mstat := rfl
@[simp] theorem Warp.past_ectr (w : Warp) (len : Nat) : (w.past len).ectr = w.ectr := rfl
@[simp] theorem Warp.past_hdr (w : Warp) (len : Nat) : (w.past len).hdr = w.hdr := rfl
@[simp] theorem Warp.past_uni (w : Warp) (len : Nat) : (w.past len).uni = w.uni := rfl
@[simp] theorem Warp.past_seq (w : Warp) (len : Nat) : (w.past len).seq = w.seq := rfl
@[simp] theorem Warp.past_queues (w : Warp) (len : Nat) : (w.past len).queues = w.queues := rfl
@[simp] theorem Warp.past_started (w : Warp) (len : Nat) : (w.past len).started = w.started := rfl
@[simp] theorem Warp.past_ops (w : Warp) (len : Nat) : (w.past len).ops = w.ops := rfl
@[simp] theorem Warp.past_reports (w : Warp) (len : Nat) : (w.past len).reports = w.reports := rfl
@[simp] theorem Warp.past_storeQ (w : Warp) (len : Nat) : (w.past len).storeQ = w.storeQ := rfl
@[simp] theorem Warp.past_fences (w : Warp) (len : Nat) : (w.past len).fences = w.fences := rfl
@[simp] theorem Warp.past_spc (w : Warp) (len : Nat) : (w.past len).spc = w.spc := rfl
@[simp] theorem Warp.past_fepc (w : Warp) (len : Nat) : (w.past len).fepc = w.fepc := rfl
@[simp] theorem Warp.past_trapCode (w : Warp) (len : Nat) : (w.past len).trapCode = w.trapCode := rfl
@[simp] theorem Warp.past_trapAddr (w : Warp) (len : Nat) : (w.past len).trapAddr = w.trapAddr := rfl
@[simp] theorem Warp.past_held (w : Warp) (len : Nat) : (w.past len).held = w.held := rfl
@[simp] theorem Warp.past_block (w : Warp) (len : Nat) : (w.past len).block = w.block := rfl
@[simp] theorem Warp.past_stopping (w : Warp) (len : Nat) : (w.past len).stopping = w.stopping := rfl
@[simp] theorem Warp.past_halted (w : Warp) (len : Nat) : (w.past len).halted = w.halted := rfl
@[simp] theorem Warp.past_stopped (w : Warp) (len : Nat) : (w.past len).stopped = w.stopped := rfl
@[simp] theorem Warp.past_dataFault (w : Warp) (len : Nat) : (w.past len).dataFault = w.dataFault := rfl
@[simp] theorem Warp.past_fetchFault (w : Warp) (len : Nat) : (w.past len).fetchFault = w.fetchFault := rfl
@[simp] theorem Warp.past_clkHi (w : Warp) (len : Nat) : (w.past len).clkHi = w.clkHi := rfl
@[simp] theorem Warp.past_lscale (w : Warp) (len : Nat) : (w.past len).lscale = w.lscale := rfl
@[simp] theorem Warp.past_haltWait (w : Warp) (len : Nat) : (w.past len).haltWait = w.haltWait := rfl
@[simp] theorem Warp.past_passed (w : Warp) (len : Nat) : (w.past len).passed = w.passed := rfl

@[simp] theorem Warp.passOver_wid (w : Warp) (len : Nat) : (w.passOver len).wid = w.wid := rfl
@[simp] theorem Warp.passOver_age (w : Warp) (len : Nat) : (w.passOver len).age = w.age := rfl
@[simp] theorem Warp.passOver_active (w : Warp) (len : Nat) : (w.passOver len).active = w.active := rfl
@[simp] theorem Warp.passOver_tids (w : Warp) (len : Nat) : (w.passOver len).tids = w.tids := rfl
@[simp] theorem Warp.passOver_census (w : Warp) (len : Nat) : (w.passOver len).census = w.census := rfl
@[simp] theorem Warp.passOver_granules (w : Warp) (len : Nat) : (w.passOver len).granules = w.granules := rfl
@[simp] theorem Warp.passOver_reserveGranules (w : Warp) (len : Nat) : (w.passOver len).reserveGranules = w.reserveGranules := rfl
@[simp] theorem Warp.passOver_g (w : Warp) (len : Nat) : (w.passOver len).g = w.g := rfl
@[simp] theorem Warp.passOver_k (w : Warp) (len : Nat) : (w.passOver len).k = w.k := rfl
@[simp] theorem Warp.passOver_latch (w : Warp) (len : Nat) : (w.passOver len).latch = w.latch := rfl
@[simp] theorem Warp.passOver_p (w : Warp) (len : Nat) : (w.passOver len).p = w.p := rfl
@[simp] theorem Warp.passOver_presG (w : Warp) (len : Nat) : (w.passOver len).presG = w.presG := rfl
@[simp] theorem Warp.passOver_presP (w : Warp) (len : Nat) : (w.passOver len).presP = w.presP := rfl
@[simp] theorem Warp.passOver_bind (w : Warp) (len : Nat) : (w.passOver len).bind = w.bind := rfl
@[simp] theorem Warp.passOver_mstat (w : Warp) (len : Nat) : (w.passOver len).mstat = w.mstat := rfl
@[simp] theorem Warp.passOver_ectr (w : Warp) (len : Nat) : (w.passOver len).ectr = w.ectr := rfl
@[simp] theorem Warp.passOver_hdr (w : Warp) (len : Nat) : (w.passOver len).hdr = w.hdr := rfl
@[simp] theorem Warp.passOver_uni (w : Warp) (len : Nat) : (w.passOver len).uni = w.uni := rfl
@[simp] theorem Warp.passOver_seq (w : Warp) (len : Nat) : (w.passOver len).seq = w.seq := rfl
@[simp] theorem Warp.passOver_queues (w : Warp) (len : Nat) : (w.passOver len).queues = w.queues := rfl
@[simp] theorem Warp.passOver_started (w : Warp) (len : Nat) : (w.passOver len).started = w.started := rfl
@[simp] theorem Warp.passOver_ops (w : Warp) (len : Nat) : (w.passOver len).ops = w.ops := rfl
@[simp] theorem Warp.passOver_reports (w : Warp) (len : Nat) : (w.passOver len).reports = w.reports := rfl
@[simp] theorem Warp.passOver_storeQ (w : Warp) (len : Nat) : (w.passOver len).storeQ = w.storeQ := rfl
@[simp] theorem Warp.passOver_fences (w : Warp) (len : Nat) : (w.passOver len).fences = w.fences := rfl
@[simp] theorem Warp.passOver_spc (w : Warp) (len : Nat) : (w.passOver len).spc = w.spc := rfl
@[simp] theorem Warp.passOver_fepc (w : Warp) (len : Nat) : (w.passOver len).fepc = w.fepc := rfl
@[simp] theorem Warp.passOver_trapCode (w : Warp) (len : Nat) : (w.passOver len).trapCode = w.trapCode := rfl
@[simp] theorem Warp.passOver_trapAddr (w : Warp) (len : Nat) : (w.passOver len).trapAddr = w.trapAddr := rfl
@[simp] theorem Warp.passOver_held (w : Warp) (len : Nat) : (w.passOver len).held = w.held := rfl
@[simp] theorem Warp.passOver_block (w : Warp) (len : Nat) : (w.passOver len).block = w.block := rfl
@[simp] theorem Warp.passOver_stopping (w : Warp) (len : Nat) : (w.passOver len).stopping = w.stopping := rfl
@[simp] theorem Warp.passOver_halted (w : Warp) (len : Nat) : (w.passOver len).halted = w.halted := rfl
@[simp] theorem Warp.passOver_stopped (w : Warp) (len : Nat) : (w.passOver len).stopped = w.stopped := rfl
@[simp] theorem Warp.passOver_dataFault (w : Warp) (len : Nat) : (w.passOver len).dataFault = w.dataFault := rfl
@[simp] theorem Warp.passOver_fetchFault (w : Warp) (len : Nat) : (w.passOver len).fetchFault = w.fetchFault := rfl
@[simp] theorem Warp.passOver_clkHi (w : Warp) (len : Nat) : (w.passOver len).clkHi = w.clkHi := rfl
@[simp] theorem Warp.passOver_lscale (w : Warp) (len : Nat) : (w.passOver len).lscale = w.lscale := rfl
@[simp] theorem Warp.passOver_skipBp (w : Warp) (len : Nat) : (w.passOver len).skipBp = w.skipBp := rfl
@[simp] theorem Warp.passOver_stepping (w : Warp) (len : Nat) : (w.passOver len).stepping = w.stepping := rfl
@[simp] theorem Warp.passOver_haltWait (w : Warp) (len : Nat) : (w.passOver len).haltWait = w.haltWait := rfl
@[simp] theorem Warp.passOver_passed (w : Warp) (len : Nat) : (w.passOver len).passed = w.passed := rfl

@[simp] theorem Warp.goto_wid (w : Warp) (pc : BitVec 48) : (w.goto pc).wid = w.wid := rfl
@[simp] theorem Warp.goto_age (w : Warp) (pc : BitVec 48) : (w.goto pc).age = w.age := rfl
@[simp] theorem Warp.goto_active (w : Warp) (pc : BitVec 48) : (w.goto pc).active = w.active := rfl
@[simp] theorem Warp.goto_tids (w : Warp) (pc : BitVec 48) : (w.goto pc).tids = w.tids := rfl
@[simp] theorem Warp.goto_census (w : Warp) (pc : BitVec 48) : (w.goto pc).census = w.census := rfl
@[simp] theorem Warp.goto_granules (w : Warp) (pc : BitVec 48) : (w.goto pc).granules = w.granules := rfl
@[simp] theorem Warp.goto_reserveGranules (w : Warp) (pc : BitVec 48) : (w.goto pc).reserveGranules = w.reserveGranules := rfl
@[simp] theorem Warp.goto_g (w : Warp) (pc : BitVec 48) : (w.goto pc).g = w.g := rfl
@[simp] theorem Warp.goto_k (w : Warp) (pc : BitVec 48) : (w.goto pc).k = w.k := rfl
@[simp] theorem Warp.goto_latch (w : Warp) (pc : BitVec 48) : (w.goto pc).latch = w.latch := rfl
@[simp] theorem Warp.goto_p (w : Warp) (pc : BitVec 48) : (w.goto pc).p = w.p := rfl
@[simp] theorem Warp.goto_presG (w : Warp) (pc : BitVec 48) : (w.goto pc).presG = w.presG := rfl
@[simp] theorem Warp.goto_presP (w : Warp) (pc : BitVec 48) : (w.goto pc).presP = w.presP := rfl
@[simp] theorem Warp.goto_bind (w : Warp) (pc : BitVec 48) : (w.goto pc).bind = w.bind := rfl
@[simp] theorem Warp.goto_mstat (w : Warp) (pc : BitVec 48) : (w.goto pc).mstat = w.mstat := rfl
@[simp] theorem Warp.goto_ectr (w : Warp) (pc : BitVec 48) : (w.goto pc).ectr = w.ectr := rfl
@[simp] theorem Warp.goto_uni (w : Warp) (pc : BitVec 48) : (w.goto pc).uni = w.uni := rfl
@[simp] theorem Warp.goto_seq (w : Warp) (pc : BitVec 48) : (w.goto pc).seq = w.seq := rfl
@[simp] theorem Warp.goto_queues (w : Warp) (pc : BitVec 48) : (w.goto pc).queues = w.queues := rfl
@[simp] theorem Warp.goto_started (w : Warp) (pc : BitVec 48) : (w.goto pc).started = w.started := rfl
@[simp] theorem Warp.goto_ops (w : Warp) (pc : BitVec 48) : (w.goto pc).ops = w.ops := rfl
@[simp] theorem Warp.goto_reports (w : Warp) (pc : BitVec 48) : (w.goto pc).reports = w.reports := rfl
@[simp] theorem Warp.goto_storeQ (w : Warp) (pc : BitVec 48) : (w.goto pc).storeQ = w.storeQ := rfl
@[simp] theorem Warp.goto_fences (w : Warp) (pc : BitVec 48) : (w.goto pc).fences = w.fences := rfl
@[simp] theorem Warp.goto_spc (w : Warp) (pc : BitVec 48) : (w.goto pc).spc = w.spc := rfl
@[simp] theorem Warp.goto_fepc (w : Warp) (pc : BitVec 48) : (w.goto pc).fepc = w.fepc := rfl
@[simp] theorem Warp.goto_trapCode (w : Warp) (pc : BitVec 48) : (w.goto pc).trapCode = w.trapCode := rfl
@[simp] theorem Warp.goto_trapAddr (w : Warp) (pc : BitVec 48) : (w.goto pc).trapAddr = w.trapAddr := rfl
@[simp] theorem Warp.goto_held (w : Warp) (pc : BitVec 48) : (w.goto pc).held = w.held := rfl
@[simp] theorem Warp.goto_block (w : Warp) (pc : BitVec 48) : (w.goto pc).block = w.block := rfl
@[simp] theorem Warp.goto_stopping (w : Warp) (pc : BitVec 48) : (w.goto pc).stopping = w.stopping := rfl
@[simp] theorem Warp.goto_halted (w : Warp) (pc : BitVec 48) : (w.goto pc).halted = w.halted := rfl
@[simp] theorem Warp.goto_stopped (w : Warp) (pc : BitVec 48) : (w.goto pc).stopped = w.stopped := rfl
@[simp] theorem Warp.goto_dataFault (w : Warp) (pc : BitVec 48) : (w.goto pc).dataFault = w.dataFault := rfl
@[simp] theorem Warp.goto_fetchFault (w : Warp) (pc : BitVec 48) : (w.goto pc).fetchFault = w.fetchFault := rfl
@[simp] theorem Warp.goto_clkHi (w : Warp) (pc : BitVec 48) : (w.goto pc).clkHi = w.clkHi := rfl
@[simp] theorem Warp.goto_lscale (w : Warp) (pc : BitVec 48) : (w.goto pc).lscale = w.lscale := rfl
@[simp] theorem Warp.goto_haltWait (w : Warp) (pc : BitVec 48) : (w.goto pc).haltWait = w.haltWait := rfl
@[simp] theorem Warp.goto_passed (w : Warp) (pc : BitVec 48) : (w.goto pc).passed = w.passed := rfl

@[simp] theorem Warp.enqueue_wid (w : Warp) (e : QEntry) : (w.enqueue e).wid = w.wid := rfl
@[simp] theorem Warp.enqueue_age (w : Warp) (e : QEntry) : (w.enqueue e).age = w.age := rfl
@[simp] theorem Warp.enqueue_active (w : Warp) (e : QEntry) : (w.enqueue e).active = w.active := rfl
@[simp] theorem Warp.enqueue_tids (w : Warp) (e : QEntry) : (w.enqueue e).tids = w.tids := rfl
@[simp] theorem Warp.enqueue_census (w : Warp) (e : QEntry) : (w.enqueue e).census = w.census := rfl
@[simp] theorem Warp.enqueue_granules (w : Warp) (e : QEntry) : (w.enqueue e).granules = w.granules := rfl
@[simp] theorem Warp.enqueue_reserveGranules (w : Warp) (e : QEntry) : (w.enqueue e).reserveGranules = w.reserveGranules := rfl
@[simp] theorem Warp.enqueue_g (w : Warp) (e : QEntry) : (w.enqueue e).g = w.g := rfl
@[simp] theorem Warp.enqueue_k (w : Warp) (e : QEntry) : (w.enqueue e).k = w.k := rfl
@[simp] theorem Warp.enqueue_latch (w : Warp) (e : QEntry) : (w.enqueue e).latch = w.latch := rfl
@[simp] theorem Warp.enqueue_p (w : Warp) (e : QEntry) : (w.enqueue e).p = w.p := rfl
@[simp] theorem Warp.enqueue_presG (w : Warp) (e : QEntry) : (w.enqueue e).presG = w.presG := rfl
@[simp] theorem Warp.enqueue_presP (w : Warp) (e : QEntry) : (w.enqueue e).presP = w.presP := rfl
@[simp] theorem Warp.enqueue_bind (w : Warp) (e : QEntry) : (w.enqueue e).bind = w.bind := rfl
@[simp] theorem Warp.enqueue_mstat (w : Warp) (e : QEntry) : (w.enqueue e).mstat = w.mstat := rfl
@[simp] theorem Warp.enqueue_ectr (w : Warp) (e : QEntry) : (w.enqueue e).ectr = w.ectr := rfl
@[simp] theorem Warp.enqueue_pc (w : Warp) (e : QEntry) : (w.enqueue e).pc = w.pc := rfl
@[simp] theorem Warp.enqueue_hdr (w : Warp) (e : QEntry) : (w.enqueue e).hdr = w.hdr := rfl
@[simp] theorem Warp.enqueue_uni (w : Warp) (e : QEntry) : (w.enqueue e).uni = w.uni := rfl
@[simp] theorem Warp.enqueue_seq (w : Warp) (e : QEntry) : (w.enqueue e).seq = w.seq := rfl
@[simp] theorem Warp.enqueue_started (w : Warp) (e : QEntry) : (w.enqueue e).started = w.started := rfl
@[simp] theorem Warp.enqueue_ops (w : Warp) (e : QEntry) : (w.enqueue e).ops = w.ops := rfl
@[simp] theorem Warp.enqueue_reports (w : Warp) (e : QEntry) : (w.enqueue e).reports = w.reports := rfl
@[simp] theorem Warp.enqueue_storeQ (w : Warp) (e : QEntry) : (w.enqueue e).storeQ = w.storeQ := rfl
@[simp] theorem Warp.enqueue_fences (w : Warp) (e : QEntry) : (w.enqueue e).fences = w.fences := rfl
@[simp] theorem Warp.enqueue_spc (w : Warp) (e : QEntry) : (w.enqueue e).spc = w.spc := rfl
@[simp] theorem Warp.enqueue_fepc (w : Warp) (e : QEntry) : (w.enqueue e).fepc = w.fepc := rfl
@[simp] theorem Warp.enqueue_trapCode (w : Warp) (e : QEntry) : (w.enqueue e).trapCode = w.trapCode := rfl
@[simp] theorem Warp.enqueue_trapAddr (w : Warp) (e : QEntry) : (w.enqueue e).trapAddr = w.trapAddr := rfl
@[simp] theorem Warp.enqueue_held (w : Warp) (e : QEntry) : (w.enqueue e).held = w.held := rfl
@[simp] theorem Warp.enqueue_resume (w : Warp) (e : QEntry) : (w.enqueue e).resume = w.resume := rfl
@[simp] theorem Warp.enqueue_block (w : Warp) (e : QEntry) : (w.enqueue e).block = w.block := rfl
@[simp] theorem Warp.enqueue_stopping (w : Warp) (e : QEntry) : (w.enqueue e).stopping = w.stopping := rfl
@[simp] theorem Warp.enqueue_halted (w : Warp) (e : QEntry) : (w.enqueue e).halted = w.halted := rfl
@[simp] theorem Warp.enqueue_stopped (w : Warp) (e : QEntry) : (w.enqueue e).stopped = w.stopped := rfl
@[simp] theorem Warp.enqueue_dataFault (w : Warp) (e : QEntry) : (w.enqueue e).dataFault = w.dataFault := rfl
@[simp] theorem Warp.enqueue_fetchFault (w : Warp) (e : QEntry) : (w.enqueue e).fetchFault = w.fetchFault := rfl
@[simp] theorem Warp.enqueue_clkHi (w : Warp) (e : QEntry) : (w.enqueue e).clkHi = w.clkHi := rfl
@[simp] theorem Warp.enqueue_lscale (w : Warp) (e : QEntry) : (w.enqueue e).lscale = w.lscale := rfl
@[simp] theorem Warp.enqueue_skipBp (w : Warp) (e : QEntry) : (w.enqueue e).skipBp = w.skipBp := rfl
@[simp] theorem Warp.enqueue_stepping (w : Warp) (e : QEntry) : (w.enqueue e).stepping = w.stepping := rfl
@[simp] theorem Warp.enqueue_haltWait (w : Warp) (e : QEntry) : (w.enqueue e).haltWait = w.haltWait := rfl
@[simp] theorem Warp.enqueue_passed (w : Warp) (e : QEntry) : (w.enqueue e).passed = w.passed := rfl

@[simp] theorem Warp.clearG_wid (w : Warp) (rs : List Nat) : (w.clearG rs).wid = w.wid := rfl
@[simp] theorem Warp.clearG_age (w : Warp) (rs : List Nat) : (w.clearG rs).age = w.age := rfl
@[simp] theorem Warp.clearG_active (w : Warp) (rs : List Nat) : (w.clearG rs).active = w.active := rfl
@[simp] theorem Warp.clearG_tids (w : Warp) (rs : List Nat) : (w.clearG rs).tids = w.tids := rfl
@[simp] theorem Warp.clearG_census (w : Warp) (rs : List Nat) : (w.clearG rs).census = w.census := rfl
@[simp] theorem Warp.clearG_granules (w : Warp) (rs : List Nat) : (w.clearG rs).granules = w.granules := rfl
@[simp] theorem Warp.clearG_reserveGranules (w : Warp) (rs : List Nat) : (w.clearG rs).reserveGranules = w.reserveGranules := rfl
@[simp] theorem Warp.clearG_g (w : Warp) (rs : List Nat) : (w.clearG rs).g = w.g := rfl
@[simp] theorem Warp.clearG_k (w : Warp) (rs : List Nat) : (w.clearG rs).k = w.k := rfl
@[simp] theorem Warp.clearG_latch (w : Warp) (rs : List Nat) : (w.clearG rs).latch = w.latch := rfl
@[simp] theorem Warp.clearG_p (w : Warp) (rs : List Nat) : (w.clearG rs).p = w.p := rfl
@[simp] theorem Warp.clearG_presP (w : Warp) (rs : List Nat) : (w.clearG rs).presP = w.presP := rfl
@[simp] theorem Warp.clearG_bind (w : Warp) (rs : List Nat) : (w.clearG rs).bind = w.bind := rfl
@[simp] theorem Warp.clearG_mstat (w : Warp) (rs : List Nat) : (w.clearG rs).mstat = w.mstat := rfl
@[simp] theorem Warp.clearG_ectr (w : Warp) (rs : List Nat) : (w.clearG rs).ectr = w.ectr := rfl
@[simp] theorem Warp.clearG_pc (w : Warp) (rs : List Nat) : (w.clearG rs).pc = w.pc := rfl
@[simp] theorem Warp.clearG_hdr (w : Warp) (rs : List Nat) : (w.clearG rs).hdr = w.hdr := rfl
@[simp] theorem Warp.clearG_uni (w : Warp) (rs : List Nat) : (w.clearG rs).uni = w.uni := rfl
@[simp] theorem Warp.clearG_seq (w : Warp) (rs : List Nat) : (w.clearG rs).seq = w.seq := rfl
@[simp] theorem Warp.clearG_queues (w : Warp) (rs : List Nat) : (w.clearG rs).queues = w.queues := rfl
@[simp] theorem Warp.clearG_started (w : Warp) (rs : List Nat) : (w.clearG rs).started = w.started := rfl
@[simp] theorem Warp.clearG_ops (w : Warp) (rs : List Nat) : (w.clearG rs).ops = w.ops := rfl
@[simp] theorem Warp.clearG_reports (w : Warp) (rs : List Nat) : (w.clearG rs).reports = w.reports := rfl
@[simp] theorem Warp.clearG_storeQ (w : Warp) (rs : List Nat) : (w.clearG rs).storeQ = w.storeQ := rfl
@[simp] theorem Warp.clearG_fences (w : Warp) (rs : List Nat) : (w.clearG rs).fences = w.fences := rfl
@[simp] theorem Warp.clearG_spc (w : Warp) (rs : List Nat) : (w.clearG rs).spc = w.spc := rfl
@[simp] theorem Warp.clearG_fepc (w : Warp) (rs : List Nat) : (w.clearG rs).fepc = w.fepc := rfl
@[simp] theorem Warp.clearG_trapCode (w : Warp) (rs : List Nat) : (w.clearG rs).trapCode = w.trapCode := rfl
@[simp] theorem Warp.clearG_trapAddr (w : Warp) (rs : List Nat) : (w.clearG rs).trapAddr = w.trapAddr := rfl
@[simp] theorem Warp.clearG_held (w : Warp) (rs : List Nat) : (w.clearG rs).held = w.held := rfl
@[simp] theorem Warp.clearG_resume (w : Warp) (rs : List Nat) : (w.clearG rs).resume = w.resume := rfl
@[simp] theorem Warp.clearG_block (w : Warp) (rs : List Nat) : (w.clearG rs).block = w.block := rfl
@[simp] theorem Warp.clearG_stopping (w : Warp) (rs : List Nat) : (w.clearG rs).stopping = w.stopping := rfl
@[simp] theorem Warp.clearG_halted (w : Warp) (rs : List Nat) : (w.clearG rs).halted = w.halted := rfl
@[simp] theorem Warp.clearG_stopped (w : Warp) (rs : List Nat) : (w.clearG rs).stopped = w.stopped := rfl
@[simp] theorem Warp.clearG_dataFault (w : Warp) (rs : List Nat) : (w.clearG rs).dataFault = w.dataFault := rfl
@[simp] theorem Warp.clearG_fetchFault (w : Warp) (rs : List Nat) : (w.clearG rs).fetchFault = w.fetchFault := rfl
@[simp] theorem Warp.clearG_clkHi (w : Warp) (rs : List Nat) : (w.clearG rs).clkHi = w.clkHi := rfl
@[simp] theorem Warp.clearG_lscale (w : Warp) (rs : List Nat) : (w.clearG rs).lscale = w.lscale := rfl
@[simp] theorem Warp.clearG_skipBp (w : Warp) (rs : List Nat) : (w.clearG rs).skipBp = w.skipBp := rfl
@[simp] theorem Warp.clearG_stepping (w : Warp) (rs : List Nat) : (w.clearG rs).stepping = w.stepping := rfl
@[simp] theorem Warp.clearG_haltWait (w : Warp) (rs : List Nat) : (w.clearG rs).haltWait = w.haltWait := rfl
@[simp] theorem Warp.clearG_passed (w : Warp) (rs : List Nat) : (w.clearG rs).passed = w.passed := rfl

@[simp] theorem Warp.markG_wid (w : Warp) (rs : List Nat) : (w.markG rs).wid = w.wid := rfl
@[simp] theorem Warp.markG_age (w : Warp) (rs : List Nat) : (w.markG rs).age = w.age := rfl
@[simp] theorem Warp.markG_active (w : Warp) (rs : List Nat) : (w.markG rs).active = w.active := rfl
@[simp] theorem Warp.markG_tids (w : Warp) (rs : List Nat) : (w.markG rs).tids = w.tids := rfl
@[simp] theorem Warp.markG_census (w : Warp) (rs : List Nat) : (w.markG rs).census = w.census := rfl
@[simp] theorem Warp.markG_granules (w : Warp) (rs : List Nat) : (w.markG rs).granules = w.granules := rfl
@[simp] theorem Warp.markG_reserveGranules (w : Warp) (rs : List Nat) : (w.markG rs).reserveGranules = w.reserveGranules := rfl
@[simp] theorem Warp.markG_g (w : Warp) (rs : List Nat) : (w.markG rs).g = w.g := rfl
@[simp] theorem Warp.markG_k (w : Warp) (rs : List Nat) : (w.markG rs).k = w.k := rfl
@[simp] theorem Warp.markG_latch (w : Warp) (rs : List Nat) : (w.markG rs).latch = w.latch := rfl
@[simp] theorem Warp.markG_p (w : Warp) (rs : List Nat) : (w.markG rs).p = w.p := rfl
@[simp] theorem Warp.markG_presP (w : Warp) (rs : List Nat) : (w.markG rs).presP = w.presP := rfl
@[simp] theorem Warp.markG_bind (w : Warp) (rs : List Nat) : (w.markG rs).bind = w.bind := rfl
@[simp] theorem Warp.markG_mstat (w : Warp) (rs : List Nat) : (w.markG rs).mstat = w.mstat := rfl
@[simp] theorem Warp.markG_ectr (w : Warp) (rs : List Nat) : (w.markG rs).ectr = w.ectr := rfl
@[simp] theorem Warp.markG_pc (w : Warp) (rs : List Nat) : (w.markG rs).pc = w.pc := rfl
@[simp] theorem Warp.markG_hdr (w : Warp) (rs : List Nat) : (w.markG rs).hdr = w.hdr := rfl
@[simp] theorem Warp.markG_uni (w : Warp) (rs : List Nat) : (w.markG rs).uni = w.uni := rfl
@[simp] theorem Warp.markG_seq (w : Warp) (rs : List Nat) : (w.markG rs).seq = w.seq := rfl
@[simp] theorem Warp.markG_queues (w : Warp) (rs : List Nat) : (w.markG rs).queues = w.queues := rfl
@[simp] theorem Warp.markG_started (w : Warp) (rs : List Nat) : (w.markG rs).started = w.started := rfl
@[simp] theorem Warp.markG_ops (w : Warp) (rs : List Nat) : (w.markG rs).ops = w.ops := rfl
@[simp] theorem Warp.markG_reports (w : Warp) (rs : List Nat) : (w.markG rs).reports = w.reports := rfl
@[simp] theorem Warp.markG_storeQ (w : Warp) (rs : List Nat) : (w.markG rs).storeQ = w.storeQ := rfl
@[simp] theorem Warp.markG_fences (w : Warp) (rs : List Nat) : (w.markG rs).fences = w.fences := rfl
@[simp] theorem Warp.markG_spc (w : Warp) (rs : List Nat) : (w.markG rs).spc = w.spc := rfl
@[simp] theorem Warp.markG_fepc (w : Warp) (rs : List Nat) : (w.markG rs).fepc = w.fepc := rfl
@[simp] theorem Warp.markG_trapCode (w : Warp) (rs : List Nat) : (w.markG rs).trapCode = w.trapCode := rfl
@[simp] theorem Warp.markG_trapAddr (w : Warp) (rs : List Nat) : (w.markG rs).trapAddr = w.trapAddr := rfl
@[simp] theorem Warp.markG_held (w : Warp) (rs : List Nat) : (w.markG rs).held = w.held := rfl
@[simp] theorem Warp.markG_resume (w : Warp) (rs : List Nat) : (w.markG rs).resume = w.resume := rfl
@[simp] theorem Warp.markG_block (w : Warp) (rs : List Nat) : (w.markG rs).block = w.block := rfl
@[simp] theorem Warp.markG_stopping (w : Warp) (rs : List Nat) : (w.markG rs).stopping = w.stopping := rfl
@[simp] theorem Warp.markG_halted (w : Warp) (rs : List Nat) : (w.markG rs).halted = w.halted := rfl
@[simp] theorem Warp.markG_stopped (w : Warp) (rs : List Nat) : (w.markG rs).stopped = w.stopped := rfl
@[simp] theorem Warp.markG_dataFault (w : Warp) (rs : List Nat) : (w.markG rs).dataFault = w.dataFault := rfl
@[simp] theorem Warp.markG_fetchFault (w : Warp) (rs : List Nat) : (w.markG rs).fetchFault = w.fetchFault := rfl
@[simp] theorem Warp.markG_clkHi (w : Warp) (rs : List Nat) : (w.markG rs).clkHi = w.clkHi := rfl
@[simp] theorem Warp.markG_lscale (w : Warp) (rs : List Nat) : (w.markG rs).lscale = w.lscale := rfl
@[simp] theorem Warp.markG_skipBp (w : Warp) (rs : List Nat) : (w.markG rs).skipBp = w.skipBp := rfl
@[simp] theorem Warp.markG_stepping (w : Warp) (rs : List Nat) : (w.markG rs).stepping = w.stepping := rfl
@[simp] theorem Warp.markG_haltWait (w : Warp) (rs : List Nat) : (w.markG rs).haltWait = w.haltWait := rfl
@[simp] theorem Warp.markG_passed (w : Warp) (rs : List Nat) : (w.markG rs).passed = w.passed := rfl

@[simp] theorem Warp.clearP_wid (w : Warp) (ps : List Nat) : (w.clearP ps).wid = w.wid := rfl
@[simp] theorem Warp.clearP_age (w : Warp) (ps : List Nat) : (w.clearP ps).age = w.age := rfl
@[simp] theorem Warp.clearP_active (w : Warp) (ps : List Nat) : (w.clearP ps).active = w.active := rfl
@[simp] theorem Warp.clearP_tids (w : Warp) (ps : List Nat) : (w.clearP ps).tids = w.tids := rfl
@[simp] theorem Warp.clearP_census (w : Warp) (ps : List Nat) : (w.clearP ps).census = w.census := rfl
@[simp] theorem Warp.clearP_granules (w : Warp) (ps : List Nat) : (w.clearP ps).granules = w.granules := rfl
@[simp] theorem Warp.clearP_reserveGranules (w : Warp) (ps : List Nat) : (w.clearP ps).reserveGranules = w.reserveGranules := rfl
@[simp] theorem Warp.clearP_g (w : Warp) (ps : List Nat) : (w.clearP ps).g = w.g := rfl
@[simp] theorem Warp.clearP_k (w : Warp) (ps : List Nat) : (w.clearP ps).k = w.k := rfl
@[simp] theorem Warp.clearP_latch (w : Warp) (ps : List Nat) : (w.clearP ps).latch = w.latch := rfl
@[simp] theorem Warp.clearP_p (w : Warp) (ps : List Nat) : (w.clearP ps).p = w.p := rfl
@[simp] theorem Warp.clearP_presG (w : Warp) (ps : List Nat) : (w.clearP ps).presG = w.presG := rfl
@[simp] theorem Warp.clearP_bind (w : Warp) (ps : List Nat) : (w.clearP ps).bind = w.bind := rfl
@[simp] theorem Warp.clearP_mstat (w : Warp) (ps : List Nat) : (w.clearP ps).mstat = w.mstat := rfl
@[simp] theorem Warp.clearP_ectr (w : Warp) (ps : List Nat) : (w.clearP ps).ectr = w.ectr := rfl
@[simp] theorem Warp.clearP_pc (w : Warp) (ps : List Nat) : (w.clearP ps).pc = w.pc := rfl
@[simp] theorem Warp.clearP_hdr (w : Warp) (ps : List Nat) : (w.clearP ps).hdr = w.hdr := rfl
@[simp] theorem Warp.clearP_uni (w : Warp) (ps : List Nat) : (w.clearP ps).uni = w.uni := rfl
@[simp] theorem Warp.clearP_seq (w : Warp) (ps : List Nat) : (w.clearP ps).seq = w.seq := rfl
@[simp] theorem Warp.clearP_queues (w : Warp) (ps : List Nat) : (w.clearP ps).queues = w.queues := rfl
@[simp] theorem Warp.clearP_started (w : Warp) (ps : List Nat) : (w.clearP ps).started = w.started := rfl
@[simp] theorem Warp.clearP_ops (w : Warp) (ps : List Nat) : (w.clearP ps).ops = w.ops := rfl
@[simp] theorem Warp.clearP_reports (w : Warp) (ps : List Nat) : (w.clearP ps).reports = w.reports := rfl
@[simp] theorem Warp.clearP_storeQ (w : Warp) (ps : List Nat) : (w.clearP ps).storeQ = w.storeQ := rfl
@[simp] theorem Warp.clearP_fences (w : Warp) (ps : List Nat) : (w.clearP ps).fences = w.fences := rfl
@[simp] theorem Warp.clearP_spc (w : Warp) (ps : List Nat) : (w.clearP ps).spc = w.spc := rfl
@[simp] theorem Warp.clearP_fepc (w : Warp) (ps : List Nat) : (w.clearP ps).fepc = w.fepc := rfl
@[simp] theorem Warp.clearP_trapCode (w : Warp) (ps : List Nat) : (w.clearP ps).trapCode = w.trapCode := rfl
@[simp] theorem Warp.clearP_trapAddr (w : Warp) (ps : List Nat) : (w.clearP ps).trapAddr = w.trapAddr := rfl
@[simp] theorem Warp.clearP_held (w : Warp) (ps : List Nat) : (w.clearP ps).held = w.held := rfl
@[simp] theorem Warp.clearP_resume (w : Warp) (ps : List Nat) : (w.clearP ps).resume = w.resume := rfl
@[simp] theorem Warp.clearP_block (w : Warp) (ps : List Nat) : (w.clearP ps).block = w.block := rfl
@[simp] theorem Warp.clearP_stopping (w : Warp) (ps : List Nat) : (w.clearP ps).stopping = w.stopping := rfl
@[simp] theorem Warp.clearP_halted (w : Warp) (ps : List Nat) : (w.clearP ps).halted = w.halted := rfl
@[simp] theorem Warp.clearP_stopped (w : Warp) (ps : List Nat) : (w.clearP ps).stopped = w.stopped := rfl
@[simp] theorem Warp.clearP_dataFault (w : Warp) (ps : List Nat) : (w.clearP ps).dataFault = w.dataFault := rfl
@[simp] theorem Warp.clearP_fetchFault (w : Warp) (ps : List Nat) : (w.clearP ps).fetchFault = w.fetchFault := rfl
@[simp] theorem Warp.clearP_clkHi (w : Warp) (ps : List Nat) : (w.clearP ps).clkHi = w.clkHi := rfl
@[simp] theorem Warp.clearP_lscale (w : Warp) (ps : List Nat) : (w.clearP ps).lscale = w.lscale := rfl
@[simp] theorem Warp.clearP_skipBp (w : Warp) (ps : List Nat) : (w.clearP ps).skipBp = w.skipBp := rfl
@[simp] theorem Warp.clearP_stepping (w : Warp) (ps : List Nat) : (w.clearP ps).stepping = w.stepping := rfl
@[simp] theorem Warp.clearP_haltWait (w : Warp) (ps : List Nat) : (w.clearP ps).haltWait = w.haltWait := rfl
@[simp] theorem Warp.clearP_passed (w : Warp) (ps : List Nat) : (w.clearP ps).passed = w.passed := rfl

@[simp] theorem Warp.markP_wid (w : Warp) (ps : List Nat) : (w.markP ps).wid = w.wid := rfl
@[simp] theorem Warp.markP_age (w : Warp) (ps : List Nat) : (w.markP ps).age = w.age := rfl
@[simp] theorem Warp.markP_active (w : Warp) (ps : List Nat) : (w.markP ps).active = w.active := rfl
@[simp] theorem Warp.markP_tids (w : Warp) (ps : List Nat) : (w.markP ps).tids = w.tids := rfl
@[simp] theorem Warp.markP_census (w : Warp) (ps : List Nat) : (w.markP ps).census = w.census := rfl
@[simp] theorem Warp.markP_granules (w : Warp) (ps : List Nat) : (w.markP ps).granules = w.granules := rfl
@[simp] theorem Warp.markP_reserveGranules (w : Warp) (ps : List Nat) : (w.markP ps).reserveGranules = w.reserveGranules := rfl
@[simp] theorem Warp.markP_g (w : Warp) (ps : List Nat) : (w.markP ps).g = w.g := rfl
@[simp] theorem Warp.markP_k (w : Warp) (ps : List Nat) : (w.markP ps).k = w.k := rfl
@[simp] theorem Warp.markP_latch (w : Warp) (ps : List Nat) : (w.markP ps).latch = w.latch := rfl
@[simp] theorem Warp.markP_p (w : Warp) (ps : List Nat) : (w.markP ps).p = w.p := rfl
@[simp] theorem Warp.markP_presG (w : Warp) (ps : List Nat) : (w.markP ps).presG = w.presG := rfl
@[simp] theorem Warp.markP_bind (w : Warp) (ps : List Nat) : (w.markP ps).bind = w.bind := rfl
@[simp] theorem Warp.markP_mstat (w : Warp) (ps : List Nat) : (w.markP ps).mstat = w.mstat := rfl
@[simp] theorem Warp.markP_ectr (w : Warp) (ps : List Nat) : (w.markP ps).ectr = w.ectr := rfl
@[simp] theorem Warp.markP_pc (w : Warp) (ps : List Nat) : (w.markP ps).pc = w.pc := rfl
@[simp] theorem Warp.markP_hdr (w : Warp) (ps : List Nat) : (w.markP ps).hdr = w.hdr := rfl
@[simp] theorem Warp.markP_uni (w : Warp) (ps : List Nat) : (w.markP ps).uni = w.uni := rfl
@[simp] theorem Warp.markP_seq (w : Warp) (ps : List Nat) : (w.markP ps).seq = w.seq := rfl
@[simp] theorem Warp.markP_queues (w : Warp) (ps : List Nat) : (w.markP ps).queues = w.queues := rfl
@[simp] theorem Warp.markP_started (w : Warp) (ps : List Nat) : (w.markP ps).started = w.started := rfl
@[simp] theorem Warp.markP_ops (w : Warp) (ps : List Nat) : (w.markP ps).ops = w.ops := rfl
@[simp] theorem Warp.markP_reports (w : Warp) (ps : List Nat) : (w.markP ps).reports = w.reports := rfl
@[simp] theorem Warp.markP_storeQ (w : Warp) (ps : List Nat) : (w.markP ps).storeQ = w.storeQ := rfl
@[simp] theorem Warp.markP_fences (w : Warp) (ps : List Nat) : (w.markP ps).fences = w.fences := rfl
@[simp] theorem Warp.markP_spc (w : Warp) (ps : List Nat) : (w.markP ps).spc = w.spc := rfl
@[simp] theorem Warp.markP_fepc (w : Warp) (ps : List Nat) : (w.markP ps).fepc = w.fepc := rfl
@[simp] theorem Warp.markP_trapCode (w : Warp) (ps : List Nat) : (w.markP ps).trapCode = w.trapCode := rfl
@[simp] theorem Warp.markP_trapAddr (w : Warp) (ps : List Nat) : (w.markP ps).trapAddr = w.trapAddr := rfl
@[simp] theorem Warp.markP_held (w : Warp) (ps : List Nat) : (w.markP ps).held = w.held := rfl
@[simp] theorem Warp.markP_resume (w : Warp) (ps : List Nat) : (w.markP ps).resume = w.resume := rfl
@[simp] theorem Warp.markP_block (w : Warp) (ps : List Nat) : (w.markP ps).block = w.block := rfl
@[simp] theorem Warp.markP_stopping (w : Warp) (ps : List Nat) : (w.markP ps).stopping = w.stopping := rfl
@[simp] theorem Warp.markP_halted (w : Warp) (ps : List Nat) : (w.markP ps).halted = w.halted := rfl
@[simp] theorem Warp.markP_stopped (w : Warp) (ps : List Nat) : (w.markP ps).stopped = w.stopped := rfl
@[simp] theorem Warp.markP_dataFault (w : Warp) (ps : List Nat) : (w.markP ps).dataFault = w.dataFault := rfl
@[simp] theorem Warp.markP_fetchFault (w : Warp) (ps : List Nat) : (w.markP ps).fetchFault = w.fetchFault := rfl
@[simp] theorem Warp.markP_clkHi (w : Warp) (ps : List Nat) : (w.markP ps).clkHi = w.clkHi := rfl
@[simp] theorem Warp.markP_lscale (w : Warp) (ps : List Nat) : (w.markP ps).lscale = w.lscale := rfl
@[simp] theorem Warp.markP_skipBp (w : Warp) (ps : List Nat) : (w.markP ps).skipBp = w.skipBp := rfl
@[simp] theorem Warp.markP_stepping (w : Warp) (ps : List Nat) : (w.markP ps).stepping = w.stepping := rfl
@[simp] theorem Warp.markP_haltWait (w : Warp) (ps : List Nat) : (w.markP ps).haltWait = w.haltWait := rfl
@[simp] theorem Warp.markP_passed (w : Warp) (ps : List Nat) : (w.markP ps).passed = w.passed := rfl

@[simp] theorem Warp.setG_wid (w : Warp) (r : Nat) (x : LaneSet) (v : Lanes) : (w.setG r x v).wid = w.wid := rfl
@[simp] theorem Warp.setG_age (w : Warp) (r : Nat) (x : LaneSet) (v : Lanes) : (w.setG r x v).age = w.age := rfl
@[simp] theorem Warp.setG_active (w : Warp) (r : Nat) (x : LaneSet) (v : Lanes) : (w.setG r x v).active = w.active := rfl
@[simp] theorem Warp.setG_tids (w : Warp) (r : Nat) (x : LaneSet) (v : Lanes) : (w.setG r x v).tids = w.tids := rfl
@[simp] theorem Warp.setG_census (w : Warp) (r : Nat) (x : LaneSet) (v : Lanes) : (w.setG r x v).census = w.census := rfl
@[simp] theorem Warp.setG_granules (w : Warp) (r : Nat) (x : LaneSet) (v : Lanes) : (w.setG r x v).granules = w.granules := rfl
@[simp] theorem Warp.setG_reserveGranules (w : Warp) (r : Nat) (x : LaneSet) (v : Lanes) : (w.setG r x v).reserveGranules = w.reserveGranules := rfl
@[simp] theorem Warp.setG_k (w : Warp) (r : Nat) (x : LaneSet) (v : Lanes) : (w.setG r x v).k = w.k := rfl
@[simp] theorem Warp.setG_latch (w : Warp) (r : Nat) (x : LaneSet) (v : Lanes) : (w.setG r x v).latch = w.latch := rfl
@[simp] theorem Warp.setG_p (w : Warp) (r : Nat) (x : LaneSet) (v : Lanes) : (w.setG r x v).p = w.p := rfl
@[simp] theorem Warp.setG_presG (w : Warp) (r : Nat) (x : LaneSet) (v : Lanes) : (w.setG r x v).presG = w.presG := rfl
@[simp] theorem Warp.setG_presP (w : Warp) (r : Nat) (x : LaneSet) (v : Lanes) : (w.setG r x v).presP = w.presP := rfl
@[simp] theorem Warp.setG_bind (w : Warp) (r : Nat) (x : LaneSet) (v : Lanes) : (w.setG r x v).bind = w.bind := rfl
@[simp] theorem Warp.setG_mstat (w : Warp) (r : Nat) (x : LaneSet) (v : Lanes) : (w.setG r x v).mstat = w.mstat := rfl
@[simp] theorem Warp.setG_ectr (w : Warp) (r : Nat) (x : LaneSet) (v : Lanes) : (w.setG r x v).ectr = w.ectr := rfl
@[simp] theorem Warp.setG_pc (w : Warp) (r : Nat) (x : LaneSet) (v : Lanes) : (w.setG r x v).pc = w.pc := rfl
@[simp] theorem Warp.setG_hdr (w : Warp) (r : Nat) (x : LaneSet) (v : Lanes) : (w.setG r x v).hdr = w.hdr := rfl
@[simp] theorem Warp.setG_uni (w : Warp) (r : Nat) (x : LaneSet) (v : Lanes) : (w.setG r x v).uni = w.uni := rfl
@[simp] theorem Warp.setG_seq (w : Warp) (r : Nat) (x : LaneSet) (v : Lanes) : (w.setG r x v).seq = w.seq := rfl
@[simp] theorem Warp.setG_queues (w : Warp) (r : Nat) (x : LaneSet) (v : Lanes) : (w.setG r x v).queues = w.queues := rfl
@[simp] theorem Warp.setG_started (w : Warp) (r : Nat) (x : LaneSet) (v : Lanes) : (w.setG r x v).started = w.started := rfl
@[simp] theorem Warp.setG_ops (w : Warp) (r : Nat) (x : LaneSet) (v : Lanes) : (w.setG r x v).ops = w.ops := rfl
@[simp] theorem Warp.setG_reports (w : Warp) (r : Nat) (x : LaneSet) (v : Lanes) : (w.setG r x v).reports = w.reports := rfl
@[simp] theorem Warp.setG_storeQ (w : Warp) (r : Nat) (x : LaneSet) (v : Lanes) : (w.setG r x v).storeQ = w.storeQ := rfl
@[simp] theorem Warp.setG_fences (w : Warp) (r : Nat) (x : LaneSet) (v : Lanes) : (w.setG r x v).fences = w.fences := rfl
@[simp] theorem Warp.setG_spc (w : Warp) (r : Nat) (x : LaneSet) (v : Lanes) : (w.setG r x v).spc = w.spc := rfl
@[simp] theorem Warp.setG_fepc (w : Warp) (r : Nat) (x : LaneSet) (v : Lanes) : (w.setG r x v).fepc = w.fepc := rfl
@[simp] theorem Warp.setG_trapCode (w : Warp) (r : Nat) (x : LaneSet) (v : Lanes) : (w.setG r x v).trapCode = w.trapCode := rfl
@[simp] theorem Warp.setG_trapAddr (w : Warp) (r : Nat) (x : LaneSet) (v : Lanes) : (w.setG r x v).trapAddr = w.trapAddr := rfl
@[simp] theorem Warp.setG_held (w : Warp) (r : Nat) (x : LaneSet) (v : Lanes) : (w.setG r x v).held = w.held := rfl
@[simp] theorem Warp.setG_resume (w : Warp) (r : Nat) (x : LaneSet) (v : Lanes) : (w.setG r x v).resume = w.resume := rfl
@[simp] theorem Warp.setG_block (w : Warp) (r : Nat) (x : LaneSet) (v : Lanes) : (w.setG r x v).block = w.block := rfl
@[simp] theorem Warp.setG_stopping (w : Warp) (r : Nat) (x : LaneSet) (v : Lanes) : (w.setG r x v).stopping = w.stopping := rfl
@[simp] theorem Warp.setG_halted (w : Warp) (r : Nat) (x : LaneSet) (v : Lanes) : (w.setG r x v).halted = w.halted := rfl
@[simp] theorem Warp.setG_stopped (w : Warp) (r : Nat) (x : LaneSet) (v : Lanes) : (w.setG r x v).stopped = w.stopped := rfl
@[simp] theorem Warp.setG_dataFault (w : Warp) (r : Nat) (x : LaneSet) (v : Lanes) : (w.setG r x v).dataFault = w.dataFault := rfl
@[simp] theorem Warp.setG_fetchFault (w : Warp) (r : Nat) (x : LaneSet) (v : Lanes) : (w.setG r x v).fetchFault = w.fetchFault := rfl
@[simp] theorem Warp.setG_clkHi (w : Warp) (r : Nat) (x : LaneSet) (v : Lanes) : (w.setG r x v).clkHi = w.clkHi := rfl
@[simp] theorem Warp.setG_lscale (w : Warp) (r : Nat) (x : LaneSet) (v : Lanes) : (w.setG r x v).lscale = w.lscale := rfl
@[simp] theorem Warp.setG_skipBp (w : Warp) (r : Nat) (x : LaneSet) (v : Lanes) : (w.setG r x v).skipBp = w.skipBp := rfl
@[simp] theorem Warp.setG_stepping (w : Warp) (r : Nat) (x : LaneSet) (v : Lanes) : (w.setG r x v).stepping = w.stepping := rfl
@[simp] theorem Warp.setG_haltWait (w : Warp) (r : Nat) (x : LaneSet) (v : Lanes) : (w.setG r x v).haltWait = w.haltWait := rfl
@[simp] theorem Warp.setG_passed (w : Warp) (r : Nat) (x : LaneSet) (v : Lanes) : (w.setG r x v).passed = w.passed := rfl

theorem Warp.setP_eq (w : Warp) (p : Nat) (x v : LaneSet) : w.setP p x v = { w with p := (w.setP p x v).p } := by
  unfold Warp.setP
  split <;> rfl

theorem Warp.setS_eq (w : Warp) (i : Nat) (v : DWord) : w.setS i v = { w with uni := { w.uni with s := (w.setS i v).uni.s } } := by
  unfold Warp.setS
  split <;> rfl

/-- Reading a uniform register after writing one; s0 stays zero (R53). -/
theorem Warp.sreg_setS (w : Warp) (i j : Nat) (v : DWord) : (w.setS i v).sreg j = if j = i ∧ i ≠ 0 then v else w.sreg j := by
  by_cases hi : i = 0
  · simp [Warp.setS, hi]
  · by_cases hj : j = 0
    · have hi' : ¬ 0 = i := fun e => hi e.symm
      simp [Warp.sreg, hj, hi']
    · simp [Warp.sreg, Warp.setS, hi, hj, nth_setNth]

/-- Reading a general register after writing one, lane by lane. -/
theorem Warp.greg_setG (w : Warp) (r j l : Nat) (x : LaneSet) (v : Lanes) (hl : l < 32) :
    laneOf ((w.setG r x v).greg j) l = if j = r ∧ x.getLsbD l then laneOf v l else laneOf (w.greg j) l := by
  by_cases hj : j = r
  · subst hj
    simp [Warp.greg, Warp.setG, laneOf_merge _ _ _ _ hl]
  · simp [Warp.greg, Warp.setG, nth_setNth, hj]

/-- Reading a predicate after writing one; p0 stays true (R54). -/
theorem Warp.pred_setP (w : Warp) (p q l : Nat) (x v : LaneSet) :
    ((w.setP p x v).pred q).getLsbD l = if q = p ∧ p ≠ 0 ∧ x.getLsbD l then v.getLsbD l else (w.pred q).getLsbD l := by
  by_cases hp : p = 0
  · simp [Warp.setP, hp]
  · by_cases hq : q = p
    · subst hq
      by_cases hx : x.getLsbD l = true
      · simp [Warp.pred, Warp.setP, hp, hx]
      · simp only [Bool.not_eq_true] at hx
        simp [Warp.pred, Warp.setP, hp, hx]
        exact fun h => BitVec.lt_of_getLsbD h
    · by_cases h0 : q = 0
      · have hp' : ¬ 0 = p := fun e => hp e.symm
        simp [Warp.pred, h0, hp']
      · simp [Warp.pred, Warp.setP, hp, hq, h0, nth_setNth]

-- the executing warp
/-- What it is that a warp executes. -/
theorem State.here_iff (s : State) (g : Workgroup) (w : Warp) :
    s.here = some (g, w) ↔ ∃ r, s.cur = some r ∧ s.wg r.wg = some g ∧ g.warp r.wid = some w := by
  unfold State.here State.at
  cases s.cur with
  | none => simp
  | some r =>
    cases hg : s.wg r.wg with
    | none => simp [hg]
    | some g' =>
      cases hw : g'.warp r.wid with
      | none =>
        simp only [hg, hw, Option.some.injEq, exists_eq_left']
        constructor
        · intro h; cases h
        · rintro ⟨rfl, h⟩; simp [hw] at h
      | some w' =>
        simp only [hg, hw, Option.some.injEq, exists_eq_left', Prod.mk.injEq]
        constructor
        · rintro ⟨rfl, rfl⟩; exact ⟨rfl, hw⟩
        · rintro ⟨rfl, h⟩; exact ⟨rfl, Option.some.inj (hw.symm.trans h)⟩

theorem find_map_replace {α : Type} (key : α → Nat) (l : List α) (a : α) (k : Nat) (b : α) (h : l.find? (fun x => key x == k) = some b)
    (hk : key a = k) : (l.map (fun x => if key x == key a then a else x)).find? (fun x => key x == k) = some a := by
  induction l with
  | nil => simp at h
  | cons c l ih =>
    simp only [List.find?_cons] at h
    by_cases hc : key c = k
    · simp [hc, hk]
    · have hc' : (key c == k) = false := by simp [hc]
      simp only [hc'] at h
      have hne : ¬ key c = key a := fun e => hc (e.trans hk)
      simp [hne, hc']
      simpa using ih h

theorem State.wg_setWg (s : State) (g g' : Workgroup) (u : Nat) (h : s.wg u = some g) (hu : g'.uid = u) : (s.setWg g').wg u = some g' :=
  find_map_replace Workgroup.uid s.wgs g' u g h hu

theorem Workgroup.warp_setWarp (g : Workgroup) (w w' : Warp) (i : Nat) (h : g.warp i = some w) (hi : w'.wid = i) :
    (g.setWarp w').warp i = some w' :=
  find_map_replace Warp.wid g.warps w' i w h hi

theorem State.wg_uid (s : State) (g : Workgroup) (u : Nat) (h : s.wg u = some g) : g.uid = u := by
  have := List.find?_some h
  simpa using this

theorem Workgroup.warp_wid (g : Workgroup) (w : Warp) (i : Nat) (h : g.warp i = some w) : w.wid = i := by
  have := List.find?_some h
  simpa using this

/-- The executing warp and its workgroup, once replaced, are found again. -/
theorem State.here_put (s : State) (g g' : Workgroup) (w w' : Warp) (h : s.here = some (g, w)) (hu : g'.uid = g.uid)
    (hw : g'.warps = g.warps) (hi : w'.wid = w.wid) : (s.put g' w').here = some (g'.setWarp w', w') := by
  rw [State.here_iff] at h ⊢
  obtain ⟨r, hc, hg, hr⟩ := h
  have h1 := s.wg_uid g _ hg
  have h2 := g.warp_wid w _ hr
  refine ⟨r, hc, s.wg_setWg g _ _ hg ?_, ?_⟩
  · simp [hu, h1]
  · have : g'.warp r.wid = some w := by
      unfold Workgroup.warp
      rw [hw]
      exact hr
    exact g'.warp_setWarp w w' _ this (hi.trans h2)

theorem State.here_count (s : State) (g : Workgroup) (a b c : Nat) : (s.count g a b c).here = s.here := rfl

/-- Acting on the executing warp. -/
theorem State.onWarp_here (s : State) (g : Workgroup) (w : Warp) (f : Workgroup → Warp → Out) (h : s.here = some (g, w)) :
    s.onWarp f = f g w := by
  simp [State.onWarp, h]

-- presence bits
theorem getLsbD_twoPow {n : Nat} (r i : Nat) (hi : i < n) : (BitVec.ofNat n (2 ^ r)).getLsbD i = decide (r = i) := by
  rw [BitVec.getLsbD_ofNat, Nat.testBit_two_pow]
  simp [hi]

theorem getLsbD_clearBits {n : Nat} (rs : List Nat) (m : BitVec n) (i : Nat) (hi : i < n) :
    (rs.foldl (fun m r => m &&& ~~~(BitVec.ofNat n (2 ^ r))) m).getLsbD i = (m.getLsbD i && !(rs.contains i)) := by
  induction rs generalizing m with
  | nil => simp
  | cons r rs ih =>
    simp only [List.foldl_cons]
    rw [ih, BitVec.getLsbD_and, BitVec.getLsbD_not, getLsbD_twoPow _ _ hi]
    by_cases h : r = i
    · simp [h]
    · have h' : ¬ i = r := fun e => h e.symm
      simp [h, h', hi]

theorem getLsbD_setBits {n : Nat} (rs : List Nat) (m : BitVec n) (i : Nat) (hi : i < n) :
    (rs.foldl (fun m r => m ||| BitVec.ofNat n (2 ^ r)) m).getLsbD i = (m.getLsbD i || rs.contains i) := by
  induction rs generalizing m with
  | nil => simp
  | cons r rs ih =>
    simp only [List.foldl_cons]
    rw [ih, BitVec.getLsbD_or, getLsbD_twoPow _ _ hi]
    by_cases h : r = i
    · simp [h]
    · have h' : ¬ i = r := fun e => h e.symm
      simp [h, h']

/-- Presence bits that were set, cleared at dispatch and set again at completion (R22). -/
theorem restoreBits {n : Nat} (rs : List Nat) (m : BitVec n) (hp : ∀ r ∈ rs, m.getLsbD r = true) :
    rs.foldl (fun m r => m ||| BitVec.ofNat n (2 ^ r)) (rs.foldl (fun m r => m &&& ~~~(BitVec.ofNat n (2 ^ r))) m) = m := by
  apply BitVec.eq_of_getLsbD_eq
  intro i hi
  rw [getLsbD_setBits _ _ _ hi, getLsbD_clearBits _ _ _ hi]
  by_cases h : i ∈ rs
  · simp [h, hp i h]
  · simp [h]

end Sys2Proof.Machine
end

