-- ==== Sys2Proof/Safety.lean ====
section
/-!
DEFINITION. What a safe run is, and the terms that statements are made in: the forms of the state that every step keeps, when an
instruction runs at once, and what a completed instruction leaves as it was (namespace Sys2Proof.Claims).
-/
namespace Sys2Proof.Machine

/-- The scratchpad and the tile slots of a workgroup are in canonical form. -/
def Workgroup.wf (g : Workgroup) : Bool := cellsRise g.scratch && g.slots.all (fun x => cellsRise x.words)

/-- Memory and the sectors' keys are in canonical form. -/
def State.wf (s : State) : Bool := s.mem.wf

/-- The registers and predicates that an instruction names: those that must exist, and those read and written under presence (R22). -/
structure Uses where
  regs : List Nat := []
  readsG : List Nat := []
  writesG : List Nat := []
  readsP : List Nat := []
  writesP : List Nat := []
deriving DecidableEq, Repr

/-- A strand or engine instruction of strand `n` that the executing warp `w` of `g` dispatches now runs at once: no resume passes over
it (R28), its queue is empty and nothing of its strand is under way (R18, R24), no older warp of the core has a head for its cluster to
start (R18), no started load holds its queue (R100), the warp is not stalled or stopping (R25, R326), its registers exist (R48), nothing it
writes is awaited (R22), and no earlier instruction still writes what it reads or reads or writes what it writes (R22, R23). `now` is the
model's own choice of the cycles in which a cluster starts an instruction (log 1). -/
structure State.RunsNow (s : State) (g : Workgroup) (w : Warp) (n : Nat) (u : Uses) : Prop where
  here : s.here = some (g, w)
  now : s.startsNow = true
  resume : w.skipsStrand n = false
  empty : nth [] w.queues (n % 8) = []
  alone : ∀ q ∈ w.started, q.n ≠ n
  oldest : ∀ y ∈ s.onCore g.die g.core, ∀ x ∈ y.warps, w.age ≤ x.age ∨ s.offers y x (n % 8) = none
  unheld : ∀ q ∈ w.started, q.n % 8 = n % 8 → (∀ k m, q.op ≠ .ld k m) ∧ ∀ r b k x y, q.op ≠ .ldtr r b k x y
  running : w.dataFault = none ∧ w.stopping = none
  exist : ∀ r ∈ u.regs, r < 4 * w.granules
  presentG : ∀ r ∈ u.writesG, w.gPresent r = true
  presentP : ∀ p ∈ u.writesP, w.pPresent p = true
  queued : ∀ q ∈ w.pending, (∀ r ∈ q.clearedG, r ∉ u.readsG) ∧ (∀ p ∈ q.clearedP, p ∉ hdrGuard w.hdr :: u.readsP)
    ∧ (∀ r ∈ q.readsG, r ∉ u.writesG) ∧ (∀ p ∈ q.readsP, p ∉ u.writesP)
  operations : ∀ o ∈ w.ops, ∀ r ∈ o.clearedG, r ∉ u.readsG

/-- A front-end instruction of the executing warp is executed, not passed over by a resume (R28). -/
structure State.FrontNow (s : State) (g : Workgroup) (w : Warp) : Prop where
  here : s.here = some (g, w)
  resume : w.skipsFront = false

/-- A step that gives a next state. -/
def State.steps (s : State) : Prop := ∃ t, step s = .next t

/-- A run of n steps that gives a next state each time, its memory in canonical form. -/
def State.safeFor : Nat → State → Prop
  | 0, s => s.wf = true
  | n + 1, s => s.wf = true ∧ ∃ t, step s = .next t ∧ t.safeFor n

end Sys2Proof.Machine

namespace Sys2Proof.Claims
open Sys2Proof.Machine

/-- The strand of an instruction: the one it names, or the current strand of the header in force (R16, R122). -/
def strandOf (w : Warp) : Option (BitVec 4) → Nat
  | none => (w.hdr.extractLsb' 8 4).toNat
  | some n => n.toNat

/-- Length in bytes: a short strand instruction has one parcel, its long twin two (R117). -/
def lengthOf : Option (BitVec 4) → Nat
  | none => 2
  | some _ => 4

/-- Memory as it reads, byte by byte, under every key. -/
def SameMemory (s t : State) : Prop := ∀ key a, t.readByte key a = s.readByte key a

/-- Nothing of the machine changes but the executing warp `w` of `g`, its workgroup as named, and the performance counters, which count
(R342): memory stays as it reads. -/
structure OnlyHere (s t : State) (g g' : Workgroup) (w w' : Warp) : Prop where
  here : t.here = some (g', w')
  state : ∃ cs, t = { s with wgs := s.wgs.map (fun x => if x.uid == g.uid then g' else x), counters := cs }
  warps : g'.warps = g.warps.map (fun x => if x.wid == w.wid then w' else x)
  memory : SameMemory s t

/-- The front end of `w'` has passed an instruction of `len` bytes: `core` tells what else of the warp changed. The resume it may be in
(R28), the breakpoint it passes over (R339) and its single step (R29) go on. -/
def Passed (w w' : Warp) (len : Nat) (core : Warp) : Prop :=
  w' = { core with pc := w.pc + BitVec.ofNat 48 len, seq := w.seq + 1, resume := w'.resume, skipBp := w'.skipBp, stepping := w'.stepping }

/-- Every tile-slot word as before but the window of accumulator `n`, where it is in tile mode (R50). -/
def SlotsBut (g g' : Workgroup) (w : Warp) (n : Nat) : Prop :=
  ∀ t i, (∀ b, nth none w.bind n = some b → t ≠ b.slot ∨ i < 32 * b.win ∨ 32 * b.win + 32 ≤ i) → g'.slotWord t i = g.slotWord t i

/-- A strand instruction on accumulator `n` has completed: of the warp only `n` has changed beside the front end's place, of the
workgroup only `n`'s window and `ASTAT`. -/
structure AccOnly (s t : State) (g g' : Workgroup) (w w' : Warp) (n len : Nat) : Prop where
  only : OnlyHere s t g g' w w'
  group : g' = { g with warps := g'.warps, astat := g'.astat, slots := g'.slots }
  slots : SlotsBut g g' w n
  warp : Passed w w' len { w with k := w'.k }
  others : ∀ m, m ≠ n → nth zeroLanes w'.k m = nth zeroLanes w.k m

/-- An instruction has completed that changes of its workgroup nothing but the executing warp; `core` tells what of the warp changed beside
the front end's place. -/
structure WarpOnly (s t : State) (g g' : Workgroup) (w w' : Warp) (len : Nat) (core : Warp) : Prop where
  only : OnlyHere s t g g' w w'
  group : g' = { g with warps := g'.warps }
  warp : Passed w w' len core

/-- The word that lane `l` reads of register `r` from lane `j`: its own word where `j` is no active lane of its tile (R41). -/
def acrossLanes (w : Warp) (r l j : Nat) : Word :=
  if j < 32 ∧ w.active.getLsbD j = true ∧ j / 2 ^ w.uni.part = l / 2 ^ w.uni.part then laneOf (w.greg r) j else laneOf (w.greg r) l

/-- An operand in lane `l` (R119, R123): a register, a uniform register's low half, an immediate, or a permuted register. -/
def operandOf (w : Warp) (imm : BitVec 8 → Word) (l : Nat) : Src → Word
  | .g r => laneOf (w.greg r.toNat) l
  | .s r => (w.sreg r.toNat).extractLsb' 0 32
  | .imm v => imm v
  | .bfly r e => acrossLanes w r.toNat l (l ^^^ 2 ^ e.toNat)
  | .rot r d => acrossLanes w r.toNat l (l / 8 * 8 + (l + d.toNat) % 8)
  | .rev r => acrossLanes w r.toNat l (l / 2 ^ w.uni.part * 2 ^ w.uni.part + (2 ^ w.uni.part - 1 - l % 2 ^ w.uni.part))
  | .lane r j => acrossLanes w r.toNat l (l / 2 ^ w.uni.part * 2 ^ w.uni.part + j.toNat)

/-- What an instruction with an operand uses. -/
def usesOf (x : Src) : Uses := { regs := srcGregs x, readsG := srcGregs x }

/-- An operation of a lane: what it makes of accumulator, operand and latch. -/
structure LaneOp where
  n : Option (BitVec 4)
  src : Src
  imm : BitVec 8 → Word
  f : Word → Word → Word → Word

/-- Immediates sign-extended, zero-extended, and none. -/
def immI (v : BitVec 8) : Word := v.signExtend 32
def immZ (v : BitVec 8) : Word := v.zeroExtend 32

/-- The instruction's accumulator result in lane `l` of the executing set; the other lanes keep theirs (R49, R141). -/
def Result (g g' : Workgroup) (w w' : Warp) (n : Nat) (f : Nat → Word) : Prop :=
  ∀ l, l < 32 → laneOf (g'.kval w' n) l = if (w.exec w.hdr).getLsbD l then f l else laneOf (g.kval w n) l

/-- An operation of a lane with flags: what it makes of `ACTL`, accumulator, operand and latch. -/
structure FloatOp where
  n : Option (BitVec 4)
  src : Src
  imm : BitVec 8 → Word
  f : DWord → Word → Word → Word → Word × Flags

/-- The lanes of a floating-point instruction: result and flags in lane `l`. -/
def floatLane (o : FloatOp) (g : Workgroup) (w : Warp) (l : Nat) : Word × Flags :=
  let n := strandOf w o.n
  o.f w.uni.actl (laneOf (g.kval w n) l) (operandOf w o.imm l o.src) (laneOf (w.latchOf n) l)

/-- Its flag set: flag j (0 NV, 1 DZ, 2 OF, 3 UF, 4 NX) arises in some executing lane (R73). -/
def Raised (o : FloatOp) (g : Workgroup) (w : Warp) (j : Nat) : Prop :=
  ∃ l, l < 32 ∧ (w.exec w.hdr).getLsbD l = true ∧ (floatLane o g w l).2.getLsbD j = true

/-- An enabled trap arises (R61, R73): NV, DZ or OF with its enable in `ACTL`. -/
def FlagTraps (o : FloatOp) (g : Workgroup) (w : Warp) (j : Nat) : Prop := j < 3 ∧ Raised o g w j ∧ w.uni.actl.getLsbD (4 + j) = true

/-- Of a workgroup only the executing warp has changed. -/
structure WarpChanged (s t : State) (g g' : Workgroup) (w w' : Warp) : Prop where
  only : OnlyHere s t g g' w w'
  group : g' = { g with warps := g'.warps }

/-- The warp `core` continues at `a` after a slip fence: `k0`, unguarded (R16), no resume left. -/
def jumped (core : Warp) (a : BitVec 48) : Warp :=
  { core with pc := a, hdr := 0xC000#16, resume := none, skipBp := none, stepping := core.stepping.map (fun _ => true) }

/-- The warp's loops after a taken branch to `a` (R177): the first loop whose body does not hold `a` goes with every loop inside it. -/
def leavesLoops (w : Warp) (a : BitVec 48) : Warp :=
  { w with uni := { w.uni with loops := w.uni.loops.takeWhile (fun f => decide (f.start.toNat ≤ a.toNat ∧ a.toNat ≤ f.stop.toNat)) } }

/-- PC + 2·sext(offset) (R133). -/
def offsetTarget (w : Warp) (off : BitVec 16) : BitVec 48 := w.pc + 2 * off.signExtend 48

/-- A predicate with its sense holds in lane l (R170). -/
def senseHolds (w : Warp) (p : BitVec 3) (sense : Bool) (l : Nat) : Bool := (w.pred p.toNat).getLsbD l ^^ sense

/-- Over a set of lanes: some lane, or every lane (R170). -/
def someLane (w : Warp) (p : BitVec 3) (sense : Bool) (x : LaneSet) : Bool := (List.range 32).any (fun l => x.getLsbD l && senseHolds w p sense l)
def everyLane (w : Warp) (p : BitVec 3) (sense : Bool) (x : LaneSet) : Bool := (List.range 32).all (fun l => !x.getLsbD l || senseHolds w p sense l)

/-- Halves of a compat16 warp (R278). -/
def lowHalf : LaneSet := 0x0000FFFF#32
def highHalf : LaneSet := 0xFFFF0000#32

/-- A trap reaches the kernel's handler at once (R25, R318, R332): a handler, no service, nothing under way, no resume. -/
structure Handles (s : State) (g : Workgroup) (w : Warp) : Prop where
  stop : g.stop = .none
  handler : g.hasHandler = true
  outside : w.uni.handler = false
  user : s.isService g = false
  idle : w.started = []
  running : w.stopping = none ∧ w.halted = false
  fresh : w.resume = none

/-- The record that a trap at F leaves of strand n (R26): its oldest uncompleted instruction, or else F. -/
def strandRecord (w : Warp) (f : DWord) (n : Nat) : DWord :=
  match w.queued.find? (fun e => e.n == n) with
  | some e => packPc e.hdr e.addr
  | none => f

/-- The handler has started (R25, R26, R332): the record is F and the uncompleted instructions by strand, what was queued is cancelled, the
flag is set, and the warp continues at HANDLER on `k0`. -/
structure HandlerStarts (s t : State) (g g' : Workgroup) (w w' : Warp) (code : Nat) (f : BitVec 48) : Prop where
  changed : WarpChanged s t g g' w w'
  warp : w' = { w.cancel with
      spc := (List.range 16).map (strandRecord w (packPc w.hdr f)), fepc := packPc w.hdr f,
      held := some { spc := (List.range 16).map (strandRecord w (packPc w.hdr f)), fepc := packPc w.hdr f },
      trapCode := code, trapAddr := w.pc, pc := g.handler, hdr := 0xC000#16, uni := { w.uni with handler := true },
      stepping := w.stepping.map (fun _ => true), block := .none, dataFault := none, haltWait := [], skipBp := w'.skipBp }

/-- An instruction of the executing warp that starts the handler with a code, F being the instruction itself. -/
def TrapsAt (i : Instr) (s : State) (g : Workgroup) (w : Warp) (code : Nat) : Prop :=
  ∃ t g' w', exec i s = .next t ∧ HandlerStarts s t g g' w w' code w.pc

end Sys2Proof.Claims
end

