-- ==== Sys2Proof/Laws/Strand.lean ====
section
/-!
SUPPORT. What the dispatch of a strand or engine instruction does when nothing holds it back, what reading an accumulator gives after a
write, and the front end's own instructions: each said once, so that no later proof unfolds a dispatch.
-/
namespace Sys2Proof.Machine

/-- What a dispatch uses. -/
def Disp.uses (d : Disp) : Uses := { regs := d.regs, readsG := d.readsG, writesG := d.writesG, readsP := d.readsP, writesP := d.writesP }

@[simp] theorem Warp.allow_pending (w : Warp) (g : Workgroup) (len : Nat) (d : Disp) : (w.allow g len d).pending = w.pending := by
  unfold Warp.allow Warp.pending Warp.queued
  cases d.op.engClass <;> rfl
@[simp] theorem Warp.allow_ops (w : Warp) (g : Workgroup) (len : Nat) (d : Disp) : (w.allow g len d).ops = w.ops := by
  unfold Warp.allow
  cases d.op.engClass <;> rfl
@[simp] theorem Warp.allow_started (w : Warp) (g : Workgroup) (len : Nat) (d : Disp) : (w.allow g len d).started = w.started := by
  unfold Warp.allow
  cases d.op.engClass <;> rfl
@[simp] theorem Warp.allow_dataFault (w : Warp) (g : Workgroup) (len : Nat) (d : Disp) : (w.allow g len d).dataFault = w.dataFault := by
  unfold Warp.allow
  cases d.op.engClass <;> rfl
@[simp] theorem Warp.allow_stopping (w : Warp) (g : Workgroup) (len : Nat) (d : Disp) : (w.allow g len d).stopping = w.stopping := by
  unfold Warp.allow
  cases d.op.engClass <;> rfl

/-- An entry with no conflict is ready once it is dispatched (R18, R22, R23). -/
theorem State.RunsNow.ready {s : State} {g : Workgroup} {w : Warp} {d : Disp} (h : s.RunsNow g w d.n d.uses) (len : Nat) :
    (w.allow g len d).ready (w.entry d) = true := by
  simp only [Warp.ready, Warp.hazard, Warp.allow_pending, Warp.allow_ops, Warp.allow_started, Warp.allow_dataFault, Warp.allow_stopping,
    h.running.1, h.running.2, Option.isNone_none, Bool.and_true, Bool.and_eq_true, Bool.not_eq_true', Bool.or_eq_false_iff]
  refine ⟨⟨?_, ?_⟩, ?_⟩
  · rw [List.any_eq_false]
    intro q hq
    obtain ⟨h1, h2, h3, h4⟩ := h.queued q hq
    simp only [Bool.and_eq_true, Bool.or_eq_true, decide_eq_true_eq, List.any_eq_true, not_and, not_or, not_exists]
    intro _
    refine ⟨⟨⟨?_, ?_⟩, ?_⟩, ?_⟩ <;> intro r hr <;> simp only [List.contains_iff_mem]
    · exact h1 r hr
    · exact h2 r hr
    · exact h3 r hr
    · exact h4 r hr
  · rw [List.any_eq_false]
    intro o ho
    simp only [Bool.and_eq_true, decide_eq_true_eq, List.any_eq_true, not_and, not_exists, List.contains_iff_mem]
    intro _ r hr
    exact h.operations o ho r hr
  · rw [List.any_eq_false]
    intro q hq
    simpa [Warp.entry] using h.alone q hq

/-- No older warp of the core has a head for the cluster to start (R18). -/
theorem State.RunsNow.first {s : State} {g : Workgroup} {w : Warp} {n : Nat} {u : Uses} (h : s.RunsNow g w n u) :
    s.oldestAt g w (cluster n) = true := by
  simp only [State.oldestAt, List.all_eq_true, Bool.or_eq_true, decide_eq_true_eq, Option.isNone_iff_eq_none]
  exact fun y hy x hx => h.oldest y hy x hx

/-- No started load holds the queue (R100). -/
theorem State.RunsNow.free {s : State} {g : Workgroup} {w : Warp} {d : Disp} (h : s.RunsNow g w d.n d.uses) (len : Nat) :
    s.queueHeld g (w.allow g len d) (cluster d.n) = false := by
  simp only [State.queueHeld, Warp.allow_started]
  rw [List.any_eq_false]
  intro q hq
  by_cases c : q.n % 8 = d.n % 8
  · obtain ⟨h1, h2⟩ := h.unheld q hq c
    cases ho : q.op with
    | ld k m => exact absurd ho (h1 k m)
    | ldtr a b k x y => exact absurd ho (h2 a b k x y)
    | _ => simp [State.loadWaits, ho]
  · simp [cluster, c]

/-- What no load, atomic or `LDTR` is has no line to wait for (R93). -/
theorem State.lineStalls_none (s : State) (g : Workgroup) (w : Warp) (e : QEntry) (h : w.accessOf g e = none) : s.lineStalls g w e = false := by
  simp [State.lineStalls, h]

/-- A dispatch that nothing holds back runs at once (R18, R22). -/
theorem State.dispatch_now {s : State} {g : Workgroup} {w : Warp} {d : Disp} (h : s.RunsNow g w d.n d.uses) (len : Nat)
    (ht : d.trap = none) (hs : w.stalls d = false) (hl : s.lineStalls g (w.allow g len d) (w.entry d) = false) :
    s.dispatch g w len d = (s.count g w.wid 1 1).resolve g (w.allow g len d) ((w.allow g len d).enqueue (w.entry d)) (w.entry d) := by
  have hx : d.regs.any (fun r => decide (4 * w.granules ≤ r)) = false := by
    rw [List.any_eq_false]
    intro r hr
    have := h.exist r hr
    simpa using this
  have he : (nth [] w.queues (cluster d.n)).isEmpty = true := by
    rw [show cluster d.n = d.n % 8 from rfl, h.empty]
    rfl
  have hr : s.ready g (w.allow g len d) (w.entry d) = true := by
    simp only [State.ready, h.ready len, hl, show (w.entry d).n = d.n from rfl, h.free len, Bool.not_false, Bool.and_self]
  simp only [State.dispatch, h.resume, hx, ht, hs, h.now, he, hr, h.first, Bool.or_true, Bool.false_eq_true, if_false, beq_self_eq_true,
    Bool.and_self, if_true]

/-- A strand instruction's dispatch does not stall (R19): it writes nothing awaited. -/
theorem State.RunsNow.goes {s : State} {g : Workgroup} {w : Warp} {d : Disp} (h : s.RunsNow g w d.n d.uses)
    (he : d.op.isEngine = false) (hr : ∀ i, d.op ≠ .rdsr i) : w.stalls d = false := by
  have e1 : (d.writesG.any (fun r => !w.gPresent r)) = false := by
    rw [List.any_eq_false]
    intro r hr
    simp [h.presentG r hr]
  have e2 : (d.writesP.any (fun p => !w.pPresent p)) = false := by
    rw [List.any_eq_false]
    intro r hr
    simp [h.presentP r hr]
  have e3 : nth [] w.queues (cluster d.n) = [] := h.empty
  simp only [Warp.stalls, e1, e2, e3]
  cases hop : d.op <;> simp_all [SOp.engClass, SOp.isEngine, Config.queueDepth]

/-- A strand instruction of the executing warp that nothing holds back. -/
theorem State.strand_now {s : State} {g : Workgroup} {w : Warp} (len : Nat) (f : Workgroup → Warp → Disp)
    (h : s.RunsNow g w (f g w).n (f g w).uses) (ht : (f g w).trap = none) (he : (f g w).op.isEngine = false)
    (hr : ∀ i, (f g w).op ≠ .rdsr i) (hl : s.lineStalls g (w.allow g len (f g w)) (w.entry (f g w)) = false) :
    s.strand len f = .next ((s.count g w.wid 1 1).resolve g (w.allow g len (f g w)) ((w.allow g len (f g w)).enqueue (w.entry (f g w)))
      (w.entry (f g w))) := by
  rw [State.strand, State.onWarp_here s g w _ h.here, State.dispatch_now h len ht (h.goes he hr) hl]

/-- A run that completes. -/
theorem State.resolve_done (s t : State) (g : Workgroup) (w0 w1 : Warp) (e : QEntry) (h : s.runEntry g w0 e = .done t) :
    s.resolve g w0 w1 e = t := by
  simp [State.resolve, h]

/-- A run that traps (R25, R27). -/
theorem State.resolve_trap (s t : State) (g : Workgroup) (w0 w1 : Warp) (e : QEntry) (c va a c2 : Nat)
    (h : s.runEntry g w0 e = .trap t c va a c2) : s.resolve g w0 w1 e = t.trapStrand g w0 e c va a c2 := by
  simp [State.resolve, h]

/-- The warp that a strand instruction's dispatch leaves, for one that takes no counter and no store-queue entry. -/
theorem Warp.allow_eq (w : Warp) (g : Workgroup) (len : Nat) (d : Disp) (h1 : d.op.engClass = none) (h2 : ∀ n, d.op.storeEntry n = [])
    (h3 : ∀ n, d.op.fenceMark g n = []) :
    w.allow g len d = { ((w.clearG d.writesG).clearP d.writesP).past len with seq := w.seq + 1 } := by
  unfold Warp.allow
  rw [h1]
  simp only [h2, h3, List.append_nil]

/-- The OR of flag sets that are all empty. -/
theorem orFlags_none {α : Type} (l : List α) : orFlags (l.map (fun _ => fNone)) = fNone := by
  unfold orFlags
  induction l with
  | nil => rfl
  | cons a l ih => simpa [fNone] using ih

theorem flagTrap_none (actl : DWord) : flagTrap actl fNone = none := by
  simp [flagTrap, fNone]

-- accumulators
/-- Words of a slot after a write of distinct words. -/
theorem cellAt_cellPut {β : Type} [BEq β] [LawfulBEq β] (plain : Option β) (m : List (Nat × β)) (x y : Nat) (v : β) :
    (cellAt (cellPut plain m x v) y).or plain = if y = x then (some v).or plain else (cellAt m y).or plain := by
  unfold cellPut
  split
  · rename_i e
    have e' : plain = some v := by simpa using e
    subst e'
    rw [cellAt_cellDrop]
    split <;> simp
  · rw [cellAt_cellSet]
    split <;> simp

theorem cellAt_cellPutAll {β : Type} [BEq β] [LawfulBEq β] (plain : Option β) (m cs : List (Nat × β)) (y : Nat) :
    (cellAt (cellPutAll plain m cs) y).or plain = ((cs.reverse.find? (fun c => c.1 == y)).map Prod.snd).or ((cellAt m y).or plain) := by
  induction cs generalizing m with
  | nil => simp [cellPutAll]
  | cons c cs ih =>
    have : cellPutAll plain m (c :: cs) = cellPutAll plain (cellPut plain m c.1 c.2) cs := rfl
    rw [this, ih, cellAt_cellPut, List.reverse_cons, List.find?_append]
    cases cs.reverse.find? (fun c => c.1 == y) with
    | some a => simp
    | none =>
      by_cases h : y = c.1
      · simp [h]
      · have h' : ¬ c.1 = y := fun e => h e.symm
        simp [h, h']

/-- What a slot word is, with the slot's own words before what it reads as otherwise. -/
theorem Workgroup.slotWord_eq (g : Workgroup) (t i : Nat) :
    g.slotWord t i = ((cellAt (g.slotAt t).words i).or (if (g.slotAt t).zeroed then some 0 else none)).getD (Config.residueSlot g.uid t i) := by
  unfold Workgroup.slotWord
  cases cellAt (g.slotAt t).words i <;> cases (g.slotAt t).zeroed <;> rfl

/-- Reading a tile slot after writing words of one (R50). -/
theorem Workgroup.slotWord_putWords (g : Workgroup) (t u i : Nat) (ws : List (Nat × Word)) :
    (g.putWords t ws).slotWord u i = if u = t then ((ws.reverse.find? (fun c => c.1 == i)).map Prod.snd).getD (g.slotWord t i) else g.slotWord u i := by
  rw [Workgroup.slotWord_eq]
  by_cases h : u = t
  · subst h
    have e1 : (g.putWords u ws).slotAt u = (g.slotAt u).putWords ws := by simp [Workgroup.putWords, Workgroup.slotAt]
    rw [e1]
    have k := cellAt_cellPutAll (if (g.slotAt u).zeroed then some (0 : Word) else none) (g.slotAt u).words ws i
    rw [Workgroup.slotWord_eq, if_pos rfl]
    change (((cellAt (cellPutAll (if (g.slotAt u).zeroed then some (0 : Word) else none) (g.slotAt u).words ws) i).or
      (if (g.slotAt u).zeroed then some (0 : Word) else none)).getD (Config.residueSlot g.uid u i)) = _
    rw [k]
    cases ws.reverse.find? (fun c => c.1 == i) <;> rfl
  · have e1 : (g.putWords t ws).slotAt u = g.slotAt u := by simp [Workgroup.putWords, Workgroup.slotAt, nth_setNth, h]
    rw [e1, if_neg h, Workgroup.slotWord_eq]
    rfl

theorem find_lane (x : LaneSet) (f : Nat → Nat × Word) (b l : Nat) (hf : ∀ i, (f i).1 = b + i) (hl : l < 32) :
    (((lanesIn x).map f).reverse.find? (fun c => c.1 == b + l)) = if x.getLsbD l then some (f l) else none := by
  cases hfind : ((lanesIn x).map f).reverse.find? (fun c => c.1 == b + l) with
  | some a =>
    have hm := List.mem_of_find?_eq_some hfind
    have hp := List.find?_some hfind
    simp only [List.mem_reverse, List.mem_map] at hm
    obtain ⟨i, hi, rfl⟩ := hm
    have : i = l := by
      have := hf i
      simp only [beq_iff_eq] at hp
      omega
    subst this
    simp only [lanesIn, List.mem_filter] at hi
    simp [hi.2]
  | none =>
    by_cases hx : x.getLsbD l = true
    · rw [List.find?_eq_none] at hfind
      exfalso
      apply hfind (f l)
      · simp only [List.mem_reverse, List.mem_map]
        exact ⟨l, by simp [lanesIn, laneNums, hl, hx], rfl⟩
      · simp [hf l]
    · simp only [Bool.not_eq_true] at hx
      simp [hx]

/-- Reading an accumulator after writing it (R49, R51), in both modes; other accumulators of the warp in vector mode stay. -/
theorem kval_writeAcc (g : Workgroup) (w : Warp) (n l : Nat) (x : LaneSet) (v : Lanes) (hl : l < 32) :
    laneOf ((writeAcc g w n x v).1.kval (writeAcc g w n x v).2 n) l = if x.getLsbD l then laneOf v l else laneOf (g.kval w n) l := by
  unfold writeAcc Workgroup.kval
  cases h : nth none w.bind n with
  | none => simp [h, laneOf_merge _ _ _ _ hl]
  | some b =>
    simp only [h, laneOf_tab, hl, if_true]
    rw [Workgroup.slotWord_putWords, if_pos rfl, find_lane x (fun l => (32 * b.win + l, laneOf v l)) _ l (fun _ => rfl) hl]
    split <;> simp

/-- What a write of an accumulator changes of its warp: the accumulator. -/
theorem writeAcc_warp (g : Workgroup) (w : Warp) (n : Nat) (x : LaneSet) (v : Lanes) :
    (writeAcc g w n x v).2 = { w with k := (writeAcc g w n x v).2.k } := by
  unfold writeAcc
  split <;> rfl
/-- What a write of an accumulator changes of its workgroup: the tile slots. -/
theorem writeAcc_group (g : Workgroup) (w : Warp) (n : Nat) (x : LaneSet) (v : Lanes) :
    (writeAcc g w n x v).1 = { g with slots := (writeAcc g w n x v).1.slots } := by
  unfold writeAcc
  split <;> rfl
/-- An accumulator other than the one written. -/
theorem writeAcc_other (g : Workgroup) (w : Warp) (n m : Nat) (x : LaneSet) (v : Lanes) (h : m ≠ n) :
    nth zeroLanes (writeAcc g w n x v).2.k m = nth zeroLanes w.k m := by
  unfold writeAcc
  split
  · simp [nth_setNth, h]
  · rfl

-- the front end
theorem State.frontEnd_now {s : State} {g : Workgroup} {w : Warp} (h : s.FrontNow g w) (f : Workgroup → Warp → State) :
    s.frontEnd f = .next (f g w) := by
  rw [State.frontEnd, State.onWarp_here s g w _ h.here]
  simp [h.resume]

theorem State.fence_now {s : State} {g : Workgroup} {w : Warp} (h : s.FrontNow g w) (hd : w.drained = true) (f : Workgroup → Warp → State) :
    s.fence f = .next (f g w) := by
  rw [State.fence, State.frontEnd_now h]
  simp [hd]

end Sys2Proof.Machine
end

