-- ==== Sys2Proof/Laws/Results.lean ====
section
/-!
SUPPORT. What strand instructions change once they complete, in the terms of Safety.lean.
-/
namespace Sys2Proof.Claims
open Sys2Proof.Machine

/-- A replacement of the executing warp and of its workgroup, performance counters aside. -/
theorem onlyHere_put {s s' : State} {g g1 : Workgroup} {w w1 : Warp} (h : s.here = some (g, w)) (hs : ∃ cs, s' = { s with counters := cs })
    (hu : g1.uid = g.uid) (hw : g1.warps = g.warps) (hi : w1.wid = w.wid) : OnlyHere s (s'.put g1 w1) g (g1.setWarp w1) w w1 := by
  obtain ⟨cs, rfl⟩ := hs
  have hh : State.here { s with counters := cs } = some (g, w) := h
  refine ⟨State.here_put _ g g1 w w1 hh hu hw hi, ⟨cs, ?_⟩, ?_, fun _ _ => rfl⟩
  · simp only [State.put, State.setWg, Workgroup.setWarp, hu]
  · simp only [Workgroup.setWarp, hw, hi]

theorem OnlyHere.count {s t : State} {g g' : Workgroup} {w w' : Warp} (h : OnlyHere s t g g' w w') (x : Workgroup) (a b c : Nat) :
    OnlyHere s (t.count x a b c) g g' w w' := by
  obtain ⟨h1, ⟨cs, rfl⟩, h3, h4⟩ := h
  exact ⟨h1, ⟨_, rfl⟩, h3, h4⟩

/-- What finishing a strand instruction changes. -/
theorem onlyHere_finish {s s' : State} {g g1 : Workgroup} {w w1 : Warp} (h : s.here = some (g, w)) (hs : ∃ cs, s' = { s with counters := cs })
    (hu : g1.uid = g.uid) (hw : g1.warps = g.warps) (hi : w1.wid = w.wid) (e : QEntry) (f : Flags) :
    OnlyHere s (s'.finish g1 w1 e f) g (({ g1 with astat := g1.astat ||| f } : Workgroup).setWarp ((w1.markG e.clearedG).markP e.clearedP)) w
      ((w1.markG e.clearedG).markP e.clearedP) :=
  (onlyHere_put (w1 := (w1.markG e.clearedG).markP e.clearedP) (g1 := { g1 with astat := g1.astat ||| f }) h hs hu hw hi).count g1 w1.wid 2 1

theorem kval_congr (g : Workgroup) (w w' : Warp) (n : Nat) (h1 : w'.k = w.k) (h2 : w'.bind = w.bind) : g.kval w' n = g.kval w n := by
  unfold Workgroup.kval
  rw [h1, h2]

/-- A write of an accumulator, once finished: what changed, and what the accumulator then holds. -/
theorem accOnly_finish {s s' : State} {g : Workgroup} {w w1 : Warp} (n len : Nat) (h : s.here = some (g, w))
    (hs : ∃ cs, s' = { s with counters := cs }) (hp : Passed w w1 len w) (x : LaneSet) (v : Lanes) (e : QEntry) (f : Flags)
    (h1 : e.clearedG = []) (h2 : e.clearedP = []) :
    ∃ g' w', AccOnly s (s'.finish (writeAcc g w1 n x v).1 (writeAcc g w1 n x v).2 e f) g g' w w' n len ∧ g'.astat = g.astat ||| f
      ∧ ∀ l, l < 32 → laneOf (g'.kval w' n) l = if x.getLsbD l then laneOf v l else laneOf (g.kval w n) l := by
  have eg := writeAcc_group g w1 n x v
  have ew := writeAcc_warp g w1 n x v
  have hw1 : w1.wid = w.wid := by rw [hp]
  have hk : w1.k = w.k := by rw [hp]
  have hb : w1.bind = w.bind := by rw [hp]
  have hu : (writeAcc g w1 n x v).1.uid = g.uid := by rw [eg]
  have hws : (writeAcc g w1 n x v).1.warps = g.warps := by rw [eg]
  have hi : (writeAcc g w1 n x v).2.wid = w.wid := by rw [ew]; exact hw1
  have ho := onlyHere_finish h hs hu hws hi e f
  have em : ((writeAcc g w1 n x v).2.markG e.clearedG).markP e.clearedP = (writeAcc g w1 n x v).2 := by
    rw [h1, h2]; rfl
  rw [em] at ho
  refine ⟨_, _, ⟨ho, ?_, ?_, ?_, ?_⟩, ?_, ?_⟩
  · rw [eg]; rfl
  · intro t i ht
    show Workgroup.slotWord (writeAcc g w1 n x v).1 t i = _
    unfold writeAcc
    cases hbn : nth none w1.bind n with
    | none => rfl
    | some b =>
      simp only
      rw [Workgroup.slotWord_putWords]
      split
      · rename_i e1
        subst e1
        rcases ht b (hb ▸ hbn) with c | c | c
        · exact absurd rfl c
        · have : (((lanesIn x).map (fun l => (32 * b.win + l, laneOf v l))).reverse.find? (fun c => c.1 == i)) = none := by
            rw [List.find?_eq_none]
            intro a ha
            simp only [List.mem_reverse, List.mem_map] at ha
            obtain ⟨l, hl, rfl⟩ := ha
            simp; omega
          rw [this]; rfl
        · have : (((lanesIn x).map (fun l => (32 * b.win + l, laneOf v l))).reverse.find? (fun c => c.1 == i)) = none := by
            rw [List.find?_eq_none]
            intro a ha
            simp only [List.mem_reverse, List.mem_map] at ha
            obtain ⟨l, hl, rfl⟩ := ha
            have : l < 32 := by simp [lanesIn, laneNums] at hl; exact hl.1
            simp; omega
          rw [this]; rfl
      · rfl
  · rw [Passed, ew, hp]
  · intro m hm
    rw [writeAcc_other g w1 n m x v hm, hk]
  · rw [eg]; rfl
  · intro l hl
    show laneOf ((writeAcc g w1 n x v).1.kval (writeAcc g w1 n x v).2 n) l = _
    rw [kval_writeAcc g w1 n l x v hl, kval_congr g w w1 n hk hb]

theorem laneOf_same (v : Word) (l : Nat) (hl : l < 32) : laneOf (List.replicate 32 v) l = v := by
  rw [laneOf, nth, List.getElem?_replicate, if_pos hl, Option.getD_some]

/-- What an operand gives a lane (R123). -/
theorem operandLanes_eq (w : Warp) (imm : BitVec 8 → Word) (x : Src) (l : Nat) (hl : l < 32) :
    laneOf (operandLanes w w.uni.part (carrySrc w imm x)) l = operandOf w imm l x := by
  have hc : ∀ r src, crossRead w.active w.uni.part (w.greg r) l src = acrossLanes w r l src := by
    intro r src
    unfold crossRead acrossLanes sameTile
    by_cases h : src < 32 ∧ w.active.getLsbD src = true ∧ src / 2 ^ w.uni.part = l / 2 ^ w.uni.part
    · simp [h]
    · have h' : (decide (src < 32) && w.active.getLsbD src && (l / 2 ^ w.uni.part == src / 2 ^ w.uni.part)) = false := by
        rw [← Bool.not_eq_true]
        simp only [Bool.and_eq_true, decide_eq_true_eq, beq_iff_eq]
        rintro ⟨⟨a, b⟩, c⟩
        exact h ⟨a, b, c.symm⟩
      simp [h, h']
  cases x with
  | g r => rfl
  | s r => exact laneOf_same _ l hl
  | imm v => exact laneOf_same _ l hl
  | bfly r e => simp [carrySrc, operandLanes, operandOf, laneOf_tab, hl, hc, bflyLane]
  | rot r d => simp [carrySrc, operandLanes, operandOf, laneOf_tab, hl, hc, rotLane]
  | rev r => simp [carrySrc, operandLanes, operandOf, laneOf_tab, hl, hc, revLane, tileBase]
  | lane r j => simp [carrySrc, operandLanes, operandOf, laneOf_tab, hl, hc, tileBase]

/-- An operation on every lane that completes (R141): no divisor is zero, and its flags raise no trap. -/
theorem alu_now {s : State} {g : Workgroup} {w : Warp} (n len : Nat) (op : AluOp) (imm : BitVec 8 → Word) (x : Src)
    (f : Workgroup → Warp → Disp) (hf : f g w = dispOp n (.alu op) imm x w) (h : s.RunsNow g w n (usesOf x)) (r : Lanes × Flags × Bool)
    (hr : aluLanes op w.uni.actl (w.exec w.hdr) (g.kval w n) (operandLanes w w.uni.part (carrySrc w imm x)) (w.latchOf n) = r)
    (hz : r.2.2 = false) (ht : flagTrap w.uni.actl r.2.1 = none) :
    ∃ t g' w', s.strand len f = .next t ∧ AccOnly s t g g' w w' n len ∧ g'.astat = g.astat ||| r.2.1
      ∧ ∀ l, l < 32 → laneOf (g'.kval w' n) l = if (w.exec w.hdr).getLsbD l then laneOf r.1 l else laneOf (g.kval w n) l := by
  have hn := State.strand_now (s := s) (g := g) (w := w) len f (by rw [hf]; exact h) (by rw [hf]; rfl) (by rw [hf]; rfl) (by rw [hf]; intro i hi; cases hi)
    (State.lineStalls_none _ _ _ _ (by rw [hf]; rfl))
  rw [hf] at hn
  have ha := Warp.allow_eq w g len (dispOp n (.alu op) imm x w) rfl (fun _ => rfl) (fun _ => rfl)
  generalize hw1 : w.allow g len (dispOp n (.alu op) imm x w) = w1 at hn ha
  have hp : Passed w w1 len w := by rw [ha]; rfl
  have hrun : (s.count g w.wid 1 1).runEntry g w1 (w.entry (dispOp n (.alu op) imm x w))
      = .done ((s.count g w.wid 1 1).finish (writeAcc g w1 n (w.exec w.hdr) r.1).1 (writeAcc g w1 n (w.exec w.hdr) r.1).2
          (w.entry (dispOp n (.alu op) imm x w)) r.2.1) := by
    have e1 : w1.exec (w.entry (dispOp n (.alu op) imm x w)).hdr = w.exec w.hdr := by rw [hp]; rfl
    have e2 : g.kval w1 n = g.kval w n := by rw [hp]; rfl
    have e3 : operandLanes w1 w.uni.part (carrySrc w imm x) = operandLanes w w.uni.part (carrySrc w imm x) := by rw [hp]; rfl
    have e4 : w1.latchOf n = w.latchOf n := by rw [hp]; rfl
    show (match aluLanes op w.uni.actl (w1.exec (w.entry (dispOp n (.alu op) imm x w)).hdr) (g.kval w1 n) (operandLanes w1 w.uni.part (carrySrc w imm x)) (w1.latchOf n) with
      | q => if q.2.2 then Ran.trap (s.count g w.wid 1 1) 0x0B 0 0 0 else (s.count g w.wid 1 1).deliverAcc g w1 (w.entry (dispOp n (.alu op) imm x w))
        (w1.exec (w.entry (dispOp n (.alu op) imm x w)).hdr) q.1 q.2.1) = _
    rw [e1, e2, e3, e4, hr]
    simp only [hz, Bool.false_eq_true, if_false]
    show (match flagTrap w.uni.actl r.2.1 with
      | some c => Ran.trap (s.count g w.wid 1 1) c 0 0 0
      | none => _) = _
    rw [ht]
    rfl
  rw [State.resolve_done _ _ _ _ _ _ hrun] at hn
  obtain ⟨g', w', h1, h2, h3⟩ := accOnly_finish n len h.here (s' := s.count g w.wid 1 1) ⟨_, rfl⟩ hp (w.exec w.hdr) r.1 (w.entry (dispOp n (.alu op) imm x w)) r.2.1 rfl rfl
  exact ⟨_, g', w', hn, h1, h2, h3⟩

/-- An operation that gives a word without flags (R148). -/
theorem aluLanes_plain (op : AluOp) (actl : DWord) (x : LaneSet) (a b l : Lanes) (f : Word → Word → Word → Word)
    (hf : ∀ p q r, op.lane actl p q r = plainOut (f p q r)) :
    aluLanes op actl x a b l = (tab (fun i => f (laneOf a i) (laneOf b i) (laneOf l i)), fNone, false) := by
  unfold aluLanes
  simp only [hf, plainOut, List.map_map, List.any_map, Prod.mk.injEq, true_and]
  constructor
  · exact orFlags_none (lanesIn x)
  · simp

/-- The same, once it completes (R141): it always does. -/
theorem plain_now {s : State} {g : Workgroup} {w : Warp} (n len : Nat) (op : AluOp) (imm : BitVec 8 → Word) (x : Src)
    (f : Workgroup → Warp → Disp) (hf : f g w = dispOp n (.alu op) imm x w) (h : s.RunsNow g w n (usesOf x)) (r : Word → Word → Word → Word)
    (hr : ∀ a b l, op.lane w.uni.actl a b l = plainOut (r a b l)) :
    ∃ t g' w', s.strand len f = .next t ∧ AccOnly s t g g' w w' n len ∧ g'.astat = g.astat
      ∧ Result g g' w w' n (fun l => r (laneOf (g.kval w n) l) (operandOf w imm l x) (laneOf (w.latchOf n) l)) := by
  obtain ⟨t, g', w', h1, h2, h3, h4⟩ := alu_now n len op imm x f hf h _ (aluLanes_plain op w.uni.actl _ _ _ _ r hr) rfl (flagTrap_none _)
  refine ⟨t, g', w', h1, h2, ?_, ?_⟩
  · rw [h3]; simp [fNone]
  · intro l hl
    rw [h4 l hl]
    simp only [laneOf_tab, hl, if_true, operandLanes_eq w imm x l hl]

/-- A flag of a union of flag sets. -/
theorem orFlags_bit (fs : List Flags) (j : Nat) : (orFlags fs).getLsbD j = fs.any (fun f => f.getLsbD j) := by
  have h : ∀ (a : Flags), (fs.foldl (· ||| ·) a).getLsbD j = (a.getLsbD j || fs.any (fun f => f.getLsbD j)) := by
    induction fs with
    | nil => intro a; simp
    | cons x xs ih => intro a; simp [ih, Bool.or_assoc]
  unfold orFlags; rw [h]; simp [fNone]

/-- An operation whose lanes give words with flags (R146). -/
theorem aluLanes_flags (op : AluOp) (actl : DWord) (x : LaneSet) (a b l : Lanes) (f : Word → Word → Word → Word × Flags)
    (hf : ∀ p q r, op.lane actl p q r = flagOut (f p q r)) :
    aluLanes op actl x a b l = (tab (fun i => (f (laneOf a i) (laneOf b i) (laneOf l i)).1), orFlags ((lanesIn x).map (fun i => (f (laneOf a i) (laneOf b i) (laneOf l i)).2)), false) := by
  unfold aluLanes
  simp only [hf, flagOut, List.map_map, List.any_map, Prod.mk.injEq, true_and]
  refine ⟨rfl, ?_⟩
  simp

/-- No enabled flag arises (R73). -/
theorem flagTrap_eq_none (actl : DWord) (f : Flags) : flagTrap actl f = none ↔ ∀ j, ¬(j < 3 ∧ f.getLsbD j = true ∧ actl.getLsbD (4 + j) = true) := by
  unfold flagTrap
  constructor
  · intro h j ⟨h3, h1, h2⟩
    have : j = 0 ∨ j = 1 ∨ j = 2 := by omega
    rcases this with rfl | rfl | rfl <;> simp_all <;> split at h <;> simp_all <;> split at h <;> simp_all
  · intro h
    have h0 := h 0; have h1 := h 1; have h2 := h 2
    simp only [Nat.reduceAdd, Nat.reduceLT, true_and] at h0 h1 h2
    rw [if_neg (by simpa using h0), if_neg (by simpa using h1), if_neg (by simpa using h2)]

/-- A flag of the lanes together. -/
theorem raised_iff (o : FloatOp) (g : Workgroup) (w : Warp) (j : Nat) :
   Raised o g w j ↔ (orFlags ((lanesIn (w.exec w.hdr)).map (fun i => (floatLane o g w i).2))).getLsbD j = true := by
  rw [orFlags_bit]
  simp [Raised, lanesIn, laneNums, List.any_map, List.any_filter]

/-- A floating-point instruction that meets no enable completes. -/
theorem flag_now {s : State} {g : Workgroup} {w : Warp} (o : FloatOp) (len : Nat) (op : AluOp)
    (f : Workgroup → Warp → Disp) (hf : f g w = dispOp (strandOf w o.n) (.alu op) o.imm o.src w) (h : s.RunsNow g w (strandOf w o.n) (usesOf o.src))
    (hr : ∀ a b l, op.lane w.uni.actl a b l = flagOut (o.f w.uni.actl a b l)) (hn : ∀ j, ¬FlagTraps o g w j) (hl : len = lengthOf o.n) :
    ∃ t g' w', s.strand len f = .next t ∧ AccOnly s t g g' w w' (strandOf w o.n) (lengthOf o.n)
      ∧ Result g g' w w' (strandOf w o.n) (fun l => (floatLane o g w l).1)
      ∧ ∀ j, j < 5 → (g'.astat.getLsbD j = true ↔ g.astat.getLsbD j = true ∨ Raised o g w j) := by
  subst hl
  have hb : ∀ l, l ∈ lanesIn (w.exec w.hdr) → laneOf (operandLanes w w.uni.part (carrySrc w o.imm o.src)) l = operandOf w o.imm l o.src := by
    intro l hl
    exact operandLanes_eq w o.imm o.src l (by simp [lanesIn, laneNums] at hl; exact hl.1)
  have hfl : orFlags ((lanesIn (w.exec w.hdr)).map (fun i => (o.f w.uni.actl (laneOf (g.kval w (strandOf w o.n)) i) (laneOf (operandLanes w w.uni.part (carrySrc w o.imm o.src)) i) (laneOf (w.latchOf (strandOf w o.n)) i)).2))
     = orFlags ((lanesIn (w.exec w.hdr)).map (fun i => (floatLane o g w i).2)) := by
    congr 1
    apply List.map_congr_left
    intro l hl
    rw [hb l hl]; rfl
  have ht : flagTrap w.uni.actl (orFlags ((lanesIn (w.exec w.hdr)).map (fun i => (floatLane o g w i).2))) = none := by
    rw [flagTrap_eq_none]
    rintro j ⟨h3, h1, h2⟩
    exact hn j ⟨h3, (raised_iff o g w j).2 h1, h2⟩
  obtain ⟨t, g', w', h1, h2, h3, h4⟩ := alu_now (strandOf w o.n) (lengthOf o.n) op o.imm o.src f hf h _ (aluLanes_flags op w.uni.actl _ _ _ _ _ hr) rfl (by rw [hfl]; exact ht)
  refine ⟨t, g', w', h1, h2, ?_, ?_⟩
  · intro l hl
    rw [h4 l hl]
    by_cases hx : (w.exec w.hdr).getLsbD l = true
    · simp only [hx, if_true, laneOf_tab, hl, operandLanes_eq w o.imm o.src l hl]; rfl
    · simp only [hx, Bool.false_eq_true, if_false]
  · intro j _
    rw [h3, hfl, raised_iff]
    simp

end Sys2Proof.Claims
end

