-- ==== Sys2Proof/Laws/Control.lean ====
section
/-!
SUPPORT. Jumps, branches and the start of the handler, in the terms of Safety.lean.
-/
namespace Sys2Proof.Claims
open Sys2Proof.Machine

/-- The loops that a branch leaves (R177). -/
theorem popLoops_eq (l : List LoopFrame) (a : BitVec 48) : popLoops l a = l.takeWhile (fun f => decide (f.start.toNat ≤ a.toNat ∧ a.toNat ≤ f.stop.toNat)) := by
  induction l with
  | nil => rfl
  | cons f l ih => simp only [popLoops, List.takeWhile_cons, ih]; split <;> simp_all

/-- A branch target (R133). -/
theorem target_eq (w : Warp) (off) : w.target off = offsetTarget w off := by
  unfold Warp.target offsetTarget; congr 1; exact BitVec.mul_comm ..

/-- A jump of the executing warp (R21). -/
theorem jump_now {s s' : State} {g g1 : Workgroup} {w w1 : Warp} (h : s.here = some (g, w)) (hs : ∃ cs, s' = { s with counters := cs })
    (hg : g1 = g) (hi : w1.wid = w.wid) (a : BitVec 48) :
    ∃ g', WarpChanged s (s'.jump g1 w1 a) g g' w (jumped w1 a) := by
  subst hg
  refine ⟨_, (onlyHere_put (w1 := w1.goto a) h hs rfl rfl hi).count _ _ _ _, rfl⟩

/-- A taken branch. -/
theorem branch_now {s : State} {g : Workgroup} {w : Warp} (h : s.here = some (g, w)) (a : BitVec 48) :
    ∃ t g' w', s.branch g w a = t ∧ WarpChanged s t g g' w w' ∧ w' = jumped (leavesLoops w a) a := by
  obtain ⟨g', h1⟩ := jump_now (w1 := w.leaveLoops a) h ⟨s.counters, rfl⟩ rfl rfl a
  refine ⟨_, g', _, rfl, h1, ?_⟩
  unfold Warp.leaveLoops leavesLoops
  rw [popLoops_eq]

/-- A conditional branch. -/
theorem branchIf_now {s : State} {g : Workgroup} {w : Warp} (h : s.here = some (g, w)) (b : Bool) (off) :
    ∃ t g' w', s.branchIf g w b off = t ∧ WarpChanged s t g g' w w' ∧ w' = if b then jumped (leavesLoops w (offsetTarget w off)) (offsetTarget w off) else jumped w (w.pc + 4) := by
  unfold State.branchIf
  cases b
  · obtain ⟨g', h1⟩ := jump_now (w1 := w) h ⟨s.counters, rfl⟩ rfl rfl (w.pc + 4)
    exact ⟨_, g', _, rfl, h1, rfl⟩
  · rw [target_eq]; exact branch_now h _

/-- A set of lanes is empty when it holds no lane. -/
theorem bit_ne_zero (x : LaneSet) : (x != 0) = (List.range 32).any (fun l => x.getLsbD l) := by
  cases h : (List.range 32).any (fun l => x.getLsbD l) with
  | true =>
    simp only [List.any_eq_true, List.mem_range] at h
    obtain ⟨l, hl, h⟩ := h
    simp only [bne_iff_ne, ne_eq]
    rintro rfl
    simp at h
  | false =>
    simp only [List.any_eq_false, List.mem_range] at h
    have : x = 0 := by
      apply BitVec.eq_of_getLsbD_eq
      intro i hi
      simpa using h i hi
    simp [this]

/-- A predicate with its sense, lane by lane. -/
theorem holds_bit (w : Warp) (p sense x) (l : Nat) (hl : l < 32): (w.holds p sense x).getLsbD l = (x.getLsbD l && senseHolds w p sense l) := by
  unfold Warp.holds senseHolds
  cases sense <;> simp [hl]

/-- BRANY's condition. -/
theorem any_eq (w : Warp) (p sense x) : w.anyHolds p sense x = someLane w p sense x := by
  unfold Warp.anyHolds someLane
  rw [bit_ne_zero, Bool.eq_iff_iff, List.any_eq_true, List.any_eq_true]
  constructor <;> rintro ⟨l, hl, h⟩ <;> refine ⟨l, hl, ?_⟩ <;> rw [holds_bit _ _ _ _ _ (by simpa using hl)] at * <;> exact h

/-- BRALL's condition. -/
theorem all_eq (w : Warp) (p sense x) : w.allHold p sense x = everyLane w p sense x := by
  unfold Warp.allHold everyLane
  rw [Bool.eq_iff_iff, List.all_eq_true, beq_iff_eq]
  constructor
  · intro h l hl
    have := holds_bit w p sense x l (by simpa using hl)
    rw [h] at this
    cases hx : x.getLsbD l <;> simp_all
  · intro h
    apply BitVec.eq_of_getLsbD_eq
    intro l hl
    rw [holds_bit _ _ _ _ _ hl]
    have := h l (by simpa using hl)
    cases hx : x.getLsbD l
    · rfl
    · rw [hx] at this; simpa using this

/-- A compat16 warp whose halves agree does not part. -/
theorem split_none (s : State) (g w d k) (h : g.compat16 = false ∨ d = false ∨ w.active &&& lowHalf = 0 ∨ w.active &&& highHalf = 0) : s.splitFirst g w d k = k s g w := by
  unfold State.splitFirst
  rw [if_pos]
  rcases h with h | h | h | h
  · simp [h]
  · simp [h]
  · have : (w.active &&& halfLanes 0 != 0) = false := by simpa [halfLanes, lowHalf] using h
    simp only [this, Bool.and_false, Bool.false_and, Bool.not_false]
  · have : (w.active &&& halfLanes 1 != 0) = false := by simpa [halfLanes, highHalf] using h
    simp only [this, Bool.and_false, Bool.not_false]

/-- What cancelling leaves of a warp. -/
theorem cancel_eqs (w : Warp) : w.cancel.started = w.started ∧ w.cancel.resume = w.resume ∧ w.cancel.wid = w.wid ∧ w.cancel.uni = w.uni ∧ w.cancel.halted = w.halted ∧ w.cancel.stepping = w.stepping ∧ w.cancel.skipBp = w.skipBp ∧ w.cancel.stopping = w.stopping := by
  have h : ∀ (l : List EngClass) (w1 : Warp), (l.foldl Warp.decCounter w1).started = w1.started ∧ (l.foldl Warp.decCounter w1).resume = w1.resume ∧ (l.foldl Warp.decCounter w1).wid = w1.wid ∧ (l.foldl Warp.decCounter w1).uni = w1.uni ∧ (l.foldl Warp.decCounter w1).halted = w1.halted ∧ (l.foldl Warp.decCounter w1).stepping = w1.stepping ∧ (l.foldl Warp.decCounter w1).skipBp = w1.skipBp ∧ (l.foldl Warp.decCounter w1).stopping = w1.stopping := by
    intro l
    induction l with
    | nil => intro w1; simp
    | cons a l ih => intro w1; simp only [List.foldl_cons, ih]; exact ⟨rfl, rfl, rfl, rfl, rfl, rfl, rfl, rfl⟩
  unfold Warp.cancel
  simp only [h]
  exact ⟨rfl, rfl, rfl, rfl, rfl, rfl, rfl, rfl⟩

/-- The record of a stop with no resume under way (R26). -/
theorem record_eq (w : Warp) (f : BitVec 48 × Half) : makeRecord f (leftOf w.queued) none =
   { spc := (List.range 16).map (strandRecord w (packPc f.2 f.1)), fepc := packPc f.2 f.1 } := by
  unfold makeRecord
  simp only [TrapRec.mk.injEq, and_true]
  apply List.map_congr_left
  intro n _
  simp only [leftOf, List.find?_map, Function.comp_def, strandRecord]
  cases w.queued.find? (fun e => e.n == n) <;> rfl

/-- Codes that go to a declared handler (R318, R340). -/
def toHandler (dbg : Bool) (c : Nat) : Prop := stopCode c = false ∧ c ≠ 7 ∧ (c = 0x11 → dbg = false) ∧ c ≠ 0x12 ∧ c ≠ 0x13

/-- A trap that goes to the handler. -/
theorem deliver_handler {s : State} {g : Workgroup} {w : Warp} {t : TrapInfo} (hb : g.stop = .none) (hh : g.hasHandler = true)
    (hv : s.isService g = false) (hu : w.uni.handler = false) (hc : toHandler (s.debugOn g) t.code) :
    s.deliverTrap g w t = (s.count g w.wid 0x17 1).put g (w.enterHandler g t.code) := by
  obtain ⟨c0, c7, c11, c12, c13⟩ := hc
  have e : (t.code == 0x11 && (s.count g w.wid 0x17 1).debugOn g) = false := by
    by_cases h : t.code = 0x11
    · have : (s.count g w.wid 0x17 1).debugOn g = false := c11 h
      simp [this]
    · simp [h]
  have ev : (s.count g w.wid 0x17 1).isService g = false := hv
  unfold State.deliverTrap
  simp only [e, ev]
  simp [hb, hh, hu, c0, c7, c12, c13]

/-- A front-end trap of an idle warp starts the handler. -/
theorem settle_handler {s s' : State} {g : Workgroup} {w : Warp} (h : s.here = some (g, w)) (hs : ∃ cs, s' = { s with counters := cs }) (hh : Handles s g w) (code : Nat)
   (hc : toHandler (s.debugOn g) code) (f : BitVec 48) (va acc c2 : Nat) :
   ∃ t g' w', s'.settle g (w.raise { code := code, addr := w.pc, va := va, access := acc, code2 := c2 } (f, w.hdr) []) = t ∧ HandlerStarts s t g g' w w' code f
     ∧ w'.skipBp = if code = 0x11 then some w.pc else w.skipBp := by
  obtain ⟨cs, rfl⟩ := hs
  obtain ⟨e1, e2, e3, e4, e5, e6, e7, e8⟩ := cancel_eqs w
  have c12 : (code == 18) = false := by simp [hc.2.2.2.1]
  have es : ∀ w2 : Warp, w2.uni.handler = false → ({ s with counters := cs } : State).deliverTrap g w2 { code := code, addr := w.pc, va := va, access := acc, code2 := c2 }
      = (({ s with counters := cs } : State).count g w2.wid 0x17 1).put g (w2.enterHandler g code) :=
    fun w2 hw => deliver_handler hh.stop hh.handler hh.user hw hc
  unfold Warp.raise
  simp only [hh.running.1, Warp.beginStop, State.settle, List.nil_append]
  simp only [e1, hh.idle, List.isEmpty_nil, Bool.not_true, Bool.false_eq_true, if_false, e2, hh.fresh, record_eq]
  simp only [show ((StopGoal.trap == StopGoal.halt || StopGoal.trap == StopGoal.save) = false) from rfl, Bool.false_eq_true, if_false]
  rw [es _ (by simp only [e4]; exact hh.outside)]
  have e8' := e8.trans hh.running.1
  refine ⟨_, _, _, rfl, ⟨⟨onlyHere_put h ⟨_, rfl⟩ rfl rfl ?_, rfl⟩, ?_⟩, ?_⟩
  · simp [Warp.enterHandler, e3]
  · simp only [Warp.enterHandler, e5.trans hh.running.2, e4, e6, e7, Bool.or_self, Bool.false_eq_true, if_false, e8', e1.trans hh.idle, e2.trans hh.fresh, hdrK0]
  · simp only [Warp.enterHandler, e7, c12, Bool.or_false, beq_iff_eq]

/-- The codes that go to a handler. -/
theorem toHandler_plain {d : Bool} {c : Nat} (h : c = 1 ∨ c = 2 ∨ c = 3 ∨ c = 4 ∨ (8 ≤ c ∧ c < 13) ∨ (14 < c ∧ c < 17) ∨ 19 < c) : toHandler d c := by
  unfold toHandler stopCode
  refine ⟨?_, ?_, ?_, ?_, ?_⟩ <;> first | omega | (intro _; omega) | (simp only [Bool.or_eq_false_iff, beq_eq_false_iff_ne, ne_eq]; omega)

/-- A trap at the instruction itself. -/
theorem trapFront_handler {s : State} {g : Workgroup} {w : Warp} (h : s.here = some (g, w)) (hh : Handles s g w) (code : Nat)
    (hc : toHandler (s.debugOn g) code) : ∃ t g' w', s.trapFront g w code = t ∧ HandlerStarts s t g g' w w' code w.pc := by
  obtain ⟨t, g', w', h1, h2, _⟩ := settle_handler (s' := s) h ⟨s.counters, rfl⟩ hh code hc w.pc 0 0 0
  exact ⟨t, g', w', h1, h2⟩

/-- An address below 2^48. -/
theorem high_zero (v : DWord) (h : v.toNat < 2 ^ 48) : (v.extractLsb' 48 16 != 0) = false := by
  simp only [bne_eq_false_iff_eq]
  apply BitVec.eq_of_toNat_eq
  rw [BitVec.extractLsb'_toNat, Nat.shiftRight_eq_div_pow, Nat.div_eq_of_lt h]; rfl

end Sys2Proof.Claims
end

