-- ==== Sys2Proof/Certificates/Slice0/Obligations.lean ====
section
/-!
DEFINITION. The statements for the provers, and the vocabulary they are made in beside Safety.lean's (namespace Sys2Proof.Claims). Where a
docstring names a log entry, that clause is the model's choice and no rule of the spec.
-/
section
open Sys2Proof Sys2Proof.Machine Sys2Proof.Claims

namespace Sys2Proof.Claims

/-- Integer arithmetic, logic and moves of a register or an immediate (R145, R148): a is the accumulator, b the operand, l the latch. -/
def integerOp : Instr → Option LaneOp
  | .mov x => some ⟨none, x, immI, fun _ b _ => b⟩
  | .movL n x false => some ⟨some n, x, immI, fun _ b _ => b⟩
  | .movL n x true => some ⟨some n, x, widenE, fun _ b _ => b⟩
  | .iadd x => some ⟨none, x, immI, fun a b _ => a + b⟩
  | .isub x => some ⟨none, x, immI, fun a b _ => a - b⟩
  | .irsub x => some ⟨none, x, immI, fun a b _ => b - a⟩
  | .imul x => some ⟨none, x, immI, fun a b _ => a * b⟩
  | .imac x => some ⟨none, x, immI, fun a b l => a + l * b⟩
  | .imax x => some ⟨none, x, immI, fun a b _ => if a.toInt < b.toInt then b else a⟩
  | .imin x => some ⟨none, x, immI, fun a b _ => if b.toInt < a.toInt then b else a⟩
  | .zmax x => some ⟨none, x, immZ, fun a b _ => if a.toNat < b.toNat then b else a⟩
  | .zmin x => some ⟨none, x, immZ, fun a b _ => if b.toNat < a.toNat then b else a⟩
  | .and x => some ⟨none, x, immZ, fun a b _ => a &&& b⟩
  | .or x => some ⟨none, x, immZ, fun a b _ => a ||| b⟩
  | .xor x => some ⟨none, x, immZ, fun a b _ => a ^^^ b⟩
  | .andn x => some ⟨none, x, immZ, fun a b _ => a &&& ~~~b⟩
  | .iaddL n x => some ⟨some n, x, immI, fun a b _ => a + b⟩
  | .isubL n x => some ⟨some n, x, immI, fun a b _ => a - b⟩
  | .irsubL n x => some ⟨some n, x, immI, fun a b _ => b - a⟩
  | .imulL n x => some ⟨some n, x, immI, fun a b _ => a * b⟩
  | .imacL n x => some ⟨some n, x, immI, fun a b l => a + l * b⟩
  | .imaxL n x => some ⟨some n, x, immI, fun a b _ => if a.toInt < b.toInt then b else a⟩
  | .iminL n x => some ⟨some n, x, immI, fun a b _ => if b.toInt < a.toInt then b else a⟩
  | .zmaxL n x => some ⟨some n, x, immZ, fun a b _ => if a.toNat < b.toNat then b else a⟩
  | .zminL n x => some ⟨some n, x, immZ, fun a b _ => if b.toNat < a.toNat then b else a⟩
  | .andL n x => some ⟨some n, x, immZ, fun a b _ => a &&& b⟩
  | .orL n x => some ⟨some n, x, immZ, fun a b _ => a ||| b⟩
  | .xorL n x => some ⟨some n, x, immZ, fun a b _ => a ^^^ b⟩
  | .andnL n x => some ⟨some n, x, immZ, fun a b _ => a &&& ~~~b⟩
  | _ => none

/-- Shifts (R149): the whole operand is the count; from 32 on SHL and SHR give zero and SAR the sign; ROL takes the count modulo 32. -/
def shiftOp : Instr → Option LaneOp
  | .shl x => some ⟨none, x, immZ, fun a b _ => a <<< b.toNat⟩
  | .shr x => some ⟨none, x, immZ, fun a b _ => a >>> b.toNat⟩
  | .sar x => some ⟨none, x, immZ, fun a b _ => a.sshiftRight b.toNat⟩
  | .rol x => some ⟨none, x, immZ, fun a b _ => a.rotateLeft b.toNat⟩
  | .shlL n x => some ⟨some n, x, immZ, fun a b _ => a <<< b.toNat⟩
  | .shrL n x => some ⟨some n, x, immZ, fun a b _ => a >>> b.toNat⟩
  | .sarL n x => some ⟨some n, x, immZ, fun a b _ => a.sshiftRight b.toNat⟩
  | .rolL n x => some ⟨some n, x, immZ, fun a b _ => a.rotateLeft b.toNat⟩
  | _ => none

/-- Bit operations (R150, R151): counts, reversal, sign bits, a field. Bit i of a reversal is bit 31 − i. -/
def bitOp : Instr → Option LaneOp
  | .fabs n => some ⟨some n, .imm 0, immI, fun a _ _ => a &&& 0x7FFFFFFF#32⟩
  | .fneg n => some ⟨some n, .imm 0, immI, fun a _ _ => a ^^^ 0x80000000#32⟩
  | .popc n => some ⟨some n, .imm 0, immI, fun a _ _ => BitVec.ofNat 32 ((List.range 32).filter (fun i => a.getLsbD i)).length⟩
  | .clz n => some ⟨some n, .imm 0, immI, fun a _ _ => BitVec.ofNat 32 (((List.range 32).map (fun i => a.getLsbD (31 - i))).takeWhile (fun b => !b)).length⟩
  | .brev n => some ⟨some n, .imm 0, immI, fun a _ _ => a.reverse⟩
  | .bfe n x pos => some ⟨some n, x, immZ, fun a b _ => (a >>> pos.toNat) &&& BitVec.ofNat 32 (2 ^ min b.toNat 32 - 1)⟩
  | _ => none

/-- Integer division (R67, R153): toward zero, the remainder with the dividend's sign. -/
def divisionOp : Instr → Option LaneOp
  | .idiv n x => some ⟨some n, x, immI, fun a b _ => BitVec.ofInt 32 (a.toInt.tdiv b.toInt)⟩
  | .zdiv n x => some ⟨some n, x, immZ, fun a b _ => BitVec.ofNat 32 (a.toNat / b.toNat)⟩
  | .irem n x => some ⟨some n, x, immI, fun a b _ => BitVec.ofInt 32 (a.toInt.tmod b.toInt)⟩
  | .zrem n x => some ⟨some n, x, immZ, fun a b _ => BitVec.ofNat 32 (a.toNat % b.toNat)⟩
  | _ => none

/-- An FP32 operation under `ACTL`'s rounding (R146), and under its own (R147). -/
def fpWith (op : FpOp) (rm : DWord → RM) (actl : DWord) (a b l : Word) : Word × Flags := fp32 op (rm actl) (actlFtz actl) a b l
/-- A packed operation on both halves (R79, R156). -/
def packedWith (op : FpOp) (f : HFmt) (rm : RM) (_ : DWord) (a b l : Word) : Word × Flags := packedLane op f rm a b l

/-- Floating-point instructions (R146, R147, R152, R154 to R156). -/
def floatOp : Instr → Option FloatOp
  | .fadd x => some ⟨none, x, widenE, fpWith .add actlRm⟩
  | .fsub x => some ⟨none, x, widenE, fpWith .sub actlRm⟩
  | .frsub x => some ⟨none, x, widenE, fpWith .rsub actlRm⟩
  | .fmul x => some ⟨none, x, widenE, fpWith .mul actlRm⟩
  | .fmac x => some ⟨none, x, widenE, fpWith .mac actlRm⟩
  | .fnmac x => some ⟨none, x, widenE, fpWith .nmac actlRm⟩
  | .fmla x => some ⟨none, x, widenE, fpWith .mla actlRm⟩
  | .fmax x => some ⟨none, x, widenE, fpWith .max actlRm⟩
  | .fmin x => some ⟨none, x, widenE, fpWith .min actlRm⟩
  | .faddL n x => some ⟨some n, x, widenE, fpWith .add actlRm⟩
  | .fsubL n x => some ⟨some n, x, widenE, fpWith .sub actlRm⟩
  | .frsubL n x => some ⟨some n, x, widenE, fpWith .rsub actlRm⟩
  | .fmulL n x => some ⟨some n, x, widenE, fpWith .mul actlRm⟩
  | .fmacL n x => some ⟨some n, x, widenE, fpWith .mac actlRm⟩
  | .fnmacL n x => some ⟨some n, x, widenE, fpWith .nmac actlRm⟩
  | .fmlaL n x => some ⟨some n, x, widenE, fpWith .mla actlRm⟩
  | .fmaxL n x => some ⟨some n, x, widenE, fpWith .max actlRm⟩
  | .fminL n x => some ⟨some n, x, widenE, fpWith .min actlRm⟩
  | .fdiv n x => some ⟨some n, x, widenE, fpWith .div actlRm⟩
  | .faddx n x rm => some ⟨some n, x, widenE, fpWith .add (fun _ => rm)⟩
  | .fmulx n x rm => some ⟨some n, x, widenE, fpWith .mul (fun _ => rm)⟩
  | .fmacx n x rm => some ⟨some n, x, widenE, fpWith .mac (fun _ => rm)⟩
  | .fmlax n x rm => some ⟨some n, x, widenE, fpWith .mla (fun _ => rm)⟩
  | .sfu n fn => some ⟨some n, .imm 0, immI, fun c a _ _ => sfuLane fn (actlRm c) (actlFtz c) a⟩
  | .cvt rm n code sat => some ⟨some n, .imm 0, immI, fun c a _ _ => cvtLane code rm sat (actlFtz c) a⟩
  | .hadd2 n x f rm => some ⟨some n, x, widenPacked f, packedWith .add f rm⟩
  | .hsub2 n x f rm => some ⟨some n, x, widenPacked f, packedWith .sub f rm⟩
  | .hmul2 n x f rm => some ⟨some n, x, widenPacked f, packedWith .mul f rm⟩
  | .hfma2 n x f rm => some ⟨some n, x, widenPacked f, packedWith .mac f rm⟩
  | .hmax2 n x f rm => some ⟨some n, x, widenPacked f, packedWith .max f rm⟩
  | .hmin2 n x f rm => some ⟨some n, x, widenPacked f, packedWith .min f rm⟩
  | _ => none

/-- A lane operation completes at once: the result stands in every executing lane of its accumulator; of everything else only the
front end's place moves, and no flag changes. -/
def Completes (i : Instr) (o : LaneOp) (s : State) (g : Workgroup) (w : Warp) : Prop :=
  let n := strandOf w o.n
  ∃ t g' w', exec i s = .next t ∧ AccOnly s t g g' w w' n (lengthOf o.n) ∧ g'.astat = g.astat
    ∧ Result g g' w w' n (fun l => o.f (laneOf (g.kval w n) l) (operandOf w o.imm l o.src) (laneOf (w.latchOf n) l))

/-- A lane operation may run now. -/
def Ready (o : LaneOp) (s : State) (g : Workgroup) (w : Warp) : Prop := s.RunsNow g w (strandOf w o.n) (usesOf o.src)

/-- What the latch of accumulator `n` becomes (R145). -/
def LatchResult (w w' : Warp) (n : Nat) (f : Nat → Word) : Prop :=
  ∀ m l, l < 32 → laneOf (w'.latchOf m) l = if m = n ∧ (w.exec w.hdr).getLsbD l = true then f l else laneOf (w.latchOf m) l

/-- What register `r` becomes (R145). -/
def RegisterResult (w w' : Warp) (r : Nat) (f : Nat → Word) : Prop :=
  ∀ q l, l < 32 → laneOf (w'.greg q) l = if q = r ∧ (w.exec w.hdr).getLsbD l = true then f l else laneOf (w.greg q) l

/-- What predicate `p` becomes: the lanes outside the executing set keep it (R157). -/
def PredicateResult (w w' : Warp) (p : Nat) (f : Nat → Bool) : Prop :=
  ∀ q l, l < 32 → (w'.pred q).getLsbD l = if q = p ∧ p ≠ 0 ∧ (w.exec w.hdr).getLsbD l = true then f l else (w.pred q).getLsbD l

/-- MLAT in its short and long forms. -/
def latchOp : Instr → Option LaneOp
  | .mlat x => some ⟨none, x, immI, fun _ b _ => b⟩
  | .mlatL n x false => some ⟨some n, x, immI, fun _ b _ => b⟩
  | .mlatL n x true => some ⟨some n, x, widenE, fun _ b _ => b⟩
  | _ => none

/-- PUTG in its short and long forms: strand and register. -/
def putgOp : Instr → Option (Option (BitVec 4) × BitVec 8)
  | .putg r => some (none, r)
  | .putgL n r => some (some n, r)
  | _ => none

/-- NOP in its short and long forms. -/
def nopOp : Instr → Option (Option (BitVec 4))
  | .nop => some none
  | .nopL n => some (some n)
  | _ => none

/-- A combine of R157. -/
def combined (c : Combine) (old new : Bool) : Bool :=
  match c with
  | .set => new
  | .and => old && new
  | .or => old || new

/-- The condition of an integer compare (R157). -/
def integerHolds (c : ICond) (a b : Word) : Bool :=
  match c with
  | .eq => decide (a.toInt = b.toInt)
  | .ne => decide (a.toInt ≠ b.toInt)
  | .lt => decide (a.toInt < b.toInt)
  | .le => decide (a.toInt ≤ b.toInt)
  | .gt => decide (a.toInt > b.toInt)
  | .ge => decide (a.toInt ≥ b.toInt)
  | .zlt => decide (a.toNat < b.toNat)
  | .zge => decide (a.toNat ≥ b.toNat)

/-- Immediates of ICMP widen by Z for the unsigned conditions, by I for the others (R125). -/
def icmpImm (c : ICond) : BitVec 8 → Word := if c == .zlt || c == .zge then immZ else immI

/-- Uses of a compare. -/
def compareUses (x : Src) (p : BitVec 3) (c : Combine) : Uses :=
  { regs := srcGregs x, readsG := srcGregs x, readsP := if c == .set then [] else [p.toNat], writesP := [p.toNat] }

/-- Lanes that read register `r` from another lane (R160, R161). -/
def shuffleOp : Instr → Option (BitVec 4 × BitVec 8 × (Nat → Word → Nat))
  | .shfli n r => some (n, r, fun _ a => a.toNat)
  | .shfl16 n r => some (n, r, fun l a => 16 * (l / 16) + a.toNat % 16)
  | .qx n .h r => some (n, r, fun l _ => l ^^^ 1)
  | .qx n .v r => some (n, r, fun l _ => l ^^^ 2)
  | .qx n .d r => some (n, r, fun l _ => l ^^^ 3)
  | _ => none

/-- Lanes of V(L) (R162): executing lanes of the tile of `l`. -/
def Votes (w : Warp) (l j : Nat) : Prop := j < 32 ∧ (w.exec w.hdr).getLsbD j = true ∧ j / 2 ^ w.uni.part = l / 2 ^ w.uni.part

/-- Four nibbles of one half of a register, one to a byte (R165): bit i of the result. -/
def unpackedBit (hi : Bool) (v : Word) (i : Nat) : Bool :=
  decide (i % 8 < 4) && v.getLsbD (4 * ((if hi then 4 else 0) + i / 8) + i % 8)

/-- The uniform branches: their condition over a set of lanes, and their offset (R170). -/
def branchOp (w : Warp) : Instr → Option ((LaneSet → Bool) × BitVec 16)
  | .bra off => some (fun _ => true, off)
  | .brany sense p off => some (someLane w p sense, off)
  | .brall sense p off => some (everyLane w p sense, off)
  | .brs sx off => some (fun _ => w.sreg sx.toNat != 0, off)
  | _ => none

/-- The halves of the warp do not part at a condition (R279): not compat16, or one half empty, or both decide the same. -/
def HalvesAgree (g : Workgroup) (w : Warp) (c : LaneSet → Bool) : Prop :=
  g.compat16 = false ∨ w.active &&& lowHalf = 0 ∨ w.active &&& highHalf = 0 ∨ c (w.active &&& lowHalf) = c (w.active &&& highHalf)

/-- The hardware loop instructions: loop number, count and length (R175). -/
def loopOp (w : Warp) : Instr → Option (Nat × DWord × BitVec 9)
  | .loop0 sx len => some (0, w.sreg sx.toNat, len)
  | .loop1 sx len => some (1, w.sreg sx.toNat, len)
  | .loop2 sx len => some (2, w.sreg sx.toNat, len)
  | .loopi0 c len => some (0, c.zeroExtend 64, len)
  | .loopi1 c len => some (1, c.zeroExtend 64, len)
  | .loopi2 c len => some (2, c.zeroExtend 64, len)
  | _ => none

/-- The body's end (R175). -/
def loopEnd (w : Warp) (len : BitVec 9) : BitVec 48 := w.pc + 4 + 2 * len.zeroExtend 48

/-- LOOPN's three traps (R175): the count's range, the depth, and an inner body beyond the outer one. -/
def LoopTraps (w : Warp) (n : Nat) (c : DWord) (len : BitVec 9) : Prop :=
  2 ^ 32 ≤ c.toNat ∨ w.uni.loops.length ≠ n
    ∨ ∃ f, 0 < n ∧ w.uni.loops[n - 1]? = some f ∧ f.stop.toNat < (loopEnd w len).toNat

/-- The bin key of a group that continues at `a` (R31). -/
def groupKey (w : Warp) (a : BitVec 48) : BinKey := { addr := a, uni := (leavesLoops w a).uni }

/-- Bytes of a deposit of some lanes in the hamper, with `regs` live granules, its key not counted (R35, R277). -/
def depositBytes (x : LaneSet) (granules : Nat) : Nat := ((List.range 32).filter (fun l => x.getLsbD l)).length * (136 + 16 * granules)

/-- What a thread takes along (R31): its registers of the live granules, accumulators, latches, predicates, `TID`. -/
structure TakenFrom (w : Warp) (l : Nat) (live : Nat → Bool) (t : Thread) : Prop where
  tid : t.tid = nth 0 w.tids l
  registers : ∀ r, t.g.find? (fun x => x.1 == r) = if r < 4 * w.granules ∧ live (r / 4) = true then some (r, laneOf (w.greg r) l) else none
  accumulators : ∀ n, n < 16 → nth 0#32 t.k n = laneOf (nth zeroLanes w.k n) l ∧ nth 0#32 t.latch n = laneOf (w.latchOf n) l
  predicates : ∀ y, 0 < y → y < 8 → t.p.getLsbD y = (w.pred y).getLsbD l

/-- Threads of the lanes `x` enter a new bin of the hamper (R31, R33). -/
def EntersBin (s : State) (g : Workgroup) (w : Warp) (x : LaneSet) (live : Nat → Bool) (a : BitVec 48) (b : Bin) : Prop :=
  b.key = groupKey w a ∧ b.deadline = s.clk + 2 ^ (7 + g.timerExp) ∧ b.expired = false ∧ (g.stop = .none → w.halted = false → b.rest = none)
    ∧ b.threads.length = ((List.range 32).filter (fun l => x.getLsbD l)).length
    ∧ ∀ l, l < 32 → x.getLsbD l = true → ∃ t ∈ b.threads, TakenFrom w l live t

/-- A warp of base granules with no bound accumulator may deposit (R32), its store queue has drained, its workgroup has a free bin that the
key needs, the hamper has room (R35), and no warp waits at a barrier. -/
structure MayDeposit (s : State) (g : Workgroup) (w : Warp) (x : LaneSet) (live : Nat → Bool) (a : BitVec 48) : Prop where
  outside : w.uni.handler = false
  unbound : ∀ b ∈ w.bind, b = none
  base : w.granules = g.baseGranules
  stores : w.storeQ = []
  newKey : ∀ b ∈ g.bins, b.key ≠ groupKey w a
  free : g.bins.length < g.binsMax
  room : s.hamperUsed g + depositBytes x ((List.range w.granules).filter live).length + 640 ≤ 262144
  quiet : ∀ y ∈ g.warps, y.block = .none

/-- BRD's sides (R30): the lanes taken, and the group that leaves, a tie sending the false side away. -/
def takeLanes (w : Warp) (p : BitVec 3) (sense : Bool) : LaneSet := w.active &&& (if sense then ~~~(w.pred p.toNat) else w.pred p.toNat)
def leaveLanes (w : Warp) (p : BitVec 3) (sense : Bool) (t : BitVec 6) : LaneSet :=
  let take := takeLanes w p sense
  let stay := w.active &&& ~~~take
  let minority := if laneCount take < laneCount stay then take else stay
  if laneCount minority ≤ t.toNat then minority else w.active &&& ~~~minority

/-- Instructions that a handler must not execute (R174); SPAWN, which is dispatched to an engine, apart. -/
def barredInHandler : Instr → Bool
  | .brd _ _ _ _ _ | .join _ _ | .bar | .gbar | .give _ | .claim _ | .claimp _ _ => true
  | _ => false

/-- Codes that start a declared handler outside a service (R318), a breakpoint's apart. -/
def startsHandler (c : Nat) : Bool := c != 0x05 && c != 0x06 && c != 0x07 && c != 0x0D && c != 0x0E && c != 0x11 && c != 0x12 && c != 0x13

/-- The workgroup once its warp `w` has arrived at a barrier. -/
def arrivedAt (g : Workgroup) (w : Warp) (b : Block) : Workgroup := g.setWarp { w with block := b }

/-- A workgroup whose warps at the gang barrier are released (R181). -/
def gangReleased (g : Workgroup) : Workgroup :=
  { g with gbarArrived := false, warps := g.warps.map (fun x => if x.block = .gbar then x.passBlock else x) }

/-- A report of a failed operation becomes a trap (R179): its code, and in a service kernel 0x19 for an unanswered page (R333). -/
def pendingReport (w : Warp) (cls : EngClass) : Option Report := w.reports.find? (fun r => r.cls == cls)

/-- The warp has passed a front-end instruction of 4 bytes: `core` tells what else changed (R21). -/
def stepped (core : Warp) (w w' : Warp) : Prop := w' = { core with pc := w.pc + 4, resume := w'.resume, skipBp := w'.skipBp, stepping := w'.stepping }

/-- The marks that some access dispatched before them still stands under (R103). -/
def lastingFences (w : Warp) : List FenceMark :=
  w.fences.filter (fun f => w.pending.any (fun e => decide (e.seq ≤ f.seq)) || w.storeQ.any (fun x => decide (x.seq ≤ f.seq)))

/-- The mark of a FENCE (R103): a release needs none, since stores drain in order (R100); a sequentially consistent one holds stores back too. -/
def fenceMark (kind : FenceKind) (seq : Nat) : List FenceMark :=
  match kind with
  | .rel => []
  | .acq | .acqrel => [⟨seq, false⟩]
  | .sc => [⟨seq, true⟩]

/-- The core holds a translation of a code line's page, and it may be fetched (R191, R324). -/
def MayFetch (s : State) (g : Workgroup) (line : Nat) : Prop :=
  ∃ t, s.tlbFind g.coreIdx g.asid (BitVec.ofNat 48 (256 * line)) = some t ∧ leafRefuses t.leaf (s.isService g) .fetch = false

/-- Scalar instructions (R192): destination and value. -/
def scalarOp (w : Warp) : Instr → Option (BitVec 6 × DWord)
  | .smov d x => some (d, w.sreg x.toNat)
  | .sadd d x y => some (d, w.sreg x.toNat + w.sreg y.toNat)
  | .ssub d x y => some (d, w.sreg x.toNat - w.sreg y.toNat)
  | .smul d x y => some (d, w.sreg x.toNat * w.sreg y.toNat)
  | .sand d x y => some (d, w.sreg x.toNat &&& w.sreg y.toNat)
  | .sor d x y => some (d, w.sreg x.toNat ||| w.sreg y.toNat)
  | .sxor d x y => some (d, w.sreg x.toNat ^^^ w.sreg y.toNat)
  | .sshl d x y => some (d, BitVec.ofNat 64 ((w.sreg x.toNat).toNat * 2 ^ (w.sreg y.toNat).toNat))
  | .sshr d x y => some (d, BitVec.ofNat 64 ((w.sreg x.toNat).toNat / 2 ^ (w.sreg y.toNat).toNat))
  | .saddi d x imm => some (d, w.sreg x.toNat + imm.signExtend 64)
  | .smovi d imm => some (d, imm.signExtend 64)
  | .scmp d c x y =>
    let a := w.sreg x.toNat
    let b := w.sreg y.toNat
    let holds : Bool := match c with
      | .eq => decide (a = b)
      | .ne => decide (a ≠ b)
      | .lt => decide (a.toInt < b.toInt)
      | .le => decide (a.toInt ≤ b.toInt)
      | .gt => decide (b.toInt < a.toInt)
      | .ge => decide (b.toInt ≤ a.toInt)
      | .zlt => decide (a.toNat < b.toNat)
      | .zge => decide (b.toNat ≤ a.toNat)
    some (d, if holds then 1 else 0)
  | _ => none

/-- Nothing earlier names sX, and no SOLICIT that writes it is outstanding (R19, R53). -/
def NothingNames (w : Warp) (x : Nat) : Prop := w.sBusy x = false

/-- The special registers that every kernel may read and whose value is one number for the warp (R59 to R64). -/
def plainRegister (g : Workgroup) (w : Warp) (i : BitVec 8) : Option Nat :=
  match i.toNat with
  | 0x02 => some w.wid
  | 0x03 => some (g.lin % g.nwg.1)
  | 0x04 => some (g.lin / g.nwg.1 % g.nwg.2.1)
  | 0x05 => some (g.lin / (g.nwg.1 * g.nwg.2.1))
  | 0x06 => some g.rank
  | 0x07 => some g.gangSize
  | 0x08 => some g.nwg.1
  | 0x09 => some g.nwg.2.1
  | 0x0A => some g.nwg.2.2
  | 0x0B => some (if g.compat16 then 16 else 32)
  | 0x0C => some w.uni.part
  | 0x0D => some w.uni.actl.toNat
  | 0x0E => some g.astat.toNat
  | 0x11 => some g.core
  | 0x12 => some g.die
  | 0x13 => some g.seed.toNat
  | 0x14 => some ((if g.drops < 65535 then g.drops else 65535) * 65536 + (if g.lost then 1 else 0))
  | 0x15 => some (nth 0#32 w.uni.lc 0).toNat
  | 0x16 => some (nth 0#32 w.uni.lc 1).toNat
  | 0x17 => some (nth 0#32 w.uni.lc 2).toNat
  | 0x18 => some g.poolFree
  | 0x19 => some (4 * w.granules)
  | 0x1A => some ((List.range 7).map (fun c => nth 0 w.ectr c % 64 * 2 ^ (6 * c))).sum
  | 0x1B => some w.lscale.toNat
  | 0x1C => some w.trapCode
  | 0x1D => some w.trapAddr.toNat
  | 0x32 => some ((g.header.extractLsb' 57 3).toNat + 16 * (g.header.extractLsb' 60 4).toNat + (if g.header.getLsbD 56 then 256 else 0))
  | i => if i = 0x1E ∨ i = 0x1F ∨ 0x35 ≤ i then some 0 else none

/-- The operation that PROG shows (R209): the oldest stopped one, or else the oldest of the lowest class that has one. -/
def ProgShows (w : Warp) (o : EngOp) : Prop :=
  w.ops.find? (fun x => x.prog.stopped) = some o
    ∨ (∀ x ∈ w.ops, x.prog.stopped = false) ∧ ∃ c, o.kind.cls = some c ∧ w.ops.find? (fun x => x.kind.cls == some c) = some o
        ∧ ∀ x ∈ w.ops, ∀ d, x.kind.cls = some d → classIdx c ≤ classIdx d

/-- What POS counts (R209). -/
def posOf (o : EngOp) : Nat :=
  match o.kind with
  | .cpy _ _ _ _ _ _ _ _ | .cpyo _ _ _ _ _ | .msamp _ _ _ _ _ _ | .tmove _ _ _ => o.prog.pos
  | .solicit _ _ _ _ _ _ => o.prog.census.getD 0
  | _ => 0

/-- PROG (R209): CLASS, OP, PHASE and POS of an operation. -/
def progWord (o : EngOp) (c : EngClass) : Nat :=
  (classIdx c + 1) * 2 ^ 60 + o.kind.op8 * 2 ^ 52 + (match o.kind with
    | .msamp _ _ _ _ _ _ => o.prog.phase % 16
    | _ => 0) * 2 ^ 48 + posOf o % 2 ^ 48

/-- The special registers of a service kernel (R59, R26, R209). -/
def ServiceRegister (g : Workgroup) (w : Warp) (i : Nat) (v : Nat) : Prop :=
  (0x20 ≤ i ∧ i ≤ 0x2F ∧ v = (nth 0#64 w.spc (i - 0x20)).toNat) ∨ (i = 0x30 ∧ v = w.fepc.toNat) ∨ (i = 0x31 ∧ v = g.asid) ∨ (i = 0x33 ∧ v = g.ctxid)
    ∨ (i = 0x34 ∧ ((w.ops = [] ∧ v = 0) ∨ ∃ o c, ProgShows w o ∧ o.kind.cls = some c ∧ v = progWord o c))

/-- The indices that only a service kernel may name (R59). -/
def serviceIndex (i : Nat) : Bool := (0x20 ≤ i && i ≤ 0x31) || i == 0x33 || i == 0x34
/-- The indices that SWR may write (R59). -/
def writableIndex (i : Nat) : Bool := i == 0x0D || i == 0x0E || i == 0x13 || i == 0x14 || (0x15 ≤ i && i ≤ 0x17) || (0x20 ≤ i && i ≤ 0x30)

/-- What SWR of a value leaves of the workgroup and of the warp (R61 to R64, R26, R55). In handler mode a write of SPCn or FEPC reaches the
record that RTE resumes from (R193, R203). -/
def swrGroup (g : Workgroup) (i : Nat) (v : DWord) : Workgroup :=
  if i = 0x0E then { g with astat := v.extractLsb' 0 5 }
  else if i = 0x13 then { g with seed := v.extractLsb' 0 32 }
  else if i = 0x14 ∧ v.getLsbD 0 = true then { g with drops := 0, lost := false }
  else g
def swrWarp (w : Warp) (i : Nat) (v : DWord) : Warp :=
  if i = 0x0D then { w with uni := { w.uni with actl := v &&& 0x77#64 } }
  else if 0x15 ≤ i ∧ i ≤ 0x17 then { w with uni := { w.uni with lc := setNth 0#32 w.uni.lc (i - 0x15) (v.extractLsb' 0 32) } }
  else if 0x20 ≤ i ∧ i ≤ 0x2F then
    { w with spc := setNth 0#64 w.spc (i - 0x20) (v &&& ~~~1#64),
             held := w.held.map (fun r => { r with spc := setNth 0#64 r.spc (i - 0x20) (v &&& ~~~1#64) }) }
  else if i = 0x30 then { w with fepc := v &&& ~~~1#64, held := w.held.map (fun r => { r with fepc := v &&& ~~~1#64 }) }
  else w

/-- A trap raised by a strand instruction of strand n at its dispatch or at its start (R25, R27): the handler starts, and the record names
the instruction for its strand. `f` is F, `core` the warp without the instruction. -/
structure StrandTraps (s t : State) (g g' : Workgroup) (w w' : Warp) (n code len : Nat) : Prop where
  changed : WarpChanged s t g g' w w'
  code : w'.trapCode = code
  address : w'.trapAddr = w.pc
  own : nth 0#64 w'.spc n = packPc w.hdr w.pc
  front : w'.fepc = packPc w.hdr (w.pc + BitVec.ofNat 48 len)
  enters : w'.pc = g.handler ∧ w'.hdr = 0xC000#16 ∧ w'.uni = { w.uni with handler := true } ∧ w'.held = some { spc := w'.spc, fepc := w'.fepc }
  registers : w'.g = w.g ∧ w'.k = w.k ∧ w'.latch = w.latch ∧ w'.p = w.p ∧ w'.bind = w.bind
  others : ∀ m, m < 16 → m ≠ n → w.queued.all (fun e => e.n != m) = true → nth 0#64 w'.spc m = w'.fepc

/-- The exact address of a lane (R88). -/
def laneAt (w : Warp) (m : MField) (size l : Nat) : Int :=
  ((w.sreg m.base.toNat).toNat : Int) + ((laneOf (w.greg m.idx.toNat) l).toNat * size : Nat) + m.off.toInt * size

/-- An address in range and aligned (R88): range first. -/
def InRange (g : Workgroup) (m : MField) (size : Nat) (a : Int) : Prop :=
  0 ≤ a ∧ a + size ≤ (match m.space with
    | .global => (2 ^ 48 : Int)
    | .scratch => (1024 * (g.header.extractLsb' 24 10).toNat : Nat))
def Legal (g : Workgroup) (w : Warp) (m : MField) (size : Nat) : Prop :=
  ∀ l, l < 32 → (w.exec w.hdr).getLsbD l = true → InRange g m size (laneAt w m size l) ∧ laneAt w m size l % size = 0

/-- What a younger memory instruction of a warp may have to wait for: a load, a store, an atomic (R100), or a copy into the scratchpad that has yet to
make its lines absent (R93, R94, R110). -/
def holdsBack (op : SOp) : Bool :=
  match op with
  | .ld _ _ | .st _ _ | .atom _ _ | .ldtr _ _ _ _ _ | .eng (.cpy _ _ _ _ _ _ .scratch _) | .eng (.cpyo _ _ _ .scratch _) => true
  | _ => false

/-- Memory instructions wait for nothing (R93, R100, R103): no older access or copy of the warp is pending, queued or fenced. -/
structure Undisturbed (w : Warp) : Prop where
  stores : w.storeQ = []
  fences : w.fences = []
  pending : ∀ e ∈ w.pending, holdsBack e.op = false

/-- A global byte whose page the core holds in its TLB with the right that the access needs (R322 to R324, R328), in no marked sector (R115),
behind no failed link (R352) and outside the dump aperture (R335): virtual address `a` is physical `pk`. -/
structure Reaches (s : State) (g : Workgroup) (acc : Access) (a pk : Nat) : Prop where
  page : ∃ t, s.tlbFind g.coreIdx g.asid (BitVec.ofNat 48 a) = some t ∧ leafRefuses t.leaf (s.isService g) acc = false
    ∧ pk = leafPhys t.leaf t.level (BitVec.ofNat 48 a)
  sound : s.marked pk = false ∧ s.cutOff pk = false ∧ s.inAperture pk = false

/-- A scratchpad byte lies in no sector that is marked uncorrectable (R115, R361). -/
def Sound (g : Workgroup) (a : Nat) : Prop := ∀ x ∈ g.sramMarks, x.sector ≠ a / 64

/-- Every executing lane's access reaches memory: in the scratchpad its line is present and not orphaned (R93, R95) and its sector sound, in global
memory its page is at hand, and no debugger watches. -/
def AllReach (s : State) (g : Workgroup) (w : Warp) (m : MField) (size : Nat) (acc : Access) (phys : Nat → Nat) : Prop :=
  match m.space with
  | .scratch => ∀ l, l < 32 → (w.exec w.hdr).getLsbD l = true → phys l = (laneAt w m size l).toNat
      ∧ ∀ i, i < size → (phys l + i) / 256 ∉ g.absent ∧ (phys l + i) / 256 ∉ g.orphan ∧ Sound g (phys l + i)
  | .global => s.debugOn g = false
      ∧ ∀ l, l < 32 → (w.exec w.hdr).getLsbD l = true → Reaches s g acc (laneAt w m size l).toNat (phys l)

/-- A byte of an access's space, as it stands. -/
def spaceByte (s : State) (g : Workgroup) (sp : Space) (a : Nat) : Byte :=
  match sp with
  | .scratch => g.scratchByte a
  | .global => s.readByte (s.wgKey g) a

/-- A little-endian number in memory, as a workgroup reads it. -/
def numberAt (s : State) (g : Workgroup) (pk n : Nat) : Nat := leNat ((List.range n).map (fun i => s.readByte (s.wgKey g) (pk + i)))

/-- Uses of a layout M instruction (R194). -/
def memUses (m : MField) : Uses := { regs := [m.idx.toNat], readsG := [m.idx.toNat] }

/-- Loads (R195): strand, address, size, and what a number read delivers. -/
def loadOp : Instr → Option (BitVec 4 × MField × Nat × (Nat → Word × Flags))
  | .ldB32 n m => some (n, m, 4, fun v => (BitVec.ofNat 32 v, 0))
  | .ldI8 n m => some (n, m, 1, fun v => ((BitVec.ofNat 8 v).signExtend 32, 0))
  | .ldZ8 n m => some (n, m, 1, fun v => (BitVec.ofNat 32 (v % 256), 0))
  | .ldI16 n m => some (n, m, 2, fun v => ((BitVec.ofNat 16 v).signExtend 32, 0))
  | .ldZ16 n m => some (n, m, 2, fun v => (BitVec.ofNat 32 (v % 65536), 0))
  | .ldBf16 n m => some (n, m, 2, fun v => widen .bf16 v)
  | .ldF16 n m => some (n, m, 2, fun v => widen .f16 v)
  | _ => none

/-- Stores (R196): strand, address, size, and the number placed with its flags. -/
def storeOp : Instr → Option (BitVec 4 × MField × Nat × (DWord → Word → Nat × Flags))
  | .stB32 n m => some (n, m, 4, fun _ v => (v.toNat, 0))
  | .stB16 n m => some (n, m, 2, fun _ v => (v.toNat % 65536, 0))
  | .stB8 n m => some (n, m, 1, fun _ v => (v.toNat % 256, 0))
  | .stBf16 n m => some (n, m, 2, fun c v => narrow .bf16 (actlRm c) false (in32 (actlFtz c) v))
  | .stE4m3 n m => some (n, m, 1, fun c v => narrow .e4m3 (actlRm c) true (in32 (actlFtz c) v))
  | _ => none

/-- Atomics (R197): strand, address, and the new word of old word, accumulator and latch. -/
def atomOp : Instr → Option (BitVec 4 × MField × (Word → Word → Word → Word))
  | .atomIadd n m => some (n, m, fun o k _ => o + k)
  | .atomFadd n m => some (n, m, fun o k _ => (out32 .rne false (addVal .rne (unpack .f32 o.toNat) (unpack .f32 k.toNat))).1)
  | .atomImax n m => some (n, m, fun o k _ => if o.toInt < k.toInt then k else o)
  | .atomImin n m => some (n, m, fun o k _ => if k.toInt < o.toInt then k else o)
  | .atomZmax n m => some (n, m, fun o k _ => if o.toNat < k.toNat then k else o)
  | .atomZmin n m => some (n, m, fun o k _ => if k.toNat < o.toNat then k else o)
  | .atomAnd n m => some (n, m, fun o k _ => o &&& k)
  | .atomOr n m => some (n, m, fun o k _ => o ||| k)
  | .atomXor n m => some (n, m, fun o k _ => o ^^^ k)
  | .atomXchg n m => some (n, m, fun _ k _ => k)
  | .atomCas n m => some (n, m, fun o k l => if o = l then k else o)
  | _ => none

/-- Lanes applied one after another to words by address: the words at the end, and the old word that each lane received (R197). -/
def serially (f : Nat → Word → Word) (addr : Nat → Nat) : List Nat → (Nat → Word) → (Nat → Word) × (Nat → Word)
  | [], mem => (mem, fun _ => 0)
  | l :: rest, mem =>
    let r := serially f addr rest (fun a => if a = addr l then f l (mem a) else mem a)
    (r.1, fun j => if j = l then mem (addr l) else r.2 j)

/-- Executing lanes in ascending order. -/
def executing (w : Warp) : List Nat := (List.range 32).filter (fun l => (w.exec w.hdr).getLsbD l)

/-- Memory after writes under a key: `written` names the bytes written. Every other byte reads as before under the key its sector was last
written under, or, while nothing has written the sector, under any key; but a sector that is written now reads so under that key alone
(R356). It speaks of the bytes that the package has (R1; what another address reaches is log 51). -/
def MemoryBut (s t : State) (key : Nat) (written : Nat → Option Byte) : Prop :=
  (∀ a b, fitted a = true → written a = some b → t.readByte key a = b)
  ∧ ∀ k a, fitted a = true → written a = none → (cellAt s.mem.owners (a / 64) = none ∨ cellAt s.mem.owners (a / 64) = some k) →
      ((∃ c b, written c = some b ∧ c / 64 = a / 64) → k = key) → t.readByte k a = s.readByte k a

/-- A load, or an atomic but for its store: what it leaves of everything but memory. -/
structure LoadOnly (s t : State) (g g' : Workgroup) (w w' : Warp) (n : Nat) : Prop where
  here : t.here = some (g', w')
  others : ∀ x ∈ s.wgs, x.uid ≠ g.uid → x ∈ t.wgs
  group : g' = { g with warps := g'.warps, astat := g'.astat, slots := g'.slots, scratch := g'.scratch, sramMarks := g'.sramMarks }
  slots : SlotsBut g g' w n
  warp : Passed w w' 6 { w with k := w'.k, fences := w'.fences }
  accumulators : ∀ m, m ≠ n → nth zeroLanes w'.k m = nth zeroLanes w.k m

/-- An engine instruction as it issues (R207): strand, operation, registers, the trap of its operand checks, what it captures as it issues,
destination lines. -/
structure Issue where
  n : Nat
  kind : EngKind
  uses : Uses
  trap : Option (Nat × Nat × Nat)
  data : EngOp → List Lanes
  lines : List Nat

/-- A copy (R210 to R215): its operands as read at dispatch, its checks, and the scratchpad lines it writes. -/
def cpyIssue (g : Workgroup) (w : Warp) (c : CpyField) (mode : CpyMode) (aux : DWord) : Issue :=
  { n := strandOf w none, kind := .cpy mode (w.sreg c.src.toNat) (w.sreg c.dst.toNat) (w.sreg c.desc.toNat) aux c.ssp c.dsp c.pkg, uses := {},
    trap := (dispCpy g w c mode).trap, data := fun _ => [],
    lines := regionLines (cpyDstRegions mode (w.sreg c.dst.toNat) (w.sreg c.desc.toNat) c.dsp 0) }

/-- A range below 2^48 (R208) and an alignment. -/
def fitsGlobal (a : DWord) (len align : Nat) : Bool := decide (a.toNat + len ≤ 2 ^ 48) && decide (a.toNat % align = 0)

/-- A precise trap unless a condition holds; which one it is, the statement of R88 tells. -/
def unlessOk (b : Bool) : Option (Nat × Nat × Nat) := if b then none else some (0x01, 0, 0)

/-- The slot of KBIND, MZERO, ACHECK and ADRAIN (R131, R218). -/
def tileSlot (w : Warp) (sA : BitVec 6) (off : BitVec 8) : Nat := ((w.sreg sA.toNat).toNat + off.toNat) % 256
/-- The header's slot count (R290). -/
def slotsOf (g : Workgroup) : Nat := (g.header.extractLsb' 16 8).toNat

/-- Engine instructions that issue an operation which does its work later (R207). -/
def issueOf (s : State) (g : Workgroup) (w : Warp) : Instr → Option Issue
  | .cpyPlain c => some (cpyIssue g w c .plain 0)
  | .cpyCanon c f => some (cpyIssue g w c (.canon f) 0)
  | .cpyNorms c f => some (cpyIssue g w c (.norms f) 0)
  | .cpyVer c => some (cpyIssue g w c .ver (w.sreg (c.desc.toNat + 1)))
  | .cpyo n dst desc out dsp pkg => match nth none w.bind n.toNat with
    | none => none
    | some b => some
      { n := n.toNat, kind := .cpyo (w.sreg dst.toNat) (w.sreg desc.toNat) out dsp pkg, uses := {},
        trap := firstCheck (cpyoChecks g (some b) (w.sreg dst.toNat) (w.sreg desc.toNat) out dsp), data := fun _ => [],
        lines := regionLines (cpyoRegions b (w.sreg dst.toNat) (w.sreg desc.toNat) out dsp 0) }
  | .mzero sA off => some ⟨strandOf w none, .mzero (tileSlot w sA off), {}, unlessOk (decide (tileSlot w sA off < slotsOf g)), fun _ => [], []⟩
  | .msamp n sA sB sC f => some
      { n := n.toNat, kind := .msamp (w.sreg sA.toNat) (w.sreg sB.toNat) (w.sreg sC.toNat) (w.sreg (sC.toNat + 1)) f g.seed, uses := {},
        trap := firstCheck (sampChecks g (nth none w.bind n.toNat) (w.sreg sA.toNat) (w.sreg sB.toNat) (w.sreg sC.toNat) (w.sreg (sC.toNat + 1)) f),
        data := fun _ => [], lines := [] }
  | .mstat n r => some ⟨n.toNat, .mstat r.toNat, { regs := [r.toNat, r.toNat + 1, r.toNat + 2], writesG := [r.toNat, r.toNat + 1, r.toNat + 2] },
      unlessOk (nth none w.bind n.toNat).isSome, fun _ => [], []⟩
  | .acheck sA sB off => some ⟨strandOf w none, .acheck (tileSlot w sA off) (w.sreg sB.toNat), {},
      unlessOk (decide (tileSlot w sA off < slotsOf g) && fitsGlobal (w.sreg sB.toNat) 4 4), fun _ => [], []⟩
  | .adrain sA sB sC opt keep off => some ⟨strandOf w none, .adrain (tileSlot w sA off) (w.sreg sB.toNat) (w.sreg sC.toNat) opt keep, {},
      unlessOk (decide (tileSlot w sA off < slotsOf g) && (g.slotTag (tileSlot w sA off)).2 != 16 && fitsGlobal (w.sreg sB.toNat) 256 256
        && fitsGlobal (w.sreg sC.toNat) 32 32),
      fun o => s.adrainReads g w o (w.sreg sB.toNat).toNat (w.sreg sC.toNat).toNat, []⟩
  | .lsupd sA sB => some ⟨strandOf w none, .lsupd (w.sreg sA.toNat) (w.sreg sB.toNat), {},
      unlessOk (fitsGlobal (w.sreg sA.toNat) 32 32 && fitsGlobal (w.sreg sB.toNat) 4 4), fun _ => [], []⟩
  | .chsend sA r => some ⟨strandOf w none, .chsend (w.sreg sA.toNat) r.toNat, { regs := [r.toNat], readsG := [r.toNat] },
      unlessOk ((s.channel g (w.sreg sA.toNat).toNat).map Channel.sender == some g.rank),
      fun _ => [tab (fun l => if (w.exec w.hdr).getLsbD l then laneOf (w.greg r.toNat) l else 0)], []⟩
  | .chrecv sA r => some ⟨strandOf w none, .chrecv (w.sreg sA.toNat) r.toNat, { regs := [r.toNat], writesG := [r.toNat] },
      unlessOk ((s.channel g (w.sreg sA.toNat).toNat).map Channel.receiver == some g.rank), fun _ => [], []⟩
  | .launch sA sB => some ⟨strandOf w none, .launch (w.sreg sA.toNat) (w.sreg sB.toNat), {},
      unlessOk (fitsGlobal (w.sreg sA.toNat) 256 256 && decide ((w.sreg sB.toNat).toNat < 65536)), fun _ => [], []⟩
  | .sld sA sB order scope r => some ⟨strandOf w none, .sld (w.sreg sA.toNat + w.sreg sB.toNat) order scope r.toNat,
      { regs := [r.toNat, r.toNat + 1], writesG := [r.toNat, r.toNat + 1] },
      unlessOk (fitsGlobal (w.sreg sA.toNat + w.sreg sB.toNat) 8 8 && !s.debugOn g), fun _ => [], []⟩
  | .sst sA sB sC order scope => some ⟨strandOf w none, .sst (w.sreg sA.toNat + w.sreg sB.toNat) (w.sreg sC.toNat) order scope, {},
      unlessOk (fitsGlobal (w.sreg sA.toNat + w.sreg sB.toNat) 8 8 && !s.debugOn g), fun _ => [], []⟩
  | _ => none

/-- The engine queue and the class counter have room (R19, R57), and the binding is not about to change. -/
structure EngineRoom (w : Warp) (n : Nat) (k : EngKind) : Prop where
  queue : (w.queued.filter QEntry.isEngine).length < 8
  counter : ∀ c, k.cls = some c → w.counter c < 63
  binding : w.bindAt n = nth none w.bind n

/-- The operation is under way (R57, R207): it stands last among the warp's operations with the operands read at dispatch, its class counter has
gone up by one, the registers it will write are absent (R24), and its destination lines are absent and no orphans (R93, R95). -/
structure UnderWay (s t : State) (g g' : Workgroup) (w w' : Warp) (x : Issue) (o : EngOp) : Prop where
  state : t = { s with wgs := s.wgs.map (fun y => if y.uid == g.uid then g' else y), counters := t.counters, nextUid := s.nextUid + 1 }
  here : t.here = some (g', w')
  group : g' = { g with warps := g'.warps, absent := g'.absent, orphan := g'.orphan }
  lines : (∀ l, l ∈ g'.absent ↔ l ∈ g.absent ∨ l ∈ x.lines) ∧ ∀ l, l ∈ g'.orphan ↔ l ∈ g.orphan ∧ l ∉ x.lines
  warp : Passed w w' 6 { w with ops := w.ops ++ [o], ectr := w'.ectr, presG := w'.presG }
  counters : ∀ c, w'.counter c = if x.kind.cls = some c then w.counter c + 1 else w.counter c
  presence : ∀ r, r < 252 → (w'.gPresent r = true ↔ w.gPresent r = true ∧ r ∉ x.uses.writesG)
  memory : SameMemory s t
  op : o.id = s.nextUid ∧ o.addr = w.pc ∧ o.n = x.n ∧ o.kind = x.kind ∧ o.lanes = w.exec w.hdr ∧ o.data = x.data o ∧ o.clearedG = x.uses.writesG
    ∧ o.bind = nth none w.bind x.n ∧ o.prog.done = false ∧ o.prog.failed = none ∧ o.prog.pendingLines = x.lines

/-- Engine instructions of the class "—", once complete (R207): only the executing warp and what `core` and the group name. -/
structure PlainDone (s t : State) (g g' : Workgroup) (w w' : Warp) (core : Warp) : Prop where
  here : t.here = some (g', w')
  others : ∀ x ∈ s.wgs, x.uid ≠ g.uid → x ∈ t.wgs
  warp : Passed w w' 6 core
  memory : SameMemory s t

/-- The reserved bits of PCFG read as zero (R316). -/
def pcfgKept : DWord := 0xFFFF0000003F03FF#64

/-- A partition's configuration may be enabled with a value (R316, R358): 1 to 16 cores; the cores of an enabled partition of its group, and
none of one of another group on the die; whole islands for a strict ASID. -/
def MayEnable (s : State) (p : Nat) (v : DWord) : Prop :=
  let mask := (s.partition p).mask
  let cores := (List.range 64).filter (fun i => mask.getLsbD i)
  1 ≤ cores.length ∧ cores.length ≤ 16
    ∧ (∀ q, q < 192 → q ≠ p → q / 64 = p / 64 → (s.partition q).on = true →
        if (s.partition q).group = (v.extractLsb' 16 6).toNat then (s.partition q).mask = mask else (s.partition q).mask &&& mask = 0)
    ∧ (s.classOf (v.extractLsb' 0 9).toNat = 1 → wholeIslands mask = true)

/-- A partition's registers change, and of the rest at most the slices of its group (R317), the clocks of strict islands (R359), and what other ASIDs
have left on its cores (R357). -/
def Repartitions (s t : State) (p : Nat) (mask cfg : DWord) : Prop :=
  t = { s with partitions := t.partitions, slices := t.slices, coreUse := t.coreUse, coreBound := t.coreBound, tlb := t.tlb,
               mgmt := { s.mgmt with clocks := t.mgmt.clocks } }
    ∧ t.partition p = { p := p, mask := mask, cfg := cfg } ∧ ∀ q, q ≠ p → t.partition q = s.partition q

/-- The slice in force of a group once one of its partitions has been enabled (R317): its own where there was none; that of the running
partition goes on, but starts anew where that one was alone in the group until now. -/
def SliceAfterEnabling (s t : State) (p group : Nat) : Prop :=
  (s.slice (p / 64) group = none → t.slice (p / 64) group = some ⟨p / 64, group, p, s.clk, false⟩)
    ∧ ∀ y, s.slice (p / 64) group = some y →
        (s.mates (p / 64) group = [s.partition y.running] → y.running ≠ p → y.running < 192 →
          t.slice (p / 64) group = some ⟨p / 64, group, y.running, s.clk, false⟩)
        ∧ (2 ≤ (s.mates (p / 64) group).length → s.partition y.running ∈ s.mates (p / 64) group → y.running ≠ p → t.slices = s.slices)

/-- The cores of a group are its running partition's (R316, R317, R357): another ASID's translations are gone from them, and a core that held another's
data is cleared, so that what next stands there finds zeros and slots never bound. -/
def CoresGiven (s t : State) (die group : Nat) : Prop :=
  match t.running die group with
  | none => t.coreUse = s.coreUse ∧ t.coreBound = s.coreBound ∧ t.tlb = s.tlb
  | some p =>
    let q := t.partition p
    let alien (core asid : Nat) : Prop := core / 64 = p / 64 ∧ q.mask.getLsbD (core % 64) = true ∧ asid ≠ q.asid
    (∀ u, u ∈ t.coreUse ↔ u ∈ s.coreUse ∧ ¬alien u.1 u.2.1)
      ∧ (∀ x, x ∈ t.tlb ↔ x ∈ s.tlb ∧ ¬alien x.core x.asid)
      ∧ ∀ c, c ∈ t.coreBound ↔ c ∈ s.coreBound ∧ ∀ u ∈ s.coreUse, u.1 = c → ¬alien u.1 u.2.1

/-- No island's clock changes but that of a strict partition's, which is set to its fixed one (R359); which one is log 64. -/
def StrictClocksSet (s t : State) : Prop :=
  ∀ i, i < 32 → nth 0 t.mgmt.clocks i = nth 0 s.mgmt.clocks i
    ∨ ∃ q, q < 192 ∧ (t.partition q).on = true ∧ s.classOf (t.partition q).asid = 1 ∧ i / 10 = q / 64
        ∧ nth 0 t.mgmt.clocks i = Config.strictClock (t.partition q).asid

/-- One partition's registers change, and nothing else. -/
def SetsPartition (s t : State) (p : Nat) (mask cfg : DWord) : Prop :=
  t = { s with partitions := t.partitions } ∧ t.partition p = { p := p, mask := mask, cfg := cfg } ∧ ∀ q, q ≠ p → t.partition q = s.partition q

/-- What a window's register reads, where a write of `v` is kept under a mask (R305, R320, R353). -/
def keptRegister : Window → Nat → Option DWord
  | .control, 0x0008 => some 0xFFFFFFFFFFFFF000#64
  | .service, 0x0000 => some 0xFFFFFFFFFFFF0000#64
  | .service, 0x0008 => some 0xFFFFFFFFFFFFF000#64
  | .service, 0x0020 => some 0x00000000FFFFFFFF#64
  | .service, 0x0050 => some 0xFFFFFFF000000000#64
  | .mailbox, 0x08 => some 0xFFFFFFFFFFFFFFFF#64
  | .mailbox, 0x10 => some 0xFFFFFFFFFFFFFFFF#64
  | _, _ => none

/-- The record that a ring entry holds when it is valid for an index (R307, R308): its first doubleword, with the index and V, and its
256 bytes. -/
def recordAt (s : State) (x : Queue) (head : Nat) : Option (Nat × Nat) :=
  match s.distRead x.asid (x.ring.toNat + 256 * (head % 2 ^ x.log2)) 8, s.distRead x.asid (x.ring.toNat + 256 * (head % 2 ^ x.log2)) 256 with
  | some w, some r => if w % 2 ^ 32 = head ∧ w / 2 ^ 32 % 2 = 1 then some (w, r) else none
  | _, _ => none

/-- A shootdown value (R327): a defined KIND, reserved fields zero. -/
def kindOf (v : DWord) : Nat := (v.extractLsb' 61 3).toNat
def cleanShoot (v : DWord) : Prop := v.extractLsb' 48 2 = 0 ∧ v.extractLsb' 0 12 = 0

/-- The four writes of SHOOT, by KIND (R327). -/
def shootOp (v : DWord) : Instr → Bool
  | .shootPage x => x == v && kindOf v == 0
  | .shootAsid x => x == v && kindOf v == 2
  | .shootAsidReload x => x == v && kindOf v == 3
  | .shootReservedKind x => x == v && (kindOf v == 1 || decide (4 ≤ kindOf v))
  | _ => false

/-- A shootdown names a page (R327). -/
def namesPage (x : Shootdown) (va : Nat) : Prop :=
  let span := match x.size with
    | 0 => 2 ^ 12
    | 1 => 2 ^ 16
    | 2 => 2 ^ 21
    | _ => 2 ^ 30
  x.kind ≠ 0 ∨ (x.vpn * 4096 / span * span ≤ va ∧ va < x.vpn * 4096 / span * span + span)

/-- Stores that completed and have not drained use no named translation any more (R328). -/
def Drained (s : State) (x : Shootdown) : Prop :=
  ∀ g ∈ s.wgs, g.asid = x.asid → ∀ w ∈ g.warps, ∀ e ∈ w.storeQ, ∀ p ∈ e.pages, ¬namesPage x (p * 4096)

/-- How far POS of an operation may reach (R209): the rows of a copy, the attempts of a versioned read, the samples of an MSAMP. -/
def extentOf (o : EngOp) : Nat :=
  match o.kind with
  | .cpy .ver _ _ _ _ _ _ _ => 5
  | .cpy _ _ _ d _ _ _ _ => (d.extractLsb' 44 12).toNat
  | .cpyo _ _ _ _ _ => (o.bind.map Binding.m).getD 0
  | .msamp _ _ d0 _ _ _ => (d0.extractLsb' 0 16).toNat
  | _ => 0

/-- A write of PROG (R209): POS and, of an MSAMP, PHASE of the operation that PROG shows, while it is stopped and POS is within its extent; a copy then
owes the lines of its rows from there on (R93). Any other write is ignored. -/
def ProgWritten (w w' : Warp) (v : DWord) : Prop :=
  let pos := (v.extractLsb' 0 48).toNat
  ((w.ops = [] ∨ ∃ o, ProgShows w o ∧ (o.prog.stopped = false ∨ extentOf o < pos)) → w' = w)
    ∧ ∀ o, ProgShows w o → o.prog.stopped = true → pos ≤ extentOf o → (w.ops.map EngOp.id).Nodup →
        ∃ o', w' = { w with ops := w.ops.map (fun x => if x.id == o.id then o' else x) }
          ∧ o' = { o with prog := { o.prog with pos := pos, phase := o'.prog.phase, pendingLines := o'.prog.pendingLines, out := o'.prog.out } }
          ∧ o'.prog.phase = (match o.kind with
              | .msamp _ _ _ _ _ _ => (v.extractLsb' 48 4).toNat
              | _ => o.prog.phase)
          ∧ (∀ l ∈ o.prog.pendingLines, l ∈ o'.prog.pendingLines) ∧ (∀ l ∈ o.prog.out, l ∈ o'.prog.out)
          ∧ (∀ m src dst d aux ssp pkg, m ≠ .ver → o.kind = .cpy m src dst d aux ssp .scratch pkg →
              ∀ i j, pos ≤ i → i < cpyRows d → j < cpyDstRow m d → (dst.toNat + i * cpyStep m d + j) / 256 ∈ o'.prog.pendingLines)
          ∧ (∀ m src dst d aux ssp pkg, m ≠ .ver → o.kind = .cpy m src dst d aux ssp .global pkg →
              ∀ i j, pos ≤ i → i < cpyRows d → j < cpyDstRow m d → (dst.toNat + i * cpyStep m d + j) / 256 ∈ o'.prog.out)

/-- A doubleword with the word at an offset replaced. -/
def withHalf (d : DWord) (off : Nat) (v : Word) : DWord := if off % 8 = 0 then d.extractLsb' 32 32 ++ v else v ++ d.extractLsb' 0 32

/-- What a word written at an offset of a warp block changes (R336): SPCn and FEPC, whose bit 0 stays 0 (R26), PROG, the loop counters, the predicates
of four lanes, s1 to s63; nothing else. -/
def BlockWritten (w w' : Warp) (off : Nat) (v : Word) : Prop :=
  (off < 0x080 → w' = { w with spc := w'.spc } ∧ ∀ n, nth 0#64 w'.spc n = if n = off / 8 then withHalf (nth 0#64 w.spc n) off v &&& ~~~1#64 else nth 0#64 w.spc n)
    ∧ (0x080 ≤ off → off < 0x088 → w' = { w with fepc := withHalf w.fepc off v &&& ~~~1#64 })
    ∧ (0x0A8 ≤ off → off < 0x0B0 → (w.ops = [] → w' = w) ∧ ∀ o c, ProgShows w o → o.kind.cls = some c →
        ProgWritten w w' (withHalf (BitVec.ofNat 64 (progWord o c)) off v))
    ∧ (∀ i, i < 3 → off = 0x0B8 + 4 * i → w' = { w with uni := { w.uni with lc := w'.uni.lc } }
        ∧ ∀ m, nth 0#32 w'.uni.lc m = if m = i then v else nth 0#32 w.uni.lc m)
    ∧ (0x180 ≤ off → off < 0x1A0 → w' = { w with p := w'.p } ∧ ∀ y l, 0 < y → y < min 8 w.p.length → l < 32 → (w'.pred y).getLsbD l =
        if off - 0x180 ≤ l ∧ l < off - 0x180 + 4 then v.getLsbD (8 * (l - (off - 0x180)) + y) else (w.pred y).getLsbD l)
    ∧ (0x200 ≤ off → off < 0x400 → w' = { w with uni := { w.uni with s := w'.uni.s } }
        ∧ ∀ x, w'.sreg x = if x = (off - 0x200) / 8 ∧ x ≠ 0 then withHalf (w.sreg x) off v else w.sreg x)
    ∧ ((0x088 ≤ off ∧ off < 0x0A8 ∨ 0x0B0 ≤ off ∧ off < 0x0B8 ∨ 0x0C4 ≤ off ∧ off < 0x180 ∨ 0x1A0 ≤ off ∧ off < 0x200 ∨ 0x400 ≤ off) → w' = w)

/-- The words of a workgroup's window that hold something that may be written (R336). -/
def WritableWord (g : Workgroup) (o : Nat) : Prop :=
  (0x1000 ≤ o ∧ o < 0x21000 ∧ (g.warp ((o - 0x1000) / 0x1000)).isSome = true)
    ∨ (0x40000 ≤ o ∧ o < 0x60000 ∧ (g.warp ((o - 0x40000) / 0x1000)).isSome = true)
    ∨ (0x80000 ≤ o ∧ o < 0x180000 ∧ ∃ w, g.warp ((o - 0x80000) / 0x8000) = some w ∧ o % 0x8000 / 128 < 4 * w.granules)
    ∨ (0x180000 ≤ o ∧ o < 0x200000 ∧ o - 0x180000 + 4 ≤ g.scratchSize)
    ∨ (0x400000 ≤ o ∧ (o - 0x400000) / 0x4000 < g.slotCount)

/-- A queue descriptor in memory has EN set and names an ASID (R306, R355). Of a descriptor whose EN nothing has written the model takes 0 (log 42). -/
def QueueNames (s : State) (asid : Nat) : Prop :=
  ∃ q, q < 65536 ∧ (∃ b, (s.qtBase.toNat + 64 * q + 28, b) ∈ s.mem.cells) ∧ s.sysRead (s.qtBase.toNat + 64 * q + 28) 1 % 2 = 1
    ∧ s.sysRead (s.qtBase.toNat + 64 * q + 26) 2 % 512 = asid

/-- Something names an ASID (R355): an enabled partition, a queue descriptor with EN set, a resident or saved workgroup, or a fault record not
sent or not consumed. -/
def Named (s : State) (asid : Nat) : Prop :=
  (∃ p, p < 192 ∧ (s.partition p).cfg.getLsbD 9 = true ∧ (s.partition p).asid = asid)
    ∨ QueueNames s asid ∨ (∃ g ∈ s.wgs, g.asid = asid) ∨ s.faultNames asid = true

/-- A KEYNEW, KEYKILL or CLASS: what it answers and leaves, by its two arguments (R354, R355, R358). -/
inductive KeyCmd where | new | kill | cls
deriving DecidableEq, Repr

/-- CLASS's arguments are in their limits (R354); the table gives bit 8 to the ASID and to the class, and the model reads both fields as
written (log 30). -/
def classLimits (a0 a1 : DWord) : Prop :=
  a0.extractLsb' 10 54 = 0 ∧ ((a0.extractLsb' 8 2 = 0) ∨ (a0.extractLsb' 8 2 = 1 ∧ 1 ≤ (a1.extractLsb' 0 4).toNat ∧ (a1.extractLsb' 0 4).toNat ≤ 6
    ∧ 1 ≤ (a1.extractLsb' 4 3).toNat ∧ (a1.extractLsb' 4 3).toNat ≤ 2 ∧ a1.getLsbD 7 = false ∧ 1 ≤ (a1.extractLsb' 8 6).toNat
    ∧ (a1.extractLsb' 8 6).toNat ≤ 16 ∧ a1.extractLsb' 14 50 = 0))

/-- The totals over the strict ASIDs with one more (R358). -/
def strictRoom (cs : List ClassReg) (c : ClassReg) : Prop :=
  let st := cs.filter (fun x => x.cls == 1 && x.asid != c.asid)
  st.length + 1 ≤ 8 ∧ (st.map ClassReg.ways).sum + c.ways ≤ 10 ∧ (st.map ClassReg.loops).sum + c.loops ≤ 6
    ∧ (st.map ClassReg.share).sum + c.share ≤ 48

/-- Nothing changes but how the command is answered: RESULT and BUSY of the mailbox, or SEQ and replies of the port, and the model's own count of
free values. -/
def OnlyAnswered (s t : State) : Prop :=
  t = { s with free := t.free, mgmt := { s.mgmt with mbResult := t.mgmt.mbResult, mbUntil := t.mgmt.mbUntil, portSeq := t.mgmt.portSeq,
                                                     portReplies := t.mgmt.portReplies } }

/-- The key that an ASID's slot holds changes as `key` says, and no structure holds data of the ASID (R355). -/
def KeyChanged (s t : State) (asid : Nat) (key : Option Nat) : Prop :=
  (∀ a, t.keyOf a = if a = asid then key else s.keyOf a)
    ∧ OnlyAnswered { s with nextUid := t.nextUid, tlb := s.tlb.filter (fun e => e.asid != asid), directory := s.directory.filter (fun e => e.asid != asid),
                            mgmt := { s.mgmt with keys := t.mgmt.keys } } t

/-- What a command does, and RESULT: it may also say RESULT, or the reply, in the controller's own registers. -/
def Commands (s : State) (c : KeyCmd) (a0 a1 : DWord) (run : (Nat → State → Prop) → Prop) : Prop :=
  match c with
  | .new =>
    ((512 ≤ a0.toNat ∨ a1 ≠ 0) → run (fun r t => r = 1 ∧ OnlyAnswered s t))
    ∧ (a0.toNat < 512 → a1 = 0 → Named s a0.toNat → run (fun r t => r = 2 ∧ OnlyAnswered s t))
    ∧ (a0.toNat < 512 → a1 = 0 → ¬Named s a0.toNat → run (fun r t => r = 0 ∧ KeyChanged s t a0.toNat (some s.nextUid) ∧ t.nextUid = s.nextUid + 1))
  | .kill =>
    ((512 ≤ a0.toNat ∨ a1 ≠ 0) → run (fun r t => r = 1 ∧ OnlyAnswered s t))
    ∧ (a0.toNat < 512 → a1 = 0 → Named s a0.toNat → run (fun r t => r = 2 ∧ OnlyAnswered s t))
    ∧ (a0.toNat < 512 → a1 = 0 → ¬Named s a0.toNat → run (fun r t => r = 0 ∧ KeyChanged s t a0.toNat none ∧ t.nextUid = s.nextUid))
  | .cls =>
    let asid := (a0.extractLsb' 0 9).toNat
    let x : ClassReg := { asid := asid, cls := (a0.extractLsb' 8 2).toNat, ways := (a1.extractLsb' 0 4).toNat,
                          loops := (a1.extractLsb' 4 3).toNat, share := (a1.extractLsb' 8 6).toNat }
    (¬classLimits a0 a1 → run (fun r t => r = 1 ∧ OnlyAnswered s t))
    ∧ (classLimits a0 a1 → Named s asid → run (fun r t => r = 2 ∧ OnlyAnswered s t))
    ∧ (classLimits a0 a1 → ¬Named s asid → x.cls = 1 → ¬strictRoom s.mgmt.classes x → run (fun r t => r = 3 ∧ OnlyAnswered s t))
    ∧ (classLimits a0 a1 → ¬Named s asid → x.cls = 0 ∨ strictRoom s.mgmt.classes x → run (fun r t => r = 0 ∧ t.classOf asid = x.cls
        ∧ (x.cls = 1 → x ∈ t.mgmt.classes) ∧ (∀ b, b ≠ asid → t.classOf b = s.classOf b)
        ∧ OnlyAnswered { s with mgmt := { s.mgmt with classes := t.mgmt.classes } } t))

/-- The instruction is the command by the mailbox, or by the management port with its OP. -/
def mailOp (i : Instr) : KeyCmd → Prop
  | .new => i = .keynew
  | .kill => i = .keykill
  | .cls => i = .classSet
def portOp (f : PortFrame) (i : Instr) : KeyCmd → Prop
  | .new => i = .portKeynew f ∧ f.op = 1
  | .kill => i = .portKeykill f ∧ f.op = 2
  | .cls => i = .portClass f ∧ f.op = 3

/-- An address that ERRREAD, TELEM and PORTKEY take (R354). -/
def sector64 (a0 a1 : DWord) : Prop := a0.toNat < 2 ^ 48 ∧ a0.toNat % 64 = 0 ∧ a1 = 0

/-- Bytes placed from an address on. -/
def placedAt (pk : Nat) (bs : List Byte) (a : Nat) : Option Byte := if pk ≤ a then bs[a - pk]? else none

/-- The controller has written bytes from a physical address under the system key (R356); every other byte is as before, no sector is newly marked,
and a sector written whole is marked no more (R115). -/
def Delivered (s t : State) (pa : Nat) (bs : List Byte) : Prop :=
  MemoryBut s t s.mgmt.sysKey (placedAt (physKey 0 0 pa) bs)
    ∧ (∀ k, t.marked k = true → s.marked k = true ∧ placedAt (physKey 0 0 pa) bs k = none)
    ∧ ∀ x ∈ s.marks, x.written ≠ BitVec.allOnes 64 → placedAt (physKey 0 0 pa) bs (64 * x.sector) = none → x ∈ t.marks

/-- The block that TELEM gives of a sample (R362): CLK, power, cap, and an entry for each of the 32 islands, whose voltage, power and temperature
are readings of the sensors. -/
def TelemetryOf (x : TelemSample) (bs : List Byte) : Prop :=
  bs.length = 576 ∧ bs.take 64 = leBytes 8 x.clk ++ leBytes 4 x.power ++ leBytes 2 x.capWatts ++ List.replicate 50 0
    ∧ ∀ i, i < 32 → (bs.drop (64 + 16 * i)).take 2 = leBytes 2 (nth 0 x.clocks i) ∧ (bs.drop (74 + 16 * i)).take 6 = List.replicate 6 0

/-- A mailbox command runs from now on (R353): BUSY for at most 10 ms. How long it takes is a free value (log 44). -/
def RunsFrom (s t : State) : Prop := s.clk ≤ t.mgmt.mbUntil ∧ t.mgmt.mbUntil ≤ s.clk + 10000 * 1750

/-- The writes of MBCMD (R353, R354). -/
def mailboxWrite : Instr → Bool
  | .keynew | .keykill | .classSet | .errread | .telem | .pcap | .portkey | .mailboxUnknownOp _ => true
  | _ => false

/-- The log record that ERRREAD gives (R361). -/
def oldestLog (m : Mgmt) : List Byte :=
  let r := m.log.head?.getD { kind := 0, loc := 0, pa := 0, count := 0, clk := 0 }
  leBytes 4 r.kind ++ leBytes 4 r.loc ++ leBytes 8 r.pa ++ leBytes 8 r.count ++ leBytes 8 r.clk ++ leBytes 8 m.logLost ++ List.replicate 24 0

/-- The controller accepts a request (R364): its own address and EtherType, MAGIC, no reserved bit, a later SEQ, and the TAG under the port
key. -/
def Accepted (s : State) (f : PortFrame) : Prop :=
  f.dest = Config.portMac ∧ f.etherType = 0x88B5 ∧ f.magic = 0x4C584D50#32 ∧ f.rsvd = 0 ∧ s.mgmt.portSeq < f.seq.toNat
    ∧ f.tag = portTag s.mgmt.portKey (leBytes 4 0x4C584D50 ++ leBytes 2 f.op.toNat ++ leBytes 2 0 ++ leBytes 8 f.seq.toNat
        ++ leBytes 8 f.arg0.toNat ++ leBytes 8 f.arg1.toNat)

/-- One reply has been sent: to the source, with OP, SEQ, RESULT and the two values, its own TAG, and the data; SEQ is the last accepted
(R364). -/
def Replied (s t : State) (f : PortFrame) (result : Nat) (v0 v1 : DWord) (body : List Byte) : Prop :=
  t.mgmt.portSeq = f.seq.toNat ∧ t.mgmt.portReplies = s.mgmt.portReplies ++ [
    { dest := f.source, op := f.op, seq := f.seq, result := result, value0 := v0, value1 := v1, body := body,
      tag := portTag s.mgmt.portKey (leBytes 4 0x4C584D50 ++ leBytes 2 f.op.toNat ++ leBytes 2 result ++ leBytes 8 f.seq.toNat
        ++ leBytes 8 v0.toNat ++ leBytes 8 v1.toNat) }]

/-- Nothing changes but the controller's SEQ and replies. -/
def OnlyReplied (s t : State) : Prop :=
  t = { s with mgmt := { s.mgmt with portSeq := t.mgmt.portSeq, portReplies := t.mgmt.portReplies } }

/-- The OP of each request of the port (R364). -/
def portNumber : Instr → Option (PortFrame × Nat)
  | .portKeynew f => some (f, 1)
  | .portKeykill f => some (f, 2)
  | .portClass f => some (f, 3)
  | .portErrread f => some (f, 4)
  | .portTelem f => some (f, 5)
  | .portPcap f => some (f, 6)
  | .portReset f => some (f, 16)
  | .tripclr f => some (f, 17)
  | .portState f => some (f, 18)
  | _ => none

/-- The error log takes a record of an event, or counts one lost when its 4 096 records are full (R361). -/
def Logs (s t : State) (kind loc pa count : Nat) : Prop :=
  if s.mgmt.log.length < 4096 then t.mgmt.log = s.mgmt.log ++ [⟨kind, loc, pa, count, s.clk⟩] ∧ t.mgmt.logLost = s.mgmt.logLost
  else t.mgmt.log = s.mgmt.log ∧ t.mgmt.logLost = s.mgmt.logLost + 1

/-- The log is as before. -/
def NoLog (s t : State) : Prop := t.mgmt.log = s.mgmt.log ∧ t.mgmt.logLost = s.mgmt.logLost

/-- A die's enabled partitions have cores in one of its core groups; of a strict ASID (R358, R359). -/
def groupCores (s : State) (d k : Nat) (p : Nat) : Prop :=
  p < 192 ∧ p / 64 = d ∧ (s.partition p).cfg.getLsbD 9 = true ∧ (s.partition p).mask &&& (0xFF#64 <<< (8 * k)) ≠ 0
def strictGroup (s : State) (d k : Nat) : Prop := ∃ p, groupCores s d k p ∧ s.classOf (s.partition p).asid = 1

/-- Islands that the cap may lower first, and those it may lower after them (R359): core groups of shared-class partitions, then the fabric/L2
islands of dies without a strict partition. -/
def sharedGroup (s : State) (i : Nat) : Prop := i / 10 < 3 ∧ i % 10 < 8 ∧ (∃ p, groupCores s (i / 10) (i % 10) p) ∧ ¬strictGroup s (i / 10) (i % 10)
def openFabric (s : State) (i : Nat) : Prop := i / 10 < 3 ∧ i % 10 = 8 ∧ ∀ k, k < 8 → ¬strictGroup s (i / 10) k

/-- The clock of an island in MHz. -/
def clockOf (s : State) (i : Nat) : Nat := nth 0 s.mgmt.clocks i

/-- The clocks of the islands of a set have moved by a rule, those of the others not. -/
def ClocksMove (s t : State) (here : Nat → Prop) (f : Nat → Nat) : Prop :=
  ∀ i, i < 32 → (here i → clockOf t i = f (clockOf s i)) ∧ (¬here i → clockOf t i = clockOf s i)

/-- The three stages while the mean exceeds the cap (R359). -/
def Lowers (s t : State) : Prop :=
  let first (i : Nat) : Prop := sharedGroup s i ∧ 900 < clockOf s i
  let second (i : Nat) : Prop := openFabric s i ∧ 900 < clockOf s i
  ((∃ i, first i) → ClocksMove s t first (fun c => max 900 (c - 25)) ∧ t.mgmt.withheld = s.mgmt.withheld ∧ NoLog s t)
    ∧ ((¬∃ i, first i) → (∃ i, second i) → ClocksMove s t second (fun c => max 900 (c - 25)) ∧ t.mgmt.withheld = s.mgmt.withheld ∧ NoLog s t)
    ∧ ((¬∃ i, first i) → (¬∃ i, second i) → t.mgmt.clocks = s.mgmt.clocks
        ∧ (s.mgmt.withheld < 16 → t.mgmt.withheld = s.mgmt.withheld + 1 ∧ NoLog s t)
        ∧ (16 ≤ s.mgmt.withheld → t.mgmt.withheld = s.mgmt.withheld ∧ Logs s t 6 0 0 0))

/-- The islands of strict partitions run at the clock that was fixed for them, but for those of a die that the temperature holds down (R359, R360);
which clock that is, and when it is set, is log 64. -/
def AtStrictClock (s u : State) (hot : List Nat) : Prop :=
  u.mgmt.clocks.length = 32
    ∧ ∀ i, i < 32 → let strict : Prop := i / 10 < 3 ∧ i % 10 < 8 ∧ strictGroup s (i / 10) (i % 10) ∧ i / 10 ∉ hot
      (¬strict → clockOf u i = clockOf s i)
      ∧ (strict → ∃ p, groupCores s (i / 10) (i % 10) p ∧ s.classOf (s.partition p).asid = 1 ∧ clockOf u i = Config.strictClock (s.partition p).asid)

/-- The same steps back once it is below 95 % of the cap, for every island that was lowered; `hot` are the dies that the temperature holds down (R359,
R360). The order of the steps and what a hot die keeps are log 40. -/
def Raises (s t : State) (hot : List Nat) : Prop :=
  let fabric (i : Nat) : Prop := i / 10 < 3 ∧ i % 10 = 8 ∧ clockOf s i < 1750 ∧ i / 10 ∉ hot
  let group (i : Nat) : Prop := i / 10 < 3 ∧ i % 10 < 8 ∧ ¬strictGroup s (i / 10) (i % 10) ∧ clockOf s i < 1750 ∧ i / 10 ∉ hot
  NoLog s t
    ∧ (0 < s.mgmt.withheld → t.mgmt.withheld = s.mgmt.withheld - 1 ∧ t.mgmt.clocks = s.mgmt.clocks)
    ∧ (s.mgmt.withheld = 0 → t.mgmt.withheld = 0 ∧ ((∃ i, fabric i) → ClocksMove s t fabric (fun c => min 1750 (c + 25)))
        ∧ ((¬∃ i, fabric i) → ClocksMove s t group (fun c => min 1750 (c + 25))))

/-- The memory byte of an error's address (R361): unit 1 is DDR-5. -/
def errorByte (pa : Nat) (loc : ErrLoc) : Nat := physKey 0 (if loc.unit = 1 then 1 else 0) pa

/-- LOC (R361). -/
def locOf (loc : ErrLoc) : Nat := loc.die.toNat + 4 * loc.unit.toNat

/-- The counted errors of a sector, and when one was last logged (R361). -/
def correctedAt (s : State) (sector : Nat) : Option Corrected := s.mgmt.corrected.find? (fun c => c.sector == sector)

/-- The package after bring-up (R363): every byte of memory has been written anew and no sector is marked, no ASID has a key and every class is
0, the system key is new, every register of the windows is at its reset value, and no work is left. -/
structure BroughtUp (s t : State) : Prop where
  steps : t.mgmt.lastStep = 7 ∧ t.mgmt.failedStep = 0
  memory : t.mem.cells = [] ∧ t.mem.owners = [] ∧ t.marks = []
  keys : (∀ a, t.keyOf a = none) ∧ (∀ a, t.classOf a = 0) ∧ t.mgmt.sysKey = s.nextUid
  work : t.wgs = [] ∧ t.gangs = [] ∧ t.grids = [] ∧ t.queues = [] ∧ t.directory = [] ∧ t.censuses = [] ∧ t.tlb = [] ∧ t.faultsOut = []
  windows : ∀ win off, win ≠ .mailbox → t.windowRead win off = State.reset.windowRead win off
  power : t.mgmt.capWatts = 2600 ∧ t.mgmt.withheld = 0
  cores : t.mgmt.cores = (192, 48) ∧ t.mgmt.vfBin = Config.vfBin
  port : t.mgmt.portKey = s.mgmt.portKey

/-- The byte of a workgroup's scratchpad, or the slot and word, that an offset of its window names (R336). -/
def scratchAt (g : Workgroup) (o : Nat) : Option Nat := if 0x180000 ≤ o ∧ o < 0x180000 + g.scratchSize ∧ o < 0x200000 then some (o - 0x180000) else none
def slotAtOffset (g : Workgroup) (o : Nat) : Option (Nat × Nat) :=
  if 0x400000 ≤ o ∧ (o - 0x400000) / 0x4000 < g.slotCount then some ((o - 0x400000) / 0x4000, o % 0x4000 / 4) else none

/-- A record of a container: its header's fields and its payload (R283). -/
structure FileRec where
  type : Nat
  flags : Nat
  id : Nat
  owner : Nat
  payload : List Byte

/-- The record's bytes (R281, R283): its header, its payload, zeros up to the next multiple of 16. -/
def FileRec.bytes (r : FileRec) : List Byte :=
  leBytes 2 r.type ++ leBytes 2 r.flags ++ leBytes 4 r.id ++ leBytes 4 r.payload.length ++ leBytes 4 r.owner ++ r.payload
    ++ List.replicate ((16 - r.payload.length % 16) % 16) 0

/-- A container of some records (R281, R282): MAGIC, VERSION 1, NREC, FSIZE and CRC before them. -/
def fileOf (rs : List FileRec) : List Byte :=
  let body := rs.flatMap FileRec.bytes
  leBytes 4 0x4B535247 ++ leBytes 2 1 ++ leBytes 2 0 ++ leBytes 4 rs.length ++ leBytes 4 0 ++ leBytes 8 (64 + body.length)
    ++ leBytes 4 (crc32 body).toNat ++ List.replicate 36 0 ++ body

/-- A file that its header describes: 1 to 65 535 records whose fields fit their places. -/
def Fits (rs : List FileRec) : Prop :=
  1 ≤ rs.length ∧ rs.length ≤ 65535 ∧ 64 + (rs.flatMap FileRec.bytes).length < 2 ^ 64
    ∧ ∀ r ∈ rs, r.type < 2 ^ 16 ∧ r.flags < 2 ^ 16 ∧ r.id < 2 ^ 32 ∧ r.owner < 2 ^ 32 ∧ r.payload.length < 2 ^ 32

/-- The second pass's checks of a record's header (R292): ID nonzero and unique, no reserved flag, an OWNER of the file. -/
def HeaderHolds (rs : List FileRec) (r : FileRec) : Prop :=
  r.id ≠ 0 ∧ (∀ (i j : Nat) (x y : FileRec), rs[i]? = some x → rs[j]? = some y → x.id = r.id → y.id = r.id → i = j) ∧ r.flags < 2
    ∧ (r.owner = 0 ∨ ∃ x ∈ rs, x.id = r.owner)

/-- A type that the loader does not know (R284). -/
def unknownType (t : Nat) : Prop := t ∉ [1, 2, 3, 4, 5, 0x10, 0x11, 0x12, 0x13, 0x20]
/-- A record that the loader skips: of an unknown type, not mandatory. -/
def Skipped (rs : List FileRec) (r : FileRec) : Prop := HeaderHolds rs r ∧ unknownType r.type ∧ r.flags = 0

/-- A native section of revision 2 with some code (R285), and a kernel record that runs it from an offset, with no handler, constants, channels or
portable form (R286). -/
def sectionRec (id : Nat) (code : List Byte) : FileRec := ⟨1, 1, id, 0, leBytes 1 2 ++ List.replicate 7 0 ++ code⟩
def kernelRec (flags id : Nat) (header : DWord) (sec entry : Nat) (name : List Byte) : FileRec :=
  ⟨2, flags, id, 0, leBytes 8 header.toNat ++ leBytes 4 sec ++ leBytes 4 entry ++ List.replicate 16 0 ++ leBytes 1 name.length ++ List.replicate 3 0 ++ name⟩

/-- The conditions of R291 on the header word of such a kernel; `native` tells that it has a section. -/
def WordHolds (h : DWord) (native : Bool) : Prop :=
  let f (lo w : Nat) : Nat := h.toNat / 2 ^ lo % 2 ^ w
  f 60 4 = 2 ∧ (f 57 3 = 2 ∨ f 57 3 = 3) ∧ f 56 1 = 0 ∧ f 48 8 ≤ 63 ∧ (native = true → 1 ≤ f 48 8) ∧ 1 ≤ f 34 6 ∧ f 34 6 ≤ 32
    ∧ f 34 6 * f 48 8 + f 40 8 ≤ 512 ∧ f 24 10 ≤ 512 ∧ f 8 8 = 0 ∧ f 0 1 = 0 ∧ f 2 1 = 0

/-- A warp of the core offers its queue's head to a cluster (R18): it stands first, is no engine instruction, and may start: no hazard (R22), no
absent line (R93), no started load that holds its queue (R100). -/
def Offers (s : State) (die core cl : Nat) (g : Workgroup) (w : Warp) (e : QEntry) : Prop :=
  g ∈ s.wgs ∧ g.residence = .resident ∧ g.die = die ∧ g.core = core ∧ w ∈ g.warps ∧ (nth [] w.queues cl).head? = some e
    ∧ e.isEngine = false ∧ s.ready g w e = true

/-- A started instruction `e` of `w` has completed (R22): it is no longer under way, and what it made absent is present. `core` tells what else
of the warp changed, and `g` but for the warp is as `g0`. -/
structure Completed (s t : State) (g0 g g' : Workgroup) (w w' core : Warp) (e : QEntry) : Prop where
  place : t.at { wg := g.uid, wid := w.wid } = some (g', w')
  others : ∀ x ∈ s.wgs, x.uid ≠ g.uid → x ∈ t.wgs
  group : g' = { g0 with warps := g'.warps }
  warp : w' = { core with started := w.started.filter (fun q => q.seq != e.seq), presG := w'.presG, presP := w'.presP }
  presentG : ∀ r, r < 252 → (w'.gPresent r = true ↔ w.gPresent r = true ∨ r ∈ e.clearedG)
  presentP : ∀ p, p < 8 → (w'.pPresent p = true ↔ w.pPresent p = true ∨ p ∈ e.clearedP)
  memory : SameMemory s t

/-- The instruction under way of a strand: the oldest one started. -/
def UnderWayOf (s : State) (g : Workgroup) (w : Warp) (e : QEntry) : Prop :=
  s.at { wg := g.uid, wid := w.wid } = some (g, w) ∧ e.n < 16 ∧ w.started.find? (fun q => q.n == e.n) = some e

/-- No older access or copy of its warp holds a load back (R93, R99, R100, R103), and it has read nothing yet: no younger load has completed before it
(R100 item 5, log 22). -/
def Unopposed (w : Warp) (e : QEntry) : Prop :=
  w.storeQ = [] ∧ w.fences = [] ∧ e.took = [] ∧ ∀ q ∈ w.pending, q.seq < e.seq → holdsBack q.op = false

/-- A lane's word is in range and aligned (R88): `a` is its exact address. -/
def wordAt (w : Warp) (m : MemOp) (l a size : Nat) : Prop :=
  (a : Int) = (m.base.toNat : Int) + ((laneOf (w.greg m.idx) l).toNat * 4 : Nat) + m.off.toInt * 4 ∧ a % 4 = 0 ∧ a + 4 ≤ size

/-- A load under way whose lanes' scratchpad words are in range, aligned and present, and that no older access holds back (R88, R93, R100). -/
def LoadReady (g : Workgroup) (w : Warp) (e : QEntry) (m : MemOp) (at' : Nat → Nat) : Prop :=
  (∀ l, l < 32 → (w.exec e.hdr).getLsbD l = true → wordAt w m l (at' l) (1024 * (g.header.extractLsb' 24 10).toNat)
      ∧ (at' l) / 256 ∉ g.absent ∧ (at' l) / 256 ∉ g.orphan ∧ Sound g (at' l))
  ∧ Unopposed w e

/-- The same for global memory: the page of each lane's word is at hand, and no debugger watches. -/
def GlobalLoadReady (s : State) (g : Workgroup) (w : Warp) (e : QEntry) (m : MemOp) (phys : Nat → Nat) : Prop :=
  s.debugOn g = false ∧ Unopposed w e
    ∧ ∀ l, l < 32 → (w.exec e.hdr).getLsbD l = true → ∃ a, wordAt w m l a (2 ^ 48) ∧ Reaches s g .read a (phys l)

/-- Integer operations of a cluster (R145, R148, R149): a is the accumulator, b the operand, l the latch. -/
def aluWord : AluOp → Option (Word → Word → Word → Word)
  | .mov => some (fun _ b _ => b)
  | .iadd => some (fun a b _ => a + b)
  | .isub => some (fun a b _ => a - b)
  | .irsub => some (fun a b _ => b - a)
  | .imul => some (fun a b _ => a * b)
  | .imac => some (fun a b l => a + l * b)
  | .imax => some (fun a b _ => if a.toInt < b.toInt then b else a)
  | .imin => some (fun a b _ => if b.toInt < a.toInt then b else a)
  | .zmax => some (fun a b _ => if a.toNat < b.toNat then b else a)
  | .zmin => some (fun a b _ => if b.toNat < a.toNat then b else a)
  | .and => some (fun a b _ => a &&& b)
  | .or => some (fun a b _ => a ||| b)
  | .xor => some (fun a b _ => a ^^^ b)
  | .andn => some (fun a b _ => a &&& ~~~b)
  | .shl => some (fun a b _ => a <<< b.toNat)
  | .shr => some (fun a b _ => a >>> b.toNat)
  | .sar => some (fun a b _ => a.sshiftRight b.toNat)
  | .rol => some (fun a b _ => a.rotateLeft b.toNat)
  | _ => none

/-- A register's word in lane `l` from lane `j`, in the tiles that were in force at a dispatch (R41): its own word where `j` is no active lane of its
tile. -/
def acrossThen (w : Warp) (part r l j : Nat) : Word :=
  if j < 32 ∧ w.active.getLsbD j = true ∧ j / 2 ^ part = l / 2 ^ part then laneOf (w.greg r) j else laneOf (w.greg r) l

/-- A queued instruction's operand in lane `l` (R21, R123, R141). -/
def operandThen (w : Warp) (part l : Nat) : Operand → Word
  | .value v => v
  | .g r => laneOf (w.greg r) l
  | .bfly r e => acrossThen w part r l (l ^^^ 2 ^ e)
  | .rot r d => acrossThen w part r l (l / 8 * 8 + (l + d) % 8)
  | .rev r => acrossThen w part r l (l / 2 ^ part * 2 ^ part + (2 ^ part - 1 - l % 2 ^ part))
  | .lane r j => acrossThen w part r l (l / 2 ^ part * 2 ^ part + j)

/-- Engine operations that start with no further effect. -/
def startsPlainly : EngKind → Bool
  | .mzero _ | .msamp _ _ _ _ _ _ | .mstat _ | .acheck _ _ | .adrain _ _ _ _ _ | .lsupd _ _ | .chrecv _ _ | .launch _ _ | .sld _ _ _ _
  | .sst _ _ _ _ => true
  | _ => false

/-- The engine instruction at the head of a queue has become the last operation of its warp (R57, R207). -/
structure Started (s t : State) (g g' : Workgroup) (w w' : Warp) (cl : Nat) (e : QEntry) (rest : List QEntry) (k : EngKind) (o : EngOp) : Prop where
  place : t.at { wg := g.uid, wid := w.wid } = some (g', w')
  queues : ∀ c, nth [] w'.queues c = if c = cl then rest else nth [] w.queues c
  warp : w' = { w with queues := w'.queues, ops := w.ops ++ [o] }
  op : o.id = s.nextUid ∧ o.seq = e.seq ∧ o.addr = e.addr ∧ o.kind = k ∧ o.clearedG = e.clearedG ∧ o.bind = nth none w.bind e.n
  fresh : t.nextUid = s.nextUid + 1
  memory : SameMemory s t

/-- An operation of a live warp whose turn it is (R108, R109, R57): `w` holds it. -/
def TurnOf (s : State) (g : Workgroup) (w : Warp) (o : EngOp) : Prop :=
  s.wg g.uid = some g ∧ g.opHolder o.id = some w ∧ w ∈ g.warps ∧ w.ops.find? (fun x => x.id == o.id) = some o ∧ EngOp.turn s g w o = true

/-- An operation has retired (R57, R24, R179): its class counter is one lower, the registers it kept absent are present, and its failure is reported.
`core` tells what else of the warp changed. -/
structure Retired (t : State) (g g' : Workgroup) (w w' core : Warp) (o : EngOp) (rep : Option Report) : Prop where
  group : t.wg g.uid = some g'
  place : g'.warps = g.warps.map (fun x => if x.ops.any (fun y => y.id == o.id) then w' else x)
  warp : w' = { core with ops := w.ops.filter (fun x => x.id != o.id), ectr := w'.ectr, presG := w'.presG, reports := w.reports ++ rep.toList }
  counter : ∀ c, w'.counter c = if o.kind.cls = some c then w.counter c - 1 else w.counter c
  presence : ∀ r, r < 252 → (w'.gPresent r = true ↔ w.gPresent r = true ∨ r ∈ o.clearedG)

/-- A copy in mode 0 or 1 within the scratchpad (R211 to R213), none of its rows read under absence, no overlap, no rows on top of one another. -/
structure ScratchCopy (g : Workgroup) (o : EngOp) (m : CpyMode) (src dst d : DWord) (pkg : Bool) : Prop where
  kind : o.kind = .cpy m src dst d 0 .scratch .scratch pkg
  mode : m = .plain ∨ ∃ f, m = .canon f ∧ cpyCols d % 32 = 0
  fresh : o.prog.pos = 0 ∧ o.prog.done = false ∧ o.prog.failed = none
  present : ∀ i j, i < cpyRows d → j < cpySrcRow m d → (src.toNat + i * cpySstride d + j) / 256 ∉ g.absent
    ∧ (src.toNat + i * cpySstride d + j) / 256 ∉ g.orphan ∧ Sound g (src.toNat + i * cpySstride d + j)
  apart : ∀ i j k l, i < cpyRows d → j < cpySrcRow m d → k < cpyRows d → l < cpyDstRow m d → src.toNat + i * cpySstride d + j ≠ dst.toNat + k * cpyStep m d + l
  rows : cpyDstRow m d ≤ cpyStep m d
  lines : ∀ i j, i < cpyRows d → j < cpyDstRow m d → (dst.toNat + i * cpyStep m d + j) / 256 ∈ o.prog.pendingLines

/-- The scratchpad after those bytes of a copy that `lands` picks by address: each row is made of its source row, as it is or in the panel's form (R213). -/
def Copied (g g' : Workgroup) (m : CpyMode) (src dst d : DWord) (lands : Nat → Prop) : Prop :=
  (∀ i j, i < cpyRows d → j < cpyDstRow m d → lands (dst.toNat + i * cpyStep m d + j) →
    g'.scratchByte (dst.toNat + i * cpyStep m d + j)
      = nth 0 (cpyForm m d ((List.range (cpySrcRow m d)).map (fun k => g.scratchByte (src.toNat + i * cpySstride d + k)))) j)
  ∧ ∀ a, (¬lands a ∨ ∀ i j, i < cpyRows d → j < cpyDstRow m d → a ≠ dst.toNat + i * cpyStep m d + j) → g'.scratchByte a = g.scratchByte a

/-- Every page that an operation's regions need is in the core's TLB, and no sector that it reads is marked (R115, R208). -/
def AtHand (s : State) (g : Workgroup) (w : Warp) (o : EngOp) (rs : List Region) : Prop := (s.view g w o rs).out = .ok ∧ (s.view g w o rs).st = s

/-- `n` bytes from a virtual address, in one page, stand from the physical byte `pk` on: in memory, behind no dead link (R335, R352). -/
def StandAt (s : State) (v : View) (a n pk : Nat) : Prop :=
  v.phys a = some pk ∧ a % 4096 + n ≤ 4096 ∧ ∀ i, i < n → s.inAperture (pk + i) = false ∧ s.cutOff (pk + i) = false
/-- The same of bytes that are to be written. -/
def StandTo (s : State) (v : View) (a n pk : Nat) : Prop :=
  v.physW a = some pk ∧ a % 4096 + n ≤ 4096 ∧ ∀ i, i < n → s.inAperture (pk + i) = false ∧ s.cutOff (pk + i) = false

/-- The operation that has been going on for a warp stands as `o'`. -/
def StandsAs (t : State) (g g' : Workgroup) (o o' : EngOp) : Prop :=
  t.wg g.uid = some g' ∧ ∃ w', g'.opHolder o.id = some w' ∧ w'.ops.find? (fun x => x.id == o.id) = some o'

/-- Every strand and engine instruction: strand and length (R16, R117). -/
def strandForm (w : Warp) (i : Instr) : Option (Nat × Nat) :=
  (integerOp i <|> shiftOp i <|> bitOp i <|> divisionOp i <|> latchOp i).map (fun o => (strandOf w o.n, lengthOf o.n))
    <|> (floatOp i).map (fun o => (strandOf w o.n, lengthOf o.n)) <|> (putgOp i).map (fun x => (strandOf w x.1, lengthOf x.1))
    <|> (nopOp i).map (fun n => (strandOf w n, lengthOf n)) <|> (loadOp i).map (fun x => (x.1.toNat, 6)) <|> (storeOp i).map (fun x => (x.1.toNat, 6))
    <|> (atomOp i).map (fun x => (x.1.toNat, 6)) <|> (match i with
      | .selp n _ _ | .fcmp _ n _ _ _ | .icmp _ n _ _ _ | .shfli n _ | .shfl16 n _ | .vote n _ _ | .red n _ | .scan n _ _ | .qx n _ _ | .rdsr n _
      | .putp n _ _ | .kwin n _ | .knext n _ _ | .unpk n _ _ => some (n.toNat, 4)
      | .cpyo n _ _ _ _ _ | .kbind n _ _ _ _ | .kfree n | .mma n _ _ _ _ _ | .msamp n _ _ _ _ | .mstat n _ | .reply n | .spawn n _ => some (n.toNat, 6)
      | .ldtr _ _ _ _ _ | .cpyPlain _ | .cpyCanon _ _ | .cpyNorms _ _ | .cpyVer _ | .cpyMcast _ | .mzero _ _ | .acheck _ _ _ | .adrain _ _ _ _ _ _
      | .lsupd _ _ | .treg _ _ _ | .tdrop _ | .tmove _ _ _ | .solicit _ _ _ _ _ _ | .chsend _ _ | .chrecv _ _ | .launch _ _ | .sld _ _ _ _ _
      | .sst _ _ _ _ _ | .pmrd _ _ | .pmctl _ _ => some (strandOf w none, 6)
      | _ => none)

/-- Every front-end instruction of two parcels but FENCE, which leaves its mark again (FrontEndState). -/
def frontForm (w : Warp) (i : Instr) : Bool :=
  (scalarOp w i).isSome || (branchOp w i).isSome || (loopOp w i).isSome || (match i with
    | .call _ _ | .ret _ | .join _ _ | .wait _ _ | .bar | .gbar | .exit | .give _ | .claim _ | .claimp _ _ | .part _ | .cvset _ _ _ | .nopl | .yield | .trap _
    | .bkpt | .ipf _ | .ipin _ _ | .iunpin _ _ | .srd _ _ | .swr _ _ | .rte | .haltb _ _ | .resumeb _ _ => true
    | _ => false)

/-- A resume to the record `r` passes over an instruction without effect (R28); it ends where the front end reaches FEPC. -/
def PassedOver (i : Instr) (s : State) (g : Workgroup) (w : Warp) (r : TrapRec) (len : Nat) : Prop :=
  let pc := w.pc + BitVec.ofNat 48 len
  ∃ t g' w', exec i s = .next t ∧ WarpChanged s t g g' w w'
    ∧ w' = { w with pc := pc, resume := if pc.toNat < (pcOf r.fepc).toNat then some r else none }

/-- An operation that retires for itself: no MMA that has fired together with other members' (R223). -/
def retiresAlone (g : Workgroup) (w : Warp) (o : EngOp) : Prop :=
  ∀ base panel f cv gB, o.kind = .mma base panel f cv gB → ∀ fire, o.prog.link = some fire → g.firing fire = [(w.wid, o)]

/-- While every warp stands at a barrier the former takes every bin at once (R33): it marks them as taken. -/
def taken (g : Workgroup) (b : Bin) : Bin := if g.allAtBarrier then { b with swept := true } else b

/-- A warp that the former has built from a bin (R33, R34): the first `n` threads of the bin `b`, in lanes 0 to n − 1 (log 18), at the bin's address
with its uniform state, on `k0`, every register present, with base granules of the pool; what is left of the bin keeps a new period. -/
structure Formed (s : State) (g g' : Workgroup) (b : Bin) (w : Warp) (n : Nat) : Prop where
  group : g' = { g with warps := g.warps ++ [w], poolFree := g.poolFree - g.baseGranules, poolQ := g'.poolQ, bins := g'.bins, held := g.held.map (taken g) }
  slot : w.wid < g.slotTotal ∧ ∀ x ∈ g.warps ++ g.ghosts, x.wid ≠ w.wid
  start : w.pc = b.key.addr ∧ w.uni = b.key.uni ∧ w.hdr = 0xC000#16 ∧ w.granules = g.baseGranules ∧ w.queued = [] ∧ w.started = [] ∧ w.ops = []
  lanes : ∀ l, l < 32 → w.active.getLsbD l = decide (l < n)
  threads : ∀ l t, b.threads[l]? = some t → l < n → nth 0 w.tids l = t.tid
    ∧ (∀ r, r < 252 → laneOf (w.greg r) l = ((t.g.find? (fun x => x.1 == r)).map Prod.snd).getD 0)
    ∧ (∀ m, m < 16 → laneOf (nth zeroLanes w.k m) l = nth 0#32 t.k m ∧ laneOf (w.latchOf m) l = nth 0#32 t.latch m)
    ∧ ∀ y, 0 < y → y < 8 → (w.pred y).getLsbD l = t.p.getLsbD y
  present : (∀ r, r < 252 → w.gPresent r = true) ∧ ∀ p, p < 8 → w.pPresent p = true
  bins : (∀ x, x.key ≠ b.key → (x ∈ g'.bins ↔ ∃ y ∈ g.bins, x = taken g y))
    ∧ ∀ x ∈ g'.bins, x.key = b.key → n < b.threads.length ∧ x.threads = b.threads.drop n ∧ x.deadline = s.clk + 2 ^ (7 + g.timerExp) ∧ x.expired = false

/-- The former may build from a bin of the hamper now (R33, R34, R38): the workgroup runs, a warp slot is free, nothing waits for the pool, which has
base granules; the bin is the only one with its key, and its threads come from no parted warp (R279). -/
structure MayForm (s : State) (g : Workgroup) (i : Nat) (b : Bin) : Prop where
  group : s.wg g.uid = some g ∧ g.residence = .resident ∧ g.compat16 = false
  bin : g.bins[i]? = some b ∧ ∀ x ∈ g.bins, x.key = b.key → x = b
  threads : b.threads ≠ [] ∧ (∀ t ∈ b.threads, t.split = none) ∧ (b.threads.map Thread.tid).Nodup
  running : g.stop = .none ∧ (g.warps = [] ∨ ∃ w ∈ g.warps, w.halted = false)
  slot : g.warps.length + g.ghosts.length < g.slotTotal ∧ ∃ x, x < g.slotTotal ∧ ∀ y ∈ g.warps ++ g.ghosts, y.wid ≠ x
  granules : g.baseGranules ≤ g.poolFree

/-- The warp holds n granules more, whose registers read zero and are present (R38). -/
def Claimed (w w' : Warp) (n : Nat) : Prop :=
  w'.granules = w.granules + n
    ∧ ∀ r l, l < 32 → r < 4 * (w.granules + n) → laneOf (w'.greg r) l = (if 4 * w.granules ≤ r then 0 else laneOf (w.greg r) l)
        ∧ (r < 252 → (w'.gPresent r = true ↔ 4 * w.granules ≤ r ∨ w.gPresent r = true))

/-- The claim deadlock (R39): every warp with a thread is blocked in CLAIM or BAR, one in CLAIM, the head of the pool queue asks for more than is
free, and no thread waits in a bin; no warp is stopped or halted. -/
structure ClaimDeadlock (g : Workgroup) : Prop where
  blocked : ∀ w ∈ g.warps, w.active ≠ 0 → ((∃ n, w.block = .claim n) ∨ w.block = .bar) ∧ w.halted = false ∧ w.stopped = false ∧ w.stopping = none
  claim : ∃ w ∈ g.warps, w.active ≠ 0 ∧ ∃ n, w.block = .claim n
  head : ∃ x n rest, g.poolQ = .claim x n :: rest ∧ g.poolFree < n
  bins : ∀ b ∈ g.bins ++ g.held, b.threads = []

/-- A stop under way whose started instructions have completed (R25 step 2), outside any resume. -/
def StopReady (s : State) (g : Workgroup) (w : Warp) (st : Stopping) : Prop :=
  s.at { wg := g.uid, wid := w.wid } = some (g, w) ∧ w.stopping = some st ∧ w.started = [] ∧ w.resume = none

/-- The record is final (R26): F, and for each strand the uncompleted instruction recorded first, or F. -/
def RecordOf (w' : Warp) (st : Stopping) : Prop :=
  w'.fepc = packPc st.fepc.2 st.fepc.1 ∧ w'.stopping = none ∧ w'.resume = none
    ∧ ∀ n, n < 16 → nth 0#64 w'.spc n = match st.left.find? (fun x => x.1 == n) with
        | some x => packPc x.2.2 x.2.1
        | none => w'.fepc

/-- Every other warp of a stopping workgroup has stopped or is stopping (R318). -/
def OthersStop (g g' : Workgroup) (w : Warp) : Prop :=
  ∀ x ∈ g.warps, x.wid ≠ w.wid → ∃ x' ∈ g'.warps, x'.wid = x.wid ∧ (x'.stopped = true ∨ x'.stopping.isSome = true)

/-- One fault record more (R329, R330). -/
structure Sends (s t : State) (g : Workgroup) (kind code code2 wid va pc access : Nat) : Prop where
  one : ∃ r, t.faultsOut = s.faultsOut ++ [r] ∧ r.kind = kind ∧ r.code = code ∧ r.code2 = code2 ∧ r.wid = wid ∧ r.va = va ∧ r.pc = pc
    ∧ r.access = access ∧ r.asid = g.asid ∧ r.ctxid = g.ctxid ∧ r.die = g.die ∧ r.core = g.core ∧ r.slot = g.slot ∧ r.clk = s.clk

/-- A data fault that has waited 200 µs (R326): 350 000 clk at the nominal clock. -/
def waited (f : DataFault) (clk : Nat) : Prop := f.since + 200 * 1750 ≤ clk

/-- A warp's own workgroup by the name that FRESP and DBGCMD write (R331, R341, R365). -/
def Names (s : State) (v : DWord) (g : Workgroup) : Prop :=
  s.named (v.extractLsb' 48 16).toNat (v.extractLsb' 22 2).toNat (v.extractLsb' 16 6).toNat (v.extractLsb' 8 5).toNat = some g
    ∧ s.wg g.uid = some g

/-- The WID of a command. -/
def widOf (v : DWord) : Nat := (v.extractLsb' 0 5).toNat

/-- The lowest recorded address that a warp goes on from (R28). -/
def GoesOn (w w' : Warp) : Prop :=
  w'.resume = some { spc := w.spc, fepc := w.fepc } ∧ (∀ n, n < w.spc.length → w'.pc.toNat ≤ (pcOf (nth 0#64 w.spc n)).toNat)
    ∧ w'.pc.toNat ≤ (pcOf w.fepc).toNat ∧ ((w'.pc = pcOf w.fepc ∧ w'.hdr = hdrOf w.fepc) ∨ ∃ d ∈ w.spc, w'.pc = pcOf d ∧ w'.hdr = hdrOf d)

/-- A workgroup can take one more thread in a new bin of the hamper (R31, R35, R242, R277). -/
structure RoomFor (s : State) (y : Workgroup) (entry : BitVec 48) : Prop where
  live : s.wg y.uid = some y ∧ y.liveThreads < 1024
  tids : ∃ i, i < 1024 ∧ i ∉ y.tids
  bins : (∀ b ∈ y.bins, b.key.addr ≠ entry) ∧ y.bins.length < y.binsMax
  room : s.hamperUsed y + 136 + 16 * y.baseGranules + 640 ≤ 262144

/-- A responder has been deposited in the owner's workgroup (R37, R242, R244): a new thread at the census's entry, that holds BASE, LEN and KEY in its
first registers and replies to the census. -/
def Responds (t : State) (y : Workgroup) (c : Census) (d : DirEntry) (tid : Nat) : Prop :=
  ∃ y' b th, t.wg y.uid = some y' ∧ y' = { y with bins := y.bins ++ [b] } ∧ b.key.addr = c.entry ∧ b.key.uni.handler = false ∧ b.threads = [th]
    ∧ th.tid = tid ∧ tid < 1024 ∧ tid ∉ y.tids ∧ th.census = some c.id
    ∧ ∀ i v, [d.base.extractLsb' 0 32, (d.base.extractLsb' 32 16).zeroExtend 32, d.len, d.key.extractLsb' 0 32, d.key.extractLsb' 32 32][i]? = some v →
        i < 4 * y.baseGranules → th.g.find? (fun x => x.1 == i) = some (i, v)

/-- A census in flight, the only one with its id. -/
def InFlight (s : State) (c : Census) : Prop := c ∈ s.censuses ∧ ∀ x ∈ s.censuses, x.id = c.id → x = c

/-- The census stands as `c'`, and every other as before. -/
def CensusNow (s t : State) (c c' : Census) : Prop := t.censuses = s.censuses.map (fun x => if x.id = c.id then c' else x)

/-- The entry `d` carries the census's id among its tags, and the directory is else as before (R244). -/
def Tagged (s t : State) (c : Census) (d : DirEntry) : Prop :=
  t.directory = s.directory.map (fun x => if x.uid = d.uid then { d with tags := d.tags ++ [c.id] } else x)

/-- An entry matches a census (R241). -/
def Matches (c : Census) (d : DirEntry) : Prop := d.asid = c.asid ∧ (c.key ^^^ d.key) &&& c.mask = 0

/-- A report of a location with nothing to count. -/
def bareReport (c : Census) (loc : Nat) (balance : Int) : LocReport := ⟨loc, [], [], cenIdentity c.op, 0, 0, balance⟩

/-- Two values of a census combined (R243). -/
def censusValue (op : CenOp) (a b : DWord) : DWord :=
  match op with
  | .iadd | .count => a + b
  | .imin => if b.toInt < a.toInt then b else a
  | .imax => if a.toInt < b.toInt then b else a
  | .zmin => if b.toNat < a.toNat then b else a
  | .zmax => if a.toNat < b.toNat then b else a
  | .or => a ||| b
  | .and => a &&& b

/-- A reply as it is widened (R243). -/
def replied (op : CenOp) (v : Word) : DWord :=
  match op with
  | .iadd | .imin | .imax => v.signExtend 64
  | .zmin | .zmax | .or | .and => v.zeroExtend 64
  | .count => 1

/-- A lane's thread answers a census, and the census's k-th report is the one that counts it (R242 to R244). -/
def answersTo (g : Workgroup) (w : Warp) (c : Census) (k l : Nat) : Bool :=
  let mine (r : LocReport) : Bool := r.spawned.contains (g.uid, nth 0 w.tids l)
  nth none w.census l == some c.id && (c.reports[k]?).any mine && (c.reports.take k).all (fun r => !(mine r))

/-- A child of SPAWN as it starts (R37): the value in g0, every other register of the base granules, accumulator, latch and predicate zero. -/
def ChildOf (g : Workgroup) (c : Thread) (v : Word) : Prop :=
  c.census = none ∧ c.split = none
    ∧ (∀ r, c.g.find? (fun x => x.1 == r) = if r < 4 * g.baseGranules then some (r, if r = 0 then v else 0) else none)
    ∧ (∀ n, n < 16 → nth 0#32 c.k n = 0 ∧ nth 0#32 c.latch n = 0) ∧ c.p = 0

/-- A workgroup as it is placed (R66, R313, R314): its place in the grid and in the gang, its core, its kernel, and its launched warps. -/
structure Placed (x : Grid) (p : Partition) (gang : Gang) (k core : Nat) (y : Workgroup) : Prop where
  place : y.gang = gang.uid ∧ y.grid = x.uid ∧ y.rank = k ∧ y.lin = x.next + k ∧ y.gangSize = gang.size ∧ y.asid = x.asid
    ∧ y.die = p.die ∧ y.core = core ∧ y.residence = .resident
  kernel : y.header = x.launch.header ∧ y.entry = x.launch.entry.extractLsb' 0 48 ∧ y.handler = x.launch.handler.extractLsb' 0 48
    ∧ y.seed = x.launch.seed ∧ y.nwg = x.launch.nwg ∧ y.svck = x.launch.svck ∧ y.astat = 0 ∧ y.absent = [] ∧ y.stop = .none
  warps : y.warps.length = (x.launch.nthr + 31) / 32
  warp : ∀ (i : Nat) (w : Warp), y.warps[i]? = some w → w.wid = i ∧ w.pc = y.entry ∧ w.hdr = 0xC000#16 ∧ w.granules = y.baseGranules
    ∧ w.trapCode = 0 ∧ w.trapAddr = 0 ∧ w.uni.actl = 0 ∧ w.uni.part = (if y.compat16 then 4 else 5) ∧ w.uni.handler = false ∧ w.uni.loops = []
    ∧ (∀ j, w.sreg j = if 1 ≤ j ∧ j < 64 then nth 0#64 x.consts (j - 1) else 0)
    ∧ ∀ l, l < 32 → w.active.getLsbD l = decide (32 * i + l < x.launch.nthr)
        ∧ (32 * i + l < x.launch.nthr → nth 0 w.tids l = 32 * i + l)
        ∧ (∀ r, r < 252 → laneOf (w.greg r) l = 0) ∧ (∀ n, n < 16 → laneOf (nth zeroLanes w.k n) l = 0 ∧ laneOf (w.latchOf n) l = 0
            ∧ nth none w.bind n = none)
        ∧ ∀ q, 0 < q → q < 8 → (w.pred q).getLsbD l = false

/-- A field of a header word (R290). -/
def headField (h : DWord) (lo n : Nat) : Nat := (h.extractLsb' lo n).toNat

/-- The header conditions of R291 that need no container, with the handler's address. -/
structure HeaderWithin (h handler : DWord) : Prop where
  revision : (headField h 60 4 = 1 ∧ headField h 57 3 = 2 ∧ h.getLsbD 56 = true)
    ∨ (headField h 60 4 = 2 ∧ (headField h 57 3 = 2 ∨ headField h 57 3 = 3) ∧ h.getLsbD 56 = false)
  granules : 1 ≤ headField h 48 8 ∧ headField h 48 8 ≤ 63
    ∧ (if h.getLsbD 56 then 2 * headField h 34 6 * headField h 48 8 else headField h 34 6 * headField h 48 8) + headField h 40 8 ≤ 512
  warps : 1 ≤ headField h 34 6 ∧ headField h 34 6 ≤ (if h.getLsbD 56 then 16 else 32)
  sizes : headField h 24 10 ≤ 512 ∧ headField h 8 8 ≤ 63
  handler : (h.getLsbD 0 = true ↔ handler ≠ 0) ∧ handler.toNat % 2 = 0 ∧ handler.toNat < 2 ^ 48

/-- A launch record that the distributor accepts for an ASID (R309, R310, R321, R355, R358): its fields within their limits, its tables readable, a die
with cores enough for a gang, and an ASID that is enabled, has a key, and may run it. -/
structure Acceptable (s : State) (asid : Nat) (l : LaunchRec) : Prop where
  header : l.clean = true ∧ HeaderWithin l.header l.handler
  limits : l.bins ≤ 64 ∧ 1 ≤ l.gfall ∧ l.gfall ≤ 16 ∧ 1 ≤ l.gpref ∧ l.gpref ≤ 16 ∧ 1 ≤ l.nthr ∧ l.nthr ≤ 32 * headField l.header 34 6
    ∧ 1 ≤ l.nwg.1 ∧ 1 ≤ l.nwg.2.1 ∧ 1 ≤ l.nwg.2.2 ∧ l.nchan ≤ 64 ∧ (l.nchan = 0 ↔ l.header.getLsbD 2 = false)
  addresses : l.entry.toNat % 64 = 0 ∧ l.entry.toNat < 2 ^ 48 ∧ l.cpl.toNat % 16 = 0 ∧ l.cpl.toNat < 2 ^ 48 ∧ l.chan.toNat % 4 = 0
    ∧ l.chan.toNat < 2 ^ 48 ∧ l.const.toNat % 8 = 0 ∧ l.const.toNat < 2 ^ 48 ∧ l.ovfl.toNat % 256 = 0 ∧ l.ovfl.toNat < 2 ^ 48 ∧ l.ovflSize % 256 = 0
  channels : ∀ i, i < l.nchan → ∃ v, s.distRead asid (l.chan.toNat + 4 * i) 4 = some v ∧ v < 2 ^ 16 ∧ 1 ≤ v % 256 ∧ v % 256 ≤ 64
  consts : ∀ i, i < headField l.header 8 8 → ∃ v, s.distRead asid (l.const.toNat + 8 * i) 8 = some v
  cpl : l.cpl ≠ 0 → ∃ v, s.distRead asid l.cpl.toNat 16 = some v
  cores : ∃ (p : Nat) (cs : List Nat), p < 192 ∧ (s.partition p).cfg.getLsbD 9 = true ∧ ((s.partition p).cfg.extractLsb' 0 9).toNat = asid ∧ l.dies.testBit (p / 64) = true
    ∧ cs.Nodup ∧ cs.length = min (min l.gpref l.gfall) (l.nwg.1 * l.nwg.2.1 * l.nwg.2.2) ∧ ∀ c ∈ cs, c < 64 ∧ (s.partition p).mask.getLsbD c = true
  enabled : let e : AsidEntry := s.asidInMemory asid
    e.root.getLsbD 0 = true ∧ (e.ctx.extractLsb' 18 2).toNat = s.classOf asid ∧ e.reserved = false ∧ (l.svck = true → e.ctx.getLsbD 17 = true)
      ∧ s.keyOf asid ≠ none

/-- Warp slots, granules, KiB of scratchpad, tile slots and bins that a workgroup takes of a core (R314). -/
def takesOf (h : DWord) (bins : Nat) : List Nat :=
  let k := if h.getLsbD 56 then 2 else 1
  [k * headField h 34 6, k * headField h 34 6 * headField h 48 8 + headField h 40 8, headField h 24 10, headField h 16 8, bins]

/-- A core of a partition fits a workgroup of a grid (R314): it is the partition's, it has a slot number that no workgroup of the context holds there, and
each resource that the partition's own workgroups do not hold, where partitions share the cores, or else those resident do not hold, covers the need. -/
structure CoreFits (s : State) (p : Partition) (x : Grid) (core : Nat) : Prop where
  own : core < 64 ∧ p.mask.getLsbD core = true
  number : ∃ n, n < 32 ∧ ∀ g ∈ s.wgs, g.die = p.die → g.core = core → g.ctxid = ((s.asidInMemory x.asid).ctx.extractLsb' 0 16).toNat → g.slot ≠ n
  room : ∀ j, j < 5 → nth 0 (takesOf x.launch.header x.launch.bins) j
      + ((s.wgs.filter (fun g => g.die == p.die && g.core == core
          && (if 2 ≤ (s.mates p.die p.group).length then s.partitionOf g == some p.p else g.residence == .resident))).map
            (fun g => nth 0 (takesOf g.header g.binsMax) j)).sum ≤ nth 0 [32, 512, 512, 256, 64] j

/-- The only grid, and the only partition that its gangs may use, which runs on cores that no other partition's workgroups hold. -/
structure OneGrid (s : State) (x : Grid) (p : Partition) : Prop where
  grid : s.grids = [x]
  partition : s.gridPartitions x = [p] ∧ s.runs p = true
  cores : ∀ c, c < 64 → p.mask.getLsbD c = true → s.coreFree p c = true
  fresh : (∀ g ∈ s.wgs, g.uid < s.nextUid) ∧ ∀ q ∈ s.gangs, q.uid < s.nextUid

/-- The bytes of a completion record (R311). -/
def completion (s : State) (x : Grid) : List Byte :=
  let st := if x.status = 1 then 1 else if x.killed = 0 then 0 else 2
  leBytes 4 st ++ leBytes 4 (if st = 2 then x.killed else 0) ++ leBytes 8 s.clk

/-- EVENT's first byte (R306). -/
def eventByte (s : State) (q : Nat) : Nat := physKey 0 0 (s.qtBase.toNat + 64 * q + 16)
/-- The package has memory there (R1; where it has none, log 51). -/
def EventHeld (s : State) (q : Nat) : Prop := ∀ i, i < 8 → fitted (eventByte s q + i) = true

/-- The turn after `now`: the lowest partition above it that has work, else the lowest that has (R317). -/
def NextTurn (s : State) (die group now : Nat) (q : Partition) : Prop :=
  q ∈ s.mates die group ∧ s.hasWork q = true ∧ q.p ≠ now
    ∧ ∀ r ∈ s.mates die group, s.hasWork r = true → r.p ≠ now →
        (now < q.p → now < r.p → q.p ≤ r.p) ∧ (q.p < now → r.p < now ∧ q.p ≤ r.p)

/-- A slice has run for its QUANTUM, at least 250 µs (R316, R317). -/
def QuantumPast (s : State) (die group now : Nat) : Prop :=
  s.sliceSince die group + max 250 ((s.partition now).cfg.extractLsb' 48 16).toNat * 1750 ≤ s.clk

/-- The only member of a gang on a core, and the only workgroup with its number. -/
structure Alone (s : State) (g : Workgroup) : Prop where
  member : s.gangHere g.gang = [g] ∧ s.gangWgs g.gang = [g]
  unique : s.wg g.uid = some g ∧ ∀ y ∈ s.wgs, y.uid = g.uid → y = g

/-- The die's cooler takes an image (R337); the ASID's save area takes it. -/
def CoolerRoom (s : State) (g : Workgroup) : Prop := s.imagesIn .cooler (fun x => x.die == g.die) + Config.imageBytes g.uid ≤ 100663296
def AreaRoom (s : State) (g : Workgroup) : Prop :=
  s.imagesIn .saveArea (fun x => x.asid == g.asid) + Config.imageBytes g.uid ≤ ((s.asidEntry g.asid).map AsidEntry.saveSz).getD 0

/-- An image in a cooler changes no memory; one in the save area changes nothing outside that area, where every byte reads as before under
the key of its sector's last write (R337; which bytes of the area change is log 20). -/
def ImageFrame (s t : State) (g : Workgroup) (r : Residence) : Prop :=
  (r ≠ .saveArea → SameMemory s t)
    ∧ ∀ k a, fitted a = true → (∀ e, s.asidEntry g.asid = some e → a < e.save.toNat ∨ e.save.toNat + e.saveSz ≤ a / 64 * 64) →
        (cellAt s.mem.owners (a / 64) = none ∨ cellAt s.mem.owners (a / 64) = some k) → t.readByte k a = s.readByte k a

/-- A gang of one begins to stop for its save (R29, R337). -/
def SaveBegun (s t : State) (g : Workgroup) (r : Residence) : Prop :=
  (∃ g', t.wg g.uid = some g' ∧ g' = { g with saveTo := some r, warps := g'.warps }
    ∧ ∀ w ∈ g.warps, w.halted = false → w.stopped = false → w.stopping = none → ∃ w' ∈ g'.warps, w'.wid = w.wid
        ∧ ∃ st, w'.stopping = some st ∧ st.goal = .save)
  ∧ ∀ x, x.uid ≠ g.uid → (x ∈ t.wgs ↔ x ∈ s.wgs)

/-- A warp keeps its registers, predicates, latches and bindings. -/
def SameRegisters (w w' : Warp) : Prop :=
  w'.wid = w.wid ∧ w'.g = w.g ∧ w'.k = w.k ∧ w'.latch = w.latch ∧ w'.p = w.p ∧ w'.uni = w.uni ∧ w'.bind = w.bind ∧ w'.active = w.active
    ∧ w'.tids = w.tids ∧ w'.granules = w.granules

/-- Directory entries carry their own numbers. -/
def Numbered (s : State) : Prop := ∀ d ∈ s.directory, d.uid < s.nextUid ∧ ∀ e ∈ s.directory, e.uid = d.uid → e = d

/-- The workgroup's own valid entries, and no other, have gone to a location, each as it was (R240). -/
def EntriesGo (s t : State) (g : Workgroup) (loc : Nat) : Prop :=
  (∀ d ∈ t.directory, d.owner = g.uid → d.st = .valid → d.loc = loc)
    ∧ (∀ d ∈ s.directory, d.owner = g.uid → d.st = .valid → ∃ e ∈ t.directory, e.owner = g.uid ∧ e.st = .valid ∧ e.key = d.key ∧ e.base = d.base
        ∧ e.len = d.len ∧ e.asid = d.asid ∧ e.tags = d.tags)
    ∧ ∀ d, d.owner ≠ g.uid → (d ∈ t.directory ↔ d ∈ s.directory)

/-- The parcels that stand at the warp's pc, each on a page that its core holds a translation of, in a whole sector that can be reached (R116, R117,
R324). -/
def StandsAt (s : State) (g : Workgroup) (w : Warp) (ps : List Half) : Prop :=
  (∃ p rest, ps = p :: rest ∧ ps.length = parcelCount p) ∧ w.pc.toNat + 2 * ps.length ≤ 2 ^ 48
    ∧ ∀ (k : Nat) (q : Half), ps[k]? = some q → ∃ pk, s.xlat g .fetch (w.pc + BitVec.ofNat 48 (2 * k)) = (.ok pk, s)
        ∧ s.marked pk = false ∧ s.cutOff pk = false ∧ s.readPhys (s.wgKey g) pk 2 = q.toNat

/-- A workgroup after a core gave its dispatch slot to a warp: of the core's warps, that one has just been served, the others have waited one slot more
(R44, log 2). -/
def slotGiven (core : Nat) (r : WarpRef) (x : Workgroup) : Workgroup :=
  if x.residence = .resident ∧ x.coreIdx = core then
    { x with warps := x.warps.map (fun v => { v with passed := if x.uid = r.wg ∧ v.wid = r.wid then 0 else v.passed + 1 }) }
  else x

/-- The front ends come to a warp at this step: nothing waits in the inbox, no request of the port waits for a mailbox command that has ended, no other
agent's turn has come (log 2), and of the warps that may dispatch, power withholding apart (R359), it stands first. `u` is the state that the front end
sees, `g` and `w` the workgroup and the warp there; `rest` are the warps that come after it. A header (R17) and a loop's back-edge (R272) take no dispatch
slot. -/
structure FrontTurn (s u : State) (g : Workgroup) (w : Warp) (rest : List (Workgroup × Warp)) : Prop where
  up : s.mgmt.lastStep = 7 ∧ s.mgmt.heldInReset = false
  turn : s.inbox = [] ∧ s.clocked.due[s.clocked.clk % (s.clocked.due.length + 1)]? = none
  port : s.clk + 1 < s.mgmt.mbUntil ∨ s.mgmt.portQueue = []
  first : ∃ x y, s.clocked.readyWarps.filter (fun p => !(s.clocked.withholds p.1)) = (x, y) :: rest
    ∧ s.at { wg := x.uid, wid := y.wid } = some (x, y)
    ∧ (s.clocked.takesSlot x y = true → w = { y with passed := 0 } ∧ g = slotGiven x.coreIdx { wg := x.uid, wid := y.wid } x
        ∧ u = { s with clk := s.clk + 1, cur := some { wg := x.uid, wid := y.wid }, frontCore := x.coreIdx,
                       wgs := s.wgs.map (slotGiven x.coreIdx { wg := x.uid, wid := y.wid }) })
    ∧ (s.clocked.takesSlot x y = false → w = y ∧ g = x
        ∧ u = { s with clk := s.clk + 1, cur := some { wg := x.uid, wid := y.wid } })

/-- An enabled breakpoint of the context at the warp's pc, that the warp does not pass over (R339). -/
def BreakpointHere (s : State) (g : Workgroup) (w : Warp) : Prop :=
  s.debugOn g = true ∧ w.skipBp ≠ some w.pc ∧ ∃ e b, s.asidEntry g.asid = some e ∧ b ∈ e.bps ∧ b.getLsbD 0 = true
    ∧ b.extractLsb' 1 47 = w.pc.extractLsb' 1 47

/-- The rows of the table that have an encoding. -/
def encoded (i : Instr) : Prop := encode i ≠ []

/-- Classes of an FP32 pattern (R68). -/
def isNaN32 (x : Word) : Bool := x.extractLsb' 23 8 == 0xFF && x.extractLsb' 0 23 != 0
def isSignalling32 (x : Word) : Bool := isNaN32 x && !x.getLsbD 22
def isInf32 (x : Word) : Bool := x.extractLsb' 0 31 == 0x7F800000#31
def isZero32 (x : Word) : Bool := x.extractLsb' 0 31 == 0
def isFinite32 (x : Word) : Bool := x.extractLsb' 23 8 != 0xFF

/-- An input as an instruction that obeys FTZ sees it (R70). -/
def seen (ftz : Bool) (x : Word) : Word := if ftz && x.extractLsb' 23 8 == 0 then x &&& 0x80000000#32 else x

/-- Infinity or zero with the sign of a product or quotient (R69). -/
def signedBy (magnitude a b : Word) : Word := magnitude ||| ((a ^^^ b) &&& 0x80000000#32)

/-- The factors of an operation that multiplies, and its addend (R146); `flip` changes a value's sign. -/
def factorsBy {α : Type} (flip : α → α) (op : FpOp) (a b l : α) : Option (α × α × Option α) :=
  match op with
  | .mul => some (a, b, none)
  | .mac => some (l, b, some a)
  | .nmac => some (flip l, b, some a)
  | .mla => some (a, l, some b)
  | _ => none

/-- The two addends of an addition or subtraction (R146). -/
def addendsBy {α : Type} (flip : α → α) (op : FpOp) (a b : α) : Option (α × α) :=
  match op with
  | .add => some (a, b)
  | .sub => some (a, flip b)
  | .rsub => some (b, flip a)
  | _ => none

/-- The same of FP32 patterns. -/
def factors (op : FpOp) (a b l : Word) : Option (Word × Word × Option Word) := factorsBy (· ^^^ 0x80000000#32) op a b l
def addends (op : FpOp) (a b : Word) : Option (Word × Word) := addendsBy (· ^^^ 0x80000000#32) op a b

/-- NV for a signalling NaN among some inputs (R71). -/
def nvOf (xs : List Word) : Flags := if xs.any isSignalling32 then 1 else 0

/-- A number format as its table gives it (R68, R74): its width, the width of its fraction, its bias, and the magnitude codes of the largest finite value,
of what an overflow past it delivers (an infinity, or E4M3's NaN, R78) and of its canonical NaN. -/
structure Format where
  bits : Nat
  fbits : Nat
  bias : Nat
  top : Nat
  inf : Nat
  nan : Nat

def binary32 : Format := ⟨32, 23, 127, 0x7F7FFFFF, 0x7F800000, 0x7FC00000⟩
def bfloat16 : Format := ⟨16, 7, 127, 0x7F7F, 0x7F80, 0x7FC0⟩
def binary16 : Format := ⟨16, 10, 15, 0x7BFF, 0x7C00, 0x7E00⟩
def e5m2 : Format := ⟨8, 2, 15, 0x7B, 0x7C, 0x7E⟩
def e4m3 : Format := ⟨8, 3, 7, 0x7E, 0x7F, 0x7F⟩
def e2m1 : Format := ⟨4, 1, 1, 7, 8, 0⟩

/-- A code's sign and magnitude; whether it is finite, a zero, an infinity, a NaN, a signalling one; the code with its sign changed. -/
def negativeIn (F : Format) (x : Nat) : Bool := decide (2 ^ (F.bits - 1) ≤ x)
def magnitudeIn (F : Format) (x : Nat) : Nat := x % 2 ^ (F.bits - 1)
def finiteIn (F : Format) (x : Nat) : Bool := decide (magnitudeIn F x ≤ F.top)
def zeroIn (F : Format) (x : Nat) : Bool := magnitudeIn F x == 0
def infiniteIn (F : Format) (x : Nat) : Bool := magnitudeIn F x == F.inf && F.inf != F.nan
def nanIn (F : Format) (x : Nat) : Bool := !finiteIn F x && !infiniteIn F x
def signallingIn (F : Format) (x : Nat) : Bool := nanIn F x && F.inf != F.nan && x / 2 ^ (F.fbits - 1) % 2 == 0
def signedIn (F : Format) (negative : Bool) (m : Nat) : Nat := if negative then 2 ^ (F.bits - 1) + m else m
def flipIn (F : Format) (x : Nat) : Nat := signedIn F (!negativeIn F x) (magnitudeIn F x)

/-- A finite value as a multiple of 2^−149 (R68, R74). -/
def unitsIn (F : Format) (x : Nat) : Int :=
  let e := magnitudeIn F x / 2 ^ F.fbits
  let f := magnitudeIn F x % 2 ^ F.fbits
  let m : Nat := (if e = 0 then f else (2 ^ F.fbits + f) * 2 ^ (e - 1)) * 2 ^ (150 - F.bias - F.fbits)
  if negativeIn F x then -(m : Int) else m
def units (x : Word) : Int := unitsIn binary32 x.toNat

/-- The exact result of an operation on finite operands, as a multiple of 2^−298 (R146). -/
def exactOf (F : Format) (op : FpOp) (a b l : Nat) : Option Int :=
  match addendsBy (flipIn F) op a b, factorsBy (flipIn F) op a b l with
  | some (x, y), _ => some ((unitsIn F x + unitsIn F y) * 2 ^ 149)
  | none, some (x, y, none) => some (unitsIn F x * unitsIn F y)
  | none, some (x, y, some z) => some (unitsIn F x * unitsIn F y + unitsIn F z * 2 ^ 149)
  | none, none => none

/-- The sign of an exact zero result (R69): a product's own; of a sum, that of its addends where all are zeros of one sign, else minus under rd alone. -/
def zeroSign (F : Format) (op : FpOp) (rm : RM) (a b l : Nat) : Option Bool :=
  let sum (zx sx zy sy : Bool) : Bool := if zx && zy && sx == sy then sx else rm == .rd
  match addendsBy (flipIn F) op a b, factorsBy (flipIn F) op a b l with
  | some (x, y), _ => some (sum (zeroIn F x) (negativeIn F x) (zeroIn F y) (negativeIn F y))
  | none, some (x, y, none) => some (negativeIn F x != negativeIn F y)
  | none, some (x, y, some z) => some (sum (zeroIn F x || zeroIn F y) (negativeIn F x != negativeIn F y) (zeroIn F z) (negativeIn F z))
  | none, none => none

/-- Overflow (R69): the value rounded with an unbounded exponent exceeds the largest finite one, T, in magnitude; G is the distance from T to the next
value that such a rounding has. `v` counts multiples of 2^−149 / `scale`. -/
def Beyond (F : Format) (rm : RM) (scale : Nat) (v : Int) : Prop :=
  let T : Int := unitsIn F F.top * scale
  let G : Int := 2 ^ (F.top / 2 ^ F.fbits + 149 - F.bias - F.fbits) * scale
  match rm with
  | .rne => if F.top % 2 = 0 then 2 * T + G < 2 * v.natAbs else 2 * T + G ≤ 2 * v.natAbs
  | .rz => T + G ≤ v.natAbs
  | .rd => T + G ≤ v ∨ v < -T
  | .ru => T < v ∨ v ≤ -(T + G)

/-- What overflow delivers (R69, R78). -/
def limitCode (F : Format) (rm : RM) (negative : Bool) : Nat :=
  signedIn F negative (match rm, negative with
    | .rne, _ => F.inf
    | .rz, _ => F.top
    | .rd, n => if n then F.inf else F.top
    | .ru, n => if n then F.top else F.inf)

/-- Tiny (R70): not zero, and rounded with an unbounded exponent it lies below the smallest normal value, S. -/
def Tiny (F : Format) (rm : RM) (scale : Nat) (v : Int) : Prop :=
  let S : Int := 2 ^ (150 - F.bias) * scale
  let p : Int := 2 ^ (F.fbits + 1)
  v ≠ 0 ∧ match rm with
  | .rne => 2 * p * v.natAbs < (2 * p - 1) * S
  | .rz => v.natAbs < S
  | .rd => v < S ∧ -((p - 1) * S) ≤ p * v
  | .ru => -S < v ∧ p * v ≤ (p - 1) * S

/-- `r` is the finite value next to the exact one that the mode picks (R69): toward −∞, toward +∞, toward zero, or the nearest, on a tie the one whose
last bit is even. -/
def RoundedAmong (F : Format) (rm : RM) (scale : Nat) (v : Int) (r : Nat) : Prop :=
  let at' (x : Nat) : Int := unitsIn F x * scale
  let below : Prop := at' r ≤ v ∧ ∀ x, x < 2 ^ F.bits → finiteIn F x = true → at' x ≤ v → at' x ≤ at' r
  let above : Prop := v ≤ at' r ∧ ∀ x, x < 2 ^ F.bits → finiteIn F x = true → v ≤ at' x → at' r ≤ at' x
  match rm with
  | .rd => below
  | .ru => above
  | .rz => (0 ≤ v → below) ∧ (v ≤ 0 → above)
  | .rne => ∀ x, x < 2 ^ F.bits → finiteIn F x = true →
      (at' r - v).natAbs ≤ (at' x - v).natAbs ∧ ((at' r - v).natAbs = (at' x - v).natAbs → at' x ≠ at' r → r % 2 = 0)

/-- The exact value is rounded once and delivered (R69, R70): the limit of the mode with OF and NX where it overflows; a zero with UF and NX where it is
tiny and `ftz` flushes; else the rounded value, NX where that differs, UF where it is tiny as well; the sign is the value's. NV and DZ stay clear. -/
def RoundsOnce (F : Format) (ftz : Bool) (rm : RM) (scale : Nat) (v : Int) (r : Nat) (f : Flags) : Prop :=
  (Beyond F rm scale v → r = limitCode F rm (decide (v < 0)) ∧ f = 0b10100#5)
  ∧ (¬Beyond F rm scale v → r < 2 ^ F.bits ∧ (v ≠ 0 → negativeIn F r = decide (v < 0))
      ∧ (ftz = true → Tiny F rm scale v → zeroIn F r = true ∧ f = 0b11000#5)
      ∧ ((ftz = true → ¬Tiny F rm scale v) → finiteIn F r = true ∧ RoundedAmong F rm scale v r
          ∧ f.getLsbD 0 = false ∧ f.getLsbD 1 = false ∧ f.getLsbD 2 = false
          ∧ (f.getLsbD 4 = true ↔ unitsIn F r * scale ≠ v) ∧ (f.getLsbD 3 = true ↔ unitsIn F r * scale ≠ v ∧ Tiny F rm scale v)))

/-- One operation on finite operands of a format (R69, R70, R72, R146, R152): sums, products and fused products, quotients, the larger and the smaller. -/
def OperationRounds (F : Format) (op : FpOp) (rm : RM) (ftz : Bool) (a b l r : Nat) (f : Flags) : Prop :=
  (finiteIn F a = true → finiteIn F b = true → (∀ v, exactOf F op a b l = some v → (finiteIn F l = true ∨ addendsBy (flipIn F) op a b ≠ none ∨ op = .mul) →
      RoundsOnce F ftz rm (2 ^ 149) v r f ∧ (v = 0 → zeroSign F op rm a b l = some (negativeIn F r)))
    ∧ (op = .div → zeroIn F b = false → RoundsOnce F ftz rm (unitsIn F b).natAbs (unitsIn F a * 2 ^ 149 * (if negativeIn F b then -1 else 1)) r f
        ∧ (zeroIn F a = true → negativeIn F r = (negativeIn F a != negativeIn F b)))
    ∧ ((zeroIn F a && zeroIn F b) = false → (op = .max → r = (if unitsIn F a < unitsIn F b then b else a) ∧ f = 0)
        ∧ (op = .min → r = (if unitsIn F b < unitsIn F a then b else a) ∧ f = 0)))

/-- The special operands of a packed half (R71, R72, R79). -/
def OperationSpecial (F : Format) (op : FpOp) (a b l r : Nat) (f : Flags) : Prop :=
  let nv (xs : List Nat) : Flags := if xs.any (signallingIn F) then 1 else 0
  (∀ x y, addendsBy (flipIn F) op a b = some (x, y) →
    (nanIn F a = true ∨ nanIn F b = true → r = F.nan ∧ f = nv [a, b])
    ∧ (infiniteIn F x = true → infiniteIn F y = true → x ≠ y → r = F.nan ∧ f = 1)
    ∧ (infiniteIn F x = true → nanIn F y = false → (infiniteIn F y = true → x = y) → r = x ∧ f = 0)
    ∧ (infiniteIn F y = true → finiteIn F x = true → r = y ∧ f = 0))
  ∧ (∀ x y z, factorsBy (flipIn F) op a b l = some (x, y, z) →
    let void : Prop := zeroIn F x = true ∧ infiniteIn F y = true ∨ infiniteIn F x = true ∧ zeroIn F y = true
    let product := signedIn F (negativeIn F x != negativeIn F y) F.inf
    (void → r = F.nan ∧ f = 1)
    ∧ (¬void → nanIn F x = true ∨ nanIn F y = true ∨ (∃ c, z = some c ∧ nanIn F c = true) → r = F.nan ∧ f = nv ([x, y] ++ z.toList))
    ∧ (¬void → nanIn F x = false → nanIn F y = false → infiniteIn F x = true ∨ infiniteIn F y = true →
        (∀ c, z = some c → infiniteIn F c = true → c ≠ product → r = F.nan ∧ f = 1)
        ∧ ((∀ c, z = some c → finiteIn F c = true ∨ c = product) → r = product ∧ f = 0))
    ∧ (∀ c, z = some c → finiteIn F x = true → finiteIn F y = true → infiniteIn F c = true → r = c ∧ f = 0))
  ∧ (∀ less, (op = .max ∧ less = false) ∨ (op = .min ∧ less = true) →
    (nanIn F a = true → nanIn F b = false → r = b ∧ f = nv [a]) ∧ (nanIn F a = false → nanIn F b = true → r = a ∧ f = nv [b])
    ∧ (nanIn F a = true → nanIn F b = true → r = F.nan ∧ f = nv [a, b])
    ∧ (zeroIn F a = true → zeroIn F b = true → a ≠ b → r = signedIn F less 0 ∧ f = 0)
    ∧ (infiniteIn F a = true → nanIn F b = false → r = (if negativeIn F a = less then a else b) ∧ f = 0)
    ∧ (infiniteIn F b = true → nanIn F a = false → r = (if negativeIn F b = less then b else a) ∧ f = 0))

/-- The formats of the packed instructions (R156), of a conversion to a narrower format and of one from it (R76). -/
def packedFormat : HFmt → Format
  | .bf16 => bfloat16
  | .f16 => binary16
def narrowTo : CvtCode → Option Format
  | .f32bf16 => some bfloat16
  | .f32f16 => some binary16
  | .f32e4m3 => some e4m3
  | .f32e5m2 => some e5m2
  | .f32e2m1 => some e2m1
  | _ => none
def widenFrom : CvtCode → Option Format
  | .bf16f32 => some bfloat16
  | .f16f32 => some binary16
  | .e4m3f32 => some e4m3
  | .e5m2f32 => some e5m2
  | .e2m1f32 => some e2m1
  | _ => none
/-- The range of a conversion to an integer (R77). -/
def integerRange : CvtCode → Option (Int × Int)
  | .f32i32 => some (-2147483648, 2147483647)
  | .f32z32 => some (0, 4294967295)
  | _ => none

/-- A value in multiples of 2^−149, rounded to the integer `y` (R69, R77). -/
def RoundedToInteger (rm : RM) (v y : Int) : Prop :=
  let d := v - y * 2 ^ 149
  match rm with
  | .rd => 0 ≤ d ∧ d < 2 ^ 149
  | .ru => -2 ^ 149 < d ∧ d ≤ 0
  | .rz => (0 ≤ v → 0 ≤ d ∧ d < 2 ^ 149) ∧ (v ≤ 0 → -2 ^ 149 < d ∧ d ≤ 0)
  | .rne => 2 * (d.natAbs : Int) ≤ 2 ^ 149 ∧ (2 * (d.natAbs : Int) = 2 ^ 149 → y % 2 = 0)

/-- √(u · 2^−149) rounded once (R154): `r` is the neighbour that the mode picks; squares stand for the root. -/
def RootRounded (rm : RM) (u : Int) (r : Word) : Prop :=
  let sq (x : Int) : Int := x * x
  let below : Prop := sq (units r) ≤ u * 2 ^ 149 ∧ ∀ x, isFinite32 x = true → sq (units x) ≤ u * 2 ^ 149 → units x ≤ units r
  let above : Prop := u * 2 ^ 149 ≤ sq (units r) ∧ ∀ x, isFinite32 x = true → 0 ≤ units x → u * 2 ^ 149 ≤ sq (units x) → units r ≤ units x
  match rm with
  | .ru => above
  | .rd | .rz => below
  | .rne => ∀ x, isFinite32 x = true → 0 ≤ units x →
      (units r < units x → 4 * u * 2 ^ 149 ≤ sq (units r + units x)) ∧ (units x < units r → sq (units r + units x) ≤ 4 * u * 2 ^ 149)

/-- The inputs of SFU for which R154's table gives the result: special ones, and those that it lists as exact. -/
def SfuRow (fn : SfuFn) (rm : RM) (ftz : Bool) (A r : Word) (f : Flags) : Prop :=
  let v := units A
  let one : Int := 2 ^ 149
  let qnan : Prop := r = 0x7FC00000#32 ∧ f = 1
  let inf (negative : Bool) : Word := if negative then 0xFF800000#32 else 0x7F800000#32
  let zero (negative : Bool) : Word := if negative then 0x80000000#32 else 0
  let unit (negative : Bool) : Word := if negative then 0xBF800000#32 else 0x3F800000#32
  let exact (n : Int) : Prop := isFinite32 r = true ∧ units r = n ∧ f = 0
  let neg := A.getLsbD 31
  match fn with
  | .sqrt => (isZero32 A = true → r = A ∧ f = 0) ∧ (neg = true → isZero32 A = false → isNaN32 A = false → qnan) ∧ (A = inf false → r = A ∧ f = 0)
      ∧ (isFinite32 A = true → 0 < v → isFinite32 r = true ∧ 0 < units r ∧ RootRounded rm v r ∧ f = if units r * units r = v * one then 0 else 0b10000#5)
  | .rsqrt => (isZero32 A = true → r = inf neg ∧ f = 2) ∧ (neg = true → isZero32 A = false → isNaN32 A = false → qnan) ∧ (A = inf false → r = 0 ∧ f = 0)
      ∧ ∀ k : Nat, k < 277 → k % 2 = 1 → v = 2 ^ k → isFinite32 A = true → exact (2 ^ ((447 - k) / 2))
  | .rcp => (isZero32 A = true → r = inf neg ∧ f = 2) ∧ (isInf32 A = true → r = zero neg ∧ f = 0)
      ∧ (isFinite32 A = true → isZero32 A = false → v.natAbs ≤ 2 ^ 21 → r = inf neg ∧ f = 0b10100#5)
      ∧ ∀ k : Nat, 22 ≤ k → k < 277 → v.natAbs = 2 ^ k → isFinite32 A = true → (ftz = true → k < 276) → r.getLsbD 31 = neg ∧ exact (if neg then -2 ^ (298 - k) else 2 ^ (298 - k))
  | .exp2 => (A = inf true → r = 0 ∧ f = 0) ∧ (A = inf false → r = A ∧ f = 0)
      ∧ (isFinite32 A = true → (128 * one ≤ v → r = inf false ∧ f = 0b10100#5) ∧ (v < -150 * one → r = 0 ∧ f = 0b11000#5)
          ∧ ∀ n : Int, v = n * one → -149 ≤ n → n ≤ 127 → if ftz = true ∧ n < -126 then r = 0 ∧ f = 0b11000#5 else exact (2 ^ (n + 149).toNat))
  | .log2 => (isZero32 A = true → r = inf true ∧ f = 2) ∧ (neg = true → isZero32 A = false → isNaN32 A = false → qnan) ∧ (A = inf false → r = A ∧ f = 0)
      ∧ ∀ k : Nat, k < 277 → v = 2 ^ k → isFinite32 A = true → exact (((k : Int) - 149) * one) ∧ (k = 149 → r = 0)
  | .sinpi => (isInf32 A = true → qnan) ∧ (isFinite32 A = true → (v % one = 0 → r = zero neg ∧ f = 0)
      ∧ (2 * (v % one) = one → r = unit (v / one % 2 == 1) ∧ f = 0))
  | .cospi => (isInf32 A = true → qnan) ∧ (isFinite32 A = true → (v % one = 0 → r = unit (v / one % 2 == 1) ∧ f = 0)
      ∧ (2 * (v % one) = one → r = 0 ∧ f = 0))
  | .tanh => (isZero32 A = true → r = A ∧ f = 0) ∧ (isInf32 A = true → r = unit neg ∧ f = 0)
      ∧ (isFinite32 A = true → 37 * one ≤ 4 * (v.natAbs : Int) → r = unit neg ∧ f = 0)

/-- The tree operations whose combinations are exact, with their identities (R42, R163). -/
def integerTree : TreeOp → Option ((Word → Word → Word) × Word)
  | .iadd => some (fun a b => a + b, 0)
  | .imax => some (fun a b => if a.toInt < b.toInt then b else a, 0x80000000#32)
  | .imin => some (fun a b => if b.toInt < a.toInt then b else a, 0x7FFFFFFF#32)
  | .zmax => some (fun a b => if a.toNat < b.toNat then b else a, 0)
  | .zmin => some (fun a b => if b.toNat < a.toNat then b else a, 0xFFFFFFFF#32)
  | .and => some (fun a b => a &&& b, 0xFFFFFFFF#32)
  | .or => some (fun a b => a ||| b, 0)
  | .xor => some (fun a b => a ^^^ b, 0)
  | _ => none

/-- A combination over the executing lanes of the tile of `l` that `pick` chooses, in order of lane. -/
def overTile (f : Word → Word → Word) (z : Word) (w : Warp) (a : Lanes) (l : Nat) (pick : Nat → Bool) : Word :=
  ((List.range 32).filter (fun j => (w.exec w.hdr).getLsbD j && j / 2 ^ w.uni.part == l / 2 ^ w.uni.part && pick j)).foldl
    (fun v j => f v (laneOf a j)) z

end Sys2Proof.Claims

/-- Integer instructions (R145, R148): each completes, and its result is that of its row. Shifts (R149). Bit instructions (R150, R151). -/
def Obligations.IntegerResults : Prop :=
  (∀ i o, integerOp i = some o → ∀ s g w, Ready o s g w → Completes i o s g w)
  ∧ (∀ i o, shiftOp i = some o → ∀ s g w, Ready o s g w → Completes i o s g w)
  ∧ (∀ i o, bitOp i = some o → ∀ s g w, Ready o s g w → Completes i o s g w)

/-- Division with no zero divisor in an executing lane (R67, R153). Integer division by zero in an executing lane (R67, R153): trap 0x0B, no register written, the strand's record naming the instruction. -/
def Obligations.DivisionResults : Prop :=
  (∀ i o, divisionOp i = some o → ∀ s g w, Ready o s g w →
     (∀ l, l < 32 → (w.exec w.hdr).getLsbD l = true → operandOf w o.imm l o.src ≠ 0) → Completes i o s g w)
  ∧ (∀ i o, divisionOp i = some o → ∀ s g w, Ready o s g w → Handles s g w →
     (∃ l, l < 32 ∧ (w.exec w.hdr).getLsbD l = true ∧ operandOf w o.imm l o.src = 0) →
     ∃ t g' w', exec i s = .next t ∧ StrandTraps s t g g' w w' (strandOf w o.n) 0x0B 4)

/-- Floating-point instructions whose flags meet no enable (R73, R146): they complete, and the flags of all lanes are ORed into `ASTAT`. Floating-point traps (R61, R73): where an enabled flag arises, the instruction traps and leaves no effect: 0x08 for NV, else 0x09 for DZ,
else 0x0A for OF; `ASTAT` stays. -/
def Obligations.FloatResults : Prop :=
  (∀ i o, floatOp i = some o → ∀ s g w, s.RunsNow g w (strandOf w o.n) (usesOf o.src) → (∀ j, ¬FlagTraps o g w j) →
     ∃ t g' w', exec i s = .next t ∧ AccOnly s t g g' w w' (strandOf w o.n) (lengthOf o.n)
       ∧ Result g g' w w' (strandOf w o.n) (fun l => (floatLane o g w l).1)
       ∧ ∀ j, j < 5 → (g'.astat.getLsbD j = true ↔ g.astat.getLsbD j = true ∨ Raised o g w j))
  ∧ (∀ i o, floatOp i = some o → ∀ s g w, s.RunsNow g w (strandOf w o.n) (usesOf o.src) → Handles s g w →
     ∀ j, FlagTraps o g w j → (∀ j', j' < j → ¬FlagTraps o g w j') →
     ∃ t g' w', exec i s = .next t ∧ StrandTraps s t g g' w w' (strandOf w o.n) (8 + j) (lengthOf o.n) ∧ g'.astat = g.astat)

/-- FP32 operations on special operands (R71, R72), inputs as FTZ leaves them (R70): NaNs, infinities and zeros, each with its flags; and FCMP's. -/
def Obligations.FloatSpecialOperands : Prop :=
  ∀ rm ftz a b l, let A := seen ftz a
    let B := seen ftz b
    let L := seen ftz l
    (∀ op x y, addends op A B = some (x, y) →
      (isNaN32 A = true ∨ isNaN32 B = true → fp32 op rm ftz a b l = (0x7FC00000#32, nvOf [A, B]))
      ∧ (isInf32 x = true → isInf32 y = true → x ≠ y → fp32 op rm ftz a b l = (0x7FC00000#32, 1))
      ∧ (isInf32 x = true → isNaN32 y = false → (isInf32 y = true → x = y) → fp32 op rm ftz a b l = (x, 0)))
    ∧ (∀ op x y z, factors op A B L = some (x, y, z) →
      (isZero32 x = true ∧ isInf32 y = true ∨ isInf32 x = true ∧ isZero32 y = true → fp32 op rm ftz a b l = (0x7FC00000#32, 1))
      ∧ (¬(isZero32 x = true ∧ isInf32 y = true ∨ isInf32 x = true ∧ isZero32 y = true) →
          isNaN32 x = true ∨ isNaN32 y = true ∨ (∃ c, z = some c ∧ isNaN32 c = true) →
          fp32 op rm ftz a b l = (0x7FC00000#32, nvOf ([x, y] ++ z.toList)))
      ∧ (∀ c, z = some c → isInf32 x = true ∨ isInf32 y = true → isZero32 x = false → isZero32 y = false → isNaN32 x = false → isNaN32 y = false →
          isInf32 c = true → c ≠ signedBy 0x7F800000#32 x y → fp32 op rm ftz a b l = (0x7FC00000#32, 1)))
    ∧ ((isNaN32 A = true ∨ isNaN32 B = true → fp32 .div rm ftz a b l = (0x7FC00000#32, nvOf [A, B]))
      ∧ (isFinite32 A = true → isZero32 A = false → isZero32 B = true → fp32 .div rm ftz a b l = (signedBy 0x7F800000#32 A B, 2))
      ∧ (isZero32 A = true ∧ isZero32 B = true ∨ isInf32 A = true ∧ isInf32 B = true → fp32 .div rm ftz a b l = (0x7FC00000#32, 1))
      ∧ (isFinite32 A = true → isInf32 B = true → fp32 .div rm ftz a b l = (signedBy 0 A B, 0)))
    ∧ (∀ op, op = .max ∨ op = .min →
      (isNaN32 A = true → isNaN32 B = false → fp32 op rm ftz a b l = (B, nvOf [A]))
      ∧ (isNaN32 A = false → isNaN32 B = true → fp32 op rm ftz a b l = (A, nvOf [B]))
      ∧ (isNaN32 A = true → isNaN32 B = true → fp32 op rm ftz a b l = (0x7FC00000#32, nvOf [A, B])))
    ∧ (isZero32 A = true → isZero32 B = true → A ≠ B →
        fp32 .max rm ftz a b l = (0, 0) ∧ fp32 .min rm ftz a b l = (0x80000000#32, 0) ∧ fcmpLane .eq ftz a b = (true, 0) ∧ fcmpLane .ne ftz a b = (false, 0))
    ∧ (isNaN32 A = true ∨ isNaN32 B = true → let q := nvOf [A, B]
        fcmpLane .eq ftz a b = (false, q) ∧ fcmpLane .ne ftz a b = (true, q) ∧ fcmpLane .un ftz a b = (true, q) ∧ fcmpLane .or ftz a b = (false, q)
          ∧ ∀ c, c ∈ [FCond.lt, .le, .gt, .ge] → fcmpLane c ftz a b = (false, 1))

/-- FP32 and packed arithmetic on finite operands forms the exact real result and rounds it once under the mode in force (R69, R79): sums, products, fused
products and quotients, with R69's limits where it overflows, R70's flush where FTZ is set, the sign of an exact zero; FMAX and FMIN pick an operand. A packed
instruction ignores FTZ, and its flags are those of both halves. -/
def Obligations.FloatRounding : Prop :=
  (∀ op rm ftz a b l r f, fp32 op rm ftz a b l = (r, f) →
    OperationRounds binary32 op rm ftz (seen ftz a).toNat (seen ftz b).toNat (seen ftz l).toNat r.toNat f)
  ∧ (∀ op h rm a b l r f, packedLane op h rm a b l = (r, f) → ∃ f0 f1, f = f0 ||| f1
      ∧ OperationRounds (packedFormat h) op rm false (a.toNat % 65536) (b.toNat % 65536) (l.toNat % 65536) (r.toNat % 65536) f0
      ∧ OperationRounds (packedFormat h) op rm false (a.toNat / 65536) (b.toNat / 65536) (l.toNat / 65536) (r.toNat / 65536) f1)

/-- MLAT (R145): the latch takes the operand in the executing lanes. PUTG (R145): the register takes the accumulator in the executing lanes; it is present again at completion (R22). NOP (R121): nothing but the front end's place. A strand header (R16, R122): the strand, guard and sense in force, and no dispatch; it is passed in a resume too (R28). -/
def Obligations.MovesAndHeaders : Prop :=
  (∀ i o, latchOp i = some o → ∀ s g w, Ready o s g w →
     ∃ t g' w', exec i s = .next t ∧ WarpOnly s t g g' w w' (lengthOf o.n) { w with latch := w'.latch }
       ∧ LatchResult w w' (strandOf w o.n) (fun l => operandOf w o.imm l o.src))
  ∧ (∀ i n r, putgOp i = some (n, r) → ∀ s g w, s.RunsNow g w (strandOf w n) { regs := [r.toNat], writesG := [r.toNat] } →
     ∃ t g' w', exec i s = .next t ∧ WarpOnly s t g g' w w' (lengthOf n) { w with g := w'.g }
       ∧ RegisterResult w w' r.toNat (fun l => laneOf (g.kval w (strandOf w n)) l))
  ∧ (∀ i n, nopOp i = some n → ∀ s g w, s.RunsNow g w (strandOf w n) {} →
     ∃ t g' w', exec i s = .next t ∧ WarpOnly s t g g' w w' (lengthOf n) w)
  ∧ (∀ n p sense s g w, s.here = some (g, w) →
     ∃ t g' w', exec (.strandHeader n p sense) s = .next t ∧ OnlyHere s t g g' w w' ∧ g' = { g with warps := g'.warps }
       ∧ w' = { w with pc := w.pc + 2, hdr := w'.hdr, resume := w'.resume }
       ∧ w'.hdr.extractLsb' 12 4 = 0xC#4 ∧ w'.hdr.extractLsb' 8 4 = n ∧ w'.hdr.extractLsb' 5 3 = p ∧ w'.hdr.getLsbD 4 = sense
       ∧ w'.hdr.extractLsb' 0 4 = 0#4)

/-- ICMP and PUTP (R157, R159): the predicate takes the test in the executing lanes; the accumulator and the flags stay. FCMP (R157, R73): where its flags meet no enable, the predicate takes the comparison and `ASTAT` the flags;
an enabled one traps as R73 says, and `ASTAT` stays. -/
def Obligations.PredicateInstructions : Prop :=
  ((∀ c n x p comb s g w, s.RunsNow g w n.toNat (compareUses x p comb) →
     ∃ t g' w', exec (.icmp c n x p comb) s = .next t ∧ WarpOnly s t g g' w w' 4 { w with p := w'.p, presP := w'.presP }
       ∧ (∀ q, w'.pPresent q = w.pPresent q)
       ∧ PredicateResult w w' p.toNat (fun l => combined comb ((w.pred p.toNat).getLsbD l)
           (integerHolds c (laneOf (g.kval w n.toNat) l) (operandOf w (icmpImm c) l x))))
   ∧ (∀ n test p s g w, s.RunsNow g w n.toNat { writesP := [p.toNat] } →
     ∃ t g' w', exec (.putp n test p) s = .next t ∧ WarpOnly s t g g' w w' 4 { w with p := w'.p, presP := w'.presP }
       ∧ (∀ q, w'.pPresent q = w.pPresent q)
       ∧ PredicateResult w w' p.toNat (fun l => match test with
           | .nz => laneOf (g.kval w n.toNat) l != 0
           | .z => laneOf (g.kval w n.toNat) l == 0
           | .neg => (laneOf (g.kval w n.toNat) l).getLsbD 31)))
  ∧ (∀ c n x p comb s g w, s.RunsNow g w n.toNat (compareUses x p comb) →
     let r (l : Nat) : Bool × Flags := fcmpLane c (actlFtz w.uni.actl) (laneOf (g.kval w n.toNat) l) (operandOf w widenE l x)
     let raised (j : Nat) : Prop := ∃ l, l < 32 ∧ (w.exec w.hdr).getLsbD l = true ∧ (r l).2.getLsbD j = true
     (∀ j, j < 3 → raised j → w.uni.actl.getLsbD (4 + j) = false) →
     ∃ t g' w', exec (.fcmp c n x p comb) s = .next t ∧ OnlyHere s t g g' w w' ∧ g' = { g with warps := g'.warps, astat := g'.astat }
       ∧ Passed w w' 4 { w with p := w'.p, presP := w'.presP } ∧ (∀ q, w'.pPresent q = w.pPresent q)
       ∧ PredicateResult w w' p.toNat (fun l => combined comb ((w.pred p.toNat).getLsbD l) (r l).1)
       ∧ ∀ j, j < 5 → (g'.astat.getLsbD j = true ↔ g.astat.getLsbD j = true ∨ raised j))
  ∧ (∀ c n x p comb s g w, s.RunsNow g w n.toNat (compareUses x p comb) → Handles s g w →
     let traps (j : Nat) : Prop := j < 3 ∧ w.uni.actl.getLsbD (4 + j) = true ∧ ∃ l, l < 32 ∧ (w.exec w.hdr).getLsbD l = true
       ∧ (fcmpLane c (actlFtz w.uni.actl) (laneOf (g.kval w n.toNat) l) (operandOf w widenE l x)).2.getLsbD j = true
     ∀ j, traps j → (∀ j', j' < j → ¬traps j') →
     ∃ t g' w', exec (.fcmp c n x p comb) s = .next t ∧ StrandTraps s t g g' w w' n.toNat (8 + j) 4 ∧ g'.astat = g.astat)

/-- SELP (R158), and the instructions that read another lane's register (R160, R161) or unpack one (R165). VOTE (R162): ballot, any, all and uniform over the executing lanes of the tile; under compat16 a ballot bit counts within its half. -/
def Obligations.LaneReadsAndVotes : Prop :=
  ((∀ n x p s g w, s.RunsNow g w n.toNat { regs := srcGregs x, readsG := srcGregs x, readsP := [p.toNat] } →
     ∃ t g' w', exec (.selp n x p) s = .next t ∧ AccOnly s t g g' w w' n.toNat 4 ∧ g'.astat = g.astat
       ∧ Result g g' w w' n.toNat (fun l => if (w.pred p.toNat).getLsbD l then operandOf w immI l x else laneOf (g.kval w n.toNat) l))
   ∧ (∀ i n r src, shuffleOp i = some (n, r, src) → ∀ s g w, s.RunsNow g w n.toNat { regs := [r.toNat], readsG := [r.toNat] } →
     ∃ t g' w', exec i s = .next t ∧ AccOnly s t g g' w w' n.toNat 4 ∧ g'.astat = g.astat
       ∧ Result g g' w w' n.toNat (fun l => acrossLanes w r.toNat l (src l (laneOf (g.kval w n.toNat) l))))
   ∧ (∀ n hi r s g w, s.RunsNow g w n.toNat { regs := [r.toNat], readsG := [r.toNat] } →
     ∃ t g' w', exec (.unpk n hi r) s = .next t ∧ AccOnly s t g g' w w' n.toNat 4 ∧ g'.astat = g.astat
       ∧ ∀ l, l < 32 → ∀ i, i < 32 → (laneOf (g'.kval w' n.toNat) l).getLsbD i =
           if (w.exec w.hdr).getLsbD l then unpackedBit hi (laneOf (w.greg r.toNat) l) i else (laneOf (g.kval w n.toNat) l).getLsbD i))
  ∧ (∀ n mode p s g w, s.RunsNow g w n.toNat { readsP := [p.toNat] } →
     ∃ t g' w', exec (.vote n mode p) s = .next t ∧ AccOnly s t g g' w w' n.toNat 4 ∧ g'.astat = g.astat
       ∧ ∀ l, l < 32 →
         let v := laneOf (g'.kval w' n.toNat) l
         let on (j : Nat) : Prop := Votes w l j ∧ (w.pred p.toNat).getLsbD j = true
         ((w.exec w.hdr).getLsbD l = false → v = laneOf (g.kval w n.toNat) l)
         ∧ ((w.exec w.hdr).getLsbD l = true → match mode with
           | .ballot => if g.compat16 then w.uni.part ≤ 4 → ∀ i, i < 32 → (v.getLsbD i = true ↔ ∃ j, on j ∧ i = j % 16)
               else ∀ i, i < 32 → (v.getLsbD i = true ↔ on i)
           | .any => ((∃ j, on j) → v = 1) ∧ ((∀ j, ¬on j) → v = 0)
           | .all => ((∀ j, Votes w l j → on j) → v = 1) ∧ ((∃ j, Votes w l j ∧ ¬on j) → v = 0)
           | .uni => ((∀ j, Votes w l j → on j) ∨ (∀ j, ¬on j) → v = 1) ∧ ((∃ j, Votes w l j ∧ ¬on j) ∧ (∃ j, on j) → v = 0)))

/-- RED and SCAN (R163, R164) where the flags of their levels meet no enable (R73): they complete with the tree's and the prefix's lanes; an enabled flag
traps as R73 says, and `ASTAT` stays. The integer and logical ones raise no flag: every executing lane receives the combination over the executing lanes of
its tile, or over those up to it, itself in or, in the exclusive form, out (R42). -/
def Obligations.TreeOperations : Prop :=
  (∀ n op s g w, s.RunsNow g w n.toNat {} →
    let done (i : Instr) (r : Lanes × Flags) : Prop := flagTrap w.uni.actl r.2 = none →
      ∃ t g' w', exec i s = .next t ∧ AccOnly s t g g' w w' n.toNat 4 ∧ g'.astat = g.astat ||| r.2 ∧ Result g g' w w' n.toNat (laneOf r.1)
    let traps (i : Instr) (r : Lanes × Flags) : Prop := Handles s g w →
      let meets (j : Nat) : Prop := j < 3 ∧ r.2.getLsbD j = true ∧ w.uni.actl.getLsbD (4 + j) = true
      ∀ j, meets j → (∀ j', j' < j → ¬meets j') →
      ∃ t g' w', exec i s = .next t ∧ StrandTraps s t g g' w w' n.toNat (8 + j) 4 ∧ g'.astat = g.astat
    let red := redLanes op w.uni.actl (w.exec w.hdr) w.uni.part (g.kval w n.toNat)
    done (.red n op) red ∧ traps (.red n op) red
    ∧ ∀ excl, let scan := scanLanes op excl w.uni.actl (w.exec w.hdr) w.uni.part (g.kval w n.toNat)
        done (.scan n op excl) scan ∧ traps (.scan n op excl) scan)
  ∧ (∀ n op f z s g w, integerTree op = some (f, z) → s.RunsNow g w n.toNat {} → w.uni.part ≤ 5 →
    (∃ t g' w', exec (.red n op) s = .next t ∧ AccOnly s t g g' w w' n.toNat 4 ∧ g'.astat = g.astat
      ∧ Result g g' w w' n.toNat (fun l => overTile f z w (g.kval w n.toNat) l (fun _ => true)))
    ∧ ∀ excl, ∃ t g' w', exec (.scan n op excl) s = .next t ∧ AccOnly s t g g' w w' n.toNat 4 ∧ g'.astat = g.astat
      ∧ Result g g' w w' n.toNat (fun l => overTile f z w (g.kval w n.toNat) l (fun j => if excl then decide (j < l) else decide (j ≤ l))))

/-- CVT, SFU and the special operands of the packed forms in one lane. A conversion to a narrower format rounds once to the target's precision, with R78's
outcomes at its limits; one to an integer rounds, then tests the range, and code 0x04 rounds to an integral value (R77); one from an integer rounds once
(R77); one from a narrower format is exact (R76). SFU delivers R154's exact results and special inputs, and a square root that is rounded once; a value that
the table does not list is the device's own. FTZ applies to an FP32 source (R70). -/
def Obligations.ConversionsAndFunctions : Prop :=
  (∀ code rm sat ftz a r f, cvtLane code rm sat ftz a = (r, f) → let A := seen ftz a
    (∀ F, narrowTo code = some F → let clamps := sat || code == .f32e2m1
      let nearest (limit : Nat) (flags : Flags) : Prop := r.toNat = signedIn F (A.getLsbD 31) limit ∧ f = flags
      (isFinite32 A = true → (clamps = true → Beyond F rm 1 (units A) → nearest F.top 0b10000#5)
        ∧ ((clamps = true → ¬Beyond F rm 1 (units A)) → RoundsOnce F false rm 1 (units A) r.toNat f))
      ∧ (isInf32 A = true → (clamps = true → nearest F.top 0b10000#5) ∧ (clamps = false → nearest F.inf (if F.inf = F.nan then 1 else 0)))
      ∧ (isNaN32 A = true → r.toNat = F.nan ∧ f = if isSignalling32 A || code == .f32e2m1 then 1 else 0))
    ∧ (∀ lo hi, integerRange code = some (lo, hi) → let refused (y : BitVec 32) : Prop := r = (if sat then y else 0x80000000#32) ∧ f = 1
      (isNaN32 A = true → refused 0) ∧ (isInf32 A = true → refused (BitVec.ofInt 32 (if A.getLsbD 31 then lo else hi)))
      ∧ (isFinite32 A = true → ∀ y, RoundedToInteger rm (units A) y →
          (y < lo → refused (BitVec.ofInt 32 lo)) ∧ (hi < y → refused (BitVec.ofInt 32 hi))
          ∧ (lo ≤ y → y ≤ hi → r = BitVec.ofInt 32 y ∧ f = if y * 2 ^ 149 = units A then 0 else 0b10000#5)))
    ∧ (code = .f32int → (isNaN32 A = true → r = 0x7FC00000#32 ∧ f = if isSignalling32 A then 1 else 0) ∧ (isInf32 A = true → r = A ∧ f = 0)
      ∧ (isFinite32 A = true → ∀ y, RoundedToInteger rm (units A) y → isFinite32 r = true ∧ units r = y * 2 ^ 149 ∧ r.getLsbD 31 = A.getLsbD 31
          ∧ f = if y * 2 ^ 149 = units A then 0 else 0b10000#5))
    ∧ (∀ i : Int, (code = .i32f32 ∧ i = a.toInt) ∨ (code = .z32f32 ∧ i = a.toNat) → RoundsOnce binary32 false rm 1 (i * 2 ^ 149) r.toNat f ∧ (i = 0 → r = 0))
    ∧ (∀ F, widenFrom code = some F → let x := a.toNat % 2 ^ F.bits
      (finiteIn F x = true → isFinite32 r = true ∧ units r = unitsIn F x ∧ r.getLsbD 31 = negativeIn F x ∧ f = 0)
      ∧ (infiniteIn F x = true → isInf32 r = true ∧ r.getLsbD 31 = negativeIn F x ∧ f = 0)
      ∧ (nanIn F x = true → r = 0x7FC00000#32 ∧ f = if signallingIn F x then 1 else 0)))
  ∧ (∀ fn rm ftz a r f, sfuLane fn rm ftz a = (r, f) → SfuRow fn rm ftz (seen ftz a) r f
      ∧ (isNaN32 a = true → r = 0x7FC00000#32 ∧ f = if isSignalling32 a then 1 else 0))
  ∧ (∀ op h rm a b l r f, packedLane op h rm a b l = (r, f) → ∃ f0 f1, f = f0 ||| f1
      ∧ OperationSpecial (packedFormat h) op (a.toNat % 65536) (b.toNat % 65536) (l.toNat % 65536) (r.toNat % 65536) f0
      ∧ OperationSpecial (packedFormat h) op (a.toNat / 65536) (b.toNat / 65536) (l.toNat / 65536) (r.toNat / 65536) f1)

/-- BRA, BRANY, BRALL and BRS (R170, R177): the whole warp goes to the target, and leaves loops, or to the next instruction. The halves of a compat16 warp that
decide BRANY or BRALL differently split it: half 1's threads enter a bin at the branch itself, with base granules, and half 0 follows its own decision
(R278, R279). CALL and RET (R171, R177): the link, the target, RET's two traps (range before alignment, R88; the first stops the workgroup, R318), and loops as
they were. -/
def Obligations.BranchesAndCalls : Prop :=
  (∀ s g w, s.FrontNow g w → w.drained = true → ∀ i c off, branchOp w i = some (c, off) → HalvesAgree g w c →
     ∃ t g' w', exec i s = .next t ∧ WarpChanged s t g g' w w'
       ∧ w' = if c w.active then jumped (leavesLoops w (offsetTarget w off)) (offsetTarget w off) else jumped w (w.pc + 4))
  ∧ (∀ s g w, s.FrontNow g w → w.drained = true → ∀ i c off, branchOp w i = some (c, off) → ¬HalvesAgree g w c →
     let x := w.active &&& highHalf
     let low := w.active &&& lowHalf
     let live : Nat → Bool := fun r => decide (r < g.baseGranules)
     MayDeposit s g w x live w.pc →
     ∃ t g' w' b, exec i s = .next t ∧ t.here = some (g', w') ∧ (∀ y ∈ s.wgs, y.uid ≠ g.uid → y ∈ t.wgs)
       ∧ t = { s with wgs := t.wgs, counters := t.counters, nextUid := s.nextUid + 1 }
       ∧ g' = { g with warps := g.warps.map (fun y => if y.wid == w.wid then w' else y), bins := g.bins ++ [b] } ∧ EntersBin s g w x live w.pc b
       ∧ (∀ y ∈ b.threads, ∃ l, y.split = some (s.nextUid, l) ∧ l < 32 ∧ x.getLsbD l = true ∧ TakenFrom w l live y)
       ∧ w' = { (if c low then jumped (leavesLoops w (offsetTarget w off)) (offsetTarget w off) else jumped w (w.pc + 4)) with active := low })
  ∧ (∀ s g w, s.FrontNow g w → w.drained = true →
     (∀ sx off, 0 < sx.toNat → (∀ o ∈ w.ops, ∀ a b c d e x, o.kind = .solicit a b c d e x → sx.toNat ≠ x ∧ sx.toNat ≠ x + 1) →
       ∃ t g' w', exec (.call sx off) s = .next t ∧ WarpChanged s t g g' w w'
         ∧ w' = jumped { w with uni := { w.uni with s := w'.uni.s } } (offsetTarget w off)
         ∧ w'.sreg sx.toNat = (w.pc + 4).zeroExtend 64 ∧ ∀ y, y ≠ sx.toNat → w'.sreg y = w.sreg y)
     ∧ ∀ sx, let v := w.sreg sx.toNat
       (v.toNat < 2 ^ 48 → v.getLsbD 0 = false →
         ∃ t g' w', exec (.ret sx) s = .next t ∧ WarpChanged s t g g' w w' ∧ w' = jumped w (v.extractLsb' 0 48))
       ∧ (Handles s g w → v.toNat < 2 ^ 48 → v.getLsbD 0 = true → TrapsAt (.ret sx) s g w 0x04)
       ∧ (Handles s g w → 2 ^ 48 ≤ v.toNat → ∃ t g' w', exec (.ret sx) s = .next t ∧ t.here = some (g', w') ∧ g'.stop = .trap ∧ w'.stopped = true
           ∧ w'.trapCode = 0x05 ∧ w'.trapAddr = w.pc ∧ w'.fepc = packPc w.hdr w.pc ∧ w'.uni = w.uni ∧ w'.g = w.g ∧ w'.k = w.k
           ∧ Sends s t g 1 0x05 0 w.wid 0 w.pc.toNat 0 ∧ SameMemory s t))

/-- LOOPN and LOOPIN (R175): the counter, and the loop pushed or its body skipped; or trap 0x10. The back-edge at the end of the innermost loop (R176): while the counter is above 1 it counts down and the body runs again, as a slip
fence; else the counter becomes 0 and the loop ends. -/
def Obligations.HardwareLoops : Prop :=
  (∀ s g w, s.FrontNow g w → w.drained = true → ∀ i n c len, loopOp w i = some (n, c, len) →
     (¬LoopTraps w n c len → ∃ t g' w', exec i s = .next t ∧ WarpChanged s t g g' w w'
       ∧ (∀ m, nth 0#32 w'.uni.lc m = if m = n then c.extractLsb' 0 32 else nth 0#32 w.uni.lc m)
       ∧ (c = 0 → w' = jumped { w with uni := { w.uni with lc := w'.uni.lc } } (loopEnd w len))
       ∧ (c ≠ 0 → w' = jumped { w with uni := { w.uni with lc := w'.uni.lc, loops := w.uni.loops ++ [⟨w.pc + 4, loopEnd w len⟩] } } (w.pc + 4)))
     ∧ (LoopTraps w n c len → Handles s g w →
         ∃ t g' w', exec i s = .next t ∧ WarpChanged s t g g' w w' ∧ w'.trapCode = 0x10 ∧ w'.trapAddr = w.pc ∧ w'.pc = g.handler
           ∧ w'.uni.handler = true ∧ w'.uni.loops = w.uni.loops ∧ w'.uni.s = w.uni.s))
  ∧ (∀ s g w f outer, s.here = some (g, w) → w.uni.loops = outer ++ [f] → f.stop = w.pc →
     let n := outer.length
     let lc := nth 0#32 w.uni.lc n
     (lc.toNat ≤ 1 → ∃ t g' w', exec .loopBackEdge s = .next t ∧ WarpChanged s t g g' w w'
       ∧ w' = { w with uni := { w.uni with lc := w'.uni.lc, loops := outer } }
       ∧ ∀ m, nth 0#32 w'.uni.lc m = if m = n then 0 else nth 0#32 w.uni.lc m)
     ∧ (1 < lc.toNat → w.drained = true → ∃ t g' w', exec .loopBackEdge s = .next t ∧ WarpChanged s t g g' w w'
       ∧ w' = { w with pc := f.start, hdr := 0xC000#16, resume := none, skipBp := none, uni := { w.uni with lc := w'.uni.lc } }
       ∧ ∀ m, nth 0#32 w'.uni.lc m = if m = n then lc - 1 else nth 0#32 w.uni.lc m))

/-- TRAP and BKPT (R190, R26, R332): with a handler declared and no debugger at a breakpoint, the handler starts, the record naming the
next instruction, `TRAPADDR` the instruction itself. -/
def Obligations.SoftwareTraps : Prop :=
  ∀ s g w, s.FrontNow g w → Handles s g w →
    (∀ c, 0x40 ≤ c.toNat → ∃ t g' w', exec (.trap c) s = .next t ∧ HandlerStarts s t g g' w w' c.toNat (w.pc + 4) ∧ w'.skipBp = w.skipBp)
    ∧ (s.debugOn g = false → ∃ t g' w', exec .bkpt s = .next t ∧ HandlerStarts s t g g' w w' 0x11 (w.pc + 4))

/-- JOIN (R36, R173): the warp branches where it has `min` threads; otherwise every active thread enters the bin of the target with the
base granules, and the slot and its granules are free. -/
def Obligations.Joins : Prop :=
  ∀ s g w, s.FrontNow g w → w.drained = true → w.uni.handler = false → ∀ min off, let a := offsetTarget w off
    (min.toNat ≤ laneCount w.active → ∃ t g' w', exec (.join min off) s = .next t ∧ WarpChanged s t g g' w w' ∧ w' = jumped (leavesLoops w a) a)
    ∧ (laneCount w.active < min.toNat → w.active ≠ 0 → MayDeposit s g w w.active (fun i => decide (i < g.baseGranules)) a →
        w.ops = [] → w.reserveGranules = 0 → (∀ c ∈ g.cv, c.members.getLsbD w.wid = false) →
        ∃ t g' b, exec (.join min off) s = .next t ∧ t.wg g.uid = some g' ∧ g'.bins = g.bins ++ [b]
          ∧ EntersBin s g w w.active (fun i => decide (i < g.baseGranules)) a b
          ∧ g' = { g with bins := g'.bins, warps := g.warps.filter (fun x => x.wid != w.wid), poolFree := g.poolFree + w.granules }
          ∧ t = { s with wgs := t.wgs, counters := t.counters } ∧ (∀ x ∈ s.wgs, x.uid ≠ g.uid → x ∈ t.wgs) ∧ SameMemory s t)

/-- BRD (R30, R31): with one side empty the warp goes to the other; otherwise the leaving side enters a bin at its continuation and the
others go on at theirs. -/
def Obligations.Divergence : Prop :=
  ∀ s g w, s.FrontNow g w → w.drained = true → w.uni.handler = false → ∀ off p sense sL t,
    let take := takeLanes w p sense
    let a := offsetTarget w off
    let leave := leaveLanes w p sense t
    let leaveAt := if leave = take then a else w.pc + 6
    let live : Nat → Bool := fun i => (w.sreg sL.toNat).getLsbD i
    (take = 0 → ∃ t' g' w', exec (.brd off p sense sL t) s = .next t' ∧ WarpChanged s t' g g' w w' ∧ w' = jumped w (w.pc + 6))
    ∧ (take ≠ 0 → take = w.active → ∃ t' g' w', exec (.brd off p sense sL t) s = .next t' ∧ WarpChanged s t' g g' w w'
        ∧ w' = jumped (leavesLoops w a) a)
    ∧ (take ≠ 0 → take ≠ w.active → MayDeposit s g w leave live leaveAt →
        ∃ t' g' w' b, exec (.brd off p sense sL t) s = .next t' ∧ OnlyHere s t' g g' w w'
          ∧ g' = { g with warps := g'.warps, bins := g.bins ++ [b] } ∧ EntersBin s g w leave live leaveAt b
          ∧ w' = { (if leave = take then jumped w (w.pc + 6) else jumped (leavesLoops w a) a) with active := w.active &&& ~~~leave })

/-- R174: in handler mode of an ordinary kernel BRD, JOIN, BAR, GBAR, GIVE, CLAIM and CLAIMP stop the workgroup: a record of kind 1 with
CODE 0x19 and CODE2 0x01 (R333), and no thread, register count or arrival changes. -/
def Obligations.BarredInHandlers : Prop :=
  ∀ s g w, s.FrontNow g w → w.drained = true → w.uni.handler = true → w.block = .none → w.stopping = none → g.stop = .none →
    s.isService g = false → ∀ i, barredInHandler i = true →
    ∃ t g' w' r, exec i s = .next t ∧ t.here = some (g', w') ∧ g'.stop = .trap ∧ w'.stopped = true
      ∧ w'.active = w.active ∧ w'.granules = w.granules ∧ w'.block = .none ∧ g'.poolFree = g.poolFree ∧ SameMemory s t
      ∧ t.faultsOut = s.faultsOut ++ [r] ∧ r.kind = 1 ∧ r.code = 0x19 ∧ r.code2 = 0x01 ∧ r.pc = w.pc.toNat ∧ r.wid = w.wid

/-- WAIT (R178, R179): it completes when the counter is at most n; a pending report of its class is raised instead, whatever n, and is
gone when the trap is taken. -/
def Obligations.Waits : Prop :=
  ∀ s g w, s.FrontNow g w → w.drained = true → ∀ cls n,
    (pendingReport w cls = none → w.counter cls ≤ n.toNat →
      ∃ t g' w', exec (.wait cls n) s = .next t ∧ WarpChanged s t g g' w w' ∧ w' = jumped w (w.pc + 4))
    ∧ (pendingReport w cls = none → n.toNat < w.counter cls → exec (.wait cls n) s = .next s)
    ∧ (∀ r, pendingReport w cls = some r → startsHandler r.code = true → Handles s g w →
      ∃ t g' w', exec (.wait cls n) s = .next t ∧ HandlerStarts s t g g' { w with reports := w.reports.erase r } w' r.code w.pc)

/-- BAR and GBAR (R180, R181): while other threads of the workgroup have not arrived the warp blocks; the last arrival at BAR releases every
blocked warp at the instruction after its barrier. The last arrival of a workgroup at GBAR arrives at the gang barrier, which releases every
warp of the gang that waits there once each of its workgroups has arrived. Where the last arrival leaves some threads at BAR and others at GBAR,
each of the blocked instructions takes trap 0x01. -/
def Obligations.Barriers : Prop :=
  ∀ s g w, s.FrontNow g w → w.drained = true → w.uni.handler = false → w.block = .none → w.storeQ = [] →
    (∀ i b, (i = .bar ∧ b = .bar ∨ i = .gbar ∧ b = .gbar) →
      (arrivedAt g w b).barArrived + (arrivedAt g w b).gbarArrivedThreads < (arrivedAt g w b).liveThreads →
      ∃ t g' w', exec i s = .next t ∧ WarpChanged s t g g' w w' ∧ w' = { w with block := b })
    ∧ (0 < (arrivedAt g w .bar).liveThreads → (arrivedAt g w .bar).barArrived = (arrivedAt g w .bar).liveThreads →
      (arrivedAt g w .bar).gbarArrivedThreads = 0 →
      ∃ t g', exec .bar s = .next t ∧ t.wg g.uid = some g'
        ∧ g' = { g with gbarArrived := false, warps := (arrivedAt g w .bar).warps.map (fun x => if x.block = .bar then x.passBlock else x) }
        ∧ t = { s with wgs := s.wgs.map (fun x => if x.uid == g.uid then g' else x), counters := t.counters })
    ∧ (0 < (arrivedAt g w .gbar).liveThreads → (arrivedAt g w .gbar).gbarArrivedThreads = (arrivedAt g w .gbar).liveThreads →
      (arrivedAt g w .gbar).barArrived = 0 →
      ((∀ y ∈ s.wgs, y.gang = g.gang → y.uid ≠ g.uid → y.gbarArrived = true) →
        ∃ t, exec .gbar s = .next t ∧ t = { s with wgs := t.wgs, counters := t.counters }
          ∧ t.wgs = s.wgs.map (fun x => if x.uid == g.uid then gangReleased (arrivedAt g w .gbar) else if x.gang = g.gang then gangReleased x else x))
      ∧ ((∃ y ∈ s.wgs, y.gang = g.gang ∧ y.uid ≠ g.uid ∧ y.gbarArrived = false) →
        ∃ t, exec .gbar s = .next t ∧ t = { s with wgs := t.wgs, counters := t.counters }
          ∧ t.wgs = s.wgs.map (fun x => if x.uid == g.uid then { arrivedAt g w .gbar with gbarArrived := true } else x)))
    ∧ (∀ i b, (i = .bar ∧ b = .bar ∨ i = .gbar ∧ b = .gbar) → let h := arrivedAt g w b
      h.barArrived + h.gbarArrivedThreads = h.liveThreads → 0 < h.barArrived → 0 < h.gbarArrivedThreads →
      g.stop = .none → g.hasHandler = true → s.isService g = false → (g.warps.map Warp.wid).Nodup →
      (∀ x ∈ h.warps, x.block = .bar ∨ x.block = .gbar →
        x.uni.handler = false ∧ x.started = [] ∧ x.resume = none ∧ x.stopping = none ∧ x.halted = false ∧ x.stopped = false) →
      ∃ t g', exec i s = .next t ∧ t.wg g.uid = some g' ∧ SameMemory s t
        ∧ ∀ x ∈ h.warps, (x.block = .bar ∨ x.block = .gbar → ∃ x', g'.warp x.wid = some x' ∧ x'.trapCode = 0x01 ∧ x'.trapAddr = x.pc
              ∧ x'.fepc = packPc x.hdr x.pc ∧ x'.pc = g.handler ∧ x'.uni = { x.uni with handler := true } ∧ x'.block = .none ∧ x'.active = x.active)
          ∧ (x.block ≠ .bar → x.block ≠ .gbar → x ∈ g'.warps))

/-- EXIT (R182): the threads end and the slot is free; a warp with no operation outstanding returns its granules to the pool (R38). -/
def Obligations.Exits : Prop :=
  ∀ s g w, s.FrontNow g w → w.drained = true → w.storeQ = [] → w.ops = [] → w.reports = [] → w.reserveGranules = 0 →
    (∀ l, l < 32 → w.active.getLsbD l = true → nth none w.census l = none) →
    (∀ c ∈ g.cv, c.members.getLsbD w.wid = false) → (∀ y ∈ g.warps, y.block = .none) →
    ∃ t g', exec .exit s = .next t ∧ t.wg g.uid = some g'
      ∧ g' = { g with warps := g.warps.filter (fun x => x.wid != w.wid), poolFree := g.poolFree + w.granules }
      ∧ t = { s with wgs := s.wgs.map (fun x => if x.uid == g.uid then g' else x), counters := t.counters }

/-- GIVE, CLAIM and CLAIMP (R38, R185): granules between the warp and the pool; CLAIM past 63 and GIVE of more than the warp has trap 0x01
before any change. -/
def Obligations.RegisterPool : Prop :=
  ∀ s g w, s.FrontNow g w → w.drained = true → w.uni.handler = false → w.block = .none →
    (∀ n, n.toNat ≤ w.granules → (∀ r, 4 * (w.granules - n.toNat) ≤ r → r < 4 * w.granules → w.gPresent r = true) →
      ∃ t g' w', exec (.give n) s = .next t ∧ OnlyHere s t g g' w w' ∧ g' = { g with warps := g'.warps, poolFree := g.poolFree + n.toNat }
        ∧ w' = jumped { w with granules := w.granules - n.toNat } (w.pc + 4))
    ∧ (∀ n, w.granules + n.toNat ≤ 63 → g.poolQ = [] → n.toNat ≤ g.poolFree →
      let claimed (w' : Warp) : Prop := w'.granules = w.granules + n.toNat
        ∧ ∀ r l, l < 32 → r < 4 * (w.granules + n.toNat) →
            laneOf (w'.greg r) l = (if 4 * w.granules ≤ r then 0 else laneOf (w.greg r) l)
            ∧ (w'.gPresent r = true ↔ 4 * w.granules ≤ r ∨ w.gPresent r = true)
      (∃ t g' w', exec (.claim n) s = .next t ∧ OnlyHere s t g g' w w' ∧ g' = { g with warps := g'.warps, poolFree := g.poolFree - n.toNat }
        ∧ w' = jumped { w with granules := w'.granules, g := w'.g, presG := w'.presG } (w.pc + 4) ∧ claimed w')
      ∧ ∀ p, p.toNat ≠ 0 → ∃ t g' w', exec (.claimp n p) s = .next t ∧ OnlyHere s t g g' w w'
        ∧ g' = { g with warps := g'.warps, poolFree := g.poolFree - n.toNat }
        ∧ w' = jumped { w with granules := w'.granules, g := w'.g, presG := w'.presG, p := w'.p } (w.pc + 4) ∧ claimed w'
        ∧ ∀ q, w'.pred q = if q = p.toNat then BitVec.allOnes 32 else w.pred q)
    ∧ (∀ n p, p.toNat ≠ 0 → (63 < w.granules + n.toNat ∨ g.poolQ ≠ [] ∨ g.poolFree < n.toNat) →
      ∃ t g' w', exec (.claimp n p) s = .next t ∧ WarpChanged s t g g' w w' ∧ w' = jumped { w with p := w'.p } (w.pc + 4)
        ∧ ∀ q, w'.pred q = if q = p.toNat then 0 else w.pred q)
    ∧ (∀ n, 0 < n.toNat → w.granules + n.toNat ≤ 63 → (g.poolQ ≠ [] ∨ g.poolFree < n.toNat) →
      ∃ t g' w', exec (.claim n) s = .next t ∧ OnlyHere s t g g' w w' ∧ g' = { g with warps := g'.warps, poolQ := g.poolQ ++ [.claim w.wid n.toNat] }
        ∧ w' = { w with block := .claim n.toNat })
    ∧ (Handles s g w → ∀ n, (w.granules < n.toNat → TrapsAt (.give n) s g w 0x01) ∧ (63 < w.granules + n.toNat → TrapsAt (.claim n) s g w 0x01))

/-- PART, FENCE, NOPL, YIELD, IPF and IUNPIN (R186, R188, R189, R191): what each changes beside the front end's place. FENCE adds its mark after those that
older accesses still stand under (R103; what a mark holds is log 4), and leaves it again where a resume passes over it (R28). IPIN (R191): lines
whose pages are already translated for the core and may be fetched are pinned, until the core's 128 lines are full (log 19); no trap and no record. CVSET (R187): the record it writes, and its trap 0x01 where an operation is pending or the members are not as the form asks. -/
def Obligations.FrontEndState : Prop :=
  (∀ s g w, s.FrontNow g w →
     (∀ e, (∀ q ∈ w.pending, q.isEngine = true) → ∃ t g' w', exec (.part e) s = .next t ∧ WarpChanged s t g g' w w'
       ∧ stepped { w with uni := { w.uni with part := if g.compat16 = true ∧ e.toNat = 5 then 4 else e.toNat } } w w')
     ∧ (∀ scope kind, ∃ t g' w', exec (.fence scope kind) s = .next t ∧ WarpChanged s t g g' w w'
       ∧ stepped { w with fences := lastingFences w ++ fenceMark kind w.seq, seq := w.seq + 1 } w w' ∧ SameMemory s t)
     ∧ (∃ t g' w', exec .nopl s = .next t ∧ WarpChanged s t g g' w w' ∧ stepped w w w')
     ∧ (∃ t g' w', exec .yield s = .next t ∧ t.here = some (g', w') ∧ g' = { g with warps := g'.warps }
       ∧ stepped { w with age := s.nextUid } w w' ∧ t.nextUid = s.nextUid + 1 ∧ SameMemory s t)
     ∧ (∀ off, ∃ t g' w', exec (.ipf off) s = .next t ∧ WarpChanged s t g g' w w' ∧ stepped w w w')
     ∧ (∀ c off, ∃ t g' w', exec (.iunpin c off) s = .next t ∧ OnlyHere s t g g' w w' ∧ g' = { g with warps := g'.warps, pins := g'.pins }
       ∧ stepped w w w' ∧ ∀ l, l ∈ g'.pins ↔ l ∈ g.pins ∧ ∀ i, i < c.toNat → l ≠ ((offsetTarget w off).toNat / 256 + i) % 2 ^ 40))
  ∧ (∀ s g w scope kind, s.here = some (g, w) → w.skipsFront = true →
     ∃ t g' w', exec (.fence scope kind) s = .next t ∧ WarpChanged s t g g' w w'
       ∧ w' = { w with fences := lastingFences w ++ fenceMark kind w.seq, seq := w.seq + 1, pc := w.pc + 4, resume := w'.resume })
  ∧ (∀ s g w, s.FrontNow g w → (∀ y ∈ s.wgs, y.uid = g.uid → y = g) → ∀ c off,
     let line (i : Nat) : Nat := ((offsetTarget w off).toNat / 256 + i) % 2 ^ 40
     ∃ t g' w', exec (.ipin c off) s = .next t ∧ t.here = some (g', w') ∧ g' = { g with warps := g'.warps, pins := g'.pins } ∧ stepped w w w'
       ∧ (∀ l ∈ g.pins, l ∈ g'.pins) ∧ (∀ l ∈ g'.pins, l ∈ g.pins ∨ ∃ i, i < c.toNat ∧ l = line i)
       ∧ (128 ≤ s.pinned g.coreIdx → g'.pins = g.pins) ∧ t.faultsOut = s.faultsOut ∧ SameMemory s t
       ∧ ((∀ i, i < c.toNat → (s.tlbFind g.coreIdx g.asid (BitVec.ofNat 48 (256 * line i))).isSome = true) →
           ((∀ i, i < c.toNat → MayFetch s g (line i) → line i ∈ g'.pins) ∨ 128 ≤ t.pinned g.coreIdx)
           ∧ ∀ l ∈ g'.pins, l ∈ g.pins ∨ MayFetch s g l))
  ∧ (∀ s g w, s.FrontNow g w → ∀ form c sm, let m := w.sreg sm.toNat
     let want := if form = .solo then 1 else 4
     let live (x : Nat) : Prop := ∃ y ∈ g.warps, y.wid = x ∧ y.active ≠ 0
     let good : Prop := form = .idle ∨ (m.toNat < 2 ^ 32 ∧ laneCount (m.extractLsb' 0 32) = want ∧ ∀ x, x < 32 → m.getLsbD x = true → live x)
     ∀ r, g.cv[c.toNat]? = some r →
     (r.signs = 0 → good → ∃ t g' w', exec (.cvset form c sm) s = .next t ∧ OnlyHere s t g g' w w' ∧ g' = { g with warps := g'.warps, cv := g'.cv }
       ∧ stepped w w w'
       ∧ (∀ d, d ≠ c.toNat → g'.cv[d]? = g.cv[d]?)
       ∧ g'.cv[c.toNat]? = some { form := form, signs := 0, signed := 0, members := if form = .idle then 0 else m.extractLsb' 0 32,
                                  unusable := false, fixed := none, differs := false })
     ∧ (Handles s g w → r.signs ≠ 0 ∨ ¬good → TrapsAt (.cvset form c sm) s g w 0x01))

/-- Scalar instructions (R192, R53): sD takes the value, every other uniform register stays, and a write of s0 is discarded. -/
def Obligations.ScalarResults : Prop :=
  ∀ s g w, s.FrontNow g w → ∀ i d v, scalarOp w i = some (d, v) → NothingNames w d.toNat →
    ∃ t g' w', exec i s = .next t ∧ WarpChanged s t g g' w w' ∧ stepped { w with uni := { w.uni with s := w'.uni.s } } w w'
      ∧ ∀ x, w'.sreg x = if x = d.toNat ∧ x ≠ 0 then v else w.sreg x

/-- SRD (R58 to R64): a register that every kernel may read gives its value, a reserved index zero; of LANE and TID it gives the lowest active lane's, of
CLKHI the count's upper half. RDSR (R58 to R60, R166): the register's low word in the executing lanes; LANE and TID by lane; CLKLO latches the
count's upper half, which CLKHI then gives. In a service kernel both give the registers of service kernels too (R26, R59, R209). SWR (R58, R61 to
R63): a writable index takes the fields that may be written and nothing else changes. -/
def Obligations.SpecialRegisters : Prop :=
  (∀ s g w, s.FrontNow g w → w.strandPending = false → ∀ d i, NothingNames w d.toNat →
     let gives (v : Nat) : Prop := ∃ t g' w', exec (.srd d i) s = .next t ∧ WarpChanged s t g g' w w'
       ∧ stepped { w with uni := { w.uni with s := w'.uni.s } } w w' ∧ ∀ x, w'.sreg x = if x = d.toNat ∧ x ≠ 0 then BitVec.ofNat 64 v else w.sreg x
     (∀ v, plainRegister g w i = some v → gives v)
     ∧ ((g.compat16 = false ∨ w.active &&& lowHalf = 0 ∨ w.active &&& highHalf = 0) →
         ∀ l, l < 32 → w.active.getLsbD l = true → (∀ j, j < l → w.active.getLsbD j = false) →
         (i = 0x00#8 → gives (if g.compat16 then l % 16 else l)) ∧ (i = 0x01#8 → gives (nth 0 w.tids l)))
     ∧ (i = 0x0F#8 → gives s.clk) ∧ (i = 0x10#8 → gives (s.clk / 2 ^ 32 % 2 ^ 32))
     ∧ (∀ v, s.isService g = true → ServiceRegister g w i.toNat v → gives v))
  ∧ (∀ s g w, s.FrontNow g w → w.strandPending = false → ∀ x i, writableIndex i.toNat = true → (serviceIndex i.toNat = true → s.isService g = true) →
     ∃ t g' w', exec (.swr x i) s = .next t ∧ OnlyHere s t g g' w w'
       ∧ g' = { swrGroup g i.toNat (w.sreg x.toNat) with warps := g'.warps } ∧ stepped (swrWarp w i.toNat (w.sreg x.toNat)) w w')
  ∧ (∀ s g w n i, s.RunsNow g w n.toNat {} → ((i = 0x0E#8 ∨ i = 0x34#8) → w.strandPending = false) →
     let gives (f : Nat → Nat) : Prop := ∃ t g' w', exec (.rdsr n i) s = .next t ∧ AccOnly s t g g' w w' n.toNat 4 ∧ g'.astat = g.astat
       ∧ Result g g' w w' n.toNat (fun l => BitVec.ofNat 32 (f l))
     (∀ v, plainRegister g w i = some v → gives (fun _ => v))
     ∧ (i = 0x00#8 → gives (fun l => if g.compat16 then l % 16 else l)) ∧ (i = 0x01#8 → gives (fun l => nth 0 w.tids l))
     ∧ (∀ v, s.isService g = true → ServiceRegister g w i.toNat v → gives (fun _ => v))
     ∧ (i = 0x0F#8 → w.exec w.hdr ≠ 0 → ∃ t g' w', exec (.rdsr n i) s = .next t ∧ OnlyHere s t g g' w w'
       ∧ g' = { g with warps := g'.warps, slots := g'.slots } ∧ Passed w w' 4 { w with k := w'.k, clkHi := some (BitVec.ofNat 32 (s.clk / 2 ^ 32)) } ∧ Result g g' w w' n.toNat (fun _ => BitVec.ofNat 32 s.clk))
     ∧ (i = 0x10#8 → w.exec w.hdr ≠ 0 → ∃ t g' w', exec (.rdsr n i) s = .next t ∧ OnlyHere s t g g' w w'
       ∧ g' = { g with warps := g'.warps, slots := g'.slots } ∧ Passed w w' 4 { w with k := w'.k, clkHi := none }
       ∧ Result g g' w w' n.toNat (fun _ => w.clkHi.getD (BitVec.ofNat 32 (s.clk / 2 ^ 32)))))

/-- R58, R118, R203 to R205: outside a service kernel, SRD, SWR and RDSR of a service index, SWR of an index that is not writable, RTE outside
handler mode, HALTB and RESUMEB take trap 0x03. R47, R142: a register operand at or above 4m is trap 0x01 at the instruction. -/
def Obligations.DecodeTimeTraps : Prop :=
  (∀ s g w, s.FrontNow g w → Handles s g w →
     (∀ x i, serviceIndex i.toNat = true → TrapsAt (.srd x i) s g w 0x03)
     ∧ (∀ x i, serviceIndex i.toNat = true ∨ writableIndex i.toNat = false → TrapsAt (.swr x i) s g w 0x03)
     ∧ (∀ n i, serviceIndex i.toNat = true → TrapsAt (.rdsr n i) s g w 0x03)
     ∧ TrapsAt .rte s g w 0x03
     ∧ (∀ form x, TrapsAt (.haltb form x) s g w 0x03 ∧ TrapsAt (.resumeb form x) s g w 0x03))
  ∧ (∀ s g w n r, s.here = some (g, w) → Handles s g w → 4 * w.granules ≤ r.toNat →
     TrapsAt (.iaddL n (.g r)) s g w 0x01 ∧ TrapsAt (.fmacL n (.g r)) s g w 0x01 ∧ TrapsAt (.shfli n r) s g w 0x01
       ∧ TrapsAt (.putgL n r) s g w 0x01)

/-- HALTB and RESUMEB (R204, R205): a service warp halts the warps its target names, which then hold their record, and passes on once all
have stopped; RESUMEB lets them run again from it. -/
def Obligations.HaltAndResume : Prop :=
  ∀ s g w form x h v, s.FrontNow g w → s.isService g = true → w.haltWait = [] →
    s.at { wg := h.uid, wid := v.wid } = some (h, v) → s.haltTargets g w form (w.sreg x.toNat) = some [(h.uid, v.wid)] →
    h.uid ≠ g.uid → h.residence = .resident → v.started = [] → v.stopped = false → v.stopping = none → v.resume = none →
    (v.halted = false → ∃ t h' v', exec (.haltb form x) s = .next t ∧ t.at { wg := h.uid, wid := v.wid } = some (h', v') ∧ v'.halted = true
        ∧ v'.fepc = packPc v.hdr v.pc ∧ v'.spc = (List.range 16).map (strandRecord v (packPc v.hdr v.pc)) ∧ v'.uni = v.uni ∧ v'.active = v.active
        ∧ ∃ g' w', t.here = some (g', w') ∧ stepped w w w')
    ∧ (v.halted = true → v.stepping = none → ∃ t h' v', exec (.resumeb form x) s = .next t ∧ t.at { wg := h.uid, wid := v.wid } = some (h', v')
        ∧ v'.halted = false ∧ v'.resume = some { spc := v.spc, fepc := v.fepc } ∧ v'.uni = v.uni ∧ v'.active = v.active
        ∧ ∃ g' w', t.here = some (g', w') ∧ stepped w w w')

/-- RTE (R203, R28, R29): handler mode ends and the warp goes on from the lowest address of the held record, with that record's header,
skipping what the record says was done; its loops stay as the handler left them, which is the model's choice between R203 and R177 (log 59). R28: while a
resume has not passed FEPC, every strand or engine instruction below its strand's recorded address, and every front-end instruction but FENCE, is passed over
without effect. -/
def Obligations.HandlerReturn : Prop :=
  (∀ s g w r, s.FrontNow g w → w.drained = true → w.uni.handler = true → w.held = some r →
     ∃ t g' w' d, exec .rte s = .next t ∧ WarpChanged s t g g' w w'
       ∧ (d = r.fepc ∨ d ∈ r.spc) ∧ (pcOf d).toNat ≤ (pcOf r.fepc).toNat ∧ (∀ e ∈ r.spc, (pcOf d).toNat ≤ (pcOf e).toNat)
       ∧ w' = { w with pc := d.extractLsb' 0 48, hdr := d.extractLsb' 48 16, uni := { w.uni with handler := false }, held := none, resume := some r,
                       stepping := w.stepping.map (fun _ => true) })
  ∧ (∀ s g w r, s.here = some (g, w) → w.resume = some r → w.pc.toNat < (pcOf r.fepc).toNat →
     (∀ i n len, strandForm w i = some (n, len) → w.pc.toNat < (pcOf (nth 0#64 r.spc n)).toNat → PassedOver i s g w r len)
     ∧ (∀ i, frontForm w i = true → PassedOver i s g w r 4)
     ∧ ∀ off p sense sL c, PassedOver (.brd off p sense sL c) s g w r 6)

/-- KWIN and KNEXT (R50, R51, R167, R168): the window of a bound accumulator; an unbound one, or a window out of range, is trap 0x01. -/
def Obligations.AccumulatorWindows : Prop :=
  (∀ s g w n x, s.RunsNow g w n.toNat (usesOf x) → w.exec w.hdr ≠ 0 → ∀ b, nth none w.bind n.toNat = some b →
    let v := operandOf w immZ 0 x
    v.toNat < b.m * b.n / 32 → ∃ t g' w', exec (.kwin n x) s = .next t ∧ WarpOnly s t g g' w w' 4 { w with bind := w'.bind }
      ∧ ∀ m, nth none w'.bind m = if m = n.toNat then some { b with win := v.toNat } else nth none w.bind m)
  ∧ (∀ s g w n step p, s.RunsNow g w n.toNat { writesP := if p = 0 then [] else [p.toNat] } → w.exec w.hdr ≠ 0 →
    ∀ b, nth none w.bind n.toNat = some b →
    let nw := b.m * b.n / 32
    let u := b.win + step.toNat
    ∃ t g' w', exec (.knext n step p) s = .next t ∧ WarpOnly s t g g' w w' 4 { w with bind := w'.bind, p := w'.p, presP := w'.presP }
      ∧ (∀ m, nth none w'.bind m = if m = n.toNat then some { b with win := u % nw } else nth none w.bind m)
      ∧ PredicateResult w w' p.toNat (fun _ => decide (nw ≤ u)))
  ∧ (∀ s g w n x, s.RunsNow g w n.toNat (usesOf x) → Handles s g w →
    (match nth none w.bind n.toNat with
      | none => True
      | some b => b.m * b.n / 32 ≤ (operandOf w immZ 0 x).toNat) →
    ∃ t g' w', exec (.kwin n x) s = .next t ∧ StrandTraps s t g g' w w' n.toNat 0x01 4)
  ∧ (∀ s g w n step p, s.RunsNow g w n.toNat { writesP := if p = 0 then [] else [p.toNat] } → Handles s g w → nth none w.bind n.toNat = none →
    ∃ t g' w', exec (.knext n step p) s = .next t ∧ StrandTraps s t g g' w w' n.toNat 0x01 4)

/-- Loads (R88, R195): each executing lane's accumulator takes what the bytes at its address give; memory and every other register stay. R100 item 3: a load whose bytes one older queued store of its warp covers reads that store's bytes, and memory does not matter. -/
def Obligations.LoadResults : Prop :=
  (∀ i n m size f, loadOp i = some (n, m, size, f) → ∀ s g w phys, s.RunsNow g w n.toNat (memUses m) → Undisturbed w → Legal g w m size →
     AllReach s g w m size .read phys →
     let v (l : Nat) : Word × Flags := f (leNat ((List.range size).map (fun j => spaceByte s g m.space (phys l + j))))
     let raised (j : Nat) : Prop := ∃ l, l < 32 ∧ (w.exec w.hdr).getLsbD l = true ∧ (v l).2.getLsbD j = true
     (∀ j, j < 3 → raised j → w.uni.actl.getLsbD (4 + j) = false) →
     ∃ t g' w', exec i s = .next t ∧ LoadOnly s t g g' w w' n.toNat ∧ g'.scratch = g.scratch ∧ g'.sramMarks = g.sramMarks ∧ SameMemory s t
       ∧ Result g g' w w' n.toNat (fun l => (v l).1) ∧ ∀ j, j < 5 → (g'.astat.getLsbD j = true ↔ g.astat.getLsbD j = true ∨ raised j))
  ∧ (∀ s g w n m e bs, s.RunsNow g w n.toNat (memUses m) → w.fences = [] →
     (∀ q ∈ w.pending, holdsBack q.op = false) →
     m.space = .scratch → Legal g w m 4 → AllReach s g w m 4 .read (fun l => (laneAt w m 4 l).toNat) →
     w.storeQ = [e] → e.seq < w.seq → e.space = .scratch → e.bytes = some bs →
     (∀ l i, l < 32 → (w.exec w.hdr).getLsbD l = true → i < 4 → (bs.find? (fun b => b.1 == (laneAt w m 4 l).toNat + i)).isSome = true) →
     ∃ t g' w', exec (.ldB32 n m) s = .next t ∧ LoadOnly s t g g' w w' n.toNat ∧ SameMemory s t
       ∧ Result g g' w w' n.toNat (fun l => BitVec.ofNat 32 (leNat ((List.range 4).map (fun i =>
           ((bs.find? (fun b => b.1 == (laneAt w m 4 l).toNat + i)).map Prod.snd).getD 0)))))

/-- Loads, stores and atomics with a lane out of range trap with 0x05, which stops the workgroup (R88, R318); with every lane in range and one
misaligned they trap with 0x04 in the handler: no register is written. -/
def Obligations.AddressTraps : Prop :=
  ∀ s g w m i n size, (∃ f, loadOp i = some (n, m, size, f)) ∨ (∃ f, storeOp i = some (n, m, size, f)) ∨ (size = 4 ∧ ∃ f, atomOp i = some (n, m, f)) →
    s.RunsNow g w n.toNat (memUses m) → Handles s g w → (∀ q ∈ w.storeQ, q.seq ≠ w.seq) →
    ((∀ l, l < 32 → (w.exec w.hdr).getLsbD l = true → InRange g m size (laneAt w m size l)) →
      (∃ l, l < 32 ∧ (w.exec w.hdr).getLsbD l = true ∧ laneAt w m size l % size ≠ 0) →
      ∃ t g' w', exec i s = .next t ∧ StrandTraps s t g g' w w' n.toNat 0x04 6 ∧ ∀ q ∈ w'.storeQ, q ∈ w.storeQ)
    ∧ ((∃ l, l < 32 ∧ (w.exec w.hdr).getLsbD l = true ∧ ¬InRange g m size (laneAt w m size l)) →
      ∃ t g' w' r, exec i s = .next t ∧ t.here = some (g', w') ∧ g'.stop = .trap ∧ w'.stopped = true ∧ w'.k = w.k ∧ w'.g = w.g
        ∧ w'.trapCode = 0x05 ∧ nth 0#64 w'.spc n.toNat = packPc w.hdr w.pc ∧ SameMemory s t
        ∧ t.faultsOut = s.faultsOut ++ [r] ∧ r.kind = 1 ∧ r.code = 0x05 ∧ r.pc = w.pc.toNat)

/-- Stores (R196, R100): the queue entry allocated at dispatch receives the bytes at the addresses that they go to, physical ones in global memory,
the highest executing lane's where lanes overlap; memory stays until the entry drains. The drain of the oldest store-queue entry (R100): its bytes
are in the scratchpad, or in memory under the ASID's key, and every other byte reads as before. -/
def Obligations.StoresAndDrains : Prop :=
  (∀ i n m size f, storeOp i = some (n, m, size, f) → ∀ s g w phys, s.RunsNow g w n.toNat (memUses m) → (∀ q ∈ w.storeQ, q.seq ≠ w.seq) →
     Legal g w m size → w.exec w.hdr ≠ 0 →
     (match m.space with
       | .scratch => ∀ l j, l < 32 → (w.exec w.hdr).getLsbD l = true → j < size → ((laneAt w m size l).toNat + j) / 256 ∉ g.orphan
       | .global => AllReach s g w m size .write phys) →
     let v (l : Nat) : Nat × Flags := f w.uni.actl (laneOf (g.kval w n.toNat) l)
     let raised (j : Nat) : Prop := ∃ l, l < 32 ∧ (w.exec w.hdr).getLsbD l = true ∧ (v l).2.getLsbD j = true
     let place (l : Nat) : Nat := match m.space with
       | .scratch => (laneAt w m size l).toNat
       | .global => phys l
     let holds (l a : Nat) : Prop := l < 32 ∧ (w.exec w.hdr).getLsbD l = true ∧ place l ≤ a ∧ a < place l + size
     (∀ j, j < 3 → raised j → w.uni.actl.getLsbD (4 + j) = false) →
     ∃ t g' w' bs ps, exec i s = .next t ∧ OnlyHere s t g g' w w' ∧ g' = { g with warps := g'.warps, astat := g'.astat }
       ∧ Passed w w' 6 { w with storeQ := w.storeQ ++ [⟨w.seq, m.space, false, m.order, m.scope, some bs, ps⟩], fences := w'.fences }
       ∧ (∀ a, (∀ l, ¬holds l a) → cellAt bs a = none)
       ∧ (∀ a l, holds l a → (∀ l', l < l' → ¬holds l' a) → cellAt bs a = some (BitVec.ofNat 8 ((v l).1 / 256 ^ (a - place l))))
       ∧ (∀ p, p ∈ ps ↔ m.space = .global ∧ ∃ l, l < 32 ∧ (w.exec w.hdr).getLsbD l = true ∧ p = (laneAt w m size l).toNat / 4096)
       ∧ ∀ j, j < 5 → (g'.astat.getLsbD j = true ↔ g.astat.getLsbD j = true ∨ raised j))
  ∧ (∀ s g w e rest bs, s.at { wg := g.uid, wid := w.wid } = some (g, w) → w.storeQ = e :: rest → e.bytes = some bs →
     (bs.map Prod.fst).Nodup → (∀ q ∈ w.pending, q.seq < e.seq → q.isLoad = false) →
     (e.space = .scratch → (∀ b ∈ bs, b.1 / 256 ∉ g.absent) → (∀ q ∈ w.queued, q.seq < e.seq → holdsBack q.op = false) →
       ∃ t g' w', exec (.storeDrain g.uid w.wid) s = .next t ∧ t.at { wg := g.uid, wid := w.wid } = some (g', w')
         ∧ w' = { w with storeQ := rest, fences := lastingFences { w with storeQ := rest } }
         ∧ g' = { g with warps := g'.warps, scratch := g'.scratch, sramMarks := g'.sramMarks }
         ∧ (∀ a, g'.scratchByte a = ((bs.find? (fun b => b.1 == a)).map Prod.snd).getD (g.scratchByte a)) ∧ SameMemory s t)
     ∧ (e.space = .global → (∀ b ∈ bs, s.cutOff b.1 = false ∧ s.inAperture b.1 = false) →
       ∃ t g' w', exec (.storeDrain g.uid w.wid) s = .next t ∧ t.at { wg := g.uid, wid := w.wid } = some (g', w')
         ∧ w' = { w with storeQ := rest, fences := lastingFences { w with storeQ := rest } } ∧ g' = { g with warps := g'.warps }
         ∧ MemoryBut s t (s.wgKey g) (fun a => (bs.find? (fun b => b.1 == a)).map Prod.snd)))

/-- Atomics (R197, R106): lanes in ascending order, each sees the one before; the accumulator takes the old word; words of other addresses
stay. -/
def Obligations.AtomicResults : Prop :=
  ∀ i n m f, atomOp i = some (n, m, f) → ∀ s g w phys, s.RunsNow g w n.toNat (memUses m) → Undisturbed w → Legal g w m 4 →
    AllReach s g w m 4 .atomic phys →
    (m.space = .global → ∀ l ∈ executing w, fitted (phys l) = true
      ∧ (cellAt s.mem.owners (phys l / 64) = none ∨ cellAt s.mem.owners (phys l / 64) = some (s.wgKey g))) →
    let word (a : Nat) : Word := BitVec.ofNat 32 (leNat ((List.range 4).map (fun j => spaceByte s g m.space (a + j))))
    let r := serially (fun l o => f o (laneOf (g.kval w n.toNat) l) (laneOf (w.latchOf n.toNat) l)) phys (executing w) word
    let written (a : Nat) : Option Byte := if (executing w).any (fun l => phys l == a / 4 * 4) then
      some ((r.1 (a / 4 * 4)).extractLsb' (8 * (a % 4)) 8) else none
    ∃ t g' w', exec i s = .next t ∧ LoadOnly s t g g' w w' n.toNat ∧ g'.astat = g.astat
      ∧ Result g g' w w' n.toNat r.2
      ∧ (m.space = .scratch → SameMemory s t ∧ ∀ a, g'.scratchByte a = (written a).getD (g.scratchByte a))
      ∧ (m.space = .global → g'.scratch = g.scratch ∧ g'.sramMarks = g.sramMarks ∧ MemoryBut s t (s.wgKey g) written)

/-- LDTR (R199): blocks of a canonical panel into registers; every destination is present again, the other lanes and registers stay. -/
def Obligations.PanelLoads : Prop :=
  ∀ s g w sA r nb elem sS, let n := strandOf w none
    let dst := (List.range (nb.toNat + 1)).map (r.toNat + ·)
    let base := (w.sreg sA.toNat).toNat
    let S := (w.sreg sS.toNat).toNat
    let bytes := if elem = .b16 then 4 else if elem = .b8 then 2 else 1
    let at' (i l : Nat) : Nat := base + l % 16 * S + (match elem with
      | .b16 => 2 * (4 * i + 2 * (l / 16))
      | .b8 => 4 * i + 2 * (l / 16)
      | .b4 => 2 * i + l / 16)
    s.RunsNow g w n { regs := dst, writesG := dst } → Undisturbed w → r.toNat + nb.toNat ≤ 251 →
    base % (2 * bytes) = 0 → S % 64 = 0 →
    (∀ i l j, i ≤ nb.toNat → l < 32 → (w.exec w.hdr).getLsbD l = true → j < bytes →
      at' i l + j < 1024 * (g.header.extractLsb' 24 10).toNat ∧ (at' i l + j) / 256 ∉ g.absent ∧ (at' i l + j) / 256 ∉ g.orphan
        ∧ Sound g (at' i l + j)) →
    ∃ t g' w', exec (.ldtr sA r nb elem sS) s = .next t ∧ WarpOnly s t g g' w w' 6 { w with g := w'.g }
      ∧ (∀ q l, l < 32 → (q < r.toNat ∨ r.toNat + nb.toNat < q ∨ (w.exec w.hdr).getLsbD l = false) → laneOf (w'.greg q) l = laneOf (w.greg q) l)
      ∧ ∀ i l, i ≤ nb.toNat → l < 32 → (w.exec w.hdr).getLsbD l = true →
          laneOf (w'.greg (r.toNat + i)) l = BitVec.ofNat 32 (leNat ((List.range bytes).map (fun j => g.scratchByte (at' i l + j))))

/-- The engine instructions that start an operation and nothing else (R207 to R217, R220, R225, R231 to R236, R184, R200 to R202). A multicast clears the presence
of its destination lines at every resident receiver, the issuer among them where its bit is set (R93, R216). An ADRAIN issues once no older operation of its
class is left, and reads the record's status word and the scale record as it issues, where their pages are at hand (R109, R114, R236). -/
def Obligations.EngineIssues : Prop :=
  (∀ i s g w x, issueOf s g w i = some x → x.trap = none → s.RunsNow g w x.n x.uses → EngineRoom w x.n x.kind →
     (∀ slot rec' scale opt keep, x.kind = .adrain slot rec' scale opt keep → Undisturbed w ∧ ∀ y ∈ w.ops, y.kind.cls ≠ some .drn) →
     (∀ t ∈ opSlots x.kind (nth none w.bind x.n), w.slotBusy t w.seq = false) →
     ∃ t g' w' o, exec i s = .next t ∧ UnderWay s t g g' w w' x o)
  ∧ (∀ s g w c, let d := w.sreg c.desc.toNat
     let aux := w.sreg (c.desc.toNat + 1)
     let lines := regionLines (cpyDstRegions .mcast (w.sreg c.dst.toNat) d c.dsp 0)
     let takes (y : Workgroup) (l : Nat) : Prop := y.residence = .resident ∧ y.gang = g.gang ∧ y.rank < 16 ∧ aux.getLsbD y.rank = true ∧ l ∈ lines
       ∧ 256 * l < 1024 * (y.header.extractLsb' 24 10).toNat
     let cleared (y y' : Workgroup) : Prop := (∀ l, l ∈ y'.absent ↔ l ∈ y.absent ∨ takes y l) ∧ ∀ l, l ∈ y'.orphan ↔ l ∈ y.orphan ∧ ¬takes y l
     (dispCpy g w c .mcast).trap = none → s.RunsNow g w (strandOf w none) {} →
     EngineRoom w (strandOf w none) (.cpy .mcast 0 0 0 0 c.ssp c.dsp c.pkg) →
     ∃ t g' w' o, exec (.cpyMcast c) s = .next t ∧ t.here = some (g', w')
       ∧ Passed w w' 6 { w with ops := w.ops ++ [o], ectr := w'.ectr } ∧ w'.counter .cpy = w.counter .cpy + 1
       ∧ o.kind = .cpy .mcast (w.sreg c.src.toNat) (w.sreg c.dst.toNat) d aux c.ssp c.dsp c.pkg ∧ o.prog.pendingLines = lines
       ∧ SameMemory s t ∧ g' = { g with warps := g'.warps, absent := g'.absent, orphan := g'.orphan } ∧ cleared g g'
       ∧ (∀ y ∈ s.wgs, y.uid ≠ g.uid → ∃ y' ∈ t.wgs, y' = { y with absent := y'.absent, orphan := y'.orphan } ∧ cleared y y'))
  ∧ (∀ s g w o (rec' scale : DWord) pr sc ps, let rs : List Region := [.glob .read scale.toNat 32, .glob .read rec'.toNat 256]
     let status := numberAt s g (pr + 48) 8
     AtHand s g w o rs → StandAt s (s.view g w o rs) rec'.toNat 256 pr → StandAt s (s.view g w o rs) scale.toNat 32 sc →
     status + 4 ≤ 2 ^ 48 → status % 4 = 0 → AtHand s g w o [.glob .read status 4] → StandAt s (s.view g w o [.glob .read status 4]) status 4 ps →
     s.adrainReads g w o rec'.toNat scale.toNat =
       [BitVec.ofNat 32 (numberAt s g ps 4) :: (List.range 8).map (fun i => BitVec.ofNat 32 (numberAt s g (sc + 4 * i) 4))])

/-- KBIND, KFREE (R218, R219): the binding, the accumulator's vector value lost, the slot's tag; its words stay. -/
def Obligations.Bindings : Prop :=
  (∀ s g w n sA m nn off, let t' := tileSlot w sA off
    let dim (d : Dim) : Nat := match d with
      | .d16 => 16
      | .d32 => 32
      | .d64 => 64
    t' < slotsOf g → s.RunsNow g w n.toNat {} → (w.queued.filter QEntry.isEngine).length < 8 →
    ∃ t g' w', exec (.kbind n sA m nn off) s = .next t ∧ OnlyHere s t g g' w w' ∧ g' = { g with warps := g'.warps, slots := g'.slots }
      ∧ Passed w w' 6 { w with bind := w'.bind, k := w'.k, mstat := w'.mstat }
      ∧ (∀ q, nth none w'.bind q = if q = n.toNat then some { slot := t', m := dim m, n := dim nn, win := 0 } else nth none w.bind q)
      ∧ (∀ q, q ≠ n.toNat → nth zeroLanes w'.k q = nth zeroLanes w.k q)
      ∧ g'.slotTag t' = (dim m, dim nn) ∧ (∀ u, u ≠ t' → u < g.slots.length → g'.slotTag u = g.slotTag u) ∧ ∀ u i, g'.slotWord u i = g.slotWord u i)
  ∧ (∀ s g w n b, nth none w.bind n.toNat = some b → w.bindAt n.toNat = some b → s.RunsNow g w n.toNat {} →
      (w.queued.filter QEntry.isEngine).length < 8 →
    ∃ t g' w', exec (.kfree n) s = .next t ∧ OnlyHere s t g g' w w' ∧ g' = { g with warps := g'.warps }
      ∧ Passed w w' 6 { w with bind := w'.bind, k := w'.k }
      ∧ (∀ q, nth none w'.bind q = if q = n.toNat then none else nth none w.bind q)
      ∧ (∀ l, l < 32 → laneOf (g'.kval w' n.toNat) l = 0) ∧ ∀ q, q ≠ n.toNat → nth zeroLanes w'.k q = nth zeroLanes w.k q)
  ∧ (∀ s g w n sA m nn off, slotsOf g ≤ tileSlot w sA off → s.RunsNow g w n.toNat {} → Handles s g w →
      TrapsAt (.kbind n sA m nn off) s g w 0x01)
  ∧ (∀ s g w n, w.bindAt n.toNat = none → s.RunsNow g w n.toNat {} → Handles s g w → TrapsAt (.kfree n) s g w 0x01)

/-- MMA (R221 to R223): a member that has not signed signs its register and its operation is under way; the last signer of agreeing members fires
it for all of them, and the register is clear again. -/
def Obligations.MatrixSigns : Prop :=
  ∀ s g w n sA sB f cv gB b c, nth none w.bind n.toNat = some b → w.bindAt n.toNat = some b → g.cv[cv.toNat]? = some c →
    c.signed.getLsbD w.wid = false → w.wid < 32 →
    let base := w.sreg sA.toNat
    let panel := w.sreg sB.toNat
    let regs := mmaRegs g (some b) f cv.toNat gB.toNat
    firstCheck (mmaChecks g w (some b) base panel f cv.toNat) = none →
    s.RunsNow g w n.toNat { regs := regs, readsG := regs } → EngineRoom w n.toNat (.mma base panel f cv.toNat gB.toNat) →
    w.slotBusy b.slot w.seq = false →
    let fires : Prop := c.signs + 1 = laneCount c.members
    let agrees : Prop := c.differs = false ∧ ∀ u, c.fixed = some u → u = (b.slot, b.m, b.n, f, base, panel)
    ∃ t g' w' c' o, exec (.mma n sA sB f cv gB) s = .next t ∧ t.here = some (g', w') ∧ g'.cv[cv.toNat]? = some c' ∧ o ∈ w'.ops ∧ o.id = s.nextUid
      ∧ o.kind = .mma base panel f cv.toNat gB.toNat ∧ o.lanes = c.members ∧ o.bind = some b ∧ w'.counter .mat = w.counter .mat + 1
      ∧ w'.g = w.g ∧ w'.k = w.k ∧ g'.slots = g.slots ∧ SameMemory s t
      ∧ c'.form = c.form ∧ c'.members = c.members
      ∧ (¬fires → c'.signs = c.signs + 1 ∧ c'.signed.getLsbD w.wid = true ∧ o.prog.failed = none)
      ∧ (fires → c'.signs = 0 ∧ c'.signed = 0 ∧ (agrees → o.prog.failed = none ∧ o.prog.link = some s.nextUid) ∧ (¬agrees → o.prog.failed = some 0x0F))

/-- TREG, TDROP and REPLY (R238, R239, R243): an entry at the end of the local directory; the valid entries with owner and key gone; the value of each
executing lane, widened, combined into the report that counts the lane's thread, of the census that the thread answers. -/
def Obligations.DirectoryInstructions : Prop :=
  ∀ s g w, g.hasSolicit = true → (w.queued.filter QEntry.isEngine).length < 8 → Undisturbed w →
    (∀ sA sB sC, s.RunsNow g w (strandOf w none) {} → (w.sreg sB.toNat).toNat < 2 ^ 48 → (w.sreg sC.toNat).toNat < 2 ^ 32 →
      (s.directory.filter (fun e => e.loc == g.coreIdx)).length < 256 →
      ∃ t g' w' d, exec (.treg sA sB sC) s = .next t ∧ PlainDone s t g g' w w' w ∧ g' = { g with warps := g'.warps }
        ∧ t.directory = s.directory ++ [d] ∧ d.uid = s.nextUid ∧ d.loc = g.coreIdx ∧ d.key = w.sreg sA.toNat
        ∧ d.base = (w.sreg sB.toNat).extractLsb' 0 48 ∧ d.len = (w.sreg sC.toNat).extractLsb' 0 32 ∧ d.owner = g.uid ∧ d.asid = g.asid
        ∧ d.st = .valid ∧ d.tags = [])
    ∧ (∀ sA, s.RunsNow g w (strandOf w none) {} →
      (∀ d ∈ s.directory, d.loc = g.coreIdx → d.owner = g.uid → d.key = w.sreg sA.toNat → d.st ≠ .moving) →
      ∃ t g' w', exec (.tdrop sA) s = .next t ∧ PlainDone s t g g' w w' w ∧ g' = { g with warps := g'.warps }
        ∧ ∀ d, d ∈ t.directory ↔ d ∈ s.directory ∧ ¬(d.loc = g.coreIdx ∧ d.owner = g.uid ∧ d.key = w.sreg sA.toNat ∧ d.st = .valid))
    ∧ (∀ n, s.RunsNow g w n.toNat {} → (∀ l, l < 32 → (w.exec w.hdr).getLsbD l = true → (nth none w.census l).isSome = true) →
      ∃ t g' w', exec (.reply n) s = .next t ∧ PlainDone s t g g' w w' w ∧ g' = { g with warps := g'.warps }
        ∧ t.directory = s.directory ∧ t.censuses.length = s.censuses.length
        ∧ ∀ (i : Nat) (c : Census), s.censuses[i]? = some c → (∀ (j : Nat) (x : Census), s.censuses[j]? = some x → x.id = c.id → j = i) →
            ∃ c' : Census, t.censuses[i]? = some c' ∧ c' = { c with reports := c'.reports } ∧ c'.reports.length = c.reports.length
              ∧ ∀ (k : Nat) (r : LocReport), c.reports[k]? = some r →
                  let value : DWord := ((executing w).filter (fun l => answersTo g w c k l)).foldl
                    (fun v l => censusValue c.op v (replied c.op (laneOf (g.kval w n.toNat) l))) r.value
                  c'.reports[k]? = some { r with value := value })

/-- TMOVE, SOLICIT and SPAWN as they issue (R13, R37, R183, R240, R241, R244): the entry that moves; the census, which is to visit every core and dormant
directory of its scope; a child for each executing lane, with that lane's value and the lowest free thread number. -/
def Obligations.CensusIssues : Prop :=
  ∀ s g w, Undisturbed w → (w.queued.filter QEntry.isEngine).length < 8 →
    (∀ sA sB sC d, s.RunsNow g w (strandOf w none) {} → g.hasSolicit = true → w.counter .cpy < 63 →
      (w.sreg sB.toNat).toNat < 192 → s.moveEntry g (w.sreg sA.toNat) = some d →
      d.base.toNat + d.len.toNat ≤ 2 ^ 48 → (w.sreg sC.toNat).toNat + d.len.toNat ≤ 2 ^ 48 → (w.sreg sC.toNat).toNat < 2 ^ 48 →
      ∃ t g' w' o, exec (.tmove sA sB sC) s = .next t ∧ PlainDone s t g g' w w' { w with ops := w.ops ++ [o], ectr := w'.ectr }
        ∧ w'.counter .cpy = w.counter .cpy + 1 ∧ o.kind = .tmove (w.sreg sA.toNat) (w.sreg sB.toNat) (w.sreg sC.toNat) ∧ o.prog.link = some d.uid
        ∧ t.directory = s.directory.map (fun e => if e.uid == d.uid then
            { d with st := .moving, dest := (w.sreg sB.toNat).toNat / 64 * 64 + (w.sreg sB.toNat).toNat % 64, keep := d.tags } else e))
    ∧ (∀ sA sB sC op pkg d, s.RunsNow g w (strandOf w none) {} → g.hasSolicit = true → w.counter .cen < 63 →
      (w.sreg sC.toNat).toNat < 2 ^ 48 → (w.sreg sC.toNat).getLsbD 0 = false → s.solicits = [] →
      (s.censuses.filter (fun c => c.core == g.coreIdx)).length < 16 → s.censuses.length < 1024 →
      ∃ t g' w' o c, exec (.solicit sA sB sC op pkg d) s = .next t ∧ PlainDone s t g g' w w' { w with ops := w.ops ++ [o], ectr := w'.ectr }
        ∧ w'.counter .cen = w.counter .cen + 1 ∧ t.censuses = s.censuses ++ [c] ∧ (∀ x ∈ s.censuses, x.id ≠ c.id) ∧ c.id < 1024
        ∧ (∀ d k, (d < 3 ∧ (pkg = true ∨ d = g.die)) → k < 64 → 64 * d + k ∈ c.toVisit ∧ 192 + d ∈ c.toVisit)
        ∧ (∀ x ∈ c.toVisit, ∃ d k, (pkg = true ∧ d < 3 ∨ pkg = false ∧ d = g.die) ∧ k < 64 ∧ (x = 64 * d + k ∨ x = 192 + d))
        ∧ (g.die < 3 → c.toVisit.Nodup) ∧ c.owes = [] ∧ c.reports = [] ∧ c.balance = 0 ∧ c.dormant = 0 ∧ c.full = false
        ∧ c.wg = g.uid ∧ c.core = g.coreIdx ∧ c.asid = g.asid ∧ c.key = w.sreg sA.toNat ∧ c.mask = w.sreg sB.toNat
        ∧ c.entry = (w.sreg sC.toNat).extractLsb' 0 48 ∧ c.op = op ∧ c.value = cenIdentity op ∧ c.responders = 0 ∧ o.prog.census = some c.id
        ∧ c.opId = o.id)
    ∧ (∀ n sA, s.RunsNow g w n.toNat {} → w.uni.handler = false → w.counter .spw < 63 → (∀ y ∈ g.warps, y.block = .none) →
      (w.sreg sA.toNat).toNat < 2 ^ 48 → (w.sreg sA.toNat).getLsbD 0 = false → w.exec w.hdr ≠ 0 →
      g.liveThreads + laneCount (w.exec w.hdr) ≤ 1024 → (∀ b ∈ g.bins, b.key ≠ groupKey w ((w.sreg sA.toNat).extractLsb' 0 48)) →
      g.bins.length < g.binsMax → s.hamperUsed g + laneCount (w.exec w.hdr) * (136 + 16 * g.baseGranules) + 640 ≤ 262144 →
      ∃ t g' w' o b, exec (.spawn n sA) s = .next t ∧ PlainDone s t g g' w w' { w with ops := w.ops ++ [o], ectr := w'.ectr }
        ∧ w'.counter .spw = w.counter .spw + 1 ∧ o.prog.done = true ∧ g' = { g with warps := g'.warps, bins := g.bins ++ [b] }
        ∧ b.key = groupKey w ((w.sreg sA.toNat).extractLsb' 0 48) ∧ b.threads.length = laneCount (w.exec w.hdr)
        ∧ b.deadline = s.clk + 2 ^ (7 + g.timerExp) ∧ b.expired = false ∧ (g.stop = .none → w.halted = false → b.rest = none)
        ∧ (∀ i l, (executing w)[i]? = some l → ∃ c, b.threads[i]? = some c ∧ ChildOf g c (laneOf (g.kval w n.toNat) l)
            ∧ c.tid < 1024 ∧ c.tid ∉ g.tids ∧ (∀ j d, b.threads[j]? = some d → d.tid = c.tid → j = i)
            ∧ ∀ y, y < c.tid → y ∈ g.tids ∨ ∃ (j : Nat) (d : Thread), j < i ∧ b.threads[j]? = some d ∧ d.tid = y)
        ∧ g'.liveThreads = g.liveThreads + laneCount (w.exec w.hdr))

/-- PMRD and PMCTL (R246): a counter that is not counting reads its 48 bits, one never configured 0; PMCTL keeps EN, WARP and EVENT, and CLR
clears it, else it keeps its count. -/
def Obligations.PerformanceCounters : Prop :=
  ∀ s g w, (w.queued.filter QEntry.isEngine).length < 8 →
    (∀ cnt r v, s.RunsNow g w (strandOf w none) { regs := [r.toNat, r.toNat + 1], writesG := [r.toNat, r.toNat + 1] } → r.toNat ≤ 250 →
      (s.counterOf g cnt.toNat = none ∧ v = 0 ∨ ∃ c, s.counterOf g cnt.toNat = some c ∧ c.config.getLsbD 30 = false ∧ v = c.count.toNat) →
      ∃ t g' w', exec (.pmrd cnt r) s = .next t ∧ PlainDone s t g g' w w' { w with g := w'.g } ∧ g' = { g with warps := g'.warps }
        ∧ ∀ q l, l < 32 → laneOf (w'.greg q) l = if (w.exec w.hdr).getLsbD l = true ∧ q = r.toNat then BitVec.ofNat 32 v
            else if (w.exec w.hdr).getLsbD l = true ∧ q = r.toNat + 1 then BitVec.ofNat 32 (v / 2 ^ 32) else laneOf (w.greg q) l)
    ∧ (∀ cnt sA, let v := w.sreg sA.toNat
      s.RunsNow g w (strandOf w none) {} → v.toNat < 2 ^ 32 → v.extractLsb' 16 13 = 0 → (v.extractLsb' 0 16).toNat ≤ 0x1B →
      ∃ t g' w' c, exec (.pmctl sA cnt) s = .next t ∧ PlainDone s t g g' w w' w ∧ g' = { g with warps := g'.warps }
        ∧ t.counterOf g cnt.toNat = some c ∧ c.config = v &&& 0x6000FFFF#64 ∧ c.wg = g.uid ∧ c.wid = w.wid
        ∧ (v.getLsbD 31 = true → v.getLsbD 30 = false → c.count = 0)
        ∧ ∀ c0, s.counterOf g cnt.toNat = some c0 → c0.config.getLsbD 30 = false → v.getLsbD 31 = false → v.getLsbD 30 = false → c.count = c0.count)

/-- PMASK, PCFG, FQCFG and the plain registers of the windows (R305, R316, R320, R353, R358). DBq (R306 to R308): bit 0 loads the descriptor; then, for an enabled copy, the records at HEAD are read in turn while each is valid. The
descriptor's fields are as memory holds them; a queue with no copy, or a disabled one, reads nothing. -/
def Obligations.WindowRegistersAndDoorbells : Prop :=
  (∀ s,
     (∀ p v, p.toNat < 192 →
       (∀ q, (s.partition p.toNat).cfg.getLsbD 9 = false → q = s.partition p.toNat →
         ∃ t, exec (.pmaskWrite p v) s = .next t ∧ SetsPartition s t p.toNat v q.cfg)
       ∧ ((s.partition p.toNat).cfg.getLsbD 9 = true → exec (.pmaskWrite p v) s = .next s))
     ∧ (∀ p v, p.toNat < 192 → let x := s.partition p.toNat
       (x.cfg.getLsbD 9 = false → v.getLsbD 9 = false →
         ∃ t, exec (.pcfgWrite p v) s = .next t ∧ SetsPartition s t p.toNat x.mask (v &&& pcfgKept))
       ∧ (x.cfg.getLsbD 9 = false → ¬MayEnable s p.toNat v →
         ∃ t, exec (.pcfgWrite p v) s = .next t ∧ SetsPartition s t p.toNat x.mask (v &&& pcfgKept &&& ~~~0x200#64))
       ∧ (x.cfg.getLsbD 9 = false → MayEnable s p.toNat v → v.getLsbD 9 = true →
         ∃ t, exec (.pcfgWrite p v) s = .next t ∧ Repartitions s t p.toNat x.mask (v &&& pcfgKept)
           ∧ SliceAfterEnabling s t p.toNat (v.extractLsb' 16 6).toNat ∧ StrictClocksSet s t
           ∧ CoresGiven s t (p.toNat / 64) (v.extractLsb' 16 6).toNat)
       ∧ (x.cfg.getLsbD 9 = true →
         ∃ t c, exec (.pcfgWrite p v) s = .next t ∧ Repartitions s t p.toNat x.mask c ∧ c.extractLsb' 48 16 = v.extractLsb' 48 16
           ∧ c.extractLsb' 10 38 = x.cfg.extractLsb' 10 38 ∧ c.extractLsb' 0 9 = x.cfg.extractLsb' 0 9
           ∧ (c.getLsbD 9 = true ↔ v.getLsbD 9 = true ∨ s.hasWork x = true)
           ∧ t.mgmt.clocks = s.mgmt.clocks
           ∧ (c.getLsbD 9 = true → t.slices = s.slices ∧ t.coreUse = s.coreUse ∧ t.coreBound = s.coreBound ∧ t.tlb = s.tlb)
           ∧ (c.getLsbD 9 = false → CoresGiven s t (p.toNat / 64) (x.cfg.extractLsb' 16 6).toNat)
           ∧ ∀ y, s.slice (p.toNat / 64) (x.cfg.extractLsb' 16 6).toNat = some y → y.running ≠ p.toNat → (s.partition y.running).on = true →
               y.running / 64 = p.toNat / 64 → (s.partition y.running).group = (x.cfg.extractLsb' 16 6).toNat → y.running < 192 → t.slices = s.slices))
     ∧ (∀ v, ∃ t, exec (.fqcfgWrite v) s = .next t ∧ t = { s with fqCfg := v &&& 0x11F#64 })
     ∧ (∀ win off v, ∃ t, exec (.registerWrite win off v) s = .next t ∧ SameMemory s t ∧ t.wgs = s.wgs
       ∧ (∀ m, keptRegister win off = some m → t.windowRead win off = v &&& m)
       ∧ (keptRegister win off = none → t = s)
       ∧ ∀ win' off', win' ≠ win ∨ off' ≠ off → t.windowRead win' off' = s.windowRead win' off'))
  ∧ (∀ s (q : BitVec 16),
     let f (off n : Nat) : Nat := s.sysRead (s.qtBase.toNat + 64 * q.toNat + off) n
     let good : Prop := f 28 1 = 1 ∧ (∀ i, i < 35 → f (29 + i) 1 = 0) ∧ f 22 2 = 0 ∧ 1 ≤ f 24 1 ∧ f 24 1 ≤ 16 ∧ f 0 8 % 256 = 0
       ∧ f 25 1 < 8 ∧ f 26 2 < 512
     (∀ x, s.queue q.toNat = some x → x.enabled = false → exec (.dbRing q) s = .next s)
     ∧ (s.queue q.toNat = none → exec (.dbRing q) s = .next s)
     ∧ (∀ x, s.queue q.toNat = some x → x.enabled = true →
         s.distRead x.asid (x.ring.toNat + 256 * (f 12 4 % 2 ^ x.log2)) 8 ≠ some (2 ^ 32 + f 12 4) → f 12 4 < 2 ^ 32 →
         (∀ v, s.distRead x.asid (x.ring.toNat + 256 * (f 12 4 % 2 ^ x.log2)) 8 = some v → v < 2 ^ 33) →
         exec (.dbRing q) s = .next s)
     ∧ (¬good → ∃ t x, exec (.dbLoadDescriptor q) s = .next t ∧ t = { s with queues := t.queues } ∧ t.queue q.toNat = some x ∧ x.enabled = false
         ∧ ∀ r, r ≠ q.toNat → t.queue r = s.queue r)
     ∧ (good → f 12 4 < 2 ^ 32 → s.distRead (f 26 2) (f 0 8 + 256 * (f 12 4 % 2 ^ f 24 1)) 8 = some 0 →
         ∃ t x, exec (.dbLoadDescriptor q) s = .next t ∧ t = { s with queues := t.queues } ∧ t.queue q.toNat = some x ∧ x.enabled = true
           ∧ x.ring.toNat = f 0 8 ∧ x.log2 = f 24 1 ∧ x.prio = f 25 1 ∧ x.asid = f 26 2 ∧ ∀ r, r ≠ q.toNat → t.queue r = s.queue r)
     ∧ (∀ x k (ss : Nat → State), s.queue q.toNat = some x → x.enabled = true → ss 0 = s → k ≤ 2 ^ x.log2 →
         (∀ j, j < k → ∃ y w r, (ss j).queue q.toNat = some y ∧ recordAt (ss j) y ((ss j).qHead q.toNat) = some (w, r)
           ∧ ss (j + 1) = (ss j).takeRecord q.toNat y ((ss j).qHead q.toNat) w r) →
         (k < 2 ^ x.log2 → ∀ y, (ss k).queue q.toNat = some y → recordAt (ss k) y ((ss k).qHead q.toNat) = none) →
         exec (.dbRing q) s = .next (ss k))
     ∧ (∀ x head w r, s.queue q.toNat = some x → let t := s.takeRecord q.toNat x head w r
         t = { s with mem := t.mem, marks := t.marks, queues := t.queues }
         ∧ t.queue q.toNat = some { x with waiting := x.waiting ++ [(head, parseLaunch r)] } ∧ (∀ p, p ≠ q.toNat → t.queue p = s.queue p)
         ∧ ((∀ l, l < 4 → fitted (physKey 0 0 (s.qtBase.toNat + 64 * q.toNat + 12) + l) = true) → t.qHead q.toNat = (head + 1) % 2 ^ 32)
         ∧ ∀ pk key i, s.distXlat x.asid (x.entryAddr head) true = some pk → s.cutOff pk = false → s.keyOf x.asid = some key → i < 8 →
             fitted (pk + i) = true →
             (∀ j l, j < 8 → l < 4 → (pk + j) / 64 ≠ (physKey 0 0 (s.qtBase.toNat + 64 * q.toNat + 12) + l) / 64) →
             t.readByte key (pk + i) = BitVec.ofNat 8 ((w - 2 ^ 32) / 256 ^ i)))

/-- Shootdowns (R327, R328): one is queued by each write, in the order written; the oldest completes once its translations' stores have drained,
SHOOTST counts it, and no core keeps a named translation or pin. The dump aperture (R209, R335, R336): an aligned word of a window that is open acts as
R336 says, in the warp block, the accumulators and latches, the registers, the scratchpad and the tile slots; every other word, and every
other window, ignores it. PROG changes POS and PHASE of a stopped operation, within its extent. -/
def Obligations.ShootdownsAndAperture : Prop :=
  (∀ s,
     (∀ i v, shootOp v i = true → ∃ t x, exec i s = .next t ∧ t = { s with shoots := s.shoots ++ [x] } ∧ x.kind = kindOf v
       ∧ x.asid = (v.extractLsb' 52 9).toNat ∧ x.size = (v.extractLsb' 50 2).toNat ∧ x.vpn = (v.extractLsb' 12 36).toNat
       ∧ (x.void = false ↔ (kindOf v = 0 ∨ kindOf v = 2 ∨ kindOf v = 3) ∧ cleanShoot v))
     ∧ (∀ x rest, s.shoots = x :: rest → x.void = true →
       exec .shootdownComplete s = .next { s with shoots := rest, shootSt := s.shootSt + 1 })
     ∧ (∀ x rest, s.shoots = x :: rest → x.void = false → Drained s x →
       ∃ t, exec .shootdownComplete s = .next t ∧ t.shoots = rest ∧ t.shootSt = s.shootSt + 1 ∧ SameMemory s t
         ∧ (∀ e ∈ t.tlb, e ∈ s.tlb ∧ (e.asid = x.asid → x.kind = 0 ∧ ∀ va, namesPage x va →
             ¬(e.vpn * 2 ^ (12 + 9 * e.level) ≤ va ∧ va < (e.vpn + 1) * 2 ^ (12 + 9 * e.level))))
         ∧ (∀ e ∈ s.tlb, e.asid ≠ x.asid → e ∈ t.tlb)
         ∧ (∀ g ∈ t.wgs, g.asid = x.asid → ∀ l ∈ g.pins, x.kind = 0 ∧ ¬namesPage x (256 * l))
         ∧ (x.kind = 3 → t.asidEntry x.asid = some (s.asidInMemory x.asid)) ∧ (x.kind ≠ 3 → t.asids = s.asids)))
  ∧ (∀ s pa,
     (∀ v, (s.inAperture pa = false ∨ pa % 4 ≠ 0) → exec (.apertureWrite pa v) s = .next s)
     ∧ (∀ v g, let off := pa - s.dapBase.toNat
       let o := off % 2 ^ 23
       s.inAperture pa = true → pa % 4 = 0 → s.windowWg (off / 2 ^ 34) (off / 2 ^ 28 % 64) (off / 2 ^ 23 % 32) = some g →
       (g.apOpen = false → exec (.apertureWrite pa v) s = .next s)
       ∧ (g.apOpen = true →
         (¬WritableWord g o → (∀ x ∈ s.wgs, x.uid = g.uid → x = g) → exec (.apertureWrite pa v) s = .next s)
         ∧ (∀ w, 0x1000 ≤ o → o < 0x21000 → g.warp ((o - 0x1000) / 0x1000) = some w → ∃ w', exec (.apertureWrite pa v) s = .next (s.put g w')
             ∧ BlockWritten w w' (o % 0x1000) v)
         ∧ (∀ w, 0x40000 ≤ o → o < 0x60000 → g.warp ((o - 0x40000) / 0x1000) = some w →
             let n := o % 0x800 / 128
             let l := o % 128 / 4
             (o % 0x1000 < 0x800 → nth none w.bind n = none → ∃ w', exec (.apertureWrite pa v) s = .next (s.put g w') ∧ w' = { w with k := w'.k }
               ∧ ∀ m j, j < 32 → laneOf (nth zeroLanes w'.k m) j = if m = n ∧ j = l then v else laneOf (nth zeroLanes w.k m) j)
             ∧ (∀ b, o % 0x1000 < 0x800 → nth none w.bind n = some b → ∃ g', exec (.apertureWrite pa v) s = .next (s.setWg g')
               ∧ g' = { g with slots := g'.slots, sramMarks := g'.sramMarks, warps := g'.warps } ∧ g'.warps = g.warps.map (fun x => if x.wid == w.wid then w else x)
               ∧ ∀ t i, g'.slotWord t i = if t = b.slot ∧ i = 32 * b.win + l then v else g.slotWord t i)
             ∧ (0x800 ≤ o % 0x1000 → ∃ w', exec (.apertureWrite pa v) s = .next (s.put g w') ∧ w' = { w with latch := w'.latch }
               ∧ ∀ m j, j < 32 → laneOf (w'.latchOf m) j = if m = n ∧ j = l then v else laneOf (w.latchOf m) j))
         ∧ (∀ w, 0x80000 ≤ o → o < 0x180000 → g.warp ((o - 0x80000) / 0x8000) = some w → o % 0x8000 / 128 < 4 * w.granules →
             ∃ w', exec (.apertureWrite pa v) s = .next (s.put g w') ∧ w' = { w with g := w'.g }
               ∧ ∀ r l, l < 32 → laneOf (w'.greg r) l = if r = o % 0x8000 / 128 ∧ l = o % 128 / 4 then v else laneOf (w.greg r) l)
         ∧ (0x180000 ≤ o → o < 0x200000 → o - 0x180000 + 4 ≤ g.scratchSize →
             ∃ g', exec (.apertureWrite pa v) s = .next (s.setWg g') ∧ g' = { g with scratch := g'.scratch, sramMarks := g'.sramMarks }
               ∧ ∀ a, g'.scratchByte a = if o - 0x180000 ≤ a ∧ a < o - 0x180000 + 4 then v.extractLsb' (8 * (a - (o - 0x180000))) 8 else g.scratchByte a)
         ∧ (0x400000 ≤ o → (o - 0x400000) / 0x4000 < g.slotCount →
             ∃ g', exec (.apertureWrite pa v) s = .next (s.setWg g') ∧ g' = { g with slots := g'.slots, sramMarks := g'.sramMarks }
               ∧ ∀ t i, g'.slotWord t i = if t = (o - 0x400000) / 0x4000 ∧ i = o % 0x4000 / 4 then v else g.slotWord t i)))
     ∧ (∀ v g wid w, s.inAperture pa = true →
       s.windowWg ((pa - s.dapBase.toNat) / 2 ^ 34) ((pa - s.dapBase.toNat) / 2 ^ 28 % 64) ((pa - s.dapBase.toNat) / 2 ^ 23 % 32) = some g →
       (pa - s.dapBase.toNat) % 2 ^ 23 = 0x1000 + 0x1000 * wid + 0x0A8 → wid < 32 → g.warp wid = some w →
       (g.apOpen = true → ∃ w', exec (.progWrite pa v) s = .next (s.put g w') ∧ ProgWritten w w' v)
       ∧ (g.apOpen = false → exec (.progWrite pa v) s = .next s)))

/-- The mailbox (R353 to R355, R358, R361, R362): while a command runs, MBSTAT shows BUSY and a write of MBCMD is ignored; else every command's RESULT
and effect. KEYNEW's key is one that no other slot holds; the ASID and class of CLASS are read as log 30 says. -/
def Obligations.MailboxCommands : Prop :=
  (∀ s,
     (s.clk < s.mgmt.mbUntil → (s.windowRead .mailbox 0x18).getLsbD 0 = true ∧ ∀ i, mailboxWrite i = true → exec i s = .next s)
     ∧ (s.mgmt.mbUntil ≤ s.clk → s.windowRead .mailbox 0x18 = BitVec.ofNat 64 (256 * s.mgmt.mbResult)))
  ∧ ∀ s, s.mgmt.mbUntil ≤ s.clk → s.mgmt.portQueue = [] → let a0 := s.mgmt.mbArg0
    let a1 := s.mgmt.mbArg1
    let ends (i : Instr) (m : Mgmt) : Prop := ∃ t, exec i s = .next t ∧ RunsFrom s t ∧ t = { s with free := s.free + 1, mgmt := { m with mbUntil := t.mgmt.mbUntil } }
    (∀ c i, mailOp i c → Commands s c a0 a1 (fun post => ∃ t, exec i s = .next t ∧ post t.mgmt.mbResult t ∧ RunsFrom s t ∧ SameMemory s t))
    ∧ (600 ≤ a0.toNat → a0.toNat ≤ 2600 → a1 = 0 → ends .pcap { s.mgmt with capWatts := a0.toNat, mbResult := 0 })
    ∧ (a0.toNat < 600 ∨ 2600 < a0.toNat ∨ a1 ≠ 0 → ends .pcap { s.mgmt with mbResult := 1 })
    ∧ (sector64 a0 a1 →
        (∃ t, exec .errread s = .next t ∧ RunsFrom s t ∧ Delivered s t a0.toNat (oldestLog s.mgmt)
          ∧ t = { s with mem := t.mem, marks := t.marks, free := s.free + 1,
                         mgmt := { s.mgmt with log := s.mgmt.log.drop 1, logLost := 0, mbResult := 0, mbUntil := t.mgmt.mbUntil } })
        ∧ (∃ t bs, exec .telem s = .next t ∧ RunsFrom s t ∧ TelemetryOf s.mgmt.telem bs ∧ Delivered s t a0.toNat bs
          ∧ t = { s with mem := t.mem, marks := t.marks, free := s.free + 1, mgmt := { s.mgmt with mbResult := 0, mbUntil := t.mgmt.mbUntil } })
        ∧ ends .portkey { s.mgmt with portKey := BitVec.ofNat 256 (s.sysRead a0.toNat 32), portSeq := 0, mbResult := 0 })
    ∧ (¬sector64 a0 a1 → ∀ i, i = .errread ∨ i = .telem ∨ i = .portkey → ends i { s.mgmt with mbResult := 1 })
    ∧ (∀ v, (v.toNat = 0 ∨ 7 < v.toNat) → ends (.mailboxUnknownOp v) { s.mgmt with mbResult := 1 })

/-- The management port (R364): the mailbox commands with the same results, ERRREAD and TELEM with their data in the reply, RESET, TRIPCLR, STATE, an
unknown OP; a frame that is not accepted is dropped, and one that comes while a mailbox command runs waits. An unknown OP answers RESULT 1 while the
package is held in reset too (log 31); a clearing with no trip is refused (log 30). -/
def Obligations.PortRequests : Prop :=
  ∀ s f,
    (∀ i op, portNumber i = some (f, op) → f.op.toNat ≠ op → exec i s = .next s)
    ∧ (s.clk < s.mgmt.mbUntil →
      let waits (i : Instr) : Prop := exec i s = .next { s with mgmt := { s.mgmt with portQueue := s.mgmt.portQueue ++ [f] } }
      (∀ i op, portNumber i = some (f, op) → f.op.toNat = op → waits i)
      ∧ (f.op.toNat ∉ [1, 2, 3, 4, 5, 6, 16, 17, 18] → waits (.portUnknownOp f)))
    ∧ (s.mgmt.mbUntil ≤ s.clk → s.mgmt.portQueue = [] →
      (¬Accepted s f → (∀ i op, portNumber i = some (f, op) → exec i s = .next s) ∧ exec (.portUnknownOp f) s = .next s)
      ∧ (Accepted s f →
        (∀ c i, portOp f i c → s.mgmt.heldInReset = false →
          Commands s c f.arg0 f.arg1 (fun post => ∃ t r, exec i s = .next t ∧ Replied s t f r 0 0 [] ∧ post r t ∧ SameMemory s t))
        ∧ (f.op.toNat = 6 → s.mgmt.heldInReset = false → ∃ t, exec (.portPcap f) s = .next t
          ∧ (if 600 ≤ f.arg0.toNat ∧ f.arg0.toNat ≤ 2600 ∧ f.arg1 = 0 then
               Replied s t f 0 0 0 [] ∧ OnlyReplied { s with mgmt := { s.mgmt with capWatts := f.arg0.toNat } } t
             else Replied s t f 1 0 0 [] ∧ OnlyReplied s t))
        ∧ (s.mgmt.heldInReset = true → ∀ i op, portNumber i = some (f, op) → op < 7 → op ≠ 4 → f.op.toNat = op →
          ∃ t, exec i s = .next t ∧ Replied s t f 3 0 0 [] ∧ OnlyReplied s t)
        ∧ (f.op.toNat = 4 → f.arg0 = 0 → f.arg1 = 0 → ∃ t, exec (.portErrread f) s = .next t ∧ Replied s t f 0 0 0 (oldestLog s.mgmt)
          ∧ OnlyReplied { s with mgmt := { s.mgmt with log := s.mgmt.log.drop 1, logLost := 0 } } t)
        ∧ (f.op.toNat = 5 → s.mgmt.heldInReset = false → f.arg0 = 0 → f.arg1 = 0 →
          ∃ t bs, exec (.portTelem f) s = .next t ∧ Replied s t f 0 0 0 bs ∧ TelemetryOf s.mgmt.telem bs ∧ OnlyReplied s t)
        ∧ (f.op.toNat = 4 ∨ (f.op.toNat = 5 ∧ s.mgmt.heldInReset = false) → f.arg0 ≠ 0 ∨ f.arg1 ≠ 0 → ∀ i, portNumber i = some (f, f.op.toNat) →
          ∃ t, exec i s = .next t ∧ Replied s t f 1 0 0 [] ∧ OnlyReplied s t)
        ∧ (f.op.toNat = 16 → ∃ t, exec (.portReset f) s = .next t ∧ Replied s t f 0 0 0 [] ∧ t.powered = false
          ∧ OnlyReplied { s with mgmt := { s.mgmt with lastStep := 0, failedStep := 0 } } t)
        ∧ (f.op.toNat = 17 → ∃ t, exec (.tripclr f) s = .next t
          ∧ let clears : Prop := (∀ d, d < 3 → s.dieTemp d < 97) ∧ s.mgmt.tripped ≠ []
            (clears → Replied s t f 0 0 0 [] ∧ t.mgmt.tripped = [] ∧ t.mgmt.heldInReset = false ∧ t.mgmt.lastStep = 0)
            ∧ (¬clears → Replied s t f 2 0 0 [] ∧ t.mgmt.tripped = s.mgmt.tripped ∧ t.mgmt.heldInReset = s.mgmt.heldInReset))
        ∧ (f.op.toNat = 18 → s.mgmt.lastStep < 16 → s.mgmt.failedStep < 16 → ∃ t v, exec (.portState f) s = .next t
          ∧ Replied s t f 0 v (BitVec.ofNat 64 s.mgmt.meanPower) [] ∧ OnlyReplied s t
          ∧ (v.extractLsb' 0 4).toNat = s.mgmt.lastStep ∧ (v.extractLsb' 4 4).toNat = s.mgmt.failedStep
          ∧ (∀ d, d < 3 → (v.getLsbD (8 + d) = true ↔ d ∈ s.mgmt.tripped)) ∧ v.getLsbD 11 = s.mgmt.heldInReset ∧ v.extractLsb' 12 52 = 0)
        ∧ (f.op.toNat ∉ [1, 2, 3, 4, 5, 6, 16, 17, 18] → ∃ t, exec (.portUnknownOp f) s = .next t ∧ Replied s t f 1 0 0 [] ∧ OnlyReplied s t)))

/-- Power (R359), the telemetry's sample (R362), temperature (R360), links (R352). The order of the steps back, that an excess is logged at each sample,
and what a hot die keeps, are log 40; the clock of strict islands is log 64; the die of a link's record is log 42, and which packages a link reaches log 63. -/
def Obligations.PowerAndLinks : Prop :=
  ∀ s, s.mgmt.clocks.length = 32 →
    (∀ mw, let p := (mw :: s.mgmt.power).take 10
      let avg := p.sum / p.length
      let hot := s.mgmt.throttled.filter (fun d => decide (97 ≤ s.dieTemp d))
      let cap := s.mgmt.capWatts * 1000
      ∃ t u, exec (.powerSample mw) s = .next t ∧ AtStrictClock s u hot ∧ u = { s with mgmt := { s.mgmt with clocks := u.mgmt.clocks } }
        ∧ t = { s with free := t.free, mgmt := { s.mgmt with power := p, throttled := hot, clocks := t.mgmt.clocks, withheld := t.mgmt.withheld,
                                                             log := t.mgmt.log, logLost := t.mgmt.logLost, sinceTelem := t.mgmt.sinceTelem, telem := t.mgmt.telem } }
        ∧ (cap < avg → Lowers u t) ∧ (avg * 100 < cap * 95 → Raises u t hot)
        ∧ (avg ≤ cap → cap * 95 ≤ avg * 100 → t.mgmt.clocks = u.mgmt.clocks ∧ t.mgmt.withheld = s.mgmt.withheld ∧ NoLog s t)
        ∧ (s.mgmt.sinceTelem + 1 < 10 → t.mgmt.telem = s.mgmt.telem ∧ t.mgmt.sinceTelem = s.mgmt.sinceTelem + 1)
        ∧ (10 ≤ s.mgmt.sinceTelem + 1 → t.mgmt.sinceTelem = 0 ∧ t.mgmt.telem.clk = s.clk ∧ t.mgmt.telem.power = avg
            ∧ t.mgmt.telem.capWatts = s.mgmt.capWatts ∧ t.mgmt.telem.clocks = t.mgmt.clocks))
    ∧ (∀ die : BitVec 2, die.toNat < 3 →
      (∃ t, exec (.thermalThrottle die) s = .next t ∧ ClocksMove s t (fun i => i / 10 = die.toNat) (· - 25)
        ∧ (die.toNat ∈ s.mgmt.throttled → NoLog s t) ∧ (die.toNat ∉ s.mgmt.throttled → Logs s t 6 die.toNat 0 0)
        ∧ (∀ d, d ∈ t.mgmt.throttled ↔ d = die.toNat ∨ d ∈ s.mgmt.throttled)
        ∧ t = { s with mgmt := { s.mgmt with clocks := t.mgmt.clocks, throttled := t.mgmt.throttled, log := t.mgmt.log, logLost := t.mgmt.logLost } })
      ∧ ∃ t, exec (.thermalTrip die) s = .next t ∧ Logs s t 7 die.toNat 0 0 ∧ t.mgmt.heldInReset = true ∧ t.powered = false
        ∧ (∀ d, d ∈ t.mgmt.tripped ↔ d = die.toNat ∨ d ∈ s.mgmt.tripped)
        ∧ t = { s with mgmt := { s.mgmt with tripped := t.mgmt.tripped, heldInReset := true, log := t.mgmt.log, logLost := t.mgmt.logLost } })
    ∧ (∀ (link : BitVec 4) ps,
      ((∀ l ∈ s.linksDown, l.1 ≠ link.toNat) →
        (∃ t, exec (.linkDown link ps) s = .next t ∧ t.linksDown = (link.toNat, ps) :: s.linksDown ∧ Logs s t 4 20 link.toNat 0
          ∧ (∀ pk, physTier pk = 2 → physPkg pk ∈ ps → t.cutOff pk = true) ∧ SameMemory s t)
        ∧ exec (.linkUp link) s = .next s)
      ∧ ((∃ l ∈ s.linksDown, l.1 = link.toNat) →
        exec (.linkDown link ps) s = .next s
        ∧ ∃ t, exec (.linkUp link) s = .next t ∧ Logs s t 5 20 link.toNat 0 ∧ SameMemory s t
          ∧ (∀ pk, Config.linkReaches link.toNat (physPkg pk) = true → t.cutOff pk = false)
          ∧ ∀ l, l ∈ t.linksDown ↔ ∃ m ∈ s.linksDown, m.1 ≠ link.toNat ∧ l = (m.1, m.2.filter (fun p => !(Config.linkReaches link.toNat p)))))

/-- Errors (R115, R361), bring-up (R2, R363), and the loader (R281 to R294): the refusal that each pass reports, what a load keeps, and that nothing of
a refused file stays. The place of a core-SRAM error is log 65, the addresses of a load log 16. -/
def Obligations.ErrorsAndBringUp : Prop :=
  ∀ s,
    (∀ pa loc, let sector := errorByte pa loc / 64
      let n := ((correctedAt s sector).map Corrected.count).getD 0 + 1
      let due : Prop := ∀ c t0, correctedAt s sector = some c → c.loggedAt = some t0 → t0 + 3600000000 * 1750 ≤ s.clk
      ∃ t c, exec (.errorCorrected pa loc) s = .next t ∧ correctedAt t sector = some c ∧ c.count = n ∧ (due → c.loggedAt = some s.clk)
        ∧ (∀ x, x ≠ sector → correctedAt t x = correctedAt s x) ∧ (due → Logs s t 1 (locOf loc) (pa / 64 * 64) n) ∧ (¬due → NoLog s t)
        ∧ t = { s with mgmt := { s.mgmt with corrected := t.mgmt.corrected, log := t.mgmt.log, logLost := t.mgmt.logLost } })
    ∧ (∀ pa loc scrub, let sram : Prop := loc.unit = 4 ∧ s.inAperture pa = true
      let off := pa - s.dapBase.toNat
      ∃ t, exec (.errorUncorrectable pa loc scrub) s = .next t ∧ Logs s t (if scrub then 3 else 2) (locOf loc) (pa / 64 * 64) 0 ∧ SameMemory s t
        ∧ (¬sram → (∀ pk, t.marked pk = true ↔ s.marked pk = true ∨ (loc.unit ≠ 2 ∧ pk / 64 = errorByte pa loc / 64))
          ∧ (∀ g, g.residence = .resident → (g ∈ t.wgs ↔ g ∈ s.wgs)) ∧ t.wgs.length = s.wgs.length
          ∧ ∀ g ∈ s.wgs, g.residence = .cooler → loc.unit = 2 → g.die = loc.die.toNat → Config.imageHit g.uid (pa / 64) = true → g.imageLost = none →
              { g with imageLost := some (pa / 64) } ∈ t.wgs)
        ∧ (sram → t.marks = s.marks
          ∧ ∀ g, s.windowWg (off / 2 ^ 34) (off / 2 ^ 28 % 64) (off / 2 ^ 23 % 32) = some g →
              ∃ g', g' = { g with sramMarks := g'.sramMarks } ∧ t.wgs = s.wgs.map (fun x => if x.uid = g.uid then g' else x)
                ∧ (∀ a, scratchAt g (off % 2 ^ 23) = some a → ∀ b, g'.anyMarked b 1 = true ↔ g.anyMarked b 1 = true ∨ b / 64 = a / 64)
                ∧ (∀ u i, slotAtOffset g (off % 2 ^ 23) = some (u, i) → ∀ j, j / 16 = i / 16 → g'.slotMarked u j 1 = true)))
    ∧ exec .patrolScrub s = .next s
    ∧ (s.mgmt.heldInReset = false →
      (∃ t, exec (.bringUp 0) s = .next t ∧ BroughtUp s t)
      ∧ ∀ f : BitVec 4, 1 ≤ f.toNat → f.toNat ≤ 7 → ∃ t, exec (.bringUp f) s = .next t ∧ t.mgmt.lastStep = f.toNat - 1 ∧ t.mgmt.failedStep = f.toNat
          ∧ t.powered = false)
    ∧ (s.mgmt.heldInReset = true → ∀ f, exec (.bringUp f) s = .next s)
    ∧ (∀ file priv fin, let refuses (f : List Byte) (x : LoadRefusal) : Prop := exec (.containerLoad f priv fin) s = .next { s with refused := s.refused ++ [x] }
      (file.length < 64 ∨ file.take 8 ≠ [0x47, 0x52, 0x53, 0x4B, 1, 0, 0, 0] ∨ leNat ((file.drop 16).take 8) ≠ file.length → refuses file ⟨1, 0, 0, 0⟩)
      ∧ (headerGood file = true → (crc32 (file.drop 64)).toNat ≠ leNat ((file.drop 24).take 4) → refuses file ⟨2, 0, 0, 0⟩)
      ∧ (∀ pre r post, let rs := pre ++ r :: post
        Fits rs → (∀ x ∈ pre, Skipped rs x) →
        (¬HeaderHolds rs r → refuses (fileOf rs) ⟨5, r.id, r.type, 0⟩)
        ∧ (HeaderHolds rs r → r.flags = 1 →
          (unknownType r.type → refuses (fileOf rs) ⟨3, r.id, r.type, 0⟩)
          ∧ (∀ n, r.type = 0x20 → r.payload.take 2 = leBytes 2 n → n < 65536 → n = 0 ∨ 4 < n → refuses (fileOf rs) ⟨4, r.id, r.type, n⟩)
          ∧ (r.type = 1 → r.payload.length % 2 = 1 ∨ r.payload.length < 8 ∨ r.payload.take 8 ∉ [leBytes 8 1, leBytes 8 2] →
              refuses (fileOf rs) ⟨5, r.id, r.type, 0⟩))
        ∧ (HeaderHolds rs r → priv = false → r.type = 0x20 → r.payload = leBytes 4 3 → (∃ x ∈ rs, x.id = r.owner ∧ x.type = 2) → (∀ x ∈ rs, x.id = r.owner → x.flags = 1) →
            refuses (fileOf rs) ⟨8, r.id, r.type, 3⟩))
      ∧ (∀ rs, Fits rs → (∀ x ∈ rs, Skipped rs x) → ∃ t x, exec (.containerLoad (fileOf rs) priv fin) s = .next t ∧ x.images = [] ∧ x.kernels = []
          ∧ t = { s with loaded := s.loaded ++ [x] })
      ∧ (∀ i k flags h entry code name, let rs := [sectionRec i code, kernelRec flags k h i entry name]
        Fits rs → 0 < i → 0 < k → i ≠ k → flags ≤ 1 → code.length % 2 = 0 → entry % 64 = 0 → entry < 2 ^ 32 → 1 ≤ name.length → name.length < 256 →
        (∀ b ∈ name, 1 ≤ b.toNat ∧ b.toNat < 128) →
        (WordHolds h true → ∃ t x a y, exec (.containerLoad (fileOf rs) priv fin) s = .next t ∧ t.loaded = s.loaded ++ [x] ∧ t.refused = s.refused
            ∧ t = { s with loaded := t.loaded, mem := t.mem, marks := t.marks } ∧ x.images = [⟨a, code, true⟩] ∧ a % 64 = 0 ∧ x.kernels = [y]
            ∧ y.name = name ∧ y.launch.header = h ∧ y.launch.entry = BitVec.ofNat 64 (a + entry) ∧ y.launch.handler = 0 ∧ y.launch.gpref = 1
            ∧ y.launch.gfall = 1 ∧ y.launch.bins = 8 ∧ y.launch.svck = false ∧ y.launch.nchan = 0 ∧ y.consts = [] ∧ y.finalised = none)
        ∧ (¬WordHolds h true → flags = 1 → refuses (fileOf rs) ⟨6, k, 2, 0⟩)
        ∧ (¬WordHolds h true → flags = 0 → ∃ t x, exec (.containerLoad (fileOf rs) priv fin) s = .next t ∧ t.loaded = s.loaded ++ [x] ∧ x.kernels = []))
      ∧ (∀ k flags h entry name, let rs := [kernelRec flags k h 0 entry name]
        Fits rs → 0 < k → flags ≤ 1 → entry % 64 = 0 → entry < 2 ^ 32 → 1 ≤ name.length → name.length < 256 → (∀ b ∈ name, 1 ≤ b.toNat ∧ b.toNat < 128) →
        WordHolds h false → refuses (fileOf rs) ⟨7, k, 2, 0⟩)
      ∧ (∀ x, loadFile s.loaded.length file priv fin = .error x → refuses file x)
      ∧ ∀ x, loadFile s.loaded.length file priv fin = .ok x → ∃ t, exec (.containerLoad file priv fin) s = .next t ∧ t.loaded = s.loaded ++ [x]
          ∧ t = { s with loaded := t.loaded, mem := t.mem, marks := t.marks } ∧ (s.keyOf x.asid = none → t.mem = s.mem ∧ t.marks = s.marks))

/-- The clusters and the load/store unit (R18, R22, R100, R207, R223): a cluster starts the ready head of the oldest warp; a started integer
instruction, compare, register write and load complete, the load where no older access of its warp holds it back; an engine instruction at the head of its queue
issues; an MMA there signs its convergence register. -/
def Obligations.ClusterSteps : Prop :=
  (∀ s g w e (die : BitVec 2) (core : BitVec 6) (cl : BitVec 3), Offers s die.toNat core.toNat cl.toNat g w e →
    (∀ g' w' e', Offers s die.toNat core.toNat cl.toNat g' w' e' → (g' = g ∧ w' = w ∧ e' = e) ∨ w.age < w'.age) →
    (∀ i, e.op ≠ .rdsr i) → s.faultOf g (w.popHead cl.toNat) e = none →
    ∃ w', exec (.strandStart die core cl) s = .next (s.put g w') ∧ w' = { w with queues := w'.queues, started := w.started ++ [e] }
      ∧ ∀ c, nth [] w'.queues c = if c = cl.toNat then (nth [] w.queues c).tail else nth [] w.queues c)
  ∧ (∀ s g w e, UnderWayOf s g w e →
      (∀ r, e.op = .putg r → ∃ t g' w', exec (.strandInstructionComplete g.uid w.wid (BitVec.ofNat 4 e.n)) s = .next t
        ∧ Completed s t g g g' w w' { w with g := w'.g } e
        ∧ ∀ q l, l < 32 → laneOf (w'.greg q) l = if q = r ∧ (w.exec e.hdr).getLsbD l = true then laneOf (g.kval w e.n) l else laneOf (w.greg q) l)
      ∧ (e.op = .nop → ∃ t g' w', exec (.strandInstructionComplete g.uid w.wid (BitVec.ofNat 4 e.n)) s = .next t ∧ Completed s t g g g' w w' w e)
      ∧ (∀ op f, e.op = .alu op → aluWord op = some f → nth none w.bind e.n = none →
        ∃ t g' w', exec (.strandInstructionComplete g.uid w.wid (BitVec.ofNat 4 e.n)) s = .next t
          ∧ Completed s t g g g' w w' { w with k := w'.k } e
          ∧ ∀ q l, l < 32 → laneOf (nth zeroLanes w'.k q) l = if q = e.n ∧ (w.exec e.hdr).getLsbD l = true then
              f (laneOf (nth zeroLanes w.k q) l) (operandThen w e.part l e.src) (laneOf (w.latchOf q) l) else laneOf (nth zeroLanes w.k q) l)
      ∧ (e.op = .mlat → ∃ t g' w', exec (.strandInstructionComplete g.uid w.wid (BitVec.ofNat 4 e.n)) s = .next t
        ∧ Completed s t g g g' w w' { w with latch := w'.latch } e
        ∧ ∀ q l, l < 32 → laneOf (w'.latchOf q) l =
            if q = e.n ∧ (w.exec e.hdr).getLsbD l = true then operandThen w e.part l e.src else laneOf (w.latchOf q) l)
      ∧ (∀ c p comb, e.op = .icmp c p comb → ∃ t g' w', exec (.strandInstructionComplete g.uid w.wid (BitVec.ofNat 4 e.n)) s = .next t
        ∧ Completed s t g g g' w w' { w with p := w'.p } e
        ∧ ∀ q l, l < 32 → (w'.pred q).getLsbD l = if q = p ∧ p ≠ 0 ∧ (w.exec e.hdr).getLsbD l = true then
            combined comb ((w.pred p).getLsbD l) (integerHolds c (laneOf (g.kval w e.n) l) (operandThen w e.part l e.src)) else (w.pred q).getLsbD l)
      ∧ (∀ v, e.op = .ready v → nth none w.bind e.n = none →
        ∃ t g' w', exec (.strandInstructionComplete g.uid w.wid (BitVec.ofNat 4 e.n)) s = .next t
          ∧ Completed s t g g g' w w' { w with k := w'.k } e
          ∧ ∀ q l, l < 32 → laneOf (nth zeroLanes w'.k q) l =
              if q = e.n ∧ (w.exec e.hdr).getLsbD l = true then laneOf v l else laneOf (nth zeroLanes w.k q) l)
      ∧ (∀ m at', e.op = .ld .b32 m → m.space = .scratch → nth none w.bind e.n = none → LoadReady g w e m at' →
        ∃ t g' w', exec (.loadComplete g.uid w.wid (BitVec.ofNat 4 e.n)) s = .next t
          ∧ Completed s t g g g' w w' { w with k := w'.k } e
          ∧ ∀ q l, l < 32 → laneOf (nth zeroLanes w'.k q) l = if q = e.n ∧ (w.exec e.hdr).getLsbD l = true then
              BitVec.ofNat 32 (leNat ((List.range 4).map (fun j => g.scratchByte (at' l + j)))) else laneOf (nth zeroLanes w.k q) l)
      ∧ (∀ m phys, e.op = .ld .b32 m → m.space = .global → nth none w.bind e.n = none → GlobalLoadReady s g w e m phys →
        ∃ t g' w', exec (.loadComplete g.uid w.wid (BitVec.ofNat 4 e.n)) s = .next t
          ∧ Completed s t g g g' w w' { w with k := w'.k } e
          ∧ ∀ q l, l < 32 → laneOf (nth zeroLanes w'.k q) l = if q = e.n ∧ (w.exec e.hdr).getLsbD l = true then
              BitVec.ofNat 32 (numberAt s g (phys l) 4) else laneOf (nth zeroLanes w.k q) l))
  ∧ (∀ s g w e rest k (cl : BitVec 3), s.at { wg := g.uid, wid := w.wid } = some (g, w) → nth [] w.queues cl.toNat = e :: rest → e.op = .eng k →
      s.ready g w e = true →
      (startsPlainly k = true → (s.debugOn g = true → (∀ a o x r, k ≠ .sld a o x r) ∧ ∀ a v o x, k ≠ .sst a v o x) →
        (∀ slot rec' scale opt keep, k = .adrain slot rec' scale opt keep → (w.popHead cl.toNat).olderDone e.seq = true ∧ ∀ y ∈ w.ops, y.kind.cls ≠ some .drn) →
        (∀ u ∈ opSlots k (nth none w.bind e.n), (w.popHead cl.toNat).slotBusy u e.seq = false) →
        ∃ t g' w' o, exec (.engineIssue g.uid w.wid cl) s = .next t ∧ Started s t g g' w w' cl.toNat e rest k o ∧ g' = { g with warps := g'.warps }
          ∧ o.lanes = w.exec e.hdr ∧ o.prog.failed = none ∧ o.prog.done = false)
      ∧ (∀ base panel f cv gB b c, k = .mma base panel f cv gB → nth none w.bind e.n = some b → g.cv[cv]? = some c →
        (w.popHead cl.toNat).slotBusy b.slot e.seq = false → w.wid < 32 → c.signed.getLsbD w.wid = false → c.signs + 1 ≠ laneCount c.members →
        c.form ≠ .idle → c.members.getLsbD w.wid = true → c.unusable = false →
        (∀ x, x < 32 → c.members.getLsbD x = true → ∃ y ∈ g.warps, y.wid = x ∧ y.active ≠ 0) →
        ∃ t g' w' o c', exec (.mmaSign g.uid w.wid cl) s = .next t ∧ Started s t g g' w w' cl.toNat e rest k o
          ∧ g' = { g with warps := g'.warps, cv := g'.cv } ∧ g'.cv[cv]? = some c' ∧ (∀ d, d ≠ cv → g'.cv[d]? = g.cv[d]?)
          ∧ c'.signs = c.signs + 1 ∧ c'.signed = c.signed ||| BitVec.ofNat 32 (2 ^ w.wid) ∧ c'.members = c.members ∧ c'.form = c.form
          ∧ o.lanes = c.members ∧ o.prog.failed = none))

/-- Engine operations (R57, R93, R112, R179, R184, R200 to R202, R208, R209, R211 to R213, R215 to R217, R220, R223, R224, R231, R232, R234, R236, R240): one
that is not the oldest of its class waits; a finished or failed one retires; as they retire, MZERO, MSTAT, copies within the scratchpad in modes 0 and 1, a
multicast within it that counts no drops in memory, a fired solo MMA, CPYO of FP32, ACHECK, a skipped ADRAIN, an LSUPD that keeps the scale, channels, SLD and
SST take their effect, and a LAUNCH by no lane or to another ASID's queue ends; one line of a copy lands; the two steps of a versioned read's attempt; a TMOVE
installs its entry. -/
def Obligations.OperationSteps : Prop :=
  (∀ s g w o, TurnOf s g w o → let retire : Instr := .engineRetire g.uid w.wid o.id
    (∀ cls code, o.kind.cls = some cls → o.prog.failed = some code → o.prog.page = none → retiresAlone g w o →
      ∃ t g' w', exec retire s = .next t ∧ Retired t g g' w w' w o (some ⟨cls, code, o.addr, 0, 0⟩) ∧ SameMemory s t)
    ∧ (o.prog.failed = none → o.prog.done = true → (∀ base panel f cv gB, o.kind = .mma base panel f cv gB → o.prog.link = none) →
      (∀ src dst d aux ssp dsp pkg, o.kind ≠ .cpy .mcast src dst d aux ssp dsp pkg) →
      ∃ t g' w', exec retire s = .next t ∧ Retired t g g' w w' w o none ∧ SameMemory s t ∧ g'.scratch = g.scratch
        ∧ ∀ l, l ∈ g'.absent ↔ l ∈ g.absent ∧ l ∉ o.prog.pendingLines)
    ∧ (∀ u, o.kind = .mzero u → o.prog.failed = none → o.prog.done = false →
      ∃ t g' w', exec retire s = .next t ∧ Retired t g g' w w' w o none ∧ SameMemory s t
        ∧ (∀ i, g'.slotWord u i = 0) ∧ ∀ x i, x ≠ u → g'.slotWord x i = g.slotWord x i)
    ∧ (∀ r, o.kind = .mstat r → o.prog.failed = none → o.prog.done = false →
      let st := nth noStat w.mstat o.n
      ∃ t g' w', exec retire s = .next t ∧ Retired t g g' w w' { w with g := w'.g } o none ∧ SameMemory s t
        ∧ ∀ q l, l < 32 → laneOf (w'.greg q) l = if o.lanes.getLsbD l = false then laneOf (w.greg q) l
            else if q = r then BitVec.ofNat 32 (st.status * 65536 + st.n % 65536) else if q = r + 1 then st.mean else if q = r + 2 then st.var
            else laneOf (w.greg q) l)
    ∧ (∀ m src dst d pkg, ScratchCopy g o m src dst d pkg →
      (∃ t g' w', exec retire s = .next t ∧ Retired t g g' w w' w o none ∧ SameMemory s t ∧ Copied g g' m src dst d (fun _ => True)
        ∧ ∀ l, l ∈ g'.absent ↔ l ∈ g.absent ∧ l ∉ o.prog.pendingLines)
      ∧ ∀ line, line ∈ o.prog.pendingLines → ∃ t g', exec (.lineLand g.uid w.wid o.id line) s = .next t ∧ t.wg g.uid = some g' ∧ SameMemory s t
        ∧ Copied g g' m src dst d (fun a => a / 256 = line) ∧ (∀ l, l ∈ g'.absent ↔ l ∈ g.absent ∧ l ≠ line)
        ∧ ∃ o', StandsAs t g g' o o'
            ∧ o' = { o with prog := { o.prog with pendingLines := o.prog.pendingLines.filter (· != line), pos := o'.prog.pos } }
            ∧ o'.prog.pos ≤ cpyRows d
            ∧ (∀ i j, i < o'.prog.pos → j < cpyDstRow m d → (dst.toNat + i * cpyStep m d + j) / 256 ∉ o'.prog.pendingLines)
            ∧ (o'.prog.pos < cpyRows d → ∃ j, j < cpyDstRow m d ∧ (dst.toNat + o'.prog.pos * cpyStep m d + j) / 256 ∈ o'.prog.pendingLines))
    ∧ (∀ src dst d aux pkg, o.kind = .cpy .mcast src dst d aux .scratch .scratch pkg → aux.extractLsb' 16 48 = 0 →
      o.prog.pos = 0 → o.prog.done = false → o.prog.failed = none → cpyCols d ≤ cpyStep .mcast d →
      (∀ i j, i < cpyRows d → j < cpyCols d → (src.toNat + i * cpySstride d + j) / 256 ∉ g.absent
        ∧ (src.toNat + i * cpySstride d + j) / 256 ∉ g.orphan ∧ Sound g (src.toNat + i * cpySstride d + j)
        ∧ (dst.toNat + i * cpyStep .mcast d + j) / 256 ∈ o.prog.pendingLines) →
      let named (y : Workgroup) : Prop := y.gang = g.gang ∧ y.rank < 16 ∧ aux.getLsbD y.rank = true
      let fits (y : Workgroup) : Prop := y.residence = .resident
        ∧ ∀ i, i < cpyRows d → dst.toNat + i * cpyStep .mcast d + cpyCols d ≤ 1024 * (y.header.extractLsb' 24 10).toNat
      ∃ t g' w', exec retire s = .next t ∧ Retired t g g' w w' w o none ∧ SameMemory s t
        ∧ ∀ y ∈ s.wgs, y.uid ≠ g.uid → ∃ y' ∈ t.wgs, y'.uid = y.uid
          ∧ (¬named y → y' = y)
          ∧ (named y → fits y → y' = { y with scratch := y'.scratch, sramMarks := y'.sramMarks, absent := y'.absent }
              ∧ (∀ i j, i < cpyRows d → j < cpyCols d → y'.scratchByte (dst.toNat + i * cpyStep .mcast d + j) = g.scratchByte (src.toNat + i * cpySstride d + j))
              ∧ (∀ a, (∀ i j, i < cpyRows d → j < cpyCols d → a ≠ dst.toNat + i * cpyStep .mcast d + j) → y'.scratchByte a = y.scratchByte a)
              ∧ ∀ l, l ∈ y'.absent ↔ l ∈ y.absent ∧ l ∉ o.prog.pendingLines)
          ∧ (named y → ¬fits y → y' = { y with drops := min (y.drops + 1) 65535, lost := true, orphan := y'.orphan }
              ∧ ∀ l, l ∈ y'.orphan ↔ l ∈ y.orphan ∨ l ∈ o.prog.pendingLines ∧ l ∈ y.absent))
    ∧ (∀ src dst d aux pkg pk, o.kind = .cpy .ver src dst d aux .global .scratch pkg → o.prog.done = false → o.prog.failed = none → o.prog.pos < 5 →
      cpyCols d ≤ cpyStep .ver d → AtHand s g w o [.glob .read aux.toNat 4] → StandAt s (s.view g w o [.glob .read aux.toNat 4]) aux.toNat 4 pk →
      let version := numberAt s g pk 4
      let rs := .glob .read aux.toNat 4 :: cpyRegions .ver src dst d .global .scratch 0
      let v := s.view g w o rs
      let copied (g' : Workgroup) : Prop :=
        (∀ i j, i < cpyRows d → j < cpyCols d → g'.scratchByte (dst.toNat + i * cpyStep .ver d + j) = v.byte g .global (src.toNat + i * cpySstride d + j))
          ∧ ∀ a, (∀ i j, i < cpyRows d → j < cpyCols d → a ≠ dst.toNat + i * cpyStep .ver d + j) → g'.scratchByte a = g.scratchByte a
      let kept (g' : Workgroup) : Prop := g'.scratch = g.scratch
      let tries (p : Progress) (holds : Workgroup → Prop) : Prop :=
        ∃ t g', exec (.versionedReadAttempt g.uid w.wid o.id) s = .next t ∧ StandsAs t g g' o { o with prog := p } ∧ SameMemory s t ∧ holds g'
      let again := { o.prog with pos := o.prog.pos + 1, link := none, notBefore := s.clk + 256 }
      let failed := { o.prog with pos := 5, link := none, done := true, failed := some 0x17, page := none }
      (o.prog.link = none →
        (version % 2 = 1 → o.prog.pos < 4 → tries again kept)
        ∧ (version % 2 = 1 → o.prog.pos = 4 → AtHand s g w o rs → tries failed copied)
        ∧ (version % 2 = 0 → AtHand s g w o rs → tries { o.prog with link := some version } copied))
      ∧ ∀ v1, o.prog.link = some v1 →
        (version = v1 → tries { o.prog with pos := o.prog.pos + 1, link := none, done := true } kept)
        ∧ (version ≠ v1 → o.prog.pos < 4 → tries again kept)
        ∧ (version ≠ v1 → o.prog.pos = 4 → tries failed kept))
    ∧ (∀ key dest nb e y, o.kind = .tmove key dest nb → o.prog.done = false → s.directory.find? (fun d => some d.uid == o.prog.link) = some e →
      let base := nb.extractLsb' 0 48
      let n := e.len.toNat
      let rs : List Region := [.glob .read e.base.toNat n, .glob .write base.toNat n]
      let v := s.view g w o rs
      AtHand s g w o rs → (e.base.toNat + n ≤ base.toNat ∨ base.toNat + n ≤ e.base.toNat) → e.dest ≠ e.loc →
      s.wgs.find? (fun x => x.gang == g.gang && x.residence == .resident && x.coreIdx == e.dest) = some y →
      (∀ i pk, i < n → v.physW (base.toNat + i) = some pk → s.inAperture pk = false) →
      (s.directory.filter (fun d => d.loc == e.dest)).length < 256 → (∀ d ∈ s.directory, d.uid < s.nextUid) →
      ∃ t c, exec (.tmoveInstall g.uid w.wid o.id) s = .next t
        ∧ c ∈ t.directory ∧ c.loc = e.dest ∧ c.key = e.key ∧ c.base = base ∧ c.len = e.len ∧ c.owner = y.uid ∧ c.asid = e.asid ∧ c.st = .valid
        ∧ c.tags = e.keep
        ∧ (∀ d, d.uid ≠ e.uid → d.uid ≠ c.uid → (d ∈ t.directory ↔ d ∈ s.directory))
        ∧ (∀ d ∈ t.directory, d.uid = e.uid → d.st = .moved ∧ d.copy = some c.uid ∧ s.censuses ≠ [])
        ∧ (∀ i pk, i < n → v.physW (base.toNat + i) = some pk → s.cutOff pk = false → fitted pk = true →
            (∀ j, j < n → j ≠ i → v.physW (base.toNat + j) ≠ some pk) →
            t.readByte (s.wgKey g) pk = v.byte g .global (e.base.toNat + i))
        ∧ ∃ g' o', StandsAs t g g' o o' ∧ o'.prog.done = true)
    ∧ (∀ base panel f cv gB fire b, o.kind = .mma base panel f cv gB → o.prog.link = some fire → retiresAlone g w o → o.prog.failed = none → o.bind = some b →
      AtHand s g w o (mmaRegions b base panel f ++ [{ sp := .slot b.slot, acc := .read, addr := 0, len := b.m * b.n }]) →
      let a := (mmaElems f).1
      let k := kOf a.bits
      let q := panel.toNat / 2 ^ 32 % 2 ^ 16
      let cols := panel.toNat / 2 ^ 16 % 2 ^ 16
      let row (i : Nat) : Nat := base.toNat + i * (panel.toNat % 2 ^ 16)
      let product (i c j : Nat) : FVal := mmaTerm (elemAt g.scratchByte a (row i) (q + j)) (mmaB f (laneCount o.lanes == 4) k [o.data] j c)
        (scaleAt g.scratchByte a (row i) cols ((q + j) / 32)) (scaleAt g.scratchByte a (row (b.m + c)) cols ((q + j) / 32))
      ∃ t g' w', exec retire s = .next t ∧ Retired t g g' w w' w o none ∧ SameMemory s t ∧ g'.scratch = g.scratch
        ∧ (∀ i c, i < b.m → c < b.n → g'.slotWord b.slot (i * b.n + c) =
            mmaSum (f32 (g.slotWord b.slot (i * b.n + c))) ((List.range k).map (product i c)))
        ∧ ∀ x i, x ≠ b.slot ∨ b.m * b.n ≤ i → g'.slotWord x i = g.slotWord x i)
    ∧ (∀ dst stride pkg b, let row := (stride.extractLsb' 0 28).toNat
      o.kind = .cpyo dst stride .f32 .scratch pkg → o.bind = some b → o.prog = { Progress.start o.prog.pendingLines o.prog.out with notBefore := o.prog.notBefore } →
      4 * b.n ≤ row → g.sramMarks = [] → (∀ i j, i < b.m → j < 4 * b.n → (dst.toNat + i * row + j) / 256 ∈ o.prog.pendingLines) →
      ∃ t g' w', exec retire s = .next t ∧ Retired t g g' w w' w o none ∧ SameMemory s t
        ∧ (∀ i c k, i < b.m → c < b.n → k < 4 →
            g'.scratchByte (dst.toNat + i * row + 4 * c + k) = (g.slotWord b.slot (i * b.n + c)).extractLsb' (8 * k) 8)
        ∧ (∀ a, (∀ i j, i < b.m → j < 4 * b.n → a ≠ dst.toNat + i * row + j) → g'.scratchByte a = g.scratchByte a)
        ∧ ∀ l, l ∈ g'.absent ↔ l ∈ g.absent ∧ l ∉ o.prog.pendingLines)
    ∧ (o.prog.failed = none → o.prog.done = false →
      (∀ slot status pk bad, o.kind = .acheck slot status → let size := (g.slotTag slot).1 * (g.slotTag slot).2
        let rs : List Region := [{ sp := .slot slot, acc := .read, addr := 0, len := size }, .glob .atomic status.toNat 4]
        AtHand s g w o rs → StandAt s (s.view g w o rs) status.toNat 4 pk →
        (bad = true ↔ ∃ i, i < size ∧ (g.slotWord slot i).extractLsb' 23 8 = 0xFF#8) →
        ∃ t g' w', exec retire s = .next t ∧ Retired t g g' w w' w o none
          ∧ MemoryBut s t (s.wgKey g) (placedAt pk (leBytes 4 (numberAt s g pk 4 ||| if bad = true then 1 else 0))))
      ∧ (∀ slot rec' scale opt keep r pk, o.kind = .adrain slot rec' scale opt keep → o.data = [r] →
        (nth 0#32 r 0).getLsbD 0 = true ∨ (nth 0#32 r 6).getLsbD 1 = true → let rs : List Region := [.glob .atomic rec'.toNat 256]
        let field (off : Nat) : Nat := numberAt s g (pk + off) 8
        let n := (g.slotTag slot).1 * (g.slotTag slot).2
        let fits (off len align : Nat) : Prop := field off + len ≤ 2 ^ 48 ∧ field off % align = 0
        AtHand s g w o rs → StandAt s (s.view g w o rs) rec'.toNat 256 pk →
        fits 48 4 4 → fits 8 (4 * n) 4 → fits 16 (4 * n) 4 → (opt = .adamw → fits 24 (4 * n) 4) → fits 32 (2 * n) 2 →
        fits 40 ((g.slotTag slot).1 * ((g.slotTag slot).2 + (g.slotTag slot).2 / 32)) 1 →
        ∃ t g' w', exec retire s = .next t ∧ Retired t g g' w w' w o none ∧ SameMemory s t
          ∧ ∀ x i, g'.slotWord x i = if x = slot ∧ keep = false then 0 else g.slotWord x i)
      ∧ (∀ rec' queue, o.kind = .launch rec' queue →
        (o.lanes = 0 → ∃ t g' w', exec retire s = .next t ∧ Retired t g g' w w' w o none ∧ SameMemory s t)
        ∧ (o.lanes ≠ 0 → s.qField queue.toNat 26 2 % 512 ≠ g.asid →
          ∃ t g' w', exec retire s = .next t ∧ Retired t g g' w w' w o (some ⟨.spw, 0x06, o.addr, 0, 0⟩) ∧ SameMemory s t))
      ∧ (∀ rec' status pr ps, o.kind = .lsupd rec' status → let rs : List Region := [.glob .read status.toNat 4, .glob .atomic rec'.toNat 32]
        let v := s.view g w o rs
        let f (i : Nat) : Nat := numberAt s g (pr + 4 * i) 4
        AtHand s g w o rs → StandAt s v status.toNat 4 ps → StandAt s v rec'.toNat 32 pr → numberAt s g ps 4 % 2 = 0 → f 1 + 1 < f 4 →
        let flags := f 5 - f 5 % 4 + f 5 % 2
        ∃ t g' w', exec retire s = .next t
          ∧ Retired t g g' w w' { w with lscale := BitVec.ofNat 64 (f 0 + (f 1 + 1) % 65536 * 2 ^ 32 + flags % 2 * 2 ^ 48) } o none
          ∧ MemoryBut s t (s.wgKey g) (fun a => (placedAt pr (leBytes 4 (f 0) ++ leBytes 4 (f 1 + 1)) a).or
              (placedAt (pr + 20) (leBytes 4 flags ++ leBytes 4 (f 0) ++ leBytes 4 ((f 7 + 1) % 2 ^ 32)) a)))
      ∧ (∀ ch r c, o.kind = .chsend ch r → s.channel g ch.toNat = some c →
        (c.msgs.length < c.slots → ∃ t g' w', exec retire s = .next t ∧ Retired t g g' w w' w o none ∧ SameMemory s t
          ∧ t.channel g ch.toNat = some { c with msgs := c.msgs ++ [nth zeroLanes o.data 0] })
        ∧ (c.slots ≤ c.msgs.length → (∃ y ∈ s.wgs, y.gang = g.gang ∧ y.rank = c.receiver) → (∀ y ∈ s.wgs, y.uid = g.uid → y = g) →
          exec retire s = .next s)
        ∧ (c.slots ≤ c.msgs.length → (∀ y ∈ s.wgs, y.gang = g.gang → y.rank ≠ c.receiver) →
          ∃ t g' w', exec retire s = .next t ∧ Retired t g g' w w' w o (some ⟨.chn, 0x14, o.addr, 0, 0⟩) ∧ t.gangs = s.gangs))
      ∧ (∀ ch r c, o.kind = .chrecv ch r → s.channel g ch.toNat = some c →
        (∀ m rest, c.msgs = m :: rest → ∃ t g' w', exec retire s = .next t ∧ Retired t g g' w w' { w with g := w'.g } o none ∧ SameMemory s t
          ∧ t.channel g ch.toNat = some { c with msgs := rest }
          ∧ ∀ q l, l < 32 → laneOf (w'.greg q) l = if q = r ∧ o.lanes.getLsbD l = true then laneOf m l else laneOf (w.greg q) l)
        ∧ (c.msgs = [] → (∃ y ∈ s.wgs, y.gang = g.gang ∧ y.rank = c.sender) → (∀ y ∈ s.wgs, y.uid = g.uid → y = g) → exec retire s = .next s)
        ∧ (c.msgs = [] → (∀ y ∈ s.wgs, y.gang = g.gang → y.rank ≠ c.sender) →
          ∃ t g' w', exec retire s = .next t ∧ Retired t g g' w w' w o (some ⟨.chn, 0x14, o.addr, 0, 0⟩) ∧ t.gangs = s.gangs))
      ∧ (∀ a order scope r pk, o.kind = .sld a order scope r → o.lanes ≠ 0 → AtHand s g w o [.glob .read a.toNat 8] →
        StandAt s (s.view g w o [.glob .read a.toNat 8]) a.toNat 8 pk →
        ∃ t g' w', exec retire s = .next t ∧ Retired t g g' w w' { w with g := w'.g } o none ∧ SameMemory s t
          ∧ ∀ q l, l < 32 → laneOf (w'.greg q) l = if o.lanes.getLsbD l = false then laneOf (w.greg q) l
              else if q = r then BitVec.ofNat 32 (numberAt s g pk 4) else if q = r + 1 then BitVec.ofNat 32 (numberAt s g (pk + 4) 4)
              else laneOf (w.greg q) l)
      ∧ (∀ a x order scope pk, o.kind = .sst a x order scope → o.lanes ≠ 0 → AtHand s g w o [.glob .write a.toNat 8] →
        StandTo s (s.view g w o [.glob .write a.toNat 8]) a.toNat 8 pk →
        ∃ t g' w', exec retire s = .next t ∧ Retired t g g' w w' w o none ∧ MemoryBut s t (s.wgKey g) (placedAt pk (leBytes 8 x.toNat)))))
  ∧ (∀ s g w o pre post, s.wg g.uid = some g → g.opHolder o.id = some w → w.ops = pre ++ o :: post → (∀ p ∈ pre, p.id ≠ o.id) →
      (∃ p ∈ pre, p.kind.cls = o.kind.cls) → exec (.engineRetire g.uid w.wid o.id) s = .next s)

/-- The former (R33 to R35), the pool (R38), the claim deadlock (R39), and the end of a workgroup (R182, R311). The model's choices: which lanes a thread takes
(log 18); that a key keeps its deadline as it enters the hamper, on which R35 is silent, so that bin `b` stands there as it was held (log 55); that a warp takes
no WID that a freed slot with operations outstanding still has (log 54). -/
def Obligations.FormerSteps : Prop :=
  (∀ s g i b, MayForm s g i b → g.poolQ = [] → let n := min 32 b.threads.length
    (b.rest = none → b.expired = false → b.deadline ≤ s.clk →
      ∃ t g' w, exec (.binTimerExpiry g.uid i) s = .next t ∧ t.wg g.uid = some g' ∧ Formed s g g' b w n ∧ SameMemory s t)
    ∧ ((32 ≤ b.threads.length ∨ b.expired = true ∨ b.swept = true ∨ g.allAtBarrier = true) →
      ∃ t g' w, exec (.warpFormation g.uid i) s = .next t ∧ t.wg g.uid = some g' ∧ Formed s g g' b w n ∧ SameMemory s t))
  ∧ (∀ s g i b rest, MayForm s g i b → g.poolQ = .form b.key :: rest →
      (∀ x ∈ g.allBins, x.key = b.key → x = b) →
      ∃ t g' w, exec (.poolGrant g.uid) s = .next t ∧ t.wg g.uid = some g' ∧ Formed s g g' b w (min 32 b.threads.length) ∧ g'.poolQ = rest)
  ∧ (∀ s g w n rest, s.at { wg := g.uid, wid := w.wid } = some (g, w) → g.residence = .resident → g.poolQ = .claim w.wid n :: rest → n ≤ g.poolFree →
      w.halted = false → w.stopped = false → w.stopping = none →
      ∃ w', exec (.poolGrant g.uid) s = .next (s.put { g with poolQ := rest, poolFree := g.poolFree - n } w')
        ∧ w' = jumped { w with block := .none, granules := w'.granules, g := w'.g, presG := w'.presG } (w.pc + 4) ∧ Claimed w w' n)
  ∧ (∀ s g b rest, s.wg g.uid = some g → g.residence = .resident → g.held = b :: rest → (∀ x ∈ rest, x.key ≠ b.key) →
      ((∀ y ∈ b :: rest, ∀ x ∈ g.bins, x.key ≠ y.key) →
        (g.bins.length < g.binsMax → s.hamperUsed g + b.bytes ≤ 262144 →
          exec (.overflowKeyEntry g.uid) s = .next (s.setWg { g with held := rest, bins := g.bins ++ [b] }))
        ∧ (g.binsMax ≤ g.bins.length ∨ 262144 < s.hamperUsed g + b.bytes → exec (.overflowKeyEntry g.uid) s = .next s))
      ∧ (∀ x, g.bins = [x] → x.key = b.key → s.hamperUsed g + (b.bytes - 640) ≤ 262144 →
        exec (.overflowKeyEntry g.uid) s = .next (s.setWg { g with held := rest, bins := [{ x with threads := x.threads ++ b.threads }] })))
  ∧ (∀ s g, s.wg g.uid = some g → g.residence = .resident → ClaimDeadlock g → (g.warps.map Warp.wid).Nodup → g.stop = .none → g.hasHandler = true →
      s.isService g = false → (∀ w ∈ g.warps, w.active ≠ 0 → w.uni.handler = false ∧ w.started = [] ∧ w.resume = none) →
      ∃ t g', exec (.claimDeadlock g.uid) s = .next t ∧ t.wg g.uid = some g' ∧ SameMemory s t
        ∧ ∀ w ∈ g.warps, (w.active = 0 → w ∈ g'.warps)
          ∧ (w.active ≠ 0 → ∃ w', g'.warp w.wid = some w' ∧ w'.trapCode = 0x0C ∧ w'.trapAddr = w.pc ∧ w'.fepc = packPc w.hdr w.pc ∧ w'.pc = g.handler
              ∧ w'.uni = { w.uni with handler := true } ∧ w'.block = .none ∧ w'.active = w.active ∧ w'.granules = w.granules))
  ∧ (∀ s g, s.wg g.uid = some g → g.warps = [] → g.ghosts = [] → (∀ b ∈ g.bins ++ g.held, b.threads = []) →
      (∀ c ∈ s.censuses, ∀ r ∈ c.reports, r.held = []) →
      ∃ t, exec (.workgroupEnd g.uid) s = .next t ∧ t.wg g.uid = none ∧ SameMemory s t
        ∧ (∀ d, d ∈ t.directory ↔ d ∈ s.directory ∧ d.owner ≠ g.uid)
        ∧ (∀ x ∈ s.wgs, x.uid ≠ g.uid → x.gang ≠ g.gang → x ∈ t.wgs)
        ∧ t.grids = s.grids.map (fun x => if x.uid = g.grid then { x with ended := x.ended + 1, killed := if g.killed = true then x.killed + 1 else x.killed } else x))

/-- Where stops lead (R25, R26, R29, R205, R318, R326, R332, R337, R338, R340, R341, R344); a halt that came during another stop holds once that has led
where it leads. TRAPADDR of trap 0x13 is the next instruction, and with no debugger attached a single step stops again without a trap: the model's
choices, log 33. -/
def Obligations.StopSteps : Prop :=
  (∀ s g w st, StopReady s g w st → g.stop = .none → s.isService g = false → w.halted = false →
    (∀ tr, st.goal = .trap → st.trap = some tr → startsHandler tr.code = true → g.hasHandler = true → w.uni.handler = false →
      ∃ t g' w', exec (.handlerEntry g.uid w.wid) s = .next t ∧ t.at { wg := g.uid, wid := w.wid } = some (g', w')
        ∧ g' = { g with warps := g'.warps, bins := g'.bins, held := g'.held } ∧ w'.stopping = none
        ∧ w'.trapCode = tr.code ∧ w'.trapAddr = tr.addr ∧ w'.pc = g.handler ∧ w'.hdr = 0xC000#16 ∧ w'.uni = { w.uni with handler := true }
        ∧ w'.g = w.g ∧ w'.k = w.k ∧ SameMemory s t ∧ t.faultsOut = s.faultsOut ∧ w'.halted = st.halt
        ∧ (∃ r, w'.held = some r ∧ RecordOf { w' with spc := r.spc, fepc := r.fepc } st)
        ∧ (st.halt = false → g'.bins = g.bins ∧ g'.held = g.held ∧ RecordOf w' st)
        ∧ (st.halt = true → w'.fepc = packPc 0xC000#16 g.handler ∧ ∀ n, n < 16 → nth 0#64 w'.spc n = w'.fepc))
    ∧ (∀ tr, st.goal = .trap → st.trap = some tr → tr.code ∈ [0x05, 0x06, 0x0D, 0x0E] → w.uni.handler = false →
      ∃ t g' w', exec (.workgroupStop g.uid w.wid) s = .next t ∧ t.at { wg := g.uid, wid := w.wid } = some (g', w') ∧ g'.stop = .trap ∧ w'.stopped = true
        ∧ w'.halted = st.halt ∧ RecordOf w' st ∧ w'.trapCode = tr.code ∧ w'.trapAddr = tr.addr ∧ OthersStop g g' w ∧ SameMemory s t
        ∧ Sends s t g 1 tr.code tr.code2 w.wid tr.va tr.addr.toNat tr.access)
    ∧ (st.goal = .stop → st.trap = none →
      ∃ t g' w', exec (.workgroupStop g.uid w.wid) s = .next t ∧ t.at { wg := g.uid, wid := w.wid } = some (g', w') ∧ w'.stopped = true ∧ RecordOf w' st
        ∧ w'.halted = st.halt ∧ t.faultsOut = s.faultsOut ∧ SameMemory s t))
  ∧ (∀ s g w, s.at { wg := g.uid, wid := w.wid } = some (g, w) → w.stepping = some true → w.drained = true → w.stopping = none → w.resume = none →
      g.stop = .none →
      (s.debugOn g = true → ∃ t g' w', exec (.stepComplete g.uid w.wid) s = .next t ∧ t.at { wg := g.uid, wid := w.wid } = some (g', w')
        ∧ g'.stop = .debug ∧ w'.stopped = true ∧ w'.trapCode = 0x13 ∧ w'.trapAddr = w.pc ∧ w'.fepc = packPc w.hdr w.pc ∧ OthersStop g g' w
        ∧ Sends s t g 5 0x13 0 w.wid 0 w.pc.toNat 0)
      ∧ (s.debugOn g = false → ∃ t g' w', exec (.stepComplete g.uid w.wid) s = .next t ∧ t.at { wg := g.uid, wid := w.wid } = some (g', w')
        ∧ w'.fepc = packPc w.hdr w.pc ∧ (w'.halted = true ∨ w'.stopped = true) ∧ w'.trapCode = w.trapCode ∧ t.faultsOut = s.faultsOut))
  ∧ (∀ s g, s.wg g.uid = some g → (g.warps.map Warp.wid).Nodup →
      ∃ t g', exec (.haltComplete g.uid) s = .next t ∧ t.wg g.uid = some g' ∧ SameMemory s t
        ∧ (∀ w ∈ g.warps,
            (∀ st, w.stopping = some st → st.goal = .halt → w.started = [] → w.resume = none →
              ∃ w' ∈ g'.warps, w'.wid = w.wid ∧ w'.halted = true ∧ RecordOf w' st ∧ w'.trapCode = w.trapCode)
            ∧ ((∀ st, w.stopping = some st → st.goal ≠ .halt) → w ∈ g'.warps))
        ∧ (g.haltReport = [] → t.faultsOut = s.faultsOut)
        ∧ (∀ i ts, g.haltReport = [(i, ts)] →
            ((∀ w ∈ g.warps, w.wid ∈ ts → (w.halted = true ∧ w.stopping = none ∧ w.stepping = none) ∨ ∃ st, w.stopping = some st ∧ st.goal = .halt ∧ w.started = []) →
              Sends s t g 6 0 0 i 0 0 0 ∧ g'.haltReport = [])
            ∧ ((∃ w ∈ g.warps, w.wid ∈ ts ∧ w.halted = false ∧ (w.stopping = none ∨ w.started ≠ [])) →
              t.faultsOut = s.faultsOut ∧ g'.haltReport = g.haltReport)))
  ∧ (∀ s g, Alone s g → g.residence = .resident → g.awaiting = none → g.saveTo = none → (∃ w ∈ g.warps, ∃ f, w.dataFault = some f ∧ waited f s.clk) →
      ∃ t, exec (.dataFaultTimeout g.uid) s = .next t ∧ SameMemory s t
        ∧ (CoolerRoom s g ∨ AreaRoom s g → ∃ g' w f, t.wg g.uid = some g' ∧ w ∈ g.warps ∧ w.dataFault = some f ∧ waited f s.clk
            ∧ g'.awaiting = some false ∧ (CoolerRoom s g → g'.saveTo = some .cooler) ∧ (¬CoolerRoom s g → g'.saveTo = some .saveArea)
            ∧ Sends s t g 8 0 0 w.wid f.va.toNat f.pc.toNat f.access ∧ ∀ x ∈ g'.warps, x.stopping.isSome = true ∨ x.halted = true ∨ x.stopped = true)
        ∧ (¬CoolerRoom s g → ¬AreaRoom s g → (g.toldNoRoom = false → Sends s t g 9 0 0 0xFF 0 0 0 ∧ t.wg g.uid = some (g.tell s.clk))
            ∧ (g.toldNoRoom = true → t = s)))

/-- FRESP, DBGCMD and the fault queue (R29, R326, R329 to R331, R341, R344). That END ends the workgroup at once is log 37; which RETRY and FAIL answer a
record is the rule's own. -/
def Obligations.FaultResponses : Prop :=
  (∀ s v g, Names s v g → (g.warps.map Warp.wid).Nodup →
    (g.awaiting = none → ∀ w ∈ g.warps, w.wid = widOf v →
      ∃ t g' w', exec (.frespRetry v) s = .next t ∧ t.wg g.uid = some g' ∧ w' ∈ g'.warps ∧ w' = { w with dataFault := none, ops := w'.ops }
        ∧ (∀ o ∈ w'.ops, o.prog.failed = none → o.prog.page = none) ∧ (∀ x ∈ g.warps, x.wid ≠ widOf v → x ∈ g'.warps) ∧ SameMemory s t)
    ∧ (g.awaiting = none → (∀ w ∈ g.warps ++ g.ghosts, w.wid = widOf v → w.dataFault = none ∧ ∀ o ∈ w.ops, o.prog.page = none ∨ o.prog.failed ≠ none) →
      exec (.frespRetry v) s = .next s ∧ exec (.frespFail v) s = .next s)
    ∧ (g.awaiting ≠ none → ∃ t g', exec (.frespRetry v) s = .next t ∧ t.wg g.uid = some g' ∧ g'.awaiting = none ∧ g'.noRoom = false ∧ SameMemory s t
        ∧ (g.awaiting = some true → ∀ w' ∈ g'.warps, ∀ a, w'.fetchFault ≠ some (a, false)))
    ∧ (g.awaiting = some true → (∀ w ∈ g.warps ++ g.ghosts, w.dataFault = none ∧ w.ops = []) →
      ∃ t g', exec (.frespFail v) s = .next t ∧ t.wg g.uid = some g' ∧ g'.awaiting = none ∧ SameMemory s t
        ∧ ∀ w ∈ g.warps, ∀ a b, w.fetchFault = some (a, b) → { w with fetchFault := some (a, true) } ∈ g'.warps)
    ∧ (g.awaiting = none → ∀ w f e, w ∈ g.warps → w.wid = widOf v → w.dataFault = some f → w.queued.find? (fun q => q.seq == f.seq) = some e →
      w.stopping = none → w.started = [] → (∀ x ∈ g.warps, x.wid ≠ w.wid → x.dataFault = none) → g.stop = .none →
      (∀ x ∈ g.warps ++ g.ghosts, ∀ o ∈ x.ops, ∀ key dest nb, o.kind ≠ .tmove key dest nb) →
      (w.uni.handler = false ∧ s.isService g = false) →
      ∃ t g' w', exec (.frespFail v) s = .next t ∧ t.at { wg := g.uid, wid := w.wid } = some (g', w') ∧ w'.dataFault = none ∧ w'.trapCode = 0x05
        ∧ w'.trapAddr = e.addr ∧ g'.stop = .trap ∧ Sends s t g 1 0x05 0 w.wid f.va.toNat e.addr.toNat f.access)
    ∧ (∃ t g', exec (.frespResume v) s = .next t ∧ t.wg g.uid = some g' ∧ g'.stop = .none ∧ SameMemory s t
        ∧ ∀ w ∈ g.warps, w.stopping = none → (w.halted = true ∨ w.stopped = true) → w.stepping = none →
            ∃ w' ∈ g'.warps, w'.wid = w.wid ∧ w'.halted = false ∧ w'.stopped = false ∧ GoesOn w w')
    ∧ ((g.residence ≠ .resident ∨ g.stop ≠ .none ∨ ∃ w ∈ g.warps, w.halted = true ∨ w.stopped = true) → (∀ w ∈ g.warps, w.storeQ = []) →
        ∃ t g', exec (.frespEnd v) s = .next t ∧ t.wg g.uid = some g' ∧ g'.killed = true ∧ g'.warps = [] ∧ g'.bins = [] ∧ g'.held = [] ∧ g'.stop = .none
          ∧ g'.liveThreads = 0 ∧ (∀ d ∈ t.directory, d.owner ≠ g.uid) ∧ SameMemory s t)
    ∧ (∀ w ∈ g.warps, w.wid = widOf v → v.getLsbD 44 = false → w.active ≠ 0 → g.residence = .resident → w.halted = false → w.stopped = false →
        w.stopping = none → w.started = [] → w.resume = none →
        ∃ t g' w', exec (.dbgHalt v) s = .next t ∧ t.at { wg := g.uid, wid := w.wid } = some (g', w') ∧ w'.halted = true ∧ w'.fepc = packPc w.hdr w.pc
          ∧ w'.trapCode = w.trapCode ∧ g'.haltReport = g.haltReport ++ [(w.wid, [w.wid])])
    ∧ (∀ w ∈ g.warps, w.wid = widOf v → v.getLsbD 44 = false → w.active ≠ 0 → w.halted = true → w.stepping = none →
        (w.stopped = false → ∃ t g' w', exec (.dbgResume v) s = .next t ∧ t.at { wg := g.uid, wid := w.wid } = some (g', w') ∧ w'.halted = false ∧ GoesOn w w')
        ∧ (w.stopped = true → ∃ t g' w', exec (.dbgResume v) s = .next t ∧ t.at { wg := g.uid, wid := w.wid } = some (g', w')
            ∧ w' = { w with halted := false })
        ∧ (w.stopping = none → ∃ t g' w', exec (.dbgStep v) s = .next t ∧ t.at { wg := g.uid, wid := w.wid } = some (g', w') ∧ w'.stepping = some false
            ∧ GoesOn w w')))
  ∧ (∀ s r rest, s.faultsOut = r :: rest → s.fqCfg.getLsbD 8 = true → 4 ≤ s.fqLog2 → s.fqLog2 ≤ 16 → (s.fqTail - s.fqHead).toNat < 2 ^ s.fqLog2 →
      s.fqBase.toNat + 64 * 65536 ≤ 2 ^ 48 →
      let entry := s.fqBase.toNat + 64 * (s.fqTail.toNat % 2 ^ s.fqLog2)
      ∃ t, exec .faultRecordSend s = .next t ∧ t.faultsOut = rest ∧ t.fqTail = s.fqTail + 1 ∧ t.interrupts = s.interrupts + 1
        ∧ ((∀ i, i < 64 → fitted (physKey 0 0 (entry + i)) = true) →
        (∀ i, i < 8 → some (t.readByte s.mgmt.sysKey (physKey 0 0 (entry + i))) = (leBytes 8 (2 ^ 32 + s.fqTail.toNat))[i]?)
        ∧ ∀ i, i < 56 → some (t.readByte s.mgmt.sysKey (physKey 0 0 (entry + 8 + i))) =
            (leBytes 1 r.kind ++ leBytes 1 r.code ++ leBytes 1 r.code2 ++ leBytes 1 r.access ++ leBytes 2 r.asid ++ leBytes 2 r.ctxid ++ leBytes 1 r.die
              ++ leBytes 1 r.core ++ leBytes 1 r.slot ++ leBytes 1 r.wid ++ leBytes 4 0 ++ leBytes 8 r.va ++ leBytes 8 r.pc ++ leBytes 8 r.clk
              ++ leBytes 2 r.queue ++ leBytes 4 r.index ++ leBytes 10 0)[i]?))
  ∧ (∀ s, s.faultsOut = [] ∨ s.fqCfg.getLsbD 8 = false → exec .faultRecordSend s = .next s)

/-- The census network (R238 to R245, R53): a waiting SOLICIT takes an id; a location handles a census: it skips an entry that carries the id, leaves one
with a full tag set, and else tags it and answers it, or for one that is moving or has moved counts and forwards an owe; an owe arrives, a held responder
is deposited, a location reports, and the census completes. The location number of a dormant directory is the model's own (log 42); that an owe which finds
its copy itself moving or moved is counted as 0 there and forwarded is its reading of R244 (log 39, DEDUCED). -/
def Obligations.CensusSteps : Prop :=
  (∀ s g w cl e rest key mask entry op pkg d, s.solicits = [(g.uid, w.wid, e.seq)] → s.at { wg := g.uid, wid := w.wid } = some (g, w) → cl < 8 →
      nth [] w.queues cl = e :: rest → e.op = .eng (.solicit key mask entry op pkg d) → w.queues.length = 8 → s.ready g w e = true →
      (∀ c q, c < 8 → (nth [] w.queues c).head? = some q → q.seq = e.seq → c = cl) → (w.popHead cl).olderDone e.seq = true →
      (s.censuses.filter (fun c => c.core == g.coreIdx)).length < 16 → s.censuses.length < 1024 →
      ∃ t g' w' o c, exec .censusIssue s = .next t ∧ t.at { wg := g.uid, wid := w.wid } = some (g', w')
        ∧ w' = { w with queues := w'.queues, ops := w.ops ++ [o] } ∧ nth [] w'.queues cl = rest ∧ o.id = s.nextUid ∧ o.prog.census = some c.id
        ∧ t.censuses = s.censuses ++ [c] ∧ (∀ x ∈ s.censuses, x.id ≠ c.id) ∧ c.id < 1024 ∧ c.wg = g.uid ∧ c.opId = o.id ∧ c.core = g.coreIdx
        ∧ c.key = key ∧ c.mask = mask ∧ c.entry = entry.extractLsb' 0 48 ∧ c.op = op ∧ t.solicits = [])
  ∧ (∀ s c loc, InFlight s c → loc ∈ c.toVisit →
      ((∀ d ∈ s.directory, d.loc = loc → ¬Matches c d) →
        ∃ t, exec (.censusDelivery c.id loc) s = .next t
          ∧ CensusNow s t c { c with toVisit := c.toVisit.filter (· != loc), reports := c.reports ++ [bareReport c loc 0] } ∧ t.directory = s.directory)
      ∧ (∀ d, s.directory.filter (fun x => x.loc == loc && c.matches x) = [d] →
        let visited (r : LocReport) (o : List Owe) : Census := { c with toVisit := c.toVisit.filter (· != loc), reports := c.reports ++ [r], owes := c.owes ++ o }
        (c.id ∈ d.tags → ∃ t, exec (.censusDelivery c.id loc) s = .next t ∧ t.wgs = s.wgs ∧ t.directory = s.directory
          ∧ CensusNow s t c (visited (bareReport c loc 0) []))
        ∧ (c.id ∉ d.tags → 8 ≤ d.tags.length → ∃ t, exec (.censusDelivery c.id loc) s = .next t ∧ t.wgs = s.wgs ∧ t.directory = s.directory
          ∧ CensusNow s t c { visited (bareReport c loc 0) [] with full := true })
        ∧ (c.id ∉ d.tags → d.tags.length < 8 →
          (d.st ≠ .valid → ∃ t, exec (.censusDelivery c.id loc) s = .next t ∧ t.wgs = s.wgs ∧ Tagged s t c d
            ∧ CensusNow s t c (visited (bareReport c loc 1) [⟨d.loc, d.dest, d.uid, d.copy⟩]))
          ∧ (∀ y, d.st = .valid → loc < 192 → y.uid = d.owner → RoomFor s y c.entry →
            ∃ t tid, exec (.censusDelivery c.id loc) s = .next t ∧ Responds t y c d tid ∧ Tagged s t c d
              ∧ CensusNow s t c (visited { bareReport c loc 0 with spawned := [(y.uid, tid)], responders := 1 } []))
          ∧ (∀ y, d.st = .valid → loc < 192 → s.wg d.owner = some y → 1024 ≤ y.liveThreads →
            ∃ t, exec (.censusDelivery c.id loc) s = .next t ∧ t.wgs = s.wgs ∧ Tagged s t c d
              ∧ CensusNow s t c (visited { bareReport c loc 0 with held := [d], responders := 1 } []))
          ∧ (d.st = .valid → 192 ≤ loc → ∃ t, exec (.censusDelivery c.id loc) s = .next t ∧ t.wgs = s.wgs ∧ Tagged s t c d
            ∧ CensusNow s t c (visited { bareReport c loc 0 with dormant := 1 } [])))))
  ∧ (∀ s c o d y, InFlight s c → c.owes = [o] → o.copy = some d.uid → (s.directory.filter (fun x => x.uid == d.uid)) = [d] → o.dst < 192 → d.loc = o.dst →
      let answered (r : LocReport) (os : List Owe) : Census := { c with owes := os, reports := c.reports ++ [r] }
      (c.id ∈ d.tags → ∃ t, exec (.oweArrival c.id o.dst) s = .next t ∧ t.wgs = s.wgs ∧ t.directory = s.directory
          ∧ CensusNow s t c (answered (bareReport c o.dst (-1)) []))
      ∧ (c.id ∉ d.tags → d.tags.length < 8 → d.st ≠ .valid → ∃ t, exec (.oweArrival c.id o.dst) s = .next t ∧ t.wgs = s.wgs ∧ Tagged s t c d
          ∧ CensusNow s t c (answered (bareReport c o.dst 0) [⟨d.loc, d.dest, d.uid, d.copy⟩]))
      ∧ (c.id ∉ d.tags → d.tags.length < 8 → d.st = .valid → y.uid = d.owner → RoomFor s y c.entry →
          ∃ t tid, exec (.oweArrival c.id o.dst) s = .next t ∧ Responds t y c d tid ∧ Tagged s t c d
            ∧ CensusNow s t c (answered { bareReport c o.dst (-1) with spawned := [(y.uid, tid)], responders := 1 } [])))
  ∧ (∀ s c r d ds y, InFlight s c → c.reports = [r] → r.held = d :: ds → y.uid = d.owner → RoomFor s y c.entry →
      ∃ t tid, exec (.responderDeposit c.id r.loc) s = .next t ∧ Responds t y c d tid ∧ t.directory = s.directory
        ∧ CensusNow s t c { c with reports := [{ r with held := ds, spawned := r.spawned ++ [(y.uid, tid)] }] })
  ∧ (∀ s c r, InFlight s c → c.reports = [r] → r.spawned = [] → r.held = [] →
      ∃ t, exec (.censusReport c.id r.loc) s = .next t
        ∧ CensusNow s t c { c with reports := [], value := censusValue c.op c.value r.value, responders := c.responders + r.responders,
                                   dormant := c.dormant + r.dormant, balance := c.balance + r.balance })
  ∧ (∀ s c g w o key mask entry op pkg d, InFlight s c → c.toVisit = [] → c.owes = [] → c.reports = [] → c.balance = 0 →
      s.wg c.wg = some g → g.opHolder c.opId = some w → w ∈ g.warps → w.ops.find? (fun x => x.kind.cls == some .cen) = some o → o.id = c.opId →
      o.kind = .solicit key mask entry op pkg d → 0 < d → d < 63 →
      ∃ t g' w', exec (.censusComplete c.id) s = .next t
        ∧ (∀ x, x ∈ t.censuses ↔ x ∈ s.censuses ∧ x.id ≠ c.id) ∧ (∀ e ∈ t.directory, c.id ∉ e.tags)
        ∧ (c.full = false → Retired t g g' w w' { w with uni := { w.uni with s := w'.uni.s } } o none ∧ w'.sreg d = c.value
            ∧ w'.sreg (d + 1) = BitVec.ofNat 64 (c.responders % 2 ^ 48 + min c.dormant 0xFFFF * 2 ^ 48))
        ∧ (c.full = true → Retired t g g' w w' { w with uni := { w.uni with s := w'.uni.s } } o (some ⟨.cen, 0x16, o.addr, 0, 0⟩)
            ∧ w'.sreg d = 0 ∧ w'.sreg (d + 1) = 0)
        ∧ ∀ x, x ≠ d → x ≠ d + 1 → w'.sreg x = w.sreg x)

/-- The distributor and the slices (R66, R240, R310, R311, R313, R315, R317, R337, R338, R361): a record's grid starts, a gang is placed or reserves, a
grid completes, a gang is saved and restored, a slice ends. The location number of a dormant directory is the model's own. -/
def Obligations.DistributorSteps : Prop :=
  (∀ (s : State) (x : Queue) i l rest before after, s.queues = before ++ x :: after → s.startable x = true → x.waiting = (i, l) :: rest →
      (∀ y ∈ before, s.startable y = true → y.prio < x.prio) → (∀ y ∈ after, s.startable y = true → y.prio ≤ x.prio) →
      ∃ t gr, exec .gridStart s = .next t ∧ t.grids = s.grids ++ [gr] ∧ gr.uid = s.nextUid ∧ gr.queue = x.q ∧ gr.index = i ∧ gr.asid = x.asid
        ∧ gr.prio = x.prio ∧ gr.launch = l ∧ gr.next = 0 ∧ gr.ended = 0 ∧ gr.killed = 0 ∧ gr.written = false
        ∧ (Acceptable s x.asid l → gr.status = 0) ∧ (¬Acceptable s x.asid l → gr.status = 1 ∧ gr.total = 0)
        ∧ t.queues = s.queues.filter (fun y => y.q != x.q) ++ [{ x with waiting := rest }] ∧ t.wgs = s.wgs ∧ t.mem = s.mem)
  ∧ (∀ (s : State) (x : Grid) (p : Partition) (n : Nat) (fs : List Nat), OneGrid s x p → fs.Pairwise (· < ·) → (∀ c, c ∈ fs ↔ CoreFits s p x c) → let r := x.total - x.next
      0 < r → n = (if min x.launch.gpref r ≤ fs.length then min x.launch.gpref r else min x.launch.gfall r) → n ≤ fs.length → 0 < n →
      ∃ t gang, exec (.gangPlacement x.uid) s = .next t ∧ gang ∈ t.gangs ∧ gang.grid = x.uid ∧ gang.size = n ∧ gang.partition = p.p
        ∧ gang ∉ s.gangs ∧ t.grids = [{ x with next := x.next + n, waitSince := s.clk, reserved := false, oneDie := some p.die }]
        ∧ (∀ g ∈ s.wgs, g ∈ t.wgs)
        ∧ ∀ k c, k < n → fs[k]? = some c → ∃ y ∈ t.wgs, y ∉ s.wgs ∧ Placed x p gang k c y)
  ∧ (∀ s x, s.grids.find? (fun y => y.uid == x.uid) = some x → x.next < x.total → x.reserved = false → x.waitSince + 1000 * 1750 ≤ s.clk →
      ∃ t, exec (.gangReserve x.uid) s = .next t
        ∧ t = { s with grids := s.grids.map (fun y => if y.uid = x.uid then { y with reserved := true } else y) })
  ∧ (∀ s x, s.grids.find? (fun y => y.uid == x.uid) = some x → x.total ≤ x.ended →
      (s.grids.find? (fun y => y.queue == x.queue) = some x → (x.launch.cpl = 0 ∨ x.written = true) →
        ∃ t, exec (.gridComplete x.uid) s = .next t ∧ t.grids = s.grids.filter (fun y => y.uid != x.uid) ∧ t.wgs = s.wgs
          ∧ (EventHeld s x.queue → t.qEvent x.queue = (s.qEvent x.queue + 1) % 2 ^ 48)
          ∧ MemoryBut s t s.mgmt.sysKey (fun a => if eventByte s x.queue ≤ a ∧ a < eventByte s x.queue + 8
              then some ((leBytes 8 ((s.qEvent x.queue + 1) % 2 ^ 48))[a - eventByte s x.queue]?.getD 0) else none))
      ∧ (∀ y pk key, s.grids.find? (fun y => y.queue == x.queue) = some y → x.launch.cpl ≠ 0 → x.written = false →
          s.distXlat x.asid x.launch.cpl.toNat true = some pk → s.cutOff pk = false → s.keyOf x.asid = some key →
        (y.uid ≠ x.uid → x.status ≠ 1 →
          ∃ t, exec (.gridComplete x.uid) s = .next t ∧ t.grids = s.grids.map (fun y => if y.uid = x.uid then { y with written := true } else y)
            ∧ t.wgs = s.wgs ∧ MemoryBut s t key (fun a => if pk ≤ a ∧ a < pk + 16 then some ((completion s x)[a - pk]?.getD 0) else none))
        ∧ (y = x → (∀ i j, i < 16 → j < 8 → (pk + i) / 64 ≠ (eventByte s x.queue + j) / 64) →
          ∃ t, exec (.gridComplete x.uid) s = .next t ∧ t.grids = s.grids.filter (fun y => y.uid != x.uid) ∧ t.wgs = s.wgs
            ∧ (EventHeld s x.queue → t.qEvent x.queue = (s.qEvent x.queue + 1) % 2 ^ 48)
            ∧ ∀ i b, (completion s x)[i]? = some b → fitted (pk + i) = true → t.readByte key (pk + i) = b)))
  ∧ (∀ s g, Alone s g →
      (g.residence = .resident → g.saveTo = none → s.mustLeave g.gang = true →
        (CoolerRoom s g → ∃ t, exec (.contextSave g.gang) s = .next t ∧ SaveBegun s t g .cooler ∧ t.faultsOut = s.faultsOut)
        ∧ (¬CoolerRoom s g → AreaRoom s g → ∃ t, exec (.contextSave g.gang) s = .next t ∧ SaveBegun s t g .saveArea ∧ t.faultsOut = s.faultsOut)
        ∧ (¬CoolerRoom s g → ¬AreaRoom s g → (g.toldNoRoom = false → ∃ t, exec (.contextSave g.gang) s = .next t ∧ Sends s t g 9 0 0 0xFF 0 0 0
            ∧ t.wg g.uid = some (g.tell s.clk)) ∧ (g.toldNoRoom = true → exec (.contextSave g.gang) s = .next s)))
      ∧ (∀ r, g.saveTo = some r → s.censuses = [] → Numbered s → g.ghosts = [] →
          (∀ w ∈ g.warps, w.drained = true ∧ w.storeQ = [] ∧ w.ops = [] ∧ (∃ st, w.stopping = some st ∧ st.goal = .save)) →
          ∃ t g', exec (.contextSave g.gang) s = .next t ∧ t.wg g.uid = some g' ∧ g'.residence = r ∧ g'.saveTo = none ∧ g'.pins = []
            ∧ g'.scratch = g.scratch ∧ g'.slots = g.slots ∧ g'.warps.length = g.warps.length
            ∧ (∀ (i : Nat) (w w' : Warp), g.warps[i]? = some w → g'.warps[i]? = some w' → SameRegisters w w' ∧ w'.stopping = none)
            ∧ EntriesGo s t g (192 + g.die) ∧ ImageFrame s t g r
            ∧ (∀ c, c ∈ g'.counters ↔ c ∈ s.counters ∧ c.core = g.coreIdx ∧ c.ctxid = g.ctxid)
            ∧ let shared : Prop := ∃ y ∈ s.wgs, y.uid ≠ g.uid ∧ y.residence = .resident ∧ y.coreIdx = g.coreIdx ∧ y.ctxid = g.ctxid
              (shared → t.counters = s.counters)
              ∧ (¬shared → ∀ c, c ∈ t.counters ↔ c ∈ s.counters ∧ ¬(c.core = g.coreIdx ∧ c.ctxid = g.ctxid))))
  ∧ (∀ s g x, s.gangWgs g.gang = [g] → s.wg g.uid = some g → (∀ y ∈ s.wgs, y.uid = g.uid → y = g) → g.residence ≠ .resident → g.awaiting = none → g.rank < 16 → s.gangs.find? (fun y => y.uid == g.gang) = some x →
      let p := s.partition x.partition
      s.runs p = true → s.coreFree p g.core = true → s.fitsOld p [g] = true →
      (g.imageLost = none → s.censuses = [] → Numbered s → (∀ w ∈ g.warps, w.dataFault = none) →
        ∃ t g', exec (.contextRestore g.gang) s = .next t ∧ t.wg g.uid = some g' ∧ g'.residence = .resident ∧ g'.die = g.die ∧ g'.core = g.core
          ∧ g'.slot = g.slot ∧ g'.scratch = g.scratch ∧ g'.slots = g.slots ∧ g'.warps.length = g.warps.length
          ∧ (∀ (i : Nat) (w w' : Warp), g.warps[i]? = some w → g'.warps[i]? = some w' → SameRegisters w w' ∧ w'.pc = w.pc ∧ w'.hdr = w.hdr ∧ w'.resume = w.resume)
          ∧ EntriesGo s t g (64 * g.die + g.core) ∧ SameMemory s t ∧ g'.counters = []
          ∧ ∀ c ∈ g.counters, (∀ y ∈ s.counters, y.core = g.coreIdx → y.ctxid = c.ctxid → y.cnt ≠ c.cnt) → { c with core := g.coreIdx } ∈ t.counters)
      ∧ (∀ sector, g.imageLost = some sector → g.lossSent = true → exec (.contextRestore g.gang) s = .next s)
      ∧ (∀ sector, g.imageLost = some sector → g.lossSent = false →
        ∃ t, exec (.contextRestore g.gang) s = .next t
          ∧ t.wg g.uid = some { g with stop := if g.stop = .none then .trap else g.stop, lossSent := true } ∧ Sends s t g 1 0x0D 0 0xFF 0 0 0
          ∧ (s.mgmt.log.length < 4096 → ∃ r, t.mgmt.log = s.mgmt.log ++ [r] ∧ r.kind = 8 ∧ r.pa = 64 * sector ∧ r.clk = s.clk) ∧ SameMemory s t))
  ∧ (∀ (s : State) (die : BitVec 2) (group : BitVec 6) (p : Partition), s.mates die.toNat group.toNat = [p] → s.running die.toNat group.toNat = some p.p)
  ∧ (∀ (s : State) (die : BitVec 2) (group : BitVec 6) now (q : Partition), s.running die.toNat group.toNat = some now →
      (¬QuantumPast s die.toNat group.toNat now → s.hasWork (s.partition now) = true → exec (.sliceEnd die group) s = .next s)
      ∧ (QuantumPast s die.toNat group.toNat now
          ∨ ((∀ m ∈ s.mates die.toNat group.toNat, s.classOf m.asid ≠ 1) ∧ s.hasWork (s.partition now) = false) →
        NextTurn s die.toNat group.toNat now q →
        let passed (t : State) : Prop := t.running die.toNat group.toNat = some q.p ∧ t.sliceSince die.toNat group.toNat = s.clk
          ∧ ((s.partition now).asid = q.asid → t.coreUse = s.coreUse ∧ t.coreBound = s.coreBound ∧ t.tlb = s.tlb)
          ∧ ((s.partition now).asid ≠ q.asid → ∀ c, c < 64 → (s.partition now).mask.getLsbD c = true →
              (∀ x ∈ t.coreUse, x.1 ≠ 64 * die.toNat + c) ∧ 64 * die.toNat + c ∉ t.coreBound
                ∧ ∀ x ∈ t.tlb, x.core = 64 * die.toNat + c → x.asid = q.asid)
        (s.gangsOn now = [] → ∃ t, exec (.sliceEnd die group) s = .next t ∧ passed t
            ∧ t = { s with slices := t.slices, coreUse := t.coreUse, coreBound := t.coreBound, tlb := t.tlb })
        ∧ (∀ g, s.gangsOn now = [g.gang] → Alone s g → g.saveTo = none →
            (CoolerRoom s g → ∃ t, exec (.sliceEnd die group) s = .next t ∧ passed t ∧ SaveBegun s t g .cooler)
            ∧ (¬CoolerRoom s g → AreaRoom s g → ∃ t, exec (.sliceEnd die group) s = .next t ∧ passed t ∧ SaveBegun s t g .saveArea)
            ∧ (¬CoolerRoom s g → ¬AreaRoom s g →
                ((∀ x : Slice, s.slice die.toNat group.toNat = some x → x.noRoom = false) → ∃ t, exec (.sliceEnd die group) s = .next t
                  ∧ t.running die.toNat group.toNat = some now ∧ t.sliceSince die.toNat group.toNat = s.sliceSince die.toNat group.toNat
                  ∧ t.wgs = s.wgs ∧ Sends s t g 9 0 0 0xFF 0 0 0)
                ∧ (∀ x : Slice, s.slice die.toNat group.toNat = some x → x.noRoom = true → exec (.sliceEnd die group) s = .next s)))))

/-- Fetching (R116, R117, R324) gives the parcels that stand at the pc. A step runs the decoded instruction: its parcels stand at the pc of the warp whose turn it is, no loop ends there (R176), no answer to a fetch fault
awaits it (R325), no breakpoint lies there (R339), it does not end beyond its loop's body (R175), its encoding is not reserved (R118), and the warp moves on,
or no other warp could. Whose turn it is is the model's schedule (log 2). -/
def Obligations.StepRunsDecoded : Prop :=
  (∀ s g w ps, StandsAt s g w ps → s.fetch g w = .ok ps s)
  ∧ (∀ s u v g w rest ps i, FrontTurn s u g w rest → w.atLoopEnd = false → w.failsFetch = false → u.fetch g w = .ok ps v → v.breaks g w = false →
     w.overruns ps.length = false → decode g.encRev ps = .ok i → ∀ t, exec i v = .next t →
     (rest = [] ∨ ∃ g' w', t.at { wg := g.uid, wid := w.wid } = some (g', w') ∧ w'.pc ≠ w.pc) → step s = .next t)

/-- A step takes the event that stands first in the inbox, a request of the port that has waited for a mailbox command (R364), and an agent's step when its
turn has come. Before bring-up has completed, or while a thermal trip holds the package, only events from outside happen. The order is the model's schedule
(log 2, log 3). -/
def Obligations.StepTakesEvents : Prop :=
  ∀ s i, (∀ rest, s.inbox = i :: rest → let u : State := { s with clk := s.clk + 1, cur := none, inbox := rest }
      (ofOutside i = true ∨ (s.mgmt.lastStep = 7 ∧ s.mgmt.heldInReset = false ∧ (ofSystem i = true ∨ ofAgent i = true)) → step s = exec i u)
      ∧ (ofOutside i = false → ¬(s.mgmt.lastStep = 7 ∧ s.mgmt.heldInReset = false) → step s = .next u))
    ∧ (∀ f, s.inbox = [] → s.mgmt.mbUntil ≤ s.clk + 1 → s.mgmt.portQueue = [f] →
        portNumber i = some (f, f.op.toNat) ∨ (i = .portUnknownOp f ∧ f.op.toNat ∉ [1, 2, 3, 4, 5, 6, 16, 17, 18]) →
        step s = exec i { s.clocked with mgmt := { s.mgmt with portQueue := [] } })
    ∧ (s.inbox = [] → s.clk + 1 < s.mgmt.mbUntil ∨ s.mgmt.portQueue = [] → s.mgmt.lastStep = 7 → s.mgmt.heldInReset = false →
        s.clocked.due[s.clocked.clk % (s.clocked.due.length + 1)]? = some i → step s = exec i s.clocked)

/-- What the front end meets before a dispatch (R118, R325, R330, R339, R340): a page that is absent, a breakpoint, a reserved encoding; and the order of
the three. -/
def Obligations.FrontEndChecks : Prop :=
  ∀ s g w, s.here = some (g, w) → g.stop = .none →
    (∀ va u, s.fetch g w = .absent va u → Alone s g → g.residence = .resident → g.saveTo = none → w.started = [] →
      w.stopping = none → w.halted = false → w.stopped = false →
      ∃ t g' w', exec .fetchFault s = .next t ∧ t.wg g.uid = some g' ∧ g'.awaiting = some true ∧ w' ∈ g'.warps
        ∧ w'.wid = w.wid ∧ w'.trapCode = 0x07 ∧ w'.trapAddr = w.pc ∧ w'.fepc = packPc w.hdr w.pc ∧ w'.fetchFault = some (w.pc, false) ∧ SameMemory s t
        ∧ (CoolerRoom u g ∨ AreaRoom u g → Sends s t g 3 0x07 0 w.wid va w.pc.toNat 4 ∧ (CoolerRoom u g → g'.saveTo = some .cooler)
            ∧ (¬CoolerRoom u g → g'.saveTo = some .saveArea)))
    ∧ (BreakpointHere s g w → w.started = [] → w.stopping = none → w.resume = none → w.halted = false →
      ∃ t g' w', exec .breakpointMatch s = .next t ∧ t.at { wg := g.uid, wid := w.wid } = some (g', w') ∧ g'.stop = .debug ∧ w'.stopped = true
        ∧ w'.trapCode = 0x11 ∧ w'.trapAddr = w.pc ∧ w'.fepc = packPc w.hdr w.pc ∧ w'.g = w.g ∧ w'.k = w.k ∧ OthersStop g g' w
        ∧ Sends s t g 5 0x11 0 w.wid 0 w.pc.toNat 0 ∧ SameMemory s t)
    ∧ (∀ ps u e, s.fetch g w = .ok ps u → decode g.encRev ps = .error e →
      (w.skips ps = false → Handles s g w → ∃ t g' w', exec .reservedEncoding s = .next t ∧ HandlerStarts u t g g' w w' 0x02 w.pc)
      ∧ (w.skips ps = true → ∃ t g' w', exec .reservedEncoding s = .next t ∧ OnlyHere u t g g' w w' ∧ w'.pc = w.pc + BitVec.ofNat 48 (2 * ps.length)
          ∧ w'.g = w.g ∧ w'.k = w.k))
    ∧ (s.cur = some { wg := g.uid, wid := w.wid } → w.atLoopEnd = false → w.failsFetch = false →
      (∀ va u, s.fetch g w = .absent va u → s.frontStep exec g w = exec .fetchFault s)
      ∧ ∀ ps u, s.fetch g w = .ok ps u → (w.skips ps = false → BreakpointHere u g w → s.frontStep exec g w = exec .breakpointMatch u)
          ∧ (¬BreakpointHere u g w → ∀ e, decode g.encRev ps = .error e → s.frontStep exec g w = exec .reservedEncoding u))

/-- Decoding and encoding agree (R116 to R134): every well-formed instruction of a revision is read back from its parcels, every operand at every value
that the encoding admits. -/
def Obligations.EncodingRoundTrip : Prop :=
  ∀ rev i, (rev = 1 ∨ rev = 2) → i.wfRev rev = true → encoded i → decode rev (encode i) = .ok i

/-- Each encoding has one spelling (R116 to R134): what the decoder accepts is well-formed and encodes to the same parcels, so every reserved bit is
checked. -/
def Obligations.EncodingUnique : Prop :=
  ∀ rev p rest i, (p :: rest).length = parcelCount p → decode rev (p :: rest) = .ok i → i.wfRev rev = true ∧ encode i = p :: rest

/-- Words of the manual's worked encodings decode to the instructions they stand for (R119 to R134). -/
def Obligations.WordsDecode : Prop :=
  decode 2 [0x0405] = .ok (.putg 5) ∧ decode 2 [0x32FD] = .ok (.iadd (.imm 0xFD)) ∧ decode 2 [0xD042, 0x0007] = .ok (.fdiv 2 (.g 7))
    ∧ decode 2 [0xD301, 0x000A] = .ok (.shfli 1 10) ∧ decode 1 [0xD301, 0x000A] = .ok (.shfl16 1 10)
    ∧ decode 2 [0xE5EC, 0x0000] = .ok (.fence .package .sc) ∧ decode 2 [0xF680, 0x6244, 0x0020] = .ok (.brd 0x0020 3 false 9 4)

/-- Every step keeps memory in its canonical form: the addresses of cells and of owners rise (log 5 tells why no more can be asked). -/
def Obligations.StepKeepsMemoryForm : Prop :=
  ∀ s t, s.wf = true → step s = .next t → t.wf = true

/-- Every step gives a next state: no instruction, event or agent's step ends in a fault or a refusal. -/
def Obligations.EveryStepCompletes : Prop :=
  ∀ s, ∃ t, step s = .next t

/-- The package after reset and bring-up (R305, R316, R320, R353, R354, R359, R363): every register of the windows at its reset value, no key, class 0,
the cap 2 600 W; and memory in canonical form. That the reset state is the one after bring-up is log 12; FQTAIL and FQHEAD have no reset value, and
their 0 is log 13. -/
def Obligations.ResetValues : Prop :=
  let s := State.reset
  (∀ off, off = 0x0008 ∨ off = 0x0010 → s.windowRead .control off = 0)
    ∧ (∀ p, p < 192 → s.windowRead .control (0x1000 + 16 * p) = 0 ∧ s.windowRead .control (0x1008 + 16 * p) = 0x03E8000000000000#64)
    ∧ (∀ off, s.windowRead .service off = 0) ∧ (∀ off, s.windowRead .mailbox off = 0)
    ∧ (∀ asid, s.keyOf asid = none ∧ s.classOf asid = 0) ∧ s.mgmt.capWatts = 2600 ∧ s.wgs = [] ∧ s.wf = true

end
end

