-- ==== Sys2Proof/Laws/Memory.lean ====
section
/-!
SUPPORT. Laws of memory (R356): a read after a write, and that every memory operation keeps the canonical form.
-/
namespace Sys2Proof.Machine

/-- Reading the byte just written under its key, where the package has memory. -/
theorem Memory.read_write_self (m : Memory) (key pk : Nat) (b : Byte) (hf : fitted pk = true) : (m.write key pk b).read key pk = b := by
  simp [Memory.read, Memory.write, cellAt_cellSet, hf]

theorem cellAt_dropSector (m : List Host.Cell) (sector x : Nat) (h : x / 64 ≠ sector) :
    cellAt (dropSector m sector) x = cellAt m x := by
  induction m with
  | nil => rfl
  | cons c m ih =>
    obtain ⟨a, b⟩ := c
    simp only [dropSector] at ih
    by_cases h1 : a / 64 = sector
    · have h2 : a ≠ x := fun e => h (e ▸ h1)
      simp [dropSector, cellAt, h1, h2, ih]
    · by_cases h2 : a = x
      · subst h2
        simp [dropSector, cellAt, h1]
      · simp [dropSector, cellAt, h1, h2, ih]

/-- A byte that is no part of the write, in a sector that holds data under the reading key or has never been written: it reads as
before. -/
theorem Memory.read_write_other (m : Memory) (key pk : Nat) (b : Byte) (x : Nat) (h : x ≠ pk) (hx : fitted x = true)
    (ho : cellAt m.owners (x / 64) = some key ∨ (cellAt m.owners (x / 64) = none ∧ x / 64 ≠ pk / 64)) :
    (m.write key pk b).read key x = m.read key x := by
  cases hp : fitted pk with
  | false => rcases ho with ho | ⟨ho, _⟩ <;> simp [Memory.read, Memory.write, hx, hp, ho]
  | true =>
  simp only [Memory.read, Memory.write, cellAt_cellSet, h, if_false, hx, hp, Bool.not_true, Bool.false_eq_true]
  by_cases hs : x / 64 = pk / 64
  · rcases ho with ho | ⟨_, hn⟩
    · simp [← hs, ho]
    · exact absurd hs hn
  · simp only [hs, if_false]
    rcases ho with ho | ⟨ho, _⟩
    · simp only [ho]
      by_cases hk : cellAt m.owners (pk / 64) = some key
      · simp [hk]
      · simp [hk, cellAt_dropSector _ _ _ hs]
    · simp [ho]

theorem cellAt_filter_of {β : Type} (m : List (Nat × β)) (p : Nat × β → Bool) (x : Nat) (h : ∀ v, p (x, v) = true) :
    cellAt (m.filter p) x = cellAt m x := by
  induction m with
  | nil => rfl
  | cons d m ih =>
    obtain ⟨a, b⟩ := d
    by_cases e : a = x
    · subst e
      simp [cellAt, h]
    · by_cases hp : p (a, b) = true
      · simp [cellAt, hp, e, ih]
      · simp [cellAt, hp, e, ih]

theorem cellAt_map_of {β : Type} (m : List (Nat × β)) (f : Nat × β → β) (x : Nat) (h : ∀ v, f (x, v) = v) :
    cellAt (m.map (fun c => (c.1, f c))) x = cellAt m x := by
  induction m with
  | nil => rfl
  | cons d m ih =>
    obtain ⟨a, b⟩ := d
    by_cases e : a = x
    · subst e
      simp [cellAt, h]
    · simp [cellAt, e, ih]

/-- A sector that an image does not take reads as before under its own key. -/
theorem Memory.read_overwrite_other (m : Memory) (hit : Nat → Bool) (key pk : Nat) (h : hit (pk / 64) = false) (hf : fitted pk = true)
    (ho : cellAt m.owners (pk / 64) = none ∨ cellAt m.owners (pk / 64) = some key) : (m.overwrite hit).read key pk = m.read key pk := by
  have h1 : cellAt (m.overwrite hit).owners (pk / 64) = cellAt m.owners (pk / 64) :=
    cellAt_map_of _ (fun o => if hit o.1 then imageKey else o.2) _ (fun v => by simp [h])
  have h2 : cellAt (m.overwrite hit).cells pk = cellAt m.cells pk := cellAt_filter_of _ _ _ (fun v => by simp [h])
  unfold Memory.read
  rw [h1, h2]
  rcases ho with e | e <;> simp [e, hf]

/-- Sectors overwritten by an image keep the canonical form of memory. -/
theorem Memory.wf_overwrite (m : Memory) (hit : Nat → Bool) (h : m.wf = true) : (m.overwrite hit).wf = true := by
  simp only [Memory.wf, Memory.overwrite, Bool.and_eq_true] at h ⊢
  exact ⟨cellsRise_filter _ _ h.1, cellsRise_map _ _ h.2⟩

/-- A write keeps the canonical form. -/
theorem Memory.wf_write (m : Memory) (key pk : Nat) (b : Byte) (h : m.wf = true) : (m.write key pk b).wf = true := by
  simp only [Memory.wf, Bool.and_eq_true] at h ⊢
  cases hp : fitted pk with
  | false => simpa [Memory.write, hp] using h
  | true =>
  simp only [Memory.write, hp, Bool.not_true, Bool.false_eq_true, if_false]
  refine ⟨?_, cellsRise_cellSet _ _ _ h.2⟩
  apply cellsRise_cellSet
  split
  · exact h.1
  · exact cellsRise_filter _ _ h.1

/-- What every operation of the machine's own agents keeps: memory stays in canonical form, and the management controller stays as it
is. -/
@[simp] theorem State.writeByte_keeps (s : State) (key pk : Nat) (b : Byte) (h : s.mem.wf = true) :
    (s.writeByte key pk b).mem.wf = true ∧ (s.writeByte key pk b).mgmt = s.mgmt :=
  ⟨Memory.wf_write _ _ _ _ h, rfl⟩

/-- A fold keeps what each of its steps keeps. -/
theorem foldl_keeps {α : Type} (f : State → α → State)
    (hf : ∀ s a, s.mem.wf = true → (f s a).mem.wf = true ∧ (f s a).mgmt = s.mgmt) (l : List α) (s : State) (h : s.mem.wf = true) :
    (l.foldl f s).mem.wf = true ∧ (l.foldl f s).mgmt = s.mgmt := by
  induction l generalizing s with
  | nil => exact ⟨h, rfl⟩
  | cons a l ih =>
    have h1 := hf s a h
    have h2 := ih (f s a) h1.1
    exact ⟨h2.1, h2.2.trans h1.2⟩

@[simp] theorem State.writeBytes_keeps (s : State) (key : Nat) (bs : List (Nat × Byte)) (h : s.mem.wf = true) :
    (s.writeBytes key bs).mem.wf = true ∧ (s.writeBytes key bs).mgmt = s.mgmt :=
  foldl_keeps _ (fun s b h => State.writeByte_keeps s key b.1 b.2 h) bs s h

end Sys2Proof.Machine
end

