-- ==== Sys2Proof/Laws/KeepsOps.lean ====
section
/-!
SUPPORT. What the operations of Machine/Memory.lean and Machine/Ops.lean keep: memory in canonical form, and the management controller as it is.
-/
namespace Sys2Proof.Machine

/-- What an outcome keeps, if it is a next state. -/
def Out.keeps (m : Mgmt) : Out → Prop
  | .next t => t.mem.wf = true ∧ t.mgmt = m
  | .fault _ => True
  | .refused _ => True

@[simp] theorem Out.keeps_next (m : Mgmt) (t : State) : Out.keeps m (.next t) ↔ t.mem.wf = true ∧ t.mgmt = m := Iff.rfl
@[simp] theorem Out.keeps_fault (m : Mgmt) (f : Fault) : Out.keeps m (.fault f) ↔ True := Iff.rfl
@[simp] theorem Out.keeps_refused (m : Mgmt) (r : Refusal) : Out.keeps m (.refused r) ↔ True := Iff.rfl

@[simp] theorem State.writePhys_keeps (s : State) (key pk n v : Nat) (h : s.mem.wf = true) :
    (State.writePhys s key pk n v).mem.wf = true ∧ (State.writePhys s key pk n v).mgmt = s.mgmt := by
  unfold State.writePhys
  (try dsimp only)
  (repeat' split) <;> simp_all

@[simp] theorem State.sysWrite_keeps (s : State) (pa n v : Nat) (h : s.mem.wf = true) :
    (State.sysWrite s pa n v).mem.wf = true ∧ (State.sysWrite s pa n v).mgmt = s.mgmt := by
  unfold State.sysWrite
  (try dsimp only)
  (repeat' split) <;> simp_all

@[simp] theorem State.leafOf_keeps (s : State) (core asid : Nat) (va : BitVec 48) :
    (State.leafOf s core asid va).2.mem = s.mem ∧ (State.leafOf s core asid va).2.mgmt = s.mgmt := by
  unfold State.leafOf
  (try dsimp only)
  (repeat' split) <;> simp_all

@[simp] theorem State.translate_keeps (s : State) (core asid : Nat) (service : Bool) (a : Access) (va : BitVec 48) :
    (State.translate s core asid service a va).2.mem = s.mem ∧ (State.translate s core asid service a va).2.mgmt = s.mgmt := by
  have k := State.leafOf_keeps s core asid va
  unfold State.translate
  (repeat' split) <;> simp_all


@[simp] theorem State.xlat_keeps (s : State) (wg : Workgroup) (a : Access) (va : BitVec 48) :
    (State.xlat s wg a va).2.mem = s.mem ∧ (State.xlat s wg a va).2.mgmt = s.mgmt := by
  unfold State.xlat
  (try dsimp only)
  (repeat' split) <;> simp_all

@[simp] theorem State.setWg_keeps (s : State) (g : Workgroup) :
    (State.setWg s g).mem = s.mem ∧ (State.setWg s g).mgmt = s.mgmt := by
  unfold State.setWg
  (try dsimp only)
  (repeat' split) <;> simp_all

@[simp] theorem State.put_keeps (s : State) (g : Workgroup) (w : Warp) :
    (State.put s g w).mem = s.mem ∧ (State.put s g w).mgmt = s.mgmt := by
  unfold State.put
  (try dsimp only)
  (repeat' split) <;> simp_all

theorem State.onWarp_keeps (s : State) (f : Workgroup → Warp → Out) (m : Mgmt) (hf : ∀ g w, Out.keeps m (f g w)) :
    Out.keeps m (s.onWarp f) := by
  unfold State.onWarp
  split
  · trivial
  · exact hf _ _

theorem State.onWg_keeps (s : State) (uid : Nat) (f : Workgroup → Out) (m : Mgmt) (h : s.mem.wf = true) (hm : s.mgmt = m)
    (hf : ∀ g, Out.keeps m (f g)) : Out.keeps m (s.onWg uid f) := by
  unfold State.onWg
  split
  · exact ⟨h, hm⟩
  · exact hf _

theorem State.onWarpOf_keeps (s : State) (uid wid : Nat) (f : Workgroup → Warp → Out) (m : Mgmt) (h : s.mem.wf = true) (hm : s.mgmt = m)
    (hf : ∀ g w, Out.keeps m (f g w)) : Out.keeps m (s.onWarpOf uid wid f) := by
  unfold State.onWarpOf
  split
  · exact ⟨h, hm⟩
  · exact hf _ _

@[simp] theorem State.fresh_keeps (s : State) :
    (State.fresh s).2.mem = s.mem ∧ (State.fresh s).2.mgmt = s.mgmt := by
  unfold State.fresh
  (try dsimp only)
  (repeat' split) <;> simp_all

@[simp] theorem State.freeIdx_keeps (s : State) :
    (State.freeIdx s).2.mem = s.mem ∧ (State.freeIdx s).2.mgmt = s.mgmt := by
  unfold State.freeIdx
  (try dsimp only)
  (repeat' split) <;> simp_all

@[simp] theorem State.count_keeps (s : State) (g : Workgroup) (wid event n : Nat) :
    (State.count s g wid event n).mem = s.mem ∧ (State.count s g wid event n).mgmt = s.mgmt := by
  unfold State.count
  (try dsimp only)
  (repeat' split) <;> simp_all

@[simp] theorem State.send_keeps (s : State) (r : FaultRec) :
    (State.send s r).mem = s.mem ∧ (State.send s r).mgmt = s.mgmt := by
  unfold State.send
  (try dsimp only)
  (repeat' split) <;> simp_all

@[simp] theorem State.stopWorkgroup_keeps (s : State) (g : Workgroup) (w : Warp) (kind code code2 : Nat) (t : TrapInfo) :
    (State.stopWorkgroup s g w kind code code2 t).mem = s.mem ∧ (State.stopWorkgroup s g w kind code code2 t).mgmt = s.mgmt := by
  unfold State.stopWorkgroup
  (try dsimp only)
  (repeat' split) <;> simp_all

theorem State.placeImages_keeps (l : List Nat) (s t : State) (e : State.placeImages l s = some t) :
    t.mem = s.mem ∧ t.mgmt = s.mgmt := by
  induction l generalizing s with
  | nil => simp_all [State.placeImages]
  | cons a l ih =>
    unfold State.placeImages at e
    split at e
    · exact ih s e
    · dsimp only at e
      split at e
      · simpa using ih _ e
      · split at e
        · simpa using ih _ e
        · simp at e

@[simp] theorem State.stopGang_keeps (s : State) (gang : Nat) :
    (State.stopGang s gang).mem = s.mem ∧ (State.stopGang s gang).mgmt = s.mgmt := by
  unfold State.stopGang
  (try dsimp only)
  (repeat' split) <;> simp_all

@[simp] theorem State.sendNoRoom_keeps (s : State) (uids : List Nat) :
    (State.sendNoRoom s uids).mem = s.mem ∧ (State.sendNoRoom s uids).mgmt = s.mgmt := by
  unfold State.sendNoRoom
  (try dsimp only)
  (repeat' split) <;> simp_all

@[simp] theorem State.noteNoRoom_keeps (s : State) (gang : Nat) :
    (State.noteNoRoom s gang).mem = s.mem ∧ (State.noteNoRoom s gang).mgmt = s.mgmt := by
  unfold State.noteNoRoom
  (try dsimp only)
  (repeat' split) <;> simp_all

@[simp] theorem State.beginSave_keeps (s : State) (gang : Nat) :
    (State.beginSave s gang).mem = s.mem ∧ (State.beginSave s gang).mgmt = s.mgmt := by
  unfold State.beginSave
  split
  · rename_i e
    have k := State.placeImages_keeps _ _ _ e
    simp [k]
  · simp


@[simp] theorem State.deliverTrap_keeps (s : State) (g : Workgroup) (w : Warp) (t : TrapInfo) :
    (State.deliverTrap s g w t).mem = s.mem ∧ (State.deliverTrap s g w t).mgmt = s.mgmt := by
  unfold State.deliverTrap
  (try dsimp only)
  (repeat' split) <;> simp_all

@[simp] theorem State.retimed_keeps (s : State) (uid : Nat) :
    (State.retimed s uid).mem = s.mem ∧ (State.retimed s uid).mgmt = s.mgmt := by
  unfold State.retimed
  (try dsimp only)
  (repeat' split) <;> simp_all

@[simp] theorem State.settle_keeps (s : State) (g : Workgroup) (w : Warp) :
    (State.settle s g w).mem = s.mem ∧ (State.settle s g w).mgmt = s.mgmt := by
  unfold State.settle
  (try dsimp only)
  (repeat' split) <;> simp_all

@[simp] theorem State.trapFront_keeps (s : State) (g : Workgroup) (w : Warp) (code : Nat) :
    (State.trapFront s g w code).mem = s.mem ∧ (State.trapFront s g w code).mgmt = s.mgmt := by
  unfold State.trapFront
  (try dsimp only)
  (repeat' split) <;> simp_all

@[simp] theorem State.trapFrontAt_keeps (s : State) (g : Workgroup) (w : Warp) (code va access : Nat) :
    (State.trapFrontAt s g w code va access).mem = s.mem ∧ (State.trapFrontAt s g w code va access).mgmt = s.mgmt := by
  unfold State.trapFrontAt
  (try dsimp only)
  (repeat' split) <;> simp_all

@[simp] theorem State.trapAfter_keeps (s : State) (g : Workgroup) (w : Warp) (code : Nat) :
    (State.trapAfter s g w code).mem = s.mem ∧ (State.trapAfter s g w code).mgmt = s.mgmt := by
  unfold State.trapAfter
  (try dsimp only)
  (repeat' split) <;> simp_all

/-- Leaving a core touches neither memory nor the controller. -/
@[simp] theorem State.vacate_keeps (s : State) (g : Workgroup) : (s.vacate g).mem = s.mem ∧ (s.vacate g).mgmt = s.mgmt := by
  unfold State.vacate
  split <;> exact ⟨rfl, rfl⟩

@[simp] theorem State.trapStrand_keeps (s : State) (g : Workgroup) (w : Warp) (e : QEntry) (code va access code2 : Nat) :
    (State.trapStrand s g w e code va access code2).mem = s.mem ∧ (State.trapStrand s g w e code va access code2).mgmt = s.mgmt := by
  unfold State.trapStrand
  (try dsimp only)
  (repeat' split) <;> simp_all

@[simp] theorem State.gangRelease_keeps (s : State) (gang : Nat) :
    (State.gangRelease s gang).mem = s.mem ∧ (State.gangRelease s gang).mgmt = s.mgmt := by
  unfold State.gangRelease
  (try dsimp only)
  (repeat' split) <;> simp_all

@[simp] theorem State.trapAll_keeps (uid code : Nat) (l : List Nat) (s : State) :
    (s.trapAll uid code l).mem = s.mem ∧ (s.trapAll uid code l).mgmt = s.mgmt := by
  induction l generalizing s with
  | nil => simp [State.trapAll]
  | cons a l ih =>
    unfold State.trapAll
    dsimp only
    split
    · exact ih s
    · simp [ih]

@[simp] theorem State.checkBarrier_keeps (s : State) (uid : Nat) :
    (State.checkBarrier s uid).mem = s.mem ∧ (State.checkBarrier s uid).mgmt = s.mgmt := by
  unfold State.checkBarrier
  (try dsimp only)
  (repeat' split) <;> simp_all

end Sys2Proof.Machine
end

