-- ==== Sys2Proof/Laws/KeepsMem.lean ====
section
/-!
SUPPORT. What loads, stores, the former, the aperture and the queues keep.
-/
namespace Sys2Proof.Machine

/-- What running an entry keeps. -/
def Ran.keeps (m : Mgmt) : Ran → Prop
  | .done t | .trap t _ _ _ _ | .fault t _ _ => t.mem.wf = true ∧ t.mgmt = m
  | .wait => True

@[simp] theorem Ran.keeps_done (m : Mgmt) (t : State) : Ran.keeps m (.done t) ↔ t.mem.wf = true ∧ t.mgmt = m := Iff.rfl
@[simp] theorem Ran.keeps_trap (m : Mgmt) (t : State) (a b c d : Nat) : Ran.keeps m (.trap t a b c d) ↔ t.mem.wf = true ∧ t.mgmt = m := Iff.rfl
@[simp] theorem Ran.keeps_fault (m : Mgmt) (t : State) (a b : Nat) : Ran.keeps m (.fault t a b) ↔ t.mem.wf = true ∧ t.mgmt = m := Iff.rfl
@[simp] theorem Ran.keeps_wait (m : Mgmt) : Ran.keeps m .wait ↔ True := Iff.rfl

/-- An aperture write that keeps them. -/
def ApWrite.keeps (apw : ApWrite) : Prop := ∀ s o v, s.mem.wf = true → (apw s o v).mem.wf = true ∧ (apw s o v).mgmt = s.mgmt
/-- A fold leaves memory and the controller where each of its steps does. -/
theorem foldl_same {α : Type} (f : State → α → State) (hf : ∀ s a, (f s a).mem = s.mem ∧ (f s a).mgmt = s.mgmt) (l : List α) (s : State) :
    (l.foldl f s).mem = s.mem ∧ (l.foldl f s).mgmt = s.mgmt := by
  induction l generalizing s with
  | nil => exact ⟨rfl, rfl⟩
  | cons a l ih => exact ⟨(ih _).1.trans (hf s a).1, (ih _).2.trans (hf s a).2⟩

@[simp] theorem State.xlatLanes_keeps (g : Workgroup) (acc : Access) (l : List (Nat × Nat)) (r : LaneXlat) :
    (State.xlatLanes g acc l r).st.mem = r.st.mem ∧ (State.xlatLanes g acc l r).st.mgmt = r.st.mgmt := by
  induction l generalizing r with
  | nil => simp [State.xlatLanes]
  | cons a l ih =>
    obtain ⟨x, y⟩ := a
    simp only [State.xlatLanes, ih]
    split <;> simp

@[simp] theorem State.finish_keeps (s : State) (g : Workgroup) (w : Warp) (e : QEntry) (f : Flags) :
    (State.finish s g w e f).mem = s.mem ∧ (State.finish s g w e f).mgmt = s.mgmt := by
  unfold State.finish
  (try dsimp only)
  (repeat' split) <;> simp_all

@[simp] theorem runLoad_keeps (ap : ApRead) (s : State) (g : Workgroup) (w : Warp) (e : QEntry) (k : LdKind) (m : MemOp) (mg : Mgmt) (h : s.mem.wf = true) (hm : s.mgmt = mg) :
    Ran.keeps mg (runLoad ap s g w e k m) := by
  unfold runLoad
  (try dsimp only)
  (repeat' split) <;> simp_all

@[simp] theorem runStore_keeps (s : State) (g : Workgroup) (w : Warp) (e : QEntry) (k : StKind) (m : MemOp) (mg : Mgmt) (h : s.mem.wf = true) (hm : s.mgmt = mg) :
    Ran.keeps mg (runStore s g w e k m) := by
  unfold runStore
  (try dsimp only)
  (repeat' split) <;> simp_all

theorem atomGlobal_keeps (ap : ApRead) (apw : ApWrite) (ha : apw.keeps) (key : Nat) (k : AtomKind) (acc latch : Lanes) (l : List (Nat × Nat))
    (s : State) (out : List (Nat × Word)) (h : s.mem.wf = true) :
    (atomGlobal ap apw key k acc latch l s out).1.mem.wf = true ∧ (atomGlobal ap apw key k acc latch l s out).1.mgmt = s.mgmt := by
  induction l generalizing s out with
  | nil => simp [atomGlobal, h]
  | cons a l ih =>
    obtain ⟨x, pk⟩ := a
    simp only [atomGlobal]
    split
    · have k1 := fun v => ha s (pk - s.dapBase.toNat) v h
      have k2 := fun v o => ih _ o (k1 v).1
      exact ⟨(k2 _ _).1, (k2 _ _).2.trans (k1 _).2⟩
    · have k1 := fun v => State.writePhys_keeps s key pk 4 v h
      have k2 := fun v o => ih _ o (k1 v).1
      exact ⟨(k2 _ _).1, (k2 _ _).2.trans (k1 _).2⟩

theorem runAtom_keeps (ap : ApRead) (apw : ApWrite) (ha : apw.keeps) (s : State) (g : Workgroup) (w : Warp) (e : QEntry) (k : AtomKind) (m : MemOp)
    (mg : Mgmt) (h : s.mem.wf = true) (hm : s.mgmt = mg) : Ran.keeps mg (runAtom ap apw s g w e k m) := by
  have ka := fun key acc latch l t out (ht : t.mem.wf = true) => atomGlobal_keeps ap apw ha key k acc latch l t out ht
  unfold runAtom
  (try dsimp only)
  (repeat' split) <;> simp_all

@[simp] theorem runLdtr_keeps (ap : ApRead) (s : State) (g : Workgroup) (w : Warp) (e : QEntry) (dst nb : Nat) (elem : Elem) (base stride : DWord) (m : Mgmt) (h : s.mem.wf = true) (hm : s.mgmt = m) :
    Ran.keeps m (runLdtr ap s g w e dst nb elem base stride) := by
  unfold runLdtr
  (try dsimp only)
  (repeat' split) <;> simp_all

@[simp] theorem State.formFrom_keeps (s : State) (g : Workgroup) (b : Bin) (split : Bool) :
    (State.formFrom s g b split).mem = s.mem ∧ (State.formFrom s g b split).mgmt = s.mgmt := by
  unfold State.formFrom
  (try dsimp only)
  (repeat' split) <;> simp_all

@[simp] theorem State.tryForm_keeps (s : State) (g : Workgroup) (b : Bin) :
    (State.tryForm s g b).mem = s.mem ∧ (State.tryForm s g b).mgmt = s.mgmt := by
  unfold State.tryForm
  (try dsimp only)
  (repeat' split) <;> simp_all

@[simp] theorem State.servePool_keeps (s : State) (g : Workgroup) :
    (State.servePool s g).mem = s.mem ∧ (State.servePool s g).mgmt = s.mgmt := by
  unfold State.servePool
  (try dsimp only)
  (repeat' split) <;> simp_all

@[simp] theorem State.apWrite_keeps (s : State) (off : Nat) (v : Word) :
    (State.apWrite s off v).mem = s.mem ∧ (State.apWrite s off v).mgmt = s.mgmt := by
  unfold State.apWrite
  (try dsimp only)
  (repeat' split) <;> simp_all

@[simp] theorem State.putByte_keeps (s : State) (key pk : Nat) (b : Byte) (h : s.mem.wf = true) :
    (State.putByte s key pk b).mem.wf = true ∧ (State.putByte s key pk b).mgmt = s.mgmt := by
  unfold State.putByte
  (try dsimp only)
  (repeat' split) <;> simp_all

@[simp] theorem State.apStore_keeps (s : State) (bs : List (Nat × Byte)) (word : Nat) :
    (State.apStore s bs word).mem = s.mem ∧ (State.apStore s bs word).mgmt = s.mgmt := by
  simp [State.apStore]

@[simp] theorem State.putBytes_keeps (s : State) (key : Nat) (bs : List (Nat × Byte)) (h : s.mem.wf = true) :
    (State.putBytes s key bs).mem.wf = true ∧ (State.putBytes s key bs).mgmt = s.mgmt := by
  have k1 := foldl_keeps _ (fun s (b : Nat × Byte) h => State.putByte_keeps s key b.1 b.2 h) (bs.filter (fun b => !(s.inAperture b.1))) s h
  have k2 := foldl_same (fun t (i : Nat) => t.apStore (bs.filter (fun b => s.inAperture b.1)) i) (fun t i => State.apStore_keeps t _ i)
    (((bs.filter (fun b => s.inAperture b.1)).map (fun b => b.1 / 4)).foldl addOnce [])
    ((bs.filter (fun b => !(s.inAperture b.1))).foldl (fun s b => s.putByte key b.1 b.2) s)
  exact ⟨by rw [State.putBytes, k2.1]; exact k1.1, by rw [State.putBytes, k2.2]; exact k1.2⟩


@[simp] theorem State.loadAsid_keeps (s : State) (asid : Nat) :
    (State.loadAsid s asid).mem = s.mem ∧ (State.loadAsid s asid).mgmt = s.mgmt := by
  unfold State.loadAsid
  (try dsimp only)
  (repeat' split) <;> simp_all

@[simp] theorem State.distWrite_keeps (s : State) (asid va n v : Nat) (h : s.mem.wf = true) :
    (State.distWrite s asid va n v).mem.wf = true ∧ (State.distWrite s asid va n v).mgmt = s.mgmt := by
  unfold State.distWrite
  (try dsimp only)
  (repeat' split) <;> simp_all

/-- A deposit in the overflow area keeps the canonical form of memory. -/
@[simp] theorem State.spill_keeps (s : State) (g : Workgroup) (spilled : Bool) (h : s.mem.wf = true) :
    (State.spill s g spilled).mem.wf = true ∧ (State.spill s g spilled).mgmt = s.mgmt := by
  unfold State.spill
  split
  · exact ⟨h, rfl⟩
  · exact ⟨Memory.wf_overwrite _ _ h, rfl⟩

@[simp] theorem State.qPut_keeps (s : State) (q off n v : Nat) (h : s.mem.wf = true) :
    (State.qPut s q off n v).mem.wf = true ∧ (State.qPut s q off n v).mgmt = s.mgmt := by
  unfold State.qPut
  (try dsimp only)
  (repeat' split) <;> simp_all

@[simp] theorem State.loadQueue_keeps (s : State) (q : Nat) :
    (State.loadQueue s q).mem = s.mem ∧ (State.loadQueue s q).mgmt = s.mgmt := by
  unfold State.loadQueue
  (try dsimp only)
  (repeat' split) <;> simp_all

@[simp] theorem State.takeRecord_keeps (s : State) (q : Nat) (x : Queue) (head w0 r : Nat) (h : s.mem.wf = true) :
    (State.takeRecord s q x head w0 r).mem.wf = true ∧ (State.takeRecord s q x head w0 r).mgmt = s.mgmt := by
  have k1 := State.distWrite_keeps s x.asid (x.entryAddr head) 8 (w0 - 2 ^ 32) h
  have k2 := State.qPut_keeps _ q 12 4 ((head + 1) % 2 ^ 32) k1.1
  simp only [State.takeRecord]
  exact ⟨k2.1, k2.2.trans k1.2⟩

@[simp] theorem State.readRing_keeps (q : Nat) (n : Nat) (s : State) (h : s.mem.wf = true) :
    (State.readRing q n s).mem.wf = true ∧ (State.readRing q n s).mgmt = s.mgmt := by
  induction n generalizing s with
  | zero => simp [State.readRing, h]
  | succ n ih =>
    unfold State.readRing
    dsimp only
    (repeat' split) <;> simp [h, ih]

@[simp] theorem State.ringDoorbell_keeps (s : State) (q : Nat) (h : s.mem.wf = true) :
    (State.ringDoorbell s q).mem.wf = true ∧ (State.ringDoorbell s q).mgmt = s.mgmt := by
  unfold State.ringDoorbell
  split
  · simp [h]
  · split <;> simp [h]


end Sys2Proof.Machine
end

