-- ==== Sys2Proof/Laws/KeepsWarp.lean ====
section
/-!
SUPPORT. What issue, dispatch and the front-end instructions keep.
-/
namespace Sys2Proof.Machine


@[simp] theorem View.found_st (v : View) (s : State) (acc : Access) (p : Nat × Nat) : (v.found s acc p).st = s := by
  unfold View.found
  split <;> rfl

@[simp] theorem View.page_keeps (g : Workgroup) (r : Region) (v : View) (a : Nat) :
    (View.page g r v a).st.mem = v.st.mem ∧ (View.page g r v a).st.mgmt = v.st.mgmt := by
  unfold View.page
  dsimp only
  (repeat' split) <;> simp

/-- A fold over views keeps what each of its steps keeps. -/
theorem View.foldAll_keeps {α : Type} (f : View → α → View) (hf : ∀ v a, (f v a).st.mem = v.st.mem ∧ (f v a).st.mgmt = v.st.mgmt) (l : List α)
    (v : View) : (l.foldl f v).st.mem = v.st.mem ∧ (l.foldl f v).st.mgmt = v.st.mgmt := by
  induction l generalizing v with
  | nil => exact ⟨rfl, rfl⟩
  | cons a l ih => exact ⟨(ih _).1.trans (hf v a).1, (ih _).2.trans (hf v a).2⟩

@[simp] theorem View.region_keeps (g : Workgroup) (w : Warp) (o : EngOp) (v : View) (r : Region) :
    (View.region g w o v r).st.mem = v.st.mem ∧ (View.region g w o v r).st.mgmt = v.st.mgmt := by
  have k := fun l v => View.foldAll_keeps _ (View.page_keeps g r) l v
  unfold View.region
  (repeat' split) <;> simp [k]

@[simp] theorem State.view_keeps (s : State) (g : Workgroup) (w : Warp) (o : EngOp) (rs : List Region) :
    (State.view s g w o rs).st.mem = s.mem ∧ (State.view s g w o rs).st.mgmt = s.mgmt := by
  have k := fun l v => View.foldAll_keeps _ (View.region_keeps g w o) l v
  unfold State.view
  dsimp only
  (repeat' split) <;> simp [k]

@[simp] theorem View.reachRegion_keeps (g : Workgroup) (w : Warp) (o : EngOp) (v : View) (r : Region) :
    (View.reachRegion g w o v r).st.mem = v.st.mem ∧ (View.reachRegion g w o v r).st.mgmt = v.st.mgmt := by
  unfold View.reachRegion
  split
  · refine View.foldAll_keeps _ (fun v a => ?_) _ v
    dsimp only
    (repeat' split) <;> simp
  · split <;> simp
  · simp

@[simp] theorem View.reach_keeps (v : View) (g : Workgroup) (w : Warp) (o : EngOp) (rs : List Region) :
    (View.reach v g w o rs).st.mem = v.st.mem ∧ (View.reach v g w o rs).st.mgmt = v.st.mgmt :=
  View.foldAll_keeps _ (fun v r => View.reachRegion_keeps g w o v r) rs _

@[simp] theorem View.write_keeps (v : View) (s : State) (g : Workgroup) (sp : Space) (bs : List (Nat × Byte)) (h : s.mem.wf = true) :
    (View.write v s g sp bs).1.mem.wf = true ∧ (View.write v s g sp bs).1.mgmt = s.mgmt := by
  unfold View.write
  (try dsimp only)
  (repeat' split) <;> simp_all

@[simp] theorem State.issueOp_keeps (s : State) (g : Workgroup) (w : Warp) (o : EngOp) :
    (State.issueOp s g w o).mem = s.mem ∧ (State.issueOp s g w o).mgmt = s.mgmt := by
  unfold State.issueOp
  (try dsimp only)
  (repeat' split) <;> simp_all

@[simp] theorem State.signMma_keeps (s : State) (g : Workgroup) (w : Warp) (e : QEntry) (k : EngKind) (base panel : DWord) (f : MmaFmt) (cv gB : Nat) (m : Mgmt) (h : s.mem.wf = true) (hm : s.mgmt = m) :
    Ran.keeps m (State.signMma s g w e k base panel f cv gB) := by
  unfold State.signMma
  (try dsimp only)
  (repeat' split) <;> simp_all

@[simp] theorem State.setEntry_keeps (s : State) (e : DirEntry) :
    (State.setEntry s e).mem = s.mem ∧ (State.setEntry s e).mgmt = s.mgmt := by
  unfold State.setEntry
  (try dsimp only)
  (repeat' split) <;> simp_all

@[simp] theorem State.onReport_keeps (s : State) (uid tid : Nat) (id : Nat) (f : LocReport → LocReport) :
    (State.onReport s uid tid id f).mem = s.mem ∧ (State.onReport s uid tid id f).mgmt = s.mgmt := by
  unfold State.onReport
  (try dsimp only)
  (repeat' split) <;> simp_all

@[simp] theorem State.replyValue_keeps (s : State) (uid tid id : Nat) (v : Word) :
    (State.replyValue s uid tid id v).mem = s.mem ∧ (State.replyValue s uid tid id v).mgmt = s.mgmt := by
  unfold State.replyValue
  (try dsimp only)
  (repeat' split) <;> simp_all

@[simp] theorem State.replyLanes_keeps (s : State) (g : Workgroup) (w : Warp) (vals : Lanes) (ls : List Nat) :
    (State.replyLanes s g w vals ls).mem = s.mem ∧ (State.replyLanes s g w vals ls).mgmt = s.mgmt := by
  refine foldl_same _ (fun t l => ?_) ls s
  (repeat' split) <;> simp


@[simp] theorem State.responderExit_keeps (s : State) (uid tid id : Nat) :
    (State.responderExit s uid tid id).mem = s.mem ∧ (State.responderExit s uid tid id).mgmt = s.mgmt := by
  unfold State.responderExit
  (try dsimp only)
  (repeat' split) <;> simp_all

@[simp] theorem State.lanesExit_keeps (s : State) (g : Workgroup) (w : Warp) (ls : List Nat) :
    (State.lanesExit s g w ls).mem = s.mem ∧ (State.lanesExit s g w ls).mgmt = s.mgmt := by
  refine foldl_same _ (fun t l => ?_) ls s
  (repeat' split) <;> simp


@[simp] theorem State.startCensus_keeps (s : State) (g : Workgroup) (w : Warp) (e : QEntry) (k : EngKind) (key mask entry : DWord) (op : CenOp) (pkg : Bool) :
    (State.startCensus s g w e k key mask entry op pkg).mem = s.mem ∧ (State.startCensus s g w e k key mask entry op pkg).mgmt = s.mgmt := by
  unfold State.startCensus
  (try dsimp only)
  (repeat' split) <;> simp_all

@[simp] theorem State.spawnNow_keeps (s : State) (g : Workgroup) (w : Warp) (e : QEntry) (k : EngKind) (entry : DWord) (uni : UniState) (m : Mgmt) (h : s.mem.wf = true) (hm : s.mgmt = m) :
    Ran.keeps m (State.spawnNow s g w e k entry uni) := by
  unfold State.spawnNow
  (try dsimp only)
  (repeat' split) <;> simp_all

@[simp] theorem State.counterWrite_keeps (s : State) (g : Workgroup) (wid cnt : Nat) (v : DWord) :
    (State.counterWrite s g wid cnt v).mem = s.mem ∧ (State.counterWrite s g wid cnt v).mgmt = s.mgmt := by
  unfold State.counterWrite
  (try dsimp only)
  (repeat' split) <;> simp_all

@[simp] theorem State.finishPlain_keeps (s : State) (g : Workgroup) (w : Warp) (e : QEntry) (m : Mgmt) (h : s.mem.wf = true) (hm : s.mgmt = m) :
    Ran.keeps m (State.finishPlain s g w e) := by
  unfold State.finishPlain
  (try dsimp only)
  (repeat' split) <;> simp_all

@[simp] theorem State.issueEng_keeps (s : State) (g : Workgroup) (w : Warp) (e : QEntry) (k : EngKind) (m : Mgmt) (h : s.mem.wf = true) (hm : s.mgmt = m) :
    Ran.keeps m (State.issueEng s g w e k) := by
  unfold State.issueEng
  (try dsimp only)
  (repeat' split) <;> simp_all

@[simp] theorem State.deliverAcc_keeps (s : State) (g : Workgroup) (w : Warp) (e : QEntry) (x : LaneSet) (v : Lanes) (f : Flags) (m : Mgmt) (h : s.mem.wf = true) (hm : s.mgmt = m) :
    Ran.keeps m (State.deliverAcc s g w e x v f) := by
  unfold State.deliverAcc
  (try dsimp only)
  (repeat' split) <;> simp_all

@[simp] theorem State.deliverPred_keeps (s : State) (g : Workgroup) (w : Warp) (e : QEntry) (p : Nat) (x v : LaneSet) (f : Flags) (m : Mgmt) (h : s.mem.wf = true) (hm : s.mgmt = m) :
    Ran.keeps m (State.deliverPred s g w e p x v f) := by
  unfold State.deliverPred
  (try dsimp only)
  (repeat' split) <;> simp_all

@[simp] theorem State.runEntry_keeps (s : State) (g : Workgroup) (w : Warp) (e : QEntry) (m : Mgmt) (h : s.mem.wf = true) (hm : s.mgmt = m) :
    Ran.keeps m (State.runEntry s g w e) := by
  have ka := fun k mo => runAtom_keeps State.apRead State.apWrite (fun s o v hs => by simp [hs]) s g w e k mo m h hm
  unfold State.runEntry
  (try dsimp only)
  (repeat' split) <;> simp_all


@[simp] theorem State.dataFaulted_keeps (s : State) (g : Workgroup) (w : Warp) (e : QEntry) (va access : Nat) :
    (State.dataFaulted s g w e va access).mem = s.mem ∧ (State.dataFaulted s g w e va access).mgmt = s.mgmt := by
  unfold State.dataFaulted
  (try dsimp only)
  (repeat' split) <;> simp_all

@[simp] theorem State.meetAbsent_keeps (s : State) (g : Workgroup) (w0 w1 : Warp) (e : QEntry) (va access : Nat) :
    (State.meetAbsent s g w0 w1 e va access).mem = s.mem ∧ (State.meetAbsent s g w0 w1 e va access).mgmt = s.mgmt := by
  unfold State.meetAbsent
  (try dsimp only)
  (repeat' split) <;> simp_all

@[simp] theorem State.resolve_keeps (s : State) (g : Workgroup) (w0 w1 : Warp) (e : QEntry) (h : s.mem.wf = true) :
    (State.resolve s g w0 w1 e).mem.wf = true ∧ (State.resolve s g w0 w1 e).mgmt = s.mgmt := by
  have k := State.runEntry_keeps s g w0 e _ h rfl
  unfold State.resolve
  (repeat' split) <;> simp_all


@[simp] theorem State.runHead_keeps (s : State) (g : Workgroup) (w : Warp) (c : Nat) (h : s.mem.wf = true) :
    (State.runHead s g w c).mem.wf = true ∧ (State.runHead s g w c).mgmt = s.mgmt := by
  unfold State.runHead
  (try dsimp only)
  (repeat' split) <;> simp_all

@[simp] theorem State.dispatch_keeps (s : State) (g : Workgroup) (w : Warp) (len : Nat) (d : Disp) (h : s.mem.wf = true) :
    (State.dispatch s g w len d).mem.wf = true ∧ (State.dispatch s g w len d).mgmt = s.mgmt := by
  unfold State.dispatch
  (try dsimp only)
  (repeat' split) <;> simp_all

theorem State.strand_keeps (s : State) (len : Nat) (f : Workgroup → Warp → Disp) (m : Mgmt) (h : s.mem.wf = true) (hm : s.mgmt = m) :
    Out.keeps m (s.strand len f) :=
  State.onWarp_keeps _ _ _ (fun g w => by simp [h, hm])

theorem State.frontEnd_keeps (s : State) (f : Workgroup → Warp → State) (m : Mgmt) (h : s.mem.wf = true) (hm : s.mgmt = m)
    (hf : ∀ g w, (f g w).mem.wf = true ∧ (f g w).mgmt = m) : Out.keeps m (s.frontEnd f) := by
  refine State.onWarp_keeps _ _ _ (fun g w => ?_)
  split
  · simp [h, hm]
  · exact hf g w

theorem State.fence_keeps (s : State) (f : Workgroup → Warp → State) (m : Mgmt) (h : s.mem.wf = true) (hm : s.mgmt = m)
    (hf : ∀ g w, (f g w).mem.wf = true ∧ (f g w).mgmt = m) : Out.keeps m (s.fence f) := by
  refine State.frontEnd_keeps _ _ _ h hm (fun g w => ?_)
  split
  · exact hf g w
  · exact ⟨h, hm⟩

theorem State.longFence_keeps (s : State) (f : Workgroup → Warp → State) (m : Mgmt) (h : s.mem.wf = true) (hm : s.mgmt = m)
    (hf : ∀ g w, (f g w).mem.wf = true ∧ (f g w).mgmt = m) : Out.keeps m (s.longFence f) := by
  refine State.onWarp_keeps _ _ _ (fun g w => ?_)
  split
  · simp [h, hm]
  · split
    · exact hf g w
    · exact ⟨h, hm⟩

@[simp] theorem State.pass_keeps (s : State) (g : Workgroup) (w : Warp) :
    (State.pass s g w).mem = s.mem ∧ (State.pass s g w).mgmt = s.mgmt := by
  unfold State.pass
  (try dsimp only)
  (repeat' split) <;> simp_all

@[simp] theorem State.jump_keeps (s : State) (g : Workgroup) (w : Warp) (pc : BitVec 48) :
    (State.jump s g w pc).mem = s.mem ∧ (State.jump s g w pc).mgmt = s.mgmt := by
  unfold State.jump
  (try dsimp only)
  (repeat' split) <;> simp_all

@[simp] theorem State.branch_keeps (s : State) (g : Workgroup) (w : Warp) (a : BitVec 48) :
    (State.branch s g w a).mem = s.mem ∧ (State.branch s g w a).mgmt = s.mgmt := by
  unfold State.branch
  (try dsimp only)
  (repeat' split) <;> simp_all

@[simp] theorem State.branchIf_keeps (s : State) (g : Workgroup) (w : Warp) (taken : Bool) (off : BitVec 16) :
    (State.branchIf s g w taken off).mem = s.mem ∧ (State.branchIf s g w taken off).mgmt = s.mgmt := by
  unfold State.branchIf
  (try dsimp only)
  (repeat' split) <;> simp_all

theorem State.depositLanes_keeps (s : State) (g : Workgroup) (w : Warp) (x : LaneSet) (a : BitVec 48) (live : Nat) (split : Option Nat)
    (r : State × Workgroup × Warp) (e : s.depositLanes g w x a live split = .ok r) (h : s.mem.wf = true) :
    r.1.mem.wf = true ∧ r.1.mgmt = s.mgmt := by
  unfold State.depositLanes at e
  split at e
  · simp at e
  · split at e
    · simp at e
    · simp only [Except.ok.injEq] at e
      subst e
      simp [h]

theorem State.splitFirst_keeps (s : State) (g : Workgroup) (w : Warp) (differ : Bool) (k : State → Workgroup → Warp → State) (m : Mgmt)
    (h : s.mem.wf = true) (hm : s.mgmt = m)
    (hk : ∀ t g w, t.mem.wf = true → t.mgmt = m → (k t g w).mem.wf = true ∧ (k t g w).mgmt = m) :
    (s.splitFirst g w differ k).mem.wf = true ∧ (s.splitFirst g w differ k).mgmt = m := by
  unfold State.splitFirst
  split
  · exact hk _ _ _ h hm
  · split
    · exact ⟨h, hm⟩
    · dsimp only
      split
      · simp [h, hm]
      · rename_i e
        have kd := State.depositLanes_keeps _ _ _ _ _ _ _ _ e (by simp [h])
        exact hk _ _ _ kd.1 (by rw [kd.2]; simp [hm])

@[simp] theorem execBra_keeps (off : BitVec 16) (s : State) (m : Mgmt) (h : s.mem.wf = true) (hm : s.mgmt = m) :
    Out.keeps m (execBra off s) := by
  refine State.fence_keeps _ _ _ h hm (fun g w => ?_); (try dsimp only); (repeat' split) <;> simp_all


@[simp] theorem execBrany_keeps (sense : Bool) (p : BitVec 3) (off : BitVec 16) (s : State) (m : Mgmt) (h : s.mem.wf = true) (hm : s.mgmt = m) :
    Out.keeps m (execBrany sense p off s) := by
  refine State.fence_keeps _ _ _ h hm (fun g w => State.splitFirst_keeps _ _ _ _ _ _ h hm (fun t g w ht hg => ?_))
  simp_all


@[simp] theorem execBrall_keeps (sense : Bool) (p : BitVec 3) (off : BitVec 16) (s : State) (m : Mgmt) (h : s.mem.wf = true) (hm : s.mgmt = m) :
    Out.keeps m (execBrall sense p off s) := by
  refine State.fence_keeps _ _ _ h hm (fun g w => State.splitFirst_keeps _ _ _ _ _ _ h hm (fun t g w ht hg => ?_))
  simp_all


@[simp] theorem execBrs_keeps (sx : BitVec 6) (off : BitVec 16) (s : State) (m : Mgmt) (h : s.mem.wf = true) (hm : s.mgmt = m) :
    Out.keeps m (execBrs sx off s) := by
  refine State.fence_keeps _ _ _ h hm (fun g w => ?_); (try dsimp only); (repeat' split) <;> simp_all


@[simp] theorem execCall_keeps (sx : BitVec 6) (off : BitVec 16) (s : State) (m : Mgmt) (h : s.mem.wf = true) (hm : s.mgmt = m) :
    Out.keeps m (execCall sx off s) := by
  refine State.fence_keeps _ _ _ h hm (fun g w => ?_); (try dsimp only); (repeat' split) <;> simp_all


@[simp] theorem execRet_keeps (sx : BitVec 6) (s : State) (m : Mgmt) (h : s.mem.wf = true) (hm : s.mgmt = m) :
    Out.keeps m (execRet sx s) := by
  refine State.fence_keeps _ _ _ h hm (fun g w => ?_); (try dsimp only); (repeat' split) <;> simp_all


@[simp] theorem execJoin_keeps (min : BitVec 6) (off : BitVec 16) (s : State) (m : Mgmt) (h : s.mem.wf = true) (hm : s.mgmt = m) :
    Out.keeps m (execJoin min off s) := by
  refine State.fence_keeps _ _ _ h hm (fun g w => ?_)
  dsimp only
  (repeat' split) <;> (first | (have kd := State.depositLanes_keeps _ _ _ _ _ _ _ _ ‹State.depositLanes _ _ _ _ _ _ _ = Except.ok _› h; simp_all) | simp_all)


@[simp] theorem execBrd_keeps (off : BitVec 16) (p : BitVec 3) (sense : Bool) (sL : BitVec 6) (t : BitVec 6) (s : State) (m : Mgmt) (h : s.mem.wf = true) (hm : s.mgmt = m) :
    Out.keeps m (execBrd off p sense sL t s) := by
  refine State.longFence_keeps _ _ _ h hm (fun g w => ?_)
  dsimp only
  (repeat' split) <;> (first | (have kd := State.depositLanes_keeps _ _ _ _ _ _ _ _ ‹State.depositLanes _ _ _ _ _ _ _ = Except.ok _› (by simp [h]); simp_all) | simp_all)


@[simp] theorem State.openLoop_keeps (s : State) (g : Workgroup) (w : Warp) (n : Nat) (c : DWord) (len : BitVec 9) :
    (State.openLoop s g w n c len).mem = s.mem ∧ (State.openLoop s g w n c len).mgmt = s.mgmt := by
  unfold State.openLoop
  (try dsimp only)
  (repeat' split) <;> simp_all

@[simp] theorem execLoop0_keeps (sx : BitVec 6) (len : BitVec 9) (s : State) (m : Mgmt) (h : s.mem.wf = true) (hm : s.mgmt = m) :
    Out.keeps m (execLoop0 sx len s) := by
  refine State.fence_keeps _ _ _ h hm (fun g w => ?_); (try dsimp only); (repeat' split) <;> simp_all


@[simp] theorem execLoop1_keeps (sx : BitVec 6) (len : BitVec 9) (s : State) (m : Mgmt) (h : s.mem.wf = true) (hm : s.mgmt = m) :
    Out.keeps m (execLoop1 sx len s) := by
  refine State.fence_keeps _ _ _ h hm (fun g w => ?_); (try dsimp only); (repeat' split) <;> simp_all


@[simp] theorem execLoop2_keeps (sx : BitVec 6) (len : BitVec 9) (s : State) (m : Mgmt) (h : s.mem.wf = true) (hm : s.mgmt = m) :
    Out.keeps m (execLoop2 sx len s) := by
  refine State.fence_keeps _ _ _ h hm (fun g w => ?_); (try dsimp only); (repeat' split) <;> simp_all


@[simp] theorem execLoopi0_keeps (c : BitVec 6) (len : BitVec 9) (s : State) (m : Mgmt) (h : s.mem.wf = true) (hm : s.mgmt = m) :
    Out.keeps m (execLoopi0 c len s) := by
  refine State.fence_keeps _ _ _ h hm (fun g w => ?_); (try dsimp only); (repeat' split) <;> simp_all


@[simp] theorem execLoopi1_keeps (c : BitVec 6) (len : BitVec 9) (s : State) (m : Mgmt) (h : s.mem.wf = true) (hm : s.mgmt = m) :
    Out.keeps m (execLoopi1 c len s) := by
  refine State.fence_keeps _ _ _ h hm (fun g w => ?_); (try dsimp only); (repeat' split) <;> simp_all


@[simp] theorem execLoopi2_keeps (c : BitVec 6) (len : BitVec 9) (s : State) (m : Mgmt) (h : s.mem.wf = true) (hm : s.mgmt = m) :
    Out.keeps m (execLoopi2 c len s) := by
  refine State.fence_keeps _ _ _ h hm (fun g w => ?_); (try dsimp only); (repeat' split) <;> simp_all


@[simp] theorem execLoopBackEdge_keeps (s : State) (m : Mgmt) (h : s.mem.wf = true) (hm : s.mgmt = m) :
    Out.keeps m (execLoopBackEdge s) := by
  refine State.onWarp_keeps _ _ _ (fun g w => ?_); (try dsimp only); (repeat' split) <;> simp_all


@[simp] theorem State.fallThrough_keeps (s : State) (g : Workgroup) (w : Warp) :
    (State.fallThrough s g w).mem = s.mem ∧ (State.fallThrough s g w).mgmt = s.mgmt := by
  unfold State.fallThrough
  (try dsimp only)
  (repeat' split) <;> simp_all

@[simp] theorem execWait_keeps (cls : EngClass) (n : BitVec 6) (s : State) (m : Mgmt) (h : s.mem.wf = true) (hm : s.mgmt = m) :
    Out.keeps m (execWait cls n s) := by
  refine State.fence_keeps _ _ _ h hm (fun g w => ?_); (try dsimp only); (repeat' split) <;> simp_all


@[simp] theorem State.arrive_keeps (s : State) (b : Block) (m : Mgmt) (h : s.mem.wf = true) (hm : s.mgmt = m) :
    Out.keeps m (State.arrive s b) := by
  refine State.fence_keeps _ _ _ h hm (fun g w => ?_)
  (repeat' split) <;> simp_all


@[simp] theorem execBar_keeps (s : State) (m : Mgmt) (h : s.mem.wf = true) (hm : s.mgmt = m) :
    Out.keeps m (execBar s) := by
  unfold execBar; (try dsimp only); (repeat' split) <;> simp_all


@[simp] theorem execGbar_keeps (s : State) (m : Mgmt) (h : s.mem.wf = true) (hm : s.mgmt = m) :
    Out.keeps m (execGbar s) := by
  unfold execGbar; (try dsimp only); (repeat' split) <;> simp_all


@[simp] theorem State.endWarp_keeps (s : State) (g : Workgroup) (w : Warp) :
    (State.endWarp s g w).mem = s.mem ∧ (State.endWarp s g w).mgmt = s.mgmt := by
  unfold State.endWarp
  (try dsimp only)
  (repeat' split) <;> simp_all

@[simp] theorem execExit_keeps (s : State) (m : Mgmt) (h : s.mem.wf = true) (hm : s.mgmt = m) :
    Out.keeps m (execExit s) := by
  refine State.fence_keeps _ _ _ h hm (fun g w => ?_); (try dsimp only); (repeat' split) <;> simp_all


@[simp] theorem execGive_keeps (n : BitVec 6) (s : State) (m : Mgmt) (h : s.mem.wf = true) (hm : s.mgmt = m) :
    Out.keeps m (execGive n s) := by
  refine State.fence_keeps _ _ _ h hm (fun g w => ?_); (try dsimp only); (repeat' split) <;> simp_all


@[simp] theorem execClaim_keeps (n : BitVec 6) (s : State) (m : Mgmt) (h : s.mem.wf = true) (hm : s.mgmt = m) :
    Out.keeps m (execClaim n s) := by
  refine State.fence_keeps _ _ _ h hm (fun g w => ?_); (try dsimp only); (repeat' split) <;> simp_all


@[simp] theorem execClaimp_keeps (n : BitVec 6) (p : BitVec 3) (s : State) (m : Mgmt) (h : s.mem.wf = true) (hm : s.mgmt = m) :
    Out.keeps m (execClaimp n p s) := by
  refine State.fence_keeps _ _ _ h hm (fun g w => ?_); (try dsimp only); (repeat' split) <;> simp_all


@[simp] theorem execPart_keeps (e : BitVec 6) (s : State) (m : Mgmt) (h : s.mem.wf = true) (hm : s.mgmt = m) :
    Out.keeps m (execPart e s) := by
  refine State.frontEnd_keeps _ _ _ h hm (fun g w => ?_); (try dsimp only); (repeat' split) <;> simp_all


@[simp] theorem execCvset_keeps (form : CvForm) (cv : BitVec 3) (sm : BitVec 6) (s : State) (m : Mgmt) (h : s.mem.wf = true) (hm : s.mgmt = m) :
    Out.keeps m (execCvset form cv sm s) := by
  refine State.frontEnd_keeps _ _ _ h hm (fun g w => ?_); (try dsimp only); (repeat' split) <;> simp_all


@[simp] theorem execFence_keeps (_scope : Scope) (kind : FenceKind) (s : State) (m : Mgmt) (h : s.mem.wf = true) (hm : s.mgmt = m) :
    Out.keeps m (execFence _scope kind s) := by
  refine State.onWarp_keeps _ _ _ (fun g w => ?_); (try dsimp only); (repeat' split) <;> simp_all


@[simp] theorem execNopl_keeps (s : State) (m : Mgmt) (h : s.mem.wf = true) (hm : s.mgmt = m) :
    Out.keeps m (execNopl s) := by
  refine State.frontEnd_keeps _ _ _ h hm (fun g w => ?_); (try dsimp only); (repeat' split) <;> simp_all


@[simp] theorem execYield_keeps (s : State) (m : Mgmt) (h : s.mem.wf = true) (hm : s.mgmt = m) :
    Out.keeps m (execYield s) := by
  refine State.frontEnd_keeps _ _ _ h hm (fun g w => ?_); (try dsimp only); (repeat' split) <;> simp_all


@[simp] theorem execTrap_keeps (code : BitVec 8) (s : State) (m : Mgmt) (h : s.mem.wf = true) (hm : s.mgmt = m) :
    Out.keeps m (execTrap code s) := by
  refine State.frontEnd_keeps _ _ _ h hm (fun g w => ?_); (try dsimp only); (repeat' split) <;> simp_all


@[simp] theorem execBkpt_keeps (s : State) (m : Mgmt) (h : s.mem.wf = true) (hm : s.mgmt = m) :
    Out.keeps m (execBkpt s) := by
  refine State.frontEnd_keeps _ _ _ h hm (fun g w => ?_); (try dsimp only); (repeat' split) <;> simp_all


@[simp] theorem execIpf_keeps (_off : BitVec 16) (s : State) (m : Mgmt) (h : s.mem.wf = true) (hm : s.mgmt = m) :
    Out.keeps m (execIpf _off s) := by
  refine State.frontEnd_keeps _ _ _ h hm (fun g w => ?_); (try dsimp only); (repeat' split) <;> simp_all


@[simp] theorem State.pinLine_keeps (s : State) (uid line : Nat) :
    (State.pinLine s uid line).mem = s.mem ∧ (State.pinLine s uid line).mgmt = s.mgmt := by
  unfold State.pinLine
  (try dsimp only)
  (repeat' split) <;> simp_all

@[simp] theorem execIpin_keeps (c : BitVec 6) (off : BitVec 16) (s : State) (m : Mgmt) (h : s.mem.wf = true) (hm : s.mgmt = m) :
    Out.keeps m (execIpin c off s) := by
  refine State.frontEnd_keeps _ _ _ h hm (fun g w => ?_)
  have k := foldl_same (fun (s : State) l => s.pinLine g.uid l) (fun t l => by simp) (hintLines w c off) (s.pass g w)
  simp_all


@[simp] theorem execIunpin_keeps (c : BitVec 6) (off : BitVec 16) (s : State) (m : Mgmt) (h : s.mem.wf = true) (hm : s.mgmt = m) :
    Out.keeps m (execIunpin c off s) := by
  refine State.frontEnd_keeps _ _ _ h hm (fun g w => ?_); (try dsimp only); (repeat' split) <;> simp_all


@[simp] theorem State.scalar_keeps (s : State) (d : BitVec 6) (f : Warp → DWord) (m : Mgmt) (h : s.mem.wf = true) (hm : s.mgmt = m) :
    Out.keeps m (State.scalar s d f) := by
  refine State.frontEnd_keeps _ _ _ h hm (fun g w => ?_)
  (repeat' split) <;> simp_all


@[simp] theorem execSmov_keeps (d x : BitVec 6) (s : State) (m : Mgmt) (h : s.mem.wf = true) (hm : s.mgmt = m) :
    Out.keeps m (execSmov d x s) := by
  exact State.scalar_keeps _ _ _ _ h hm


@[simp] theorem execSadd_keeps (d x y : BitVec 6) (s : State) (m : Mgmt) (h : s.mem.wf = true) (hm : s.mgmt = m) :
    Out.keeps m (execSadd d x y s) := by
  exact State.scalar_keeps _ _ _ _ h hm


@[simp] theorem execSsub_keeps (d x y : BitVec 6) (s : State) (m : Mgmt) (h : s.mem.wf = true) (hm : s.mgmt = m) :
    Out.keeps m (execSsub d x y s) := by
  exact State.scalar_keeps _ _ _ _ h hm


@[simp] theorem execSmul_keeps (d x y : BitVec 6) (s : State) (m : Mgmt) (h : s.mem.wf = true) (hm : s.mgmt = m) :
    Out.keeps m (execSmul d x y s) := by
  exact State.scalar_keeps _ _ _ _ h hm


@[simp] theorem execSand_keeps (d x y : BitVec 6) (s : State) (m : Mgmt) (h : s.mem.wf = true) (hm : s.mgmt = m) :
    Out.keeps m (execSand d x y s) := by
  exact State.scalar_keeps _ _ _ _ h hm


@[simp] theorem execSor_keeps (d x y : BitVec 6) (s : State) (m : Mgmt) (h : s.mem.wf = true) (hm : s.mgmt = m) :
    Out.keeps m (execSor d x y s) := by
  exact State.scalar_keeps _ _ _ _ h hm


@[simp] theorem execSxor_keeps (d x y : BitVec 6) (s : State) (m : Mgmt) (h : s.mem.wf = true) (hm : s.mgmt = m) :
    Out.keeps m (execSxor d x y s) := by
  exact State.scalar_keeps _ _ _ _ h hm


@[simp] theorem execSshl_keeps (d x y : BitVec 6) (s : State) (m : Mgmt) (h : s.mem.wf = true) (hm : s.mgmt = m) :
    Out.keeps m (execSshl d x y s) := by
  exact State.scalar_keeps _ _ _ _ h hm


@[simp] theorem execSshr_keeps (d x y : BitVec 6) (s : State) (m : Mgmt) (h : s.mem.wf = true) (hm : s.mgmt = m) :
    Out.keeps m (execSshr d x y s) := by
  exact State.scalar_keeps _ _ _ _ h hm


@[simp] theorem execSaddi_keeps (d x : BitVec 6) (imm : BitVec 8) (s : State) (m : Mgmt) (h : s.mem.wf = true) (hm : s.mgmt = m) :
    Out.keeps m (execSaddi d x imm s) := by
  exact State.scalar_keeps _ _ _ _ h hm


@[simp] theorem execSmovi_keeps (d : BitVec 6) (imm : BitVec 8) (s : State) (m : Mgmt) (h : s.mem.wf = true) (hm : s.mgmt = m) :
    Out.keeps m (execSmovi d imm s) := by
  exact State.scalar_keeps _ _ _ _ h hm


@[simp] theorem execScmp_keeps (d : BitVec 6) (c : ICond) (x y : BitVec 6) (s : State) (m : Mgmt) (h : s.mem.wf = true) (hm : s.mgmt = m) :
    Out.keeps m (execScmp d c x y s) := by
  exact State.scalar_keeps _ _ _ _ h hm


end Sys2Proof.Machine
end

