-- ==== Sys2Proof/Laws/KeepsRun.lean ====
section
/-!
SUPPORT. What strand and engine instructions, engine runs and the steps of queues keep.
-/
namespace Sys2Proof.Machine

/-- What a run of an engine operation keeps. -/
def OpRun.keeps (m : Mgmt) : OpRun → Prop
  | .done t _ _ | .fail t _ _ _ _ | .absent t _ _ _ | .wait t _ => t.mem.wf = true ∧ t.mgmt = m

@[simp] theorem OpRun.keeps_done (m : Mgmt) (t : State) (g : Workgroup) (w : Warp) : OpRun.keeps m (.done t g w) ↔ t.mem.wf = true ∧ t.mgmt = m := Iff.rfl
@[simp] theorem OpRun.keeps_fail (m : Mgmt) (t : State) (g : Workgroup) (a b c : Nat) : OpRun.keeps m (.fail t g a b c) ↔ t.mem.wf = true ∧ t.mgmt = m := Iff.rfl
@[simp] theorem OpRun.keeps_absent (m : Mgmt) (t : State) (g : Workgroup) (a b : Nat) : OpRun.keeps m (.absent t g a b) ↔ t.mem.wf = true ∧ t.mgmt = m := Iff.rfl
@[simp] theorem OpRun.keeps_wait (m : Mgmt) (t : State) (g : Workgroup) : OpRun.keeps m (.wait t g) ↔ t.mem.wf = true ∧ t.mgmt = m := Iff.rfl
/-- The state that a fetch leaves. -/
def Fetched.keeps (s : State) : Fetched → Prop
  | .ok _ t | .trap _ _ t | .absent _ t => t.mem = s.mem ∧ t.mgmt = s.mgmt

theorem Fetched.keeps.trans {s t : State} {f : Fetched} (h : f.keeps t) (k : t.mem = s.mem ∧ t.mgmt = s.mgmt) : f.keeps s := by
  cases f <;> exact ⟨h.1.trans k.1, h.2.trans k.2⟩


@[simp] theorem execStrandHeader_keeps (n : BitVec 4) (guard : BitVec 3) (sense : Bool) (s : State) (m : Mgmt) (h : s.mem.wf = true) (hm : s.mgmt = m) :
    Out.keeps m (execStrandHeader n guard sense s) := by
  refine State.onWarp_keeps _ _ _ (fun g w => ?_); (try dsimp only); (repeat' split) <;> simp_all


@[simp] theorem execMov_keeps (x : Src) (s : State) (m : Mgmt) (h : s.mem.wf = true) (hm : s.mgmt = m) :
    Out.keeps m (execMov x s) := by
  exact State.strand_keeps _ _ _ _ h hm


@[simp] theorem execPutg_keeps (r : BitVec 8) (s : State) (m : Mgmt) (h : s.mem.wf = true) (hm : s.mgmt = m) :
    Out.keeps m (execPutg r s) := by
  exact State.strand_keeps _ _ _ _ h hm


@[simp] theorem execMlat_keeps (x : Src) (s : State) (m : Mgmt) (h : s.mem.wf = true) (hm : s.mgmt = m) :
    Out.keeps m (execMlat x s) := by
  exact State.strand_keeps _ _ _ _ h hm


@[simp] theorem execNop_keeps (s : State) (m : Mgmt) (h : s.mem.wf = true) (hm : s.mgmt = m) :
    Out.keeps m (execNop s) := by
  exact State.strand_keeps _ _ _ _ h hm


@[simp] theorem execMovL_keeps (n : BitVec 4) (x : Src) (f : Bool) (s : State) (m : Mgmt) (h : s.mem.wf = true) (hm : s.mgmt = m) :
    Out.keeps m (execMovL n x f s) := by
  exact State.strand_keeps _ _ _ _ h hm


@[simp] theorem execPutgL_keeps (n : BitVec 4) (r : BitVec 8) (s : State) (m : Mgmt) (h : s.mem.wf = true) (hm : s.mgmt = m) :
    Out.keeps m (execPutgL n r s) := by
  exact State.strand_keeps _ _ _ _ h hm


@[simp] theorem execMlatL_keeps (n : BitVec 4) (x : Src) (f : Bool) (s : State) (m : Mgmt) (h : s.mem.wf = true) (hm : s.mgmt = m) :
    Out.keeps m (execMlatL n x f s) := by
  exact State.strand_keeps _ _ _ _ h hm


@[simp] theorem execNopL_keeps (n : BitVec 4) (s : State) (m : Mgmt) (h : s.mem.wf = true) (hm : s.mgmt = m) :
    Out.keeps m (execNopL n s) := by
  exact State.strand_keeps _ _ _ _ h hm


@[simp] theorem execIadd_keeps (x : Src) (s : State) (m : Mgmt) (h : s.mem.wf = true) (hm : s.mgmt = m) :
    Out.keeps m (execIadd x s) := by
  exact State.strand_keeps _ _ _ _ h hm


@[simp] theorem execIsub_keeps (x : Src) (s : State) (m : Mgmt) (h : s.mem.wf = true) (hm : s.mgmt = m) :
    Out.keeps m (execIsub x s) := by
  exact State.strand_keeps _ _ _ _ h hm


@[simp] theorem execIrsub_keeps (x : Src) (s : State) (m : Mgmt) (h : s.mem.wf = true) (hm : s.mgmt = m) :
    Out.keeps m (execIrsub x s) := by
  exact State.strand_keeps _ _ _ _ h hm


@[simp] theorem execImul_keeps (x : Src) (s : State) (m : Mgmt) (h : s.mem.wf = true) (hm : s.mgmt = m) :
    Out.keeps m (execImul x s) := by
  exact State.strand_keeps _ _ _ _ h hm


@[simp] theorem execImac_keeps (x : Src) (s : State) (m : Mgmt) (h : s.mem.wf = true) (hm : s.mgmt = m) :
    Out.keeps m (execImac x s) := by
  exact State.strand_keeps _ _ _ _ h hm


@[simp] theorem execImax_keeps (x : Src) (s : State) (m : Mgmt) (h : s.mem.wf = true) (hm : s.mgmt = m) :
    Out.keeps m (execImax x s) := by
  exact State.strand_keeps _ _ _ _ h hm


@[simp] theorem execImin_keeps (x : Src) (s : State) (m : Mgmt) (h : s.mem.wf = true) (hm : s.mgmt = m) :
    Out.keeps m (execImin x s) := by
  exact State.strand_keeps _ _ _ _ h hm


@[simp] theorem execZmax_keeps (x : Src) (s : State) (m : Mgmt) (h : s.mem.wf = true) (hm : s.mgmt = m) :
    Out.keeps m (execZmax x s) := by
  exact State.strand_keeps _ _ _ _ h hm


@[simp] theorem execZmin_keeps (x : Src) (s : State) (m : Mgmt) (h : s.mem.wf = true) (hm : s.mgmt = m) :
    Out.keeps m (execZmin x s) := by
  exact State.strand_keeps _ _ _ _ h hm


@[simp] theorem execAnd_keeps (x : Src) (s : State) (m : Mgmt) (h : s.mem.wf = true) (hm : s.mgmt = m) :
    Out.keeps m (execAnd x s) := by
  exact State.strand_keeps _ _ _ _ h hm


@[simp] theorem execOr_keeps (x : Src) (s : State) (m : Mgmt) (h : s.mem.wf = true) (hm : s.mgmt = m) :
    Out.keeps m (execOr x s) := by
  exact State.strand_keeps _ _ _ _ h hm


@[simp] theorem execXor_keeps (x : Src) (s : State) (m : Mgmt) (h : s.mem.wf = true) (hm : s.mgmt = m) :
    Out.keeps m (execXor x s) := by
  exact State.strand_keeps _ _ _ _ h hm


@[simp] theorem execAndn_keeps (x : Src) (s : State) (m : Mgmt) (h : s.mem.wf = true) (hm : s.mgmt = m) :
    Out.keeps m (execAndn x s) := by
  exact State.strand_keeps _ _ _ _ h hm


@[simp] theorem execShl_keeps (x : Src) (s : State) (m : Mgmt) (h : s.mem.wf = true) (hm : s.mgmt = m) :
    Out.keeps m (execShl x s) := by
  exact State.strand_keeps _ _ _ _ h hm


@[simp] theorem execShr_keeps (x : Src) (s : State) (m : Mgmt) (h : s.mem.wf = true) (hm : s.mgmt = m) :
    Out.keeps m (execShr x s) := by
  exact State.strand_keeps _ _ _ _ h hm


@[simp] theorem execSar_keeps (x : Src) (s : State) (m : Mgmt) (h : s.mem.wf = true) (hm : s.mgmt = m) :
    Out.keeps m (execSar x s) := by
  exact State.strand_keeps _ _ _ _ h hm


@[simp] theorem execRol_keeps (x : Src) (s : State) (m : Mgmt) (h : s.mem.wf = true) (hm : s.mgmt = m) :
    Out.keeps m (execRol x s) := by
  exact State.strand_keeps _ _ _ _ h hm


@[simp] theorem execIaddL_keeps (n : BitVec 4) (x : Src) (s : State) (m : Mgmt) (h : s.mem.wf = true) (hm : s.mgmt = m) :
    Out.keeps m (execIaddL n x s) := by
  exact State.strand_keeps _ _ _ _ h hm


@[simp] theorem execIsubL_keeps (n : BitVec 4) (x : Src) (s : State) (m : Mgmt) (h : s.mem.wf = true) (hm : s.mgmt = m) :
    Out.keeps m (execIsubL n x s) := by
  exact State.strand_keeps _ _ _ _ h hm


@[simp] theorem execIrsubL_keeps (n : BitVec 4) (x : Src) (s : State) (m : Mgmt) (h : s.mem.wf = true) (hm : s.mgmt = m) :
    Out.keeps m (execIrsubL n x s) := by
  exact State.strand_keeps _ _ _ _ h hm


@[simp] theorem execImulL_keeps (n : BitVec 4) (x : Src) (s : State) (m : Mgmt) (h : s.mem.wf = true) (hm : s.mgmt = m) :
    Out.keeps m (execImulL n x s) := by
  exact State.strand_keeps _ _ _ _ h hm


@[simp] theorem execImacL_keeps (n : BitVec 4) (x : Src) (s : State) (m : Mgmt) (h : s.mem.wf = true) (hm : s.mgmt = m) :
    Out.keeps m (execImacL n x s) := by
  exact State.strand_keeps _ _ _ _ h hm


@[simp] theorem execImaxL_keeps (n : BitVec 4) (x : Src) (s : State) (m : Mgmt) (h : s.mem.wf = true) (hm : s.mgmt = m) :
    Out.keeps m (execImaxL n x s) := by
  exact State.strand_keeps _ _ _ _ h hm


@[simp] theorem execIminL_keeps (n : BitVec 4) (x : Src) (s : State) (m : Mgmt) (h : s.mem.wf = true) (hm : s.mgmt = m) :
    Out.keeps m (execIminL n x s) := by
  exact State.strand_keeps _ _ _ _ h hm


@[simp] theorem execZmaxL_keeps (n : BitVec 4) (x : Src) (s : State) (m : Mgmt) (h : s.mem.wf = true) (hm : s.mgmt = m) :
    Out.keeps m (execZmaxL n x s) := by
  exact State.strand_keeps _ _ _ _ h hm


@[simp] theorem execZminL_keeps (n : BitVec 4) (x : Src) (s : State) (m : Mgmt) (h : s.mem.wf = true) (hm : s.mgmt = m) :
    Out.keeps m (execZminL n x s) := by
  exact State.strand_keeps _ _ _ _ h hm


@[simp] theorem execAndL_keeps (n : BitVec 4) (x : Src) (s : State) (m : Mgmt) (h : s.mem.wf = true) (hm : s.mgmt = m) :
    Out.keeps m (execAndL n x s) := by
  exact State.strand_keeps _ _ _ _ h hm


@[simp] theorem execOrL_keeps (n : BitVec 4) (x : Src) (s : State) (m : Mgmt) (h : s.mem.wf = true) (hm : s.mgmt = m) :
    Out.keeps m (execOrL n x s) := by
  exact State.strand_keeps _ _ _ _ h hm


@[simp] theorem execXorL_keeps (n : BitVec 4) (x : Src) (s : State) (m : Mgmt) (h : s.mem.wf = true) (hm : s.mgmt = m) :
    Out.keeps m (execXorL n x s) := by
  exact State.strand_keeps _ _ _ _ h hm


@[simp] theorem execAndnL_keeps (n : BitVec 4) (x : Src) (s : State) (m : Mgmt) (h : s.mem.wf = true) (hm : s.mgmt = m) :
    Out.keeps m (execAndnL n x s) := by
  exact State.strand_keeps _ _ _ _ h hm


@[simp] theorem execShlL_keeps (n : BitVec 4) (x : Src) (s : State) (m : Mgmt) (h : s.mem.wf = true) (hm : s.mgmt = m) :
    Out.keeps m (execShlL n x s) := by
  exact State.strand_keeps _ _ _ _ h hm


@[simp] theorem execShrL_keeps (n : BitVec 4) (x : Src) (s : State) (m : Mgmt) (h : s.mem.wf = true) (hm : s.mgmt = m) :
    Out.keeps m (execShrL n x s) := by
  exact State.strand_keeps _ _ _ _ h hm


@[simp] theorem execSarL_keeps (n : BitVec 4) (x : Src) (s : State) (m : Mgmt) (h : s.mem.wf = true) (hm : s.mgmt = m) :
    Out.keeps m (execSarL n x s) := by
  exact State.strand_keeps _ _ _ _ h hm


@[simp] theorem execRolL_keeps (n : BitVec 4) (x : Src) (s : State) (m : Mgmt) (h : s.mem.wf = true) (hm : s.mgmt = m) :
    Out.keeps m (execRolL n x s) := by
  exact State.strand_keeps _ _ _ _ h hm


@[simp] theorem execIdiv_keeps (n : BitVec 4) (x : Src) (s : State) (m : Mgmt) (h : s.mem.wf = true) (hm : s.mgmt = m) :
    Out.keeps m (execIdiv n x s) := by
  exact State.strand_keeps _ _ _ _ h hm


@[simp] theorem execZdiv_keeps (n : BitVec 4) (x : Src) (s : State) (m : Mgmt) (h : s.mem.wf = true) (hm : s.mgmt = m) :
    Out.keeps m (execZdiv n x s) := by
  exact State.strand_keeps _ _ _ _ h hm


@[simp] theorem execIrem_keeps (n : BitVec 4) (x : Src) (s : State) (m : Mgmt) (h : s.mem.wf = true) (hm : s.mgmt = m) :
    Out.keeps m (execIrem n x s) := by
  exact State.strand_keeps _ _ _ _ h hm


@[simp] theorem execZrem_keeps (n : BitVec 4) (x : Src) (s : State) (m : Mgmt) (h : s.mem.wf = true) (hm : s.mgmt = m) :
    Out.keeps m (execZrem n x s) := by
  exact State.strand_keeps _ _ _ _ h hm


@[simp] theorem execFabs_keeps (n : BitVec 4) (s : State) (m : Mgmt) (h : s.mem.wf = true) (hm : s.mgmt = m) :
    Out.keeps m (execFabs n s) := by
  exact State.strand_keeps _ _ _ _ h hm


@[simp] theorem execFneg_keeps (n : BitVec 4) (s : State) (m : Mgmt) (h : s.mem.wf = true) (hm : s.mgmt = m) :
    Out.keeps m (execFneg n s) := by
  exact State.strand_keeps _ _ _ _ h hm


@[simp] theorem execPopc_keeps (n : BitVec 4) (s : State) (m : Mgmt) (h : s.mem.wf = true) (hm : s.mgmt = m) :
    Out.keeps m (execPopc n s) := by
  exact State.strand_keeps _ _ _ _ h hm


@[simp] theorem execClz_keeps (n : BitVec 4) (s : State) (m : Mgmt) (h : s.mem.wf = true) (hm : s.mgmt = m) :
    Out.keeps m (execClz n s) := by
  exact State.strand_keeps _ _ _ _ h hm


@[simp] theorem execBrev_keeps (n : BitVec 4) (s : State) (m : Mgmt) (h : s.mem.wf = true) (hm : s.mgmt = m) :
    Out.keeps m (execBrev n s) := by
  exact State.strand_keeps _ _ _ _ h hm


@[simp] theorem execBfe_keeps (n : BitVec 4) (x : Src) (pos : BitVec 5) (s : State) (m : Mgmt) (h : s.mem.wf = true) (hm : s.mgmt = m) :
    Out.keeps m (execBfe n x pos s) := by
  exact State.strand_keeps _ _ _ _ h hm


@[simp] theorem execFadd_keeps (x : Src) (s : State) (m : Mgmt) (h : s.mem.wf = true) (hm : s.mgmt = m) :
    Out.keeps m (execFadd x s) := by
  exact State.strand_keeps _ _ _ _ h hm


@[simp] theorem execFsub_keeps (x : Src) (s : State) (m : Mgmt) (h : s.mem.wf = true) (hm : s.mgmt = m) :
    Out.keeps m (execFsub x s) := by
  exact State.strand_keeps _ _ _ _ h hm


@[simp] theorem execFrsub_keeps (x : Src) (s : State) (m : Mgmt) (h : s.mem.wf = true) (hm : s.mgmt = m) :
    Out.keeps m (execFrsub x s) := by
  exact State.strand_keeps _ _ _ _ h hm


@[simp] theorem execFmul_keeps (x : Src) (s : State) (m : Mgmt) (h : s.mem.wf = true) (hm : s.mgmt = m) :
    Out.keeps m (execFmul x s) := by
  exact State.strand_keeps _ _ _ _ h hm


@[simp] theorem execFmac_keeps (x : Src) (s : State) (m : Mgmt) (h : s.mem.wf = true) (hm : s.mgmt = m) :
    Out.keeps m (execFmac x s) := by
  exact State.strand_keeps _ _ _ _ h hm


@[simp] theorem execFnmac_keeps (x : Src) (s : State) (m : Mgmt) (h : s.mem.wf = true) (hm : s.mgmt = m) :
    Out.keeps m (execFnmac x s) := by
  exact State.strand_keeps _ _ _ _ h hm


@[simp] theorem execFmla_keeps (x : Src) (s : State) (m : Mgmt) (h : s.mem.wf = true) (hm : s.mgmt = m) :
    Out.keeps m (execFmla x s) := by
  exact State.strand_keeps _ _ _ _ h hm


@[simp] theorem execFmax_keeps (x : Src) (s : State) (m : Mgmt) (h : s.mem.wf = true) (hm : s.mgmt = m) :
    Out.keeps m (execFmax x s) := by
  exact State.strand_keeps _ _ _ _ h hm


@[simp] theorem execFmin_keeps (x : Src) (s : State) (m : Mgmt) (h : s.mem.wf = true) (hm : s.mgmt = m) :
    Out.keeps m (execFmin x s) := by
  exact State.strand_keeps _ _ _ _ h hm


@[simp] theorem execFaddL_keeps (n : BitVec 4) (x : Src) (s : State) (m : Mgmt) (h : s.mem.wf = true) (hm : s.mgmt = m) :
    Out.keeps m (execFaddL n x s) := by
  exact State.strand_keeps _ _ _ _ h hm


@[simp] theorem execFsubL_keeps (n : BitVec 4) (x : Src) (s : State) (m : Mgmt) (h : s.mem.wf = true) (hm : s.mgmt = m) :
    Out.keeps m (execFsubL n x s) := by
  exact State.strand_keeps _ _ _ _ h hm


@[simp] theorem execFrsubL_keeps (n : BitVec 4) (x : Src) (s : State) (m : Mgmt) (h : s.mem.wf = true) (hm : s.mgmt = m) :
    Out.keeps m (execFrsubL n x s) := by
  exact State.strand_keeps _ _ _ _ h hm


@[simp] theorem execFmulL_keeps (n : BitVec 4) (x : Src) (s : State) (m : Mgmt) (h : s.mem.wf = true) (hm : s.mgmt = m) :
    Out.keeps m (execFmulL n x s) := by
  exact State.strand_keeps _ _ _ _ h hm


@[simp] theorem execFmacL_keeps (n : BitVec 4) (x : Src) (s : State) (m : Mgmt) (h : s.mem.wf = true) (hm : s.mgmt = m) :
    Out.keeps m (execFmacL n x s) := by
  exact State.strand_keeps _ _ _ _ h hm


@[simp] theorem execFnmacL_keeps (n : BitVec 4) (x : Src) (s : State) (m : Mgmt) (h : s.mem.wf = true) (hm : s.mgmt = m) :
    Out.keeps m (execFnmacL n x s) := by
  exact State.strand_keeps _ _ _ _ h hm


@[simp] theorem execFmlaL_keeps (n : BitVec 4) (x : Src) (s : State) (m : Mgmt) (h : s.mem.wf = true) (hm : s.mgmt = m) :
    Out.keeps m (execFmlaL n x s) := by
  exact State.strand_keeps _ _ _ _ h hm


@[simp] theorem execFmaxL_keeps (n : BitVec 4) (x : Src) (s : State) (m : Mgmt) (h : s.mem.wf = true) (hm : s.mgmt = m) :
    Out.keeps m (execFmaxL n x s) := by
  exact State.strand_keeps _ _ _ _ h hm


@[simp] theorem execFminL_keeps (n : BitVec 4) (x : Src) (s : State) (m : Mgmt) (h : s.mem.wf = true) (hm : s.mgmt = m) :
    Out.keeps m (execFminL n x s) := by
  exact State.strand_keeps _ _ _ _ h hm


@[simp] theorem execFaddx_keeps (n : BitVec 4) (x : Src) (rm : RM) (s : State) (m : Mgmt) (h : s.mem.wf = true) (hm : s.mgmt = m) :
    Out.keeps m (execFaddx n x rm s) := by
  exact State.strand_keeps _ _ _ _ h hm


@[simp] theorem execFmulx_keeps (n : BitVec 4) (x : Src) (rm : RM) (s : State) (m : Mgmt) (h : s.mem.wf = true) (hm : s.mgmt = m) :
    Out.keeps m (execFmulx n x rm s) := by
  exact State.strand_keeps _ _ _ _ h hm


@[simp] theorem execFmacx_keeps (n : BitVec 4) (x : Src) (rm : RM) (s : State) (m : Mgmt) (h : s.mem.wf = true) (hm : s.mgmt = m) :
    Out.keeps m (execFmacx n x rm s) := by
  exact State.strand_keeps _ _ _ _ h hm


@[simp] theorem execFmlax_keeps (n : BitVec 4) (x : Src) (rm : RM) (s : State) (m : Mgmt) (h : s.mem.wf = true) (hm : s.mgmt = m) :
    Out.keeps m (execFmlax n x rm s) := by
  exact State.strand_keeps _ _ _ _ h hm


@[simp] theorem execFdiv_keeps (n : BitVec 4) (x : Src) (s : State) (m : Mgmt) (h : s.mem.wf = true) (hm : s.mgmt = m) :
    Out.keeps m (execFdiv n x s) := by
  exact State.strand_keeps _ _ _ _ h hm


@[simp] theorem execSfu_keeps (n : BitVec 4) (fn : SfuFn) (s : State) (m : Mgmt) (h : s.mem.wf = true) (hm : s.mgmt = m) :
    Out.keeps m (execSfu n fn s) := by
  exact State.strand_keeps _ _ _ _ h hm


@[simp] theorem execCvt_keeps (rm : RM) (n : BitVec 4) (code : CvtCode) (sat : Bool) (s : State) (m : Mgmt) (h : s.mem.wf = true) (hm : s.mgmt = m) :
    Out.keeps m (execCvt rm n code sat s) := by
  exact State.strand_keeps _ _ _ _ h hm


@[simp] theorem execHadd2_keeps (n : BitVec 4) (x : Src) (f : HFmt) (rm : RM) (s : State) (m : Mgmt) (h : s.mem.wf = true) (hm : s.mgmt = m) :
    Out.keeps m (execHadd2 n x f rm s) := by
  exact State.strand_keeps _ _ _ _ h hm


@[simp] theorem execHsub2_keeps (n : BitVec 4) (x : Src) (f : HFmt) (rm : RM) (s : State) (m : Mgmt) (h : s.mem.wf = true) (hm : s.mgmt = m) :
    Out.keeps m (execHsub2 n x f rm s) := by
  exact State.strand_keeps _ _ _ _ h hm


@[simp] theorem execHmul2_keeps (n : BitVec 4) (x : Src) (f : HFmt) (rm : RM) (s : State) (m : Mgmt) (h : s.mem.wf = true) (hm : s.mgmt = m) :
    Out.keeps m (execHmul2 n x f rm s) := by
  exact State.strand_keeps _ _ _ _ h hm


@[simp] theorem execHfma2_keeps (n : BitVec 4) (x : Src) (f : HFmt) (rm : RM) (s : State) (m : Mgmt) (h : s.mem.wf = true) (hm : s.mgmt = m) :
    Out.keeps m (execHfma2 n x f rm s) := by
  exact State.strand_keeps _ _ _ _ h hm


@[simp] theorem execHmax2_keeps (n : BitVec 4) (x : Src) (f : HFmt) (rm : RM) (s : State) (m : Mgmt) (h : s.mem.wf = true) (hm : s.mgmt = m) :
    Out.keeps m (execHmax2 n x f rm s) := by
  exact State.strand_keeps _ _ _ _ h hm


@[simp] theorem execHmin2_keeps (n : BitVec 4) (x : Src) (f : HFmt) (rm : RM) (s : State) (m : Mgmt) (h : s.mem.wf = true) (hm : s.mgmt = m) :
    Out.keeps m (execHmin2 n x f rm s) := by
  exact State.strand_keeps _ _ _ _ h hm


@[simp] theorem execSelp_keeps (n : BitVec 4) (x : Src) (p : BitVec 3) (s : State) (m : Mgmt) (h : s.mem.wf = true) (hm : s.mgmt = m) :
    Out.keeps m (execSelp n x p s) := by
  exact State.strand_keeps _ _ _ _ h hm


@[simp] theorem execFcmp_keeps (c : FCond) (n : BitVec 4) (x : Src) (p : BitVec 3) (comb : Combine) (s : State) (m : Mgmt) (h : s.mem.wf = true) (hm : s.mgmt = m) :
    Out.keeps m (execFcmp c n x p comb s) := by
  exact State.strand_keeps _ _ _ _ h hm


@[simp] theorem execIcmp_keeps (c : ICond) (n : BitVec 4) (x : Src) (p : BitVec 3) (comb : Combine) (s : State) (m : Mgmt) (h : s.mem.wf = true) (hm : s.mgmt = m) :
    Out.keeps m (execIcmp c n x p comb s) := by
  exact State.strand_keeps _ _ _ _ h hm


@[simp] theorem execPutp_keeps (n : BitVec 4) (t : PutpTest) (p : BitVec 3) (s : State) (m : Mgmt) (h : s.mem.wf = true) (hm : s.mgmt = m) :
    Out.keeps m (execPutp n t p s) := by
  exact State.strand_keeps _ _ _ _ h hm


@[simp] theorem execShfli_keeps (n : BitVec 4) (r : BitVec 8) (s : State) (m : Mgmt) (h : s.mem.wf = true) (hm : s.mgmt = m) :
    Out.keeps m (execShfli n r s) := by
  exact State.strand_keeps _ _ _ _ h hm


@[simp] theorem execShfl16_keeps (n : BitVec 4) (r : BitVec 8) (s : State) (m : Mgmt) (h : s.mem.wf = true) (hm : s.mgmt = m) :
    Out.keeps m (execShfl16 n r s) := by
  exact State.strand_keeps _ _ _ _ h hm


@[simp] theorem execQx_keeps (n : BitVec 4) (dir : QxDir) (r : BitVec 8) (s : State) (m : Mgmt) (h : s.mem.wf = true) (hm : s.mgmt = m) :
    Out.keeps m (execQx n dir r s) := by
  exact State.strand_keeps _ _ _ _ h hm


@[simp] theorem execUnpk_keeps (n : BitVec 4) (hi : Bool) (r : BitVec 8) (s : State) (m : Mgmt) (h : s.mem.wf = true) (hm : s.mgmt = m) :
    Out.keeps m (execUnpk n hi r s) := by
  exact State.strand_keeps _ _ _ _ h hm


@[simp] theorem execVote_keeps (n : BitVec 4) (mode : VoteMode) (p : BitVec 3) (s : State) (m : Mgmt) (h : s.mem.wf = true) (hm : s.mgmt = m) :
    Out.keeps m (execVote n mode p s) := by
  exact State.strand_keeps _ _ _ _ h hm


@[simp] theorem execRed_keeps (n : BitVec 4) (op : TreeOp) (s : State) (m : Mgmt) (h : s.mem.wf = true) (hm : s.mgmt = m) :
    Out.keeps m (execRed n op s) := by
  exact State.strand_keeps _ _ _ _ h hm


@[simp] theorem execScan_keeps (n : BitVec 4) (op : TreeOp) (excl : Bool) (s : State) (m : Mgmt) (h : s.mem.wf = true) (hm : s.mgmt = m) :
    Out.keeps m (execScan n op excl s) := by
  exact State.strand_keeps _ _ _ _ h hm


@[simp] theorem execRdsr_keeps (n : BitVec 4) (idx : BitVec 8) (s : State) (m : Mgmt) (h : s.mem.wf = true) (hm : s.mgmt = m) :
    Out.keeps m (execRdsr n idx s) := by
  exact State.strand_keeps _ _ _ _ h hm


@[simp] theorem execKwin_keeps (n : BitVec 4) (x : Src) (s : State) (m : Mgmt) (h : s.mem.wf = true) (hm : s.mgmt = m) :
    Out.keeps m (execKwin n x s) := by
  exact State.strand_keeps _ _ _ _ h hm


@[simp] theorem execKnext_keeps (n : BitVec 4) (step : BitVec 8) (p : BitVec 3) (s : State) (m : Mgmt) (h : s.mem.wf = true) (hm : s.mgmt = m) :
    Out.keeps m (execKnext n step p s) := by
  exact State.strand_keeps _ _ _ _ h hm


@[simp] theorem execLdB32_keeps (n : BitVec 4) (m : MField) (s : State) (mg : Mgmt) (h : s.mem.wf = true) (hm : s.mgmt = mg) :
    Out.keeps mg (execLdB32 n m s) := by
  exact State.strand_keeps _ _ _ _ h hm


@[simp] theorem execLdI8_keeps (n : BitVec 4) (m : MField) (s : State) (mg : Mgmt) (h : s.mem.wf = true) (hm : s.mgmt = mg) :
    Out.keeps mg (execLdI8 n m s) := by
  exact State.strand_keeps _ _ _ _ h hm


@[simp] theorem execLdZ8_keeps (n : BitVec 4) (m : MField) (s : State) (mg : Mgmt) (h : s.mem.wf = true) (hm : s.mgmt = mg) :
    Out.keeps mg (execLdZ8 n m s) := by
  exact State.strand_keeps _ _ _ _ h hm


@[simp] theorem execLdI16_keeps (n : BitVec 4) (m : MField) (s : State) (mg : Mgmt) (h : s.mem.wf = true) (hm : s.mgmt = mg) :
    Out.keeps mg (execLdI16 n m s) := by
  exact State.strand_keeps _ _ _ _ h hm


@[simp] theorem execLdZ16_keeps (n : BitVec 4) (m : MField) (s : State) (mg : Mgmt) (h : s.mem.wf = true) (hm : s.mgmt = mg) :
    Out.keeps mg (execLdZ16 n m s) := by
  exact State.strand_keeps _ _ _ _ h hm


@[simp] theorem execLdBf16_keeps (n : BitVec 4) (m : MField) (s : State) (mg : Mgmt) (h : s.mem.wf = true) (hm : s.mgmt = mg) :
    Out.keeps mg (execLdBf16 n m s) := by
  exact State.strand_keeps _ _ _ _ h hm


@[simp] theorem execLdF16_keeps (n : BitVec 4) (m : MField) (s : State) (mg : Mgmt) (h : s.mem.wf = true) (hm : s.mgmt = mg) :
    Out.keeps mg (execLdF16 n m s) := by
  exact State.strand_keeps _ _ _ _ h hm


@[simp] theorem execStB32_keeps (n : BitVec 4) (m : MField) (s : State) (mg : Mgmt) (h : s.mem.wf = true) (hm : s.mgmt = mg) :
    Out.keeps mg (execStB32 n m s) := by
  exact State.strand_keeps _ _ _ _ h hm


@[simp] theorem execStB16_keeps (n : BitVec 4) (m : MField) (s : State) (mg : Mgmt) (h : s.mem.wf = true) (hm : s.mgmt = mg) :
    Out.keeps mg (execStB16 n m s) := by
  exact State.strand_keeps _ _ _ _ h hm


@[simp] theorem execStB8_keeps (n : BitVec 4) (m : MField) (s : State) (mg : Mgmt) (h : s.mem.wf = true) (hm : s.mgmt = mg) :
    Out.keeps mg (execStB8 n m s) := by
  exact State.strand_keeps _ _ _ _ h hm


@[simp] theorem execStBf16_keeps (n : BitVec 4) (m : MField) (s : State) (mg : Mgmt) (h : s.mem.wf = true) (hm : s.mgmt = mg) :
    Out.keeps mg (execStBf16 n m s) := by
  exact State.strand_keeps _ _ _ _ h hm


@[simp] theorem execStE4m3_keeps (n : BitVec 4) (m : MField) (s : State) (mg : Mgmt) (h : s.mem.wf = true) (hm : s.mgmt = mg) :
    Out.keeps mg (execStE4m3 n m s) := by
  exact State.strand_keeps _ _ _ _ h hm


@[simp] theorem execAtomIadd_keeps (n : BitVec 4) (m : MField) (s : State) (mg : Mgmt) (h : s.mem.wf = true) (hm : s.mgmt = mg) :
    Out.keeps mg (execAtomIadd n m s) := by
  exact State.strand_keeps _ _ _ _ h hm


@[simp] theorem execAtomFadd_keeps (n : BitVec 4) (m : MField) (s : State) (mg : Mgmt) (h : s.mem.wf = true) (hm : s.mgmt = mg) :
    Out.keeps mg (execAtomFadd n m s) := by
  exact State.strand_keeps _ _ _ _ h hm


@[simp] theorem execAtomImax_keeps (n : BitVec 4) (m : MField) (s : State) (mg : Mgmt) (h : s.mem.wf = true) (hm : s.mgmt = mg) :
    Out.keeps mg (execAtomImax n m s) := by
  exact State.strand_keeps _ _ _ _ h hm


@[simp] theorem execAtomImin_keeps (n : BitVec 4) (m : MField) (s : State) (mg : Mgmt) (h : s.mem.wf = true) (hm : s.mgmt = mg) :
    Out.keeps mg (execAtomImin n m s) := by
  exact State.strand_keeps _ _ _ _ h hm


@[simp] theorem execAtomZmax_keeps (n : BitVec 4) (m : MField) (s : State) (mg : Mgmt) (h : s.mem.wf = true) (hm : s.mgmt = mg) :
    Out.keeps mg (execAtomZmax n m s) := by
  exact State.strand_keeps _ _ _ _ h hm


@[simp] theorem execAtomZmin_keeps (n : BitVec 4) (m : MField) (s : State) (mg : Mgmt) (h : s.mem.wf = true) (hm : s.mgmt = mg) :
    Out.keeps mg (execAtomZmin n m s) := by
  exact State.strand_keeps _ _ _ _ h hm


@[simp] theorem execAtomAnd_keeps (n : BitVec 4) (m : MField) (s : State) (mg : Mgmt) (h : s.mem.wf = true) (hm : s.mgmt = mg) :
    Out.keeps mg (execAtomAnd n m s) := by
  exact State.strand_keeps _ _ _ _ h hm


@[simp] theorem execAtomOr_keeps (n : BitVec 4) (m : MField) (s : State) (mg : Mgmt) (h : s.mem.wf = true) (hm : s.mgmt = mg) :
    Out.keeps mg (execAtomOr n m s) := by
  exact State.strand_keeps _ _ _ _ h hm


@[simp] theorem execAtomXor_keeps (n : BitVec 4) (m : MField) (s : State) (mg : Mgmt) (h : s.mem.wf = true) (hm : s.mgmt = mg) :
    Out.keeps mg (execAtomXor n m s) := by
  exact State.strand_keeps _ _ _ _ h hm


@[simp] theorem execAtomXchg_keeps (n : BitVec 4) (m : MField) (s : State) (mg : Mgmt) (h : s.mem.wf = true) (hm : s.mgmt = mg) :
    Out.keeps mg (execAtomXchg n m s) := by
  exact State.strand_keeps _ _ _ _ h hm


@[simp] theorem execAtomCas_keeps (n : BitVec 4) (m : MField) (s : State) (mg : Mgmt) (h : s.mem.wf = true) (hm : s.mgmt = mg) :
    Out.keeps mg (execAtomCas n m s) := by
  exact State.strand_keeps _ _ _ _ h hm


@[simp] theorem execLdtr_keeps (sA : BitVec 6) (r : BitVec 8) (nb : BitVec 3) (elem : Elem) (sS : BitVec 6) (s : State) (m : Mgmt) (h : s.mem.wf = true) (hm : s.mgmt = m) :
    Out.keeps m (execLdtr sA r nb elem sS s) := by
  exact State.strand_keeps _ _ _ _ h hm


@[simp] theorem execCpyPlain_keeps (c : CpyField) (s : State) (m : Mgmt) (h : s.mem.wf = true) (hm : s.mgmt = m) :
    Out.keeps m (execCpyPlain c s) := by
  exact State.strand_keeps _ _ _ _ h hm


@[simp] theorem execCpyCanon_keeps (c : CpyField) (f : CpyFmt) (s : State) (m : Mgmt) (h : s.mem.wf = true) (hm : s.mgmt = m) :
    Out.keeps m (execCpyCanon c f s) := by
  exact State.strand_keeps _ _ _ _ h hm


@[simp] theorem execCpyNorms_keeps (c : CpyField) (f : CpyFmt) (s : State) (m : Mgmt) (h : s.mem.wf = true) (hm : s.mgmt = m) :
    Out.keeps m (execCpyNorms c f s) := by
  exact State.strand_keeps _ _ _ _ h hm


@[simp] theorem execCpyVer_keeps (c : CpyField) (s : State) (m : Mgmt) (h : s.mem.wf = true) (hm : s.mgmt = m) :
    Out.keeps m (execCpyVer c s) := by
  exact State.strand_keeps _ _ _ _ h hm


@[simp] theorem execCpyMcast_keeps (c : CpyField) (s : State) (m : Mgmt) (h : s.mem.wf = true) (hm : s.mgmt = m) :
    Out.keeps m (execCpyMcast c s) := by
  exact State.strand_keeps _ _ _ _ h hm


@[simp] theorem execCpyo_keeps (n : BitVec 4) (dst desc : BitVec 6) (out : CpyoOut) (dsp : Space) (pkg : Bool) (s : State) (m : Mgmt) (h : s.mem.wf = true) (hm : s.mgmt = m) :
    Out.keeps m (execCpyo n dst desc out dsp pkg s) := by
  exact State.strand_keeps _ _ _ _ h hm


@[simp] theorem execKbind_keeps (n : BitVec 4) (sA : BitVec 6) (m nn : Dim) (off : BitVec 8) (s : State) (mg : Mgmt) (h : s.mem.wf = true) (hm : s.mgmt = mg) :
    Out.keeps mg (execKbind n sA m nn off s) := by
  exact State.strand_keeps _ _ _ _ h hm


@[simp] theorem execKfree_keeps (n : BitVec 4) (s : State) (m : Mgmt) (h : s.mem.wf = true) (hm : s.mgmt = m) :
    Out.keeps m (execKfree n s) := by
  exact State.strand_keeps _ _ _ _ h hm


@[simp] theorem execMzero_keeps (sA : BitVec 6) (off : BitVec 8) (s : State) (m : Mgmt) (h : s.mem.wf = true) (hm : s.mgmt = m) :
    Out.keeps m (execMzero sA off s) := by
  exact State.strand_keeps _ _ _ _ h hm


@[simp] theorem execMma_keeps (n : BitVec 4) (sA sB : BitVec 6) (f : MmaFmt) (cv : BitVec 3) (gB : BitVec 8) (s : State) (m : Mgmt) (h : s.mem.wf = true) (hm : s.mgmt = m) :
    Out.keeps m (execMma n sA sB f cv gB s) := by
  exact State.strand_keeps _ _ _ _ h hm


@[simp] theorem execMsamp_keeps (n : BitVec 4) (sA sB sC : BitVec 6) (f : MmaFmt) (s : State) (m : Mgmt) (h : s.mem.wf = true) (hm : s.mgmt = m) :
    Out.keeps m (execMsamp n sA sB sC f s) := by
  exact State.strand_keeps _ _ _ _ h hm


@[simp] theorem execMstat_keeps (n : BitVec 4) (r : BitVec 8) (s : State) (m : Mgmt) (h : s.mem.wf = true) (hm : s.mgmt = m) :
    Out.keeps m (execMstat n r s) := by
  exact State.strand_keeps _ _ _ _ h hm


@[simp] theorem execAcheck_keeps (sA sB : BitVec 6) (off : BitVec 8) (s : State) (m : Mgmt) (h : s.mem.wf = true) (hm : s.mgmt = m) :
    Out.keeps m (execAcheck sA sB off s) := by
  exact State.strand_keeps _ _ _ _ h hm


@[simp] theorem execAdrain_keeps (sA sB sC : BitVec 6) (opt : Optim) (keep : Bool) (off : BitVec 8) (s : State) (m : Mgmt) (h : s.mem.wf = true) (hm : s.mgmt = m) :
    Out.keeps m (execAdrain sA sB sC opt keep off s) := by
  exact State.strand_keeps _ _ _ _ h hm


@[simp] theorem execLsupd_keeps (sA sB : BitVec 6) (s : State) (m : Mgmt) (h : s.mem.wf = true) (hm : s.mgmt = m) :
    Out.keeps m (execLsupd sA sB s) := by
  exact State.strand_keeps _ _ _ _ h hm


@[simp] theorem execTreg_keeps (sA sB sC : BitVec 6) (s : State) (m : Mgmt) (h : s.mem.wf = true) (hm : s.mgmt = m) :
    Out.keeps m (execTreg sA sB sC s) := by
  exact State.strand_keeps _ _ _ _ h hm


@[simp] theorem execTdrop_keeps (sA : BitVec 6) (s : State) (m : Mgmt) (h : s.mem.wf = true) (hm : s.mgmt = m) :
    Out.keeps m (execTdrop sA s) := by
  exact State.strand_keeps _ _ _ _ h hm


@[simp] theorem execTmove_keeps (sA sB sC : BitVec 6) (s : State) (m : Mgmt) (h : s.mem.wf = true) (hm : s.mgmt = m) :
    Out.keeps m (execTmove sA sB sC s) := by
  exact State.strand_keeps _ _ _ _ h hm


@[simp] theorem execSolicit_keeps (sA sB sC : BitVec 6) (op : CenOp) (pkg : Bool) (d : BitVec 8) (s : State) (m : Mgmt) (h : s.mem.wf = true) (hm : s.mgmt = m) :
    Out.keeps m (execSolicit sA sB sC op pkg d s) := by
  exact State.strand_keeps _ _ _ _ h hm


@[simp] theorem execReply_keeps (n : BitVec 4) (s : State) (m : Mgmt) (h : s.mem.wf = true) (hm : s.mgmt = m) :
    Out.keeps m (execReply n s) := by
  exact State.strand_keeps _ _ _ _ h hm


@[simp] theorem execChsend_keeps (sA : BitVec 6) (r : BitVec 8) (s : State) (m : Mgmt) (h : s.mem.wf = true) (hm : s.mgmt = m) :
    Out.keeps m (execChsend sA r s) := by
  exact State.strand_keeps _ _ _ _ h hm


@[simp] theorem execChrecv_keeps (sA : BitVec 6) (r : BitVec 8) (s : State) (m : Mgmt) (h : s.mem.wf = true) (hm : s.mgmt = m) :
    Out.keeps m (execChrecv sA r s) := by
  exact State.strand_keeps _ _ _ _ h hm


@[simp] theorem execSpawn_keeps (n : BitVec 4) (sA : BitVec 6) (s : State) (m : Mgmt) (h : s.mem.wf = true) (hm : s.mgmt = m) :
    Out.keeps m (execSpawn n sA s) := by
  exact State.strand_keeps _ _ _ _ h hm


@[simp] theorem execLaunch_keeps (sA sB : BitVec 6) (s : State) (m : Mgmt) (h : s.mem.wf = true) (hm : s.mgmt = m) :
    Out.keeps m (execLaunch sA sB s) := by
  exact State.strand_keeps _ _ _ _ h hm


@[simp] theorem execSld_keeps (sA sB : BitVec 6) (order : Order) (scope : Scope) (r : BitVec 8) (s : State) (m : Mgmt) (h : s.mem.wf = true) (hm : s.mgmt = m) :
    Out.keeps m (execSld sA sB order scope r s) := by
  exact State.strand_keeps _ _ _ _ h hm


@[simp] theorem execSst_keeps (sA sB sC : BitVec 6) (order : Order) (scope : Scope) (s : State) (m : Mgmt) (h : s.mem.wf = true) (hm : s.mgmt = m) :
    Out.keeps m (execSst sA sB sC order scope s) := by
  exact State.strand_keeps _ _ _ _ h hm


@[simp] theorem execPmrd_keeps (cnt : BitVec 4) (r : BitVec 8) (s : State) (m : Mgmt) (h : s.mem.wf = true) (hm : s.mgmt = m) :
    Out.keeps m (execPmrd cnt r s) := by
  exact State.strand_keeps _ _ _ _ h hm


@[simp] theorem execPmctl_keeps (sA : BitVec 6) (cnt : BitVec 4) (s : State) (m : Mgmt) (h : s.mem.wf = true) (hm : s.mgmt = m) :
    Out.keeps m (execPmctl sA cnt s) := by
  exact State.strand_keeps _ _ _ _ h hm


@[simp] theorem State.landFor_keeps (s : State) (g : Workgroup) (o : EngOp) :
    (State.landFor s g o).mem = s.mem ∧ (State.landFor s g o).mgmt = s.mgmt := by
  unfold State.landFor
  (try dsimp only)
  (repeat' split) <;> simp_all

@[simp] theorem State.retireFailed_keeps (s : State) (g : Workgroup) (o : EngOp) (code va access : Nat) :
    (State.retireFailed s g o code va access).mem = s.mem ∧ (State.retireFailed s g o code va access).mgmt = s.mgmt := by
  unfold State.retireFailed
  (try dsimp only)
  (repeat' split) <;> simp_all

@[simp] theorem State.retireDone_keeps (s : State) (g : Workgroup) (w : Warp) (o : EngOp) :
    (State.retireDone s g w o).mem = s.mem ∧ (State.retireDone s g w o).mgmt = s.mgmt := by
  unfold State.retireDone
  (try dsimp only)
  (repeat' split) <;> simp_all

@[simp] theorem State.copyRun_keeps (s : State) (g : Workgroup) (w : Warp) (o : EngOp) (dsp : Space) (rs : List Region)
    (all : View → List (Nat × Byte)) (m : Mgmt) (h : s.mem.wf = true) (hm : s.mgmt = m) : OpRun.keeps m (s.copyRun g w o dsp rs all) := by
  unfold State.copyRun
  dsimp only
  split <;> simp [h, hm]

theorem runMcast_keeps (s : State) (g : Workgroup) (w : Warp) (o : EngOp) (src dst d aux : DWord) (ssp : Space) (m : Mgmt) (h : s.mem.wf = true)
    (hm : s.mgmt = m) : OpRun.keeps m (runMcast s g w o src dst d aux ssp) := by
  unfold runMcast
  (try dsimp only)
  (repeat' split) <;> simp_all

@[simp] theorem runCpy_keeps (s : State) (g : Workgroup) (w : Warp) (o : EngOp) (md : CpyMode) (src dst d aux : DWord) (ssp dsp : Space) (m : Mgmt) (h : s.mem.wf = true) (hm : s.mgmt = m) :
    OpRun.keeps m (runCpy s g w o md src dst d aux ssp dsp) := by
  unfold runCpy
  split
  · exact runMcast_keeps _ _ _ _ _ _ _ _ _ _ h hm
  all_goals exact State.copyRun_keeps _ _ _ _ _ _ _ _ h hm

@[simp] theorem State.landCopy_keeps (s : State) (g : Workgroup) (w : Warp) (o : EngOp) (dsp : Space) (line : Nat) (rs : List Region)
    (all : View → List (Nat × Byte)) (h : s.mem.wf = true) :
    (s.landCopy g w o dsp line rs all).mem.wf = true ∧ (s.landCopy g w o dsp line rs all).mgmt = s.mgmt := by
  unfold State.landCopy
  dsimp only
  split <;> simp [h]

@[simp] theorem State.landLine_keeps (s : State) (g : Workgroup) (w : Warp) (o : EngOp) (line : Nat) (h : s.mem.wf = true) :
    (State.landLine s g w o line).mem.wf = true ∧ (State.landLine s g w o line).mgmt = s.mgmt := by
  unfold State.landLine
  dsimp only
  (repeat' split) <;> simp [h]

@[simp] theorem runCpyo_keeps (s : State) (g : Workgroup) (w : Warp) (o : EngOp) (dst stride : DWord) (out : CpyoOut) (dsp : Space) (m : Mgmt) (h : s.mem.wf = true) (hm : s.mgmt = m) :
    OpRun.keeps m (runCpyo s g w o dst stride out dsp) := by
  unfold runCpyo
  split
  · simp [h, hm]
  · exact State.copyRun_keeps _ _ _ _ _ _ _ _ h hm

@[simp] theorem State.failAll_keeps (s : State) (uid : Nat) (os : List EngOp) (code va access : Nat) :
    (State.failAll s uid os code va access).mem = s.mem ∧ (State.failAll s uid os code va access).mgmt = s.mgmt := by
  refine foldl_same _ (fun t o => ?_) os s
  split <;> simp

@[simp] theorem State.runMma_keeps (s : State) (g : Workgroup) (w : Warp) (o : EngOp) (base panel : DWord) (f : MmaFmt) (fire : Nat) :
    (State.runMma s g w o base panel f fire).mem = s.mem ∧ (State.runMma s g w o base panel f fire).mgmt = s.mgmt := by
  unfold State.runMma
  (try dsimp only)
  (repeat' split) <;> simp_all

@[simp] theorem sampBuild_keeps (s : State) (g : Workgroup) (w : Warp) (o : EngOp) (x : SampArgs) (t : SampTables) (m : Mgmt) (h : s.mem.wf = true) (hm : s.mgmt = m) :
    OpRun.keeps m (sampBuild s g w o x t) := by
  unfold sampBuild
  (try dsimp only)
  (repeat' split) <;> simp_all

@[simp] theorem sampDraw_keeps (s : State) (g : Workgroup) (w : Warp) (o : EngOp) (x : SampArgs) (t : SampTables) (a b : DWord) (f : MmaFmt) (seed : Word) (m : Mgmt) (h : s.mem.wf = true) (hm : s.mgmt = m) :
    OpRun.keeps m (sampDraw s g w o x t a b f seed) := by
  simp [sampDraw, h, hm]

@[simp] theorem sampFinal_keeps (s : State) (g : Workgroup) (w : Warp) (o : EngOp) (x : SampArgs) (m : Mgmt) (h : s.mem.wf = true) (hm : s.mgmt = m) :
    OpRun.keeps m (sampFinal s g w o x) := by
  simp [sampFinal, h, hm]

@[simp] theorem runMsamp_keeps (s : State) (g : Workgroup) (w : Warp) (o : EngOp) (a b d0 d1 : DWord) (f : MmaFmt) (seed : Word) (m : Mgmt) (h : s.mem.wf = true) (hm : s.mgmt = m) :
    OpRun.keeps m (runMsamp s g w o a b d0 d1 f seed) := by
  unfold runMsamp
  (try dsimp only)
  (repeat' split) <;> simp_all

@[simp] theorem View.put_keeps (v : View) (s : State) (g : Workgroup) (a : Nat) (x : Word) (h : s.mem.wf = true) :
    (View.put v s g a x).mem.wf = true ∧ (View.put v s g a x).mgmt = s.mgmt := by
  unfold View.put
  (try dsimp only)
  (repeat' split) <;> simp_all

@[simp] theorem View.puts_keeps (v : View) (s : State) (g : Workgroup) (l : List (Nat × Word)) (h : s.mem.wf = true) :
    (View.puts v s g l).mem.wf = true ∧ (View.puts v s g l).mgmt = s.mgmt := by
  exact foldl_keeps _ (fun s p h => View.put_keeps v s g p.1 p.2 h) l s h


@[simp] theorem runAcheck_keeps (s : State) (g : Workgroup) (w : Warp) (o : EngOp) (slot : Nat) (status : DWord) (m : Mgmt) (h : s.mem.wf = true) (hm : s.mgmt = m) :
    OpRun.keeps m (runAcheck s g w o slot status) := by
  unfold runAcheck
  (try dsimp only)
  (repeat' split) <;> simp_all

theorem lsPublish_keeps (v : View) (g : Workgroup) (w : Warp) (op a : Nat) (stops : Bool) (r : Word × Word × Word × Word × Word × Bool) (m : Mgmt)
    (h : v.st.mem.wf = true) (hm : v.st.mgmt = m) : OpRun.keeps m (lsPublish v g w op a stops r) := by
  unfold lsPublish
  dsimp only
  split <;> simp [h, hm]

@[simp] theorem runLsupd_keeps (s : State) (g : Workgroup) (w : Warp) (o : EngOp) (rec' status : DWord) (m : Mgmt) (h : s.mem.wf = true) (hm : s.mgmt = m) :
    OpRun.keeps m (runLsupd s g w o rec' status) := by
  unfold runLsupd
  dsimp only
  split
  · simp [h, hm]
  · simp [h, hm]
  · simp [h, hm]
  · exact lsPublish_keeps _ _ _ _ _ _ _ _ (by simp [h]) (by simp [hm])


@[simp] theorem adrainUpdate_keeps (s : State) (g : Workgroup) (w : Warp) (o : EngOp) (t : TileRec) (slot a : Nat) (prev : Word) (m n : Nat) (opt : Optim) (keep : Bool) (mg : Mgmt) (h : s.mem.wf = true) (hm : s.mgmt = mg) :
    OpRun.keeps mg (adrainUpdate s g w o t slot a prev m n opt keep) := by
  unfold adrainUpdate
  (try dsimp only)
  (repeat' split) <;> simp_all

@[simp] theorem adrainGo_keeps (s : State) (g : Workgroup) (w : Warp) (o : EngOp) (t : TileRec) (slot a : Nat) (r : List Word) (m n : Nat) (opt : Optim) (keep : Bool) (mg : Mgmt) (h : s.mem.wf = true) (hm : s.mgmt = mg) :
    OpRun.keeps mg (adrainGo s g w o t slot a r m n opt keep) := by
  unfold adrainGo
  split <;> simp [h, hm]

@[simp] theorem runAdrain_keeps (s : State) (g : Workgroup) (w : Warp) (o : EngOp) (slot : Nat) (rec' scale : DWord) (opt : Optim) (keep : Bool) (m : Mgmt) (h : s.mem.wf = true) (hm : s.mgmt = m) :
    OpRun.keeps m (runAdrain s g w o slot rec' scale opt keep) := by
  unfold runAdrain
  (try dsimp only)
  (repeat' split) <;> simp_all

@[simp] theorem State.setChannel_keeps (s : State) (g : Workgroup) (c : Nat) (ch : Channel) :
    (State.setChannel s g c ch).mem = s.mem ∧ (State.setChannel s g c ch).mgmt = s.mgmt := by
  unfold State.setChannel
  (try dsimp only)
  (repeat' split) <;> simp_all

@[simp] theorem runChsend_keeps (s : State) (g : Workgroup) (w : Warp) (o : EngOp) (ch : DWord) (m : Mgmt) (h : s.mem.wf = true) (hm : s.mgmt = m) :
    OpRun.keeps m (runChsend s g w o ch) := by
  unfold runChsend
  (try dsimp only)
  (repeat' split) <;> simp_all

@[simp] theorem runChrecv_keeps (s : State) (g : Workgroup) (w : Warp) (o : EngOp) (ch : DWord) (r : Nat) (m : Mgmt) (h : s.mem.wf = true) (hm : s.mgmt = m) :
    OpRun.keeps m (runChrecv s g w o ch r) := by
  unfold runChrecv
  (try dsimp only)
  (repeat' split) <;> simp_all

@[simp] theorem runSld_keeps (s : State) (g : Workgroup) (w : Warp) (o : EngOp) (a : DWord) (r : Nat) (m : Mgmt) (h : s.mem.wf = true) (hm : s.mgmt = m) :
    OpRun.keeps m (runSld s g w o a r) := by
  unfold runSld
  (try dsimp only)
  (repeat' split) <;> simp_all

@[simp] theorem runSst_keeps (s : State) (g : Workgroup) (w : Warp) (o : EngOp) (a x : DWord) (m : Mgmt) (h : s.mem.wf = true) (hm : s.mgmt = m) :
    OpRun.keeps m (runSst s g w o a x) := by
  unfold runSst
  (try dsimp only)
  (repeat' split) <;> simp_all

@[simp] theorem launchEntry_keeps (s : State) (g : Workgroup) (w : Warp) (o : EngOp) (q i : Nat) (body : List Byte) (m : Mgmt) (h : s.mem.wf = true) (hm : s.mgmt = m) :
    OpRun.keeps m (launchEntry s g w o q i body) := by
  unfold launchEntry
  (try dsimp only)
  (repeat' split) <;> simp_all

@[simp] theorem runLaunch_keeps (s : State) (g : Workgroup) (w : Warp) (o : EngOp) (rec' queue : DWord) (m : Mgmt) (h : s.mem.wf = true) (hm : s.mgmt = m) :
    OpRun.keeps m (runLaunch s g w o rec' queue) := by
  unfold runLaunch
  (try dsimp only)
  (repeat' split) <;> simp_all

@[simp] theorem State.runOp_keeps (s : State) (g : Workgroup) (w : Warp) (o : EngOp) (m : Mgmt) (h : s.mem.wf = true) (hm : s.mgmt = m) :
    OpRun.keeps m (State.runOp s g w o) := by
  unfold State.runOp
  (try dsimp only)
  (repeat' split) <;> simp_all

@[simp] theorem State.opAbsent_keeps (s : State) (g : Workgroup) (w : Warp) (o : EngOp) (va access : Nat) :
    (State.opAbsent s g w o va access).mem = s.mem ∧ (State.opAbsent s g w o va access).mgmt = s.mgmt := by
  unfold State.opAbsent
  (try dsimp only)
  (repeat' split) <;> simp_all

@[simp] theorem State.versionView_keeps (s : State) (g : Workgroup) (w : Warp) (o : EngOp) (copy : Bool) :
    (s.versionView g w o copy).st.mem = s.mem ∧ (s.versionView g w o copy).st.mgmt = s.mgmt := by
  unfold State.versionView
  split <;> simp

@[simp] theorem View.attempt_keeps (v : View) (g : Workgroup) (o : EngOp) (h : v.st.mem.wf = true) :
    (v.attempt g o).1.mem.wf = true ∧ (v.attempt g o).1.mgmt = v.st.mgmt := by
  unfold View.attempt
  split <;> simp [h]

/-- An access of a versioned read keeps what its continuation keeps. -/
theorem State.versioned_keeps (s : State) (g : Workgroup) (w : Warp) (o : EngOp) (copy : Bool) (go : View → State) (m : Mgmt) (h : s.mem.wf = true)
    (hm : s.mgmt = m) (hg : ∀ v : View, v.st.mem.wf = true → v.st.mgmt = m → (go v).mem.wf = true ∧ (go v).mgmt = m) :
    (s.versioned g w o copy go).mem.wf = true ∧ (s.versioned g w o copy go).mgmt = m := by
  unfold State.versioned
  dsimp only
  split
  · exact hg _ (by simp [h]) (by simp [hm])
  all_goals simp [h, hm]

@[simp] theorem State.versionedAttempt_keeps (s : State) (g : Workgroup) (w : Warp) (o : EngOp) (h : s.mem.wf = true) :
    (State.versionedAttempt s g w o).mem.wf = true ∧ (State.versionedAttempt s g w o).mgmt = s.mgmt := by
  unfold State.versionedAttempt
  split
  · split
    · exact ⟨h, rfl⟩
    · dsimp only
      split <;> refine State.versioned_keeps _ _ _ _ _ _ _ h rfl (fun v hv hm => ?_)
      · split
        · simp [hv, hm]
        · exact State.versioned_keeps _ _ _ _ _ _ _ hv hm (fun u hu hn => by simp [hu, hn])
      · simp [hv, hm]
  · exact ⟨h, rfl⟩

@[simp] theorem State.retireOp_keeps (s : State) (g : Workgroup) (op : Nat) (h : s.mem.wf = true) :
    (State.retireOp s g op).mem.wf = true ∧ (State.retireOp s g op).mgmt = s.mgmt := by
  have kd : ∀ w o r, s.runOp g w o = r → OpRun.keeps s.mgmt r := fun w o r e => e ▸ State.runOp_keeps s g w o _ h rfl
  unfold State.retireOp
  (repeat' split) <;> first
    | (simp [h]; done)
    | (have := kd _ _ _ ‹State.runOp s g _ _ = _›; simp_all)


theorem State.faultOf_keeps (s : State) (g : Workgroup) (w : Warp) (e : QEntry) (r : State × Nat × Nat) (h : s.mem.wf = true)
    (q : s.faultOf g w e = some r) : r.1.mem.wf = true ∧ r.1.mgmt = s.mgmt := by
  have k := State.runEntry_keeps s g w e _ h rfl
  unfold State.faultOf at q
  split at q
  · simp_all
    subst q
    simp_all
  all_goals simp at q

@[simp] theorem State.startEntry_keeps (s : State) (g : Workgroup) (w : Warp) (cl : Nat) (e : QEntry) (h : s.mem.wf = true) :
    (State.startEntry s g w cl e).mem.wf = true ∧ (State.startEntry s g w cl e).mgmt = s.mgmt := by
  have k := fun r q => State.faultOf_keeps s g (w.popHead cl) e r h q
  unfold State.startEntry
  dsimp only
  split
  · rename_i q
    have := k _ q
    simp_all
  · (repeat' split) <;> simp_all


@[simp] theorem execStrandStart_keeps (die : BitVec 2) (core : BitVec 6) (cl : BitVec 3) (s : State) (m : Mgmt) (h : s.mem.wf = true) (hm : s.mgmt = m) :
    Out.keeps m (execStrandStart die core cl s) := by
  unfold execStrandStart; (try dsimp only); (repeat' split) <;> simp_all


@[simp] theorem State.unstart_keeps (s : State) (g : Workgroup) (w0 : Warp) (e : QEntry) (va access : Nat) :
    (State.unstart s g w0 e va access).mem = s.mem ∧ (State.unstart s g w0 e va access).mgmt = s.mgmt := by
  unfold State.unstart
  (try dsimp only)
  (repeat' split) <;> simp_all

@[simp] theorem State.completeEntry_keeps (s : State) (g : Workgroup) (w : Warp) (e : QEntry) (h : s.mem.wf = true) :
    (State.completeEntry s g w e).mem.wf = true ∧ (State.completeEntry s g w e).mgmt = s.mgmt := by
  have k := State.runEntry_keeps s g (w.popStarted e) e _ h rfl
  unfold State.completeEntry
  dsimp only
  (repeat' split) <;> simp_all


@[simp] theorem State.complete_keeps (s : State) (wg wid n : Nat) (load : Bool) (m : Mgmt) (h : s.mem.wf = true) (hm : s.mgmt = m) :
    Out.keeps m (State.complete s wg wid n load) := by
  refine State.onWarpOf_keeps _ _ _ _ _ h hm (fun g w => ?_)
  (repeat' split) <;> simp_all


@[simp] theorem execStrandInstructionComplete_keeps (wg wid : Nat) (n : BitVec 4) (s : State) (m : Mgmt) (h : s.mem.wf = true) (hm : s.mgmt = m) :
    Out.keeps m (execStrandInstructionComplete wg wid n s) := by
  unfold execStrandInstructionComplete; (try dsimp only); (repeat' split) <;> simp_all


@[simp] theorem execLoadComplete_keeps (wg wid : Nat) (n : BitVec 4) (s : State) (m : Mgmt) (h : s.mem.wf = true) (hm : s.mgmt = m) :
    Out.keeps m (execLoadComplete wg wid n s) := by
  unfold execLoadComplete; (try dsimp only); (repeat' split) <;> simp_all


@[simp] theorem execEngineIssue_keeps (wg wid : Nat) (cl : BitVec 3) (s : State) (m : Mgmt) (h : s.mem.wf = true) (hm : s.mgmt = m) :
    Out.keeps m (execEngineIssue wg wid cl s) := by
  refine State.onWarpOf_keeps _ _ _ _ _ h hm (fun g w => ?_); (try dsimp only); (repeat' split) <;> simp_all


@[simp] theorem execMmaSign_keeps (wg wid : Nat) (cl : BitVec 3) (s : State) (m : Mgmt) (h : s.mem.wf = true) (hm : s.mgmt = m) :
    Out.keeps m (execMmaSign wg wid cl s) := by
  refine State.onWarpOf_keeps _ _ _ _ _ h hm (fun g w => ?_); (try dsimp only); (repeat' split) <;> simp_all


theorem State.onHolder_keeps (s : State) (wg wid op : Nat) (f : Workgroup → Warp → EngOp → State) (m : Mgmt) (h : s.mem.wf = true)
    (hm : s.mgmt = m) (hf : ∀ g w o, (f g w o).mem.wf = true ∧ (f g w o).mgmt = m) : Out.keeps m (s.onHolder wg wid op f) := by
  refine State.onWg_keeps _ _ _ _ h hm (fun g => ?_)
  (repeat' split) <;> simp_all

@[simp] theorem execEngineRetire_keeps (wg wid op : Nat) (s : State) (m : Mgmt) (h : s.mem.wf = true) (hm : s.mgmt = m) :
    Out.keeps m (execEngineRetire wg wid op s) := by
  refine State.onHolder_keeps _ _ _ _ _ _ h hm (fun g w o => ?_)
  (repeat' split) <;> simp_all


@[simp] theorem execLineLand_keeps (wg wid op line : Nat) (s : State) (m : Mgmt) (h : s.mem.wf = true) (hm : s.mgmt = m) :
    Out.keeps m (execLineLand wg wid op line s) := by
  refine State.onHolder_keeps _ _ _ _ _ _ h hm (fun g w o => ?_)
  (repeat' split) <;> simp_all


@[simp] theorem execVersionedReadAttempt_keeps (wg wid op : Nat) (s : State) (m : Mgmt) (h : s.mem.wf = true) (hm : s.mgmt = m) :
    Out.keeps m (execVersionedReadAttempt wg wid op s) := by
  refine State.onHolder_keeps _ _ _ _ _ _ h hm (fun g w o => ?_)
  (repeat' split) <;> simp_all


@[simp] theorem State.perform_keeps (s : State) (g : Workgroup) (sp : Space) (bs : List (Nat × Byte)) (h : s.mem.wf = true) :
    (State.perform s g sp bs).mem.wf = true ∧ (State.perform s g sp bs).mgmt = s.mgmt := by
  unfold State.perform
  (try dsimp only)
  (repeat' split) <;> simp_all

@[simp] theorem State.drainStore_keeps (s : State) (g : Workgroup) (w : Warp) (h : s.mem.wf = true) :
    (State.drainStore s g w).mem.wf = true ∧ (State.drainStore s g w).mgmt = s.mgmt := by
  unfold State.drainStore
  (try dsimp only)
  (repeat' split) <;> simp_all


@[simp] theorem execStoreDrain_keeps (wg wid : Nat) (s : State) (m : Mgmt) (h : s.mem.wf = true) (hm : s.mgmt = m) :
    Out.keeps m (execStoreDrain wg wid s) := by
  refine State.onWarpOf_keeps _ _ _ _ _ h hm (fun g w => ?_); (try dsimp only); (repeat' split) <;> simp_all


@[simp] theorem execBinTimerExpiry_keeps (wg bin : Nat) (s : State) (m : Mgmt) (h : s.mem.wf = true) (hm : s.mgmt = m) :
    Out.keeps m (execBinTimerExpiry wg bin s) := by
  refine State.onWg_keeps _ _ _ _ h hm (fun g => ?_); (try dsimp only); (repeat' split) <;> simp_all


@[simp] theorem execWarpFormation_keeps (wg bin : Nat) (s : State) (m : Mgmt) (h : s.mem.wf = true) (hm : s.mgmt = m) :
    Out.keeps m (execWarpFormation wg bin s) := by
  refine State.onWg_keeps _ _ _ _ h hm (fun g => ?_); (try dsimp only); (repeat' split) <;> simp_all


@[simp] theorem execOverflowKeyEntry_keeps (wg : Nat) (s : State) (m : Mgmt) (h : s.mem.wf = true) (hm : s.mgmt = m) :
    Out.keeps m (execOverflowKeyEntry wg s) := by
  refine State.onWg_keeps _ _ _ _ h hm (fun g => ?_); (try dsimp only); (repeat' split) <;> simp_all


@[simp] theorem execPoolGrant_keeps (wg : Nat) (s : State) (m : Mgmt) (h : s.mem.wf = true) (hm : s.mgmt = m) :
    Out.keeps m (execPoolGrant wg s) := by
  refine State.onWg_keeps _ _ _ _ h hm (fun g => ?_); (try dsimp only); (repeat' split) <;> simp_all


@[simp] theorem execClaimDeadlock_keeps (wg : Nat) (s : State) (m : Mgmt) (h : s.mem.wf = true) (hm : s.mgmt = m) :
    Out.keeps m (execClaimDeadlock wg s) := by
  refine State.onWg_keeps _ _ _ _ h hm (fun g => ?_); (try dsimp only); (repeat' split) <;> simp_all


@[simp] theorem State.endWg_keeps (s : State) (g : Workgroup) :
    (State.endWg s g).mem = s.mem ∧ (State.endWg s g).mgmt = s.mgmt := by
  unfold State.endWg
  (try dsimp only)
  (repeat' split) <;> simp_all

@[simp] theorem execWorkgroupEnd_keeps (wg : Nat) (s : State) (m : Mgmt) (h : s.mem.wf = true) (hm : s.mgmt = m) :
    Out.keeps m (execWorkgroupEnd wg s) := by
  refine State.onWg_keeps _ _ _ _ h hm (fun g => ?_); (try dsimp only); (repeat' split) <;> simp_all


theorem State.fetchParcels_keeps (g : Workgroup) (n a : Nat) (ps : List Half) (s : State) : Fetched.keeps s (State.fetchParcels g n a ps s) := by
  induction n generalizing a ps s with
  | zero => exact ⟨rfl, rfl⟩
  | succ n ih =>
    unfold State.fetchParcels
    have k := State.xlat_keeps s g .fetch (BitVec.ofNat 48 a)
    generalize s.xlat g .fetch (BitVec.ofNat 48 a) = x at *
    split
    · exact ⟨rfl, rfl⟩
    · dsimp only
      split
      · exact k
      · exact k
      · split
        · exact k
        · exact (ih _ _ _).trans k

theorem State.fetch_keeps (s : State) (g : Workgroup) (w : Warp) : Fetched.keeps s (s.fetch g w) := by
  have k := State.fetchParcels_keeps g 1 w.pc.toNat [] s
  unfold State.fetch
  split
  · rename_i e
    rw [e] at k
    exact (State.fetchParcels_keeps _ _ _ _ _).trans k
  · exact k

@[simp] theorem execBreakpointMatch_keeps (s : State) (m : Mgmt) (h : s.mem.wf = true) (hm : s.mgmt = m) :
    Out.keeps m (execBreakpointMatch s) := by
  refine State.onWarp_keeps _ _ _ (fun g w => ?_); (try dsimp only); (repeat' split) <;> simp_all


@[simp] theorem execFetchFault_keeps (s : State) (m : Mgmt) (h : s.mem.wf = true) (hm : s.mgmt = m) :
    Out.keeps m (execFetchFault s) := by
  refine State.onWarp_keeps _ _ _ (fun g w => ?_)
  have k := State.fetch_keeps s g w
  (repeat' split) <;> simp_all [Fetched.keeps]


@[simp] theorem execReservedEncoding_keeps (s : State) (m : Mgmt) (h : s.mem.wf = true) (hm : s.mgmt = m) :
    Out.keeps m (execReservedEncoding s) := by
  refine State.onWarp_keeps _ _ _ (fun g w => ?_)
  have k := State.fetch_keeps s g w
  (repeat' split) <;> simp_all [Fetched.keeps]


theorem State.frontStep_keeps (run : Instr → State → Out) (s : State) (g : Workgroup) (w : Warp) (m : Mgmt) (h : s.mem.wf = true) (hm : s.mgmt = m)
    (hr : ∀ i t, t.mem.wf = true → t.mgmt = m → Out.keeps m (run i t)) : Out.keeps m (s.frontStep run g w) := by
  unfold State.frontStep
  have k := State.fetch_keeps { s with cur := some { wg := g.uid, wid := w.wid } } g w
  dsimp only
  split
  · exact hr _ _ h hm
  · split
    · simp [h, hm]
    · split
      · exact hr _ _ h hm
      · simp_all [Fetched.keeps]
      · split
        · exact hr _ _ (by simp_all [Fetched.keeps]) (by simp_all [Fetched.keeps])
        · split
          · exact hr _ _ (by simp_all [Fetched.keeps]) (by simp_all [Fetched.keeps])
          · split
            · simp_all [Fetched.keeps]
            · exact hr _ _ (by simp_all [Fetched.keeps]) (by simp_all [Fetched.keeps])

@[simp] theorem execSrd_keeps (d : BitVec 6) (idx : BitVec 8) (s : State) (m : Mgmt) (h : s.mem.wf = true) (hm : s.mgmt = m) :
    Out.keeps m (execSrd d idx s) := by
  refine State.frontEnd_keeps _ _ _ h hm (fun g w => ?_)
  dsimp only
  (repeat' split)
  · simp_all
  · simp_all
  · exact State.splitFirst_keeps _ _ _ _ _ _ h hm (fun t g w ht hg => by simp [ht, hg])


@[simp] theorem execSwr_keeps (x : BitVec 6) (idx : BitVec 8) (s : State) (m : Mgmt) (h : s.mem.wf = true) (hm : s.mgmt = m) :
    Out.keeps m (execSwr x idx s) := by
  refine State.frontEnd_keeps _ _ _ h hm (fun g w => ?_); (try dsimp only); (repeat' split) <;> simp_all


@[simp] theorem execRte_keeps (s : State) (m : Mgmt) (h : s.mem.wf = true) (hm : s.mgmt = m) :
    Out.keeps m (execRte s) := by
  refine State.frontEnd_keeps _ _ _ h hm (fun g w => ?_); (try dsimp only); (repeat' split) <;> simp_all


@[simp] theorem State.haltWarp_keeps (s : State) (t : Nat × Nat) :
    (State.haltWarp s t).mem = s.mem ∧ (State.haltWarp s t).mgmt = s.mgmt := by
  unfold State.haltWarp
  (try dsimp only)
  (repeat' split) <;> simp_all

@[simp] theorem execHaltb_keeps (form : HaltForm) (st : BitVec 6) (s : State) (m : Mgmt) (h : s.mem.wf = true) (hm : s.mgmt = m) :
    Out.keeps m (execHaltb form st s) := by
  have kf : ∀ ts : List (Nat × Nat), (ts.foldl State.haltWarp s).mem = s.mem ∧ (ts.foldl State.haltWarp s).mgmt = s.mgmt :=
    fun ts => foldl_same _ (fun t a => by simp) ts s
  refine State.frontEnd_keeps _ _ _ h hm (fun g w => ?_)
  (try dsimp only)
  (repeat' split) <;> (try dsimp only) <;> (repeat' split) <;> simp_all


@[simp] theorem State.resumeWarp_keeps (s : State) (t : Nat × Nat) :
    (State.resumeWarp s t).mem = s.mem ∧ (State.resumeWarp s t).mgmt = s.mgmt := by
  unfold State.resumeWarp
  (try dsimp only)
  (repeat' split) <;> simp_all

@[simp] theorem execResumeb_keeps (form : HaltForm) (st : BitVec 6) (s : State) (m : Mgmt) (h : s.mem.wf = true) (hm : s.mgmt = m) :
    Out.keeps m (execResumeb form st s) := by
  have kf : ∀ ts : List (Nat × Nat), (ts.foldl State.resumeWarp s).mem = s.mem ∧ (ts.foldl State.resumeWarp s).mgmt = s.mgmt :=
    fun ts => foldl_same _ (fun t a => by simp) ts s
  refine State.frontEnd_keeps _ _ _ h hm (fun g w => ?_)
  (try dsimp only)
  (repeat' split) <;> (try dsimp only) <;> (repeat' split) <;> simp_all


end Sys2Proof.Machine
end

