-- ==== Sys2Proof/Laws/KeepsSteps.lean ====
section
/-!
SUPPORT. What the census, the distributor, swaps, trap delivery and the windows keep.
-/
namespace Sys2Proof.Machine

/-- A next state of an outcome has memory in canonical form. -/
def Out.wf : Out → Prop
  | .next t => t.mem.wf = true
  | .fault _ => True
  | .refused _ => True

@[simp] theorem Out.wf_next (t : State) : Out.wf (.next t) ↔ t.mem.wf = true := Iff.rfl
@[simp] theorem Out.wf_fault (f : Fault) : Out.wf (.fault f) ↔ True := Iff.rfl
@[simp] theorem Out.wf_refused (r : Refusal) : Out.wf (.refused r) ↔ True := Iff.rfl
theorem Out.keeps.wf {m : Mgmt} {o : Out} (h : o.keeps m) : o.wf := by cases o <;> first | exact h.1 | trivial

/-- A fold leaves memory where each of its steps does. -/
theorem foldl_mem {α : Type} (f : State → α → State) (hf : ∀ s a, (f s a).mem = s.mem) (l : List α) (s : State) :
    (l.foldl f s).mem = s.mem := by
  induction l generalizing s with
  | nil => rfl
  | cons a l ih => exact (ih _).trans (hf s a)

theorem State.depositResponder_keeps (s : State) (id : Nat) (entry : BitVec 48) (d : DirEntry) (r : State × Nat × Nat)
    (e : s.depositResponder id entry d = some r) (h : s.mem.wf = true) : r.1.mem.wf = true ∧ r.1.mgmt = s.mgmt := by
  unfold State.depositResponder at e
  dsimp only at e
  (repeat' split at e) <;> simp at e
  all_goals (subst e; simp [h])

@[simp] theorem State.answer_keeps (s : State) (c : Census) (d : DirEntry) (r : LocReport) (h : s.mem.wf = true) :
    (State.answer s c d r).1.mem.wf = true ∧ (State.answer s c d r).1.mgmt = s.mgmt := by
  unfold State.answer
  split
  · simp [h]
  · split
    · exact State.depositResponder_keeps _ _ _ _ _ ‹_› h
    · simp [h]


@[simp] theorem State.meetEntry_keeps (x : State × Census × LocReport) (d : DirEntry) (h : x.1.mem.wf = true) :
    (State.meetEntry x d).1.mem.wf = true ∧ (State.meetEntry x d).1.mgmt = x.1.mgmt := by
  unfold State.meetEntry
  dsimp only
  (repeat' split) <;> simp [h]

theorem foldl_meetEntry_keeps (l : List DirEntry) (x : State × Census × LocReport) (h : x.1.mem.wf = true) :
    (l.foldl State.meetEntry x).1.mem.wf = true ∧ (l.foldl State.meetEntry x).1.mgmt = x.1.mgmt := by
  induction l generalizing x with
  | nil => exact ⟨h, rfl⟩
  | cons a l ih => exact ⟨(ih _ (State.meetEntry_keeps x a h).1).1, (ih _ (State.meetEntry_keeps x a h).1).2.trans (State.meetEntry_keeps x a h).2⟩

@[simp] theorem State.setCensus_keeps (s : State) (c : Census) :
    (State.setCensus s c).mem = s.mem ∧ (State.setCensus s c).mgmt = s.mgmt := by
  unfold State.setCensus
  (try dsimp only)
  (repeat' split) <;> simp_all

theorem State.onCensus_keeps (s : State) (id : Nat) (f : Census → State) (m : Mgmt) (h : s.mem.wf = true) (hm : s.mgmt = m)
    (hf : ∀ c, (f c).mem.wf = true ∧ (f c).mgmt = m) : Out.keeps m (s.onCensus id f) := by
  unfold State.onCensus
  split
  · exact ⟨h, hm⟩
  · exact hf _

@[simp] theorem execCensusIssue_keeps (s : State) (m : Mgmt) (h : s.mem.wf = true) (hm : s.mgmt = m) :
    Out.keeps m (execCensusIssue s) := by
  unfold execCensusIssue; (try dsimp only); (repeat' split) <;> simp_all


@[simp] theorem execCensusDelivery_keeps (id loc : Nat) (s : State) (m : Mgmt) (h : s.mem.wf = true) (hm : s.mgmt = m) :
    Out.keeps m (execCensusDelivery id loc s) := by
  refine State.onCensus_keeps _ _ _ _ h hm (fun c => ?_)
  have k := foldl_meetEntry_keeps
  (try dsimp only)
  (repeat' split) <;> simp_all


@[simp] theorem execOweArrival_keeps (id loc : Nat) (s : State) (m : Mgmt) (h : s.mem.wf = true) (hm : s.mgmt = m) :
    Out.keeps m (execOweArrival id loc s) := by
  refine State.onCensus_keeps _ _ _ _ h hm (fun c => ?_)
  have k := foldl_meetEntry_keeps
  (try dsimp only)
  (repeat' split) <;> simp_all


@[simp] theorem execResponderDeposit_keeps (id loc : Nat) (s : State) (m : Mgmt) (h : s.mem.wf = true) (hm : s.mgmt = m) :
    Out.keeps m (execResponderDeposit id loc s) := by
  refine State.onCensus_keeps _ _ _ _ h hm (fun c => ?_)
  (try dsimp only)
  (repeat' split) <;> first
    | (simp [h, hm]; done)
    | (have k := State.depositResponder_keeps _ _ _ _ _ ‹State.depositResponder _ _ _ _ = some _› h; simp_all)


@[simp] theorem execCensusReport_keeps (id loc : Nat) (s : State) (m : Mgmt) (h : s.mem.wf = true) (hm : s.mgmt = m) :
    Out.keeps m (execCensusReport id loc s) := by
  refine State.onCensus_keeps _ _ _ _ h hm (fun c => ?_)
  have k := foldl_meetEntry_keeps
  (try dsimp only)
  (repeat' split) <;> simp_all


@[simp] theorem State.dropCensus_keeps (s : State) (id : Nat) :
    (State.dropCensus s id).mem = s.mem ∧ (State.dropCensus s id).mgmt = s.mgmt := by
  unfold State.dropCensus
  (try dsimp only)
  (repeat' split) <;> simp_all

@[simp] theorem execCensusComplete_keeps (id : Nat) (s : State) (m : Mgmt) (h : s.mem.wf = true) (hm : s.mgmt = m) :
    Out.keeps m (execCensusComplete id s) := by
  refine State.onCensus_keeps _ _ _ _ h hm (fun c => ?_); (try dsimp only); (repeat' split) <;> simp_all


@[simp] theorem State.installCopy_keeps (s : State) (e : DirEntry) (loc : Nat) (base : BitVec 48) (owner : Nat) (tags : List Nat) :
    (State.installCopy s e loc base owner tags).mem = s.mem ∧ (State.installCopy s e loc base owner tags).mgmt = s.mgmt := by
  unfold State.installCopy
  (try dsimp only)
  (repeat' split) <;> simp_all

@[simp] theorem State.abortMove_keeps (s : State) (e : DirEntry) (h : s.mem.wf = true) :
    (State.abortMove s e).mem.wf = true ∧ (State.abortMove s e).mgmt = s.mgmt := by
  unfold State.abortMove
  have k := foldl_keeps (fun (s : State) (c : Census) =>
    let a := s.answer c { e with st := .valid, dest := 0, keep := [] } (emptyReport c.op e.loc (-1))
    a.1.setCensus { c with owes := c.owes.filter (fun o => o.entry != e.uid), reports := c.reports ++ [a.2] }) (fun t c ht => by simp [ht])
  simpa using k _ (s.setEntry { e with st := .valid, dest := 0, keep := [] }) (by simp [h])


@[simp] theorem State.failMove_keeps (s : State) (g : Workgroup) (o : EngOp) (e : DirEntry) (f : EngOp → EngOp) (h : s.mem.wf = true) :
    (State.failMove s g o e f).mem.wf = true ∧ (State.failMove s g o e f).mgmt = s.mgmt := by
  unfold State.failMove
  (try dsimp only)
  (repeat' split) <;> simp_all

@[simp] theorem execTmoveInstall_keeps (wg wid op : Nat) (s : State) (m : Mgmt) (h : s.mem.wf = true) (hm : s.mgmt = m) :
    Out.keeps m (execTmoveInstall wg wid op s) := by
  refine State.onHolder_keeps _ _ _ _ _ _ h hm (fun g w o => ?_)
  (try dsimp only)
  (repeat' split) <;> simp_all


@[simp] theorem State.moveEntries_keeps (s : State) (g : Workgroup) (loc : Nat) :
    (State.moveEntries s g loc).mem = s.mem ∧ (State.moveEntries s g loc).mgmt = s.mgmt := by
  exact foldl_same _ (fun t d => by simp) _ s


@[simp] theorem execGridStart_keeps (s : State) (m : Mgmt) (h : s.mem.wf = true) (hm : s.mgmt = m) :
    Out.keeps m (execGridStart s) := by
  unfold execGridStart; (try dsimp only); (repeat' split) <;> simp_all


@[simp] theorem State.assignCore_keeps (s : State) (core asid ctxid : Nat) (now : Bool) :
    (State.assignCore s core asid ctxid now).1.mem = s.mem ∧ (State.assignCore s core asid ctxid now).1.mgmt = s.mgmt := by
  unfold State.assignCore
  (try dsimp only)
  (repeat' split) <;> simp_all

@[simp] theorem State.placeMembers_keeps (x : Grid) (e : AsidEntry) (gang die size : Nat) (now : Bool) (l : List Nat) (rank : Nat) (s : State) :
    (State.placeMembers x e gang die size now l rank s).mem = s.mem ∧ (State.placeMembers x e gang die size now l rank s).mgmt = s.mgmt := by
  induction l generalizing rank s with
  | nil => exact ⟨rfl, rfl⟩
  | cons a l ih => simp [State.placeMembers, ih]

theorem State.writeImage_keeps (s : State) (g : Workgroup) (h : s.mem.wf = true) :
    (s.writeImage g).mem.wf = true ∧ (s.writeImage g).mgmt = s.mgmt := by
  unfold State.writeImage
  split
  · exact ⟨Memory.wf_overwrite _ _ h, rfl⟩
  · exact ⟨h, rfl⟩

theorem State.shelve_keeps (s t : State) (uids : List Nat) (h : s.mem.wf = true) (e : s.shelve uids = some t) :
    t.mem.wf = true ∧ t.mgmt = s.mgmt := by
  unfold State.shelve at e
  simp only [Option.map_eq_some_iff] at e
  obtain ⟨a, ha, rfl⟩ := e
  have k := State.placeImages_keeps _ s a ha
  have kf := foldl_keeps State.writeImage State.writeImage_keeps (a.wgs.filter (fun g => uids.contains g.uid)) a (k.1 ▸ h)
  exact ⟨kf.1, kf.2.trans k.2⟩

theorem State.placeGang_keeps (s t : State) (x : Grid) (p : Partition) (cores : List Nat) (h : s.mem.wf = true)
    (e : s.placeGang x p cores = some t) : t.mem.wf = true ∧ t.mgmt = s.mgmt := by
  unfold State.placeGang at e
  dsimp only at e
  split at e
  · simp only [Option.some.injEq] at e
    subst e
    simp [h]
  · have k := State.shelve_keeps _ _ _ (by simp [h]) e
    simpa using k

@[simp] theorem execGangPlacement_keeps (grid : Nat) (s : State) (m : Mgmt) (h : s.mem.wf = true) (hm : s.mgmt = m) :
    Out.keeps m (execGangPlacement grid s) := by
  unfold execGangPlacement
  split
  · simp [h, hm]
  · split
    · simp [h, hm]
    · split
      · simp [h, hm]
      · cases e : s.placeGang _ _ _ with
        | none => simp [h, hm]
        | some t =>
          have k := State.placeGang_keeps _ _ _ _ _ h e
          simp [k, hm]


@[simp] theorem execGangReserve_keeps (grid : Nat) (s : State) (m : Mgmt) (h : s.mem.wf = true) (hm : s.mgmt = m) :
    Out.keeps m (execGangReserve grid s) := by
  unfold execGangReserve; (try dsimp only); (repeat' split) <;> simp_all


@[simp] theorem State.writeCpl_keeps (s : State) (x : Grid) (h : s.mem.wf = true) :
    (State.writeCpl s x).mem.wf = true ∧ (State.writeCpl s x).mgmt = s.mgmt := by
  unfold State.writeCpl
  (try dsimp only)
  (repeat' split) <;> simp_all

@[simp] theorem execGridComplete_keeps (grid : Nat) (s : State) (m : Mgmt) (h : s.mem.wf = true) (hm : s.mgmt = m) :
    Out.keeps m (execGridComplete grid s) := by
  unfold execGridComplete; (try dsimp only); (repeat' split) <;> simp_all


@[simp] theorem State.saveCounters_keeps (s : State) (g : Workgroup) :
    (s.saveCounters g).2.mem = s.mem ∧ (s.saveCounters g).2.mgmt = s.mgmt := by
  unfold State.saveCounters
  split <;> exact ⟨rfl, rfl⟩

@[simp] theorem State.loadCounters_keeps (s : State) (g : Workgroup) :
    (s.loadCounters g).mem = s.mem ∧ (s.loadCounters g).mgmt = s.mgmt := ⟨rfl, rfl⟩

theorem State.saveWg_keeps (s : State) (uid : Nat) (h : s.mem.wf = true) :
    (State.saveWg s uid).mem.wf = true ∧ (State.saveWg s uid).mgmt = s.mgmt := by
  unfold State.saveWg
  split
  · exact ⟨h, rfl⟩
  · rename_i g _
    have k := State.writeImage_keeps s g h
    dsimp only
    split <;> simp [k]

@[simp] theorem execContextSave_keeps (gang : Nat) (s : State) (m : Mgmt) (h : s.mem.wf = true) (hm : s.mgmt = m) :
    Out.keeps m (execContextSave gang s) := by
  have k := fun (l : List Nat) => foldl_keeps State.saveWg State.saveWg_keeps l (s.stopGang gang) (by simp [h])
  unfold execContextSave
  dsimp only
  (repeat' split) <;> simp_all


@[simp] theorem State.failRestored_keeps (s : State) (uid wid : Nat) :
    (State.failRestored s uid wid).mem = s.mem ∧ (State.failRestored s uid wid).mgmt = s.mgmt := by
  unfold State.failRestored
  (try dsimp only)
  (repeat' split) <;> simp_all

@[simp] theorem State.restoreWg_keeps (p : Partition) (s : State) (x : Nat × Nat × Nat) :
    (State.restoreWg p s x).mem = s.mem ∧ (State.restoreWg p s x).mgmt = s.mgmt := by
  unfold State.restoreWg
  split
  · simp
  · rename_i g _
    have k := fun (l : List Nat) (t : State) => foldl_same (fun s wid => s.failRestored g.uid wid) (fun t u => by simp) l t
    simp [k]


@[simp] theorem State.loseImage_mem (s : State) (g : Workgroup) : (s.loseImage g).mem = s.mem := by
  unfold State.loseImage
  dsimp only
  split <;> simp

theorem execContextRestore_wf (gang : Nat) (s : State) (h : s.mem.wf = true) : Out.wf (execContextRestore gang s) := by
  have k := fun p l => foldl_same (State.restoreWg p) (fun t u => by simp) l s
  have kl := fun l => foldl_mem State.loseImage (fun t u => by simp) l s
  unfold execContextRestore
  (repeat' split) <;> simp_all

@[simp] theorem State.setSlice_keeps (s : State) (die group p : Nat) :
    (State.setSlice s die group p).mem = s.mem ∧ (State.setSlice s die group p).mgmt = s.mgmt := ⟨rfl, rfl⟩

@[simp] theorem State.passCores_keeps (s : State) (p q : Partition) : (s.passCores p q).mem = s.mem ∧ (s.passCores p q).mgmt = s.mgmt := by
  unfold State.passCores
  dsimp only
  split <;> exact ⟨rfl, rfl⟩

@[simp] theorem State.noteSlice_keeps (s : State) (die group now : Nat) (uids : List Nat) :
    (s.noteSlice die group now uids).mem = s.mem ∧ (s.noteSlice die group now uids).mgmt = s.mgmt := by
  unfold State.noteSlice
  split
  · exact ⟨rfl, rfl⟩
  · simp [State.putSlice]

@[simp] theorem execSliceEnd_keeps (die : BitVec 2) (group : BitVec 6) (s : State) (m : Mgmt) (h : s.mem.wf = true) (hm : s.mgmt = m) :
    Out.keeps m (execSliceEnd die group s) := by
  have k := fun l t => foldl_same (fun (s : State) (x : Nat) => s.stopGang x) (fun t u => by simp) l t
  have ki := fun l t => State.placeImages_keeps l s t
  unfold execSliceEnd
  dsimp only
  split
  · simp [h, hm]
  · split
    · simp [h, hm]
    · split
      · split <;> simp [h, hm]
      · split
        · rename_i e
          have := ki _ _ e
          simp_all
        · simp [h, hm]


@[simp] theorem execHandlerEntry_keeps (wg wid : Nat) (s : State) (m : Mgmt) (h : s.mem.wf = true) (hm : s.mgmt = m) :
    Out.keeps m (execHandlerEntry wg wid s) := by
  refine State.onWarpOf_keeps _ _ _ _ _ h hm (fun g w => ?_); (try dsimp only); (repeat' split) <;> simp_all


@[simp] theorem execWorkgroupStop_keeps (wg wid : Nat) (s : State) (m : Mgmt) (h : s.mem.wf = true) (hm : s.mgmt = m) :
    Out.keeps m (execWorkgroupStop wg wid s) := by
  refine State.onWarpOf_keeps _ _ _ _ _ h hm (fun g w => ?_); (try dsimp only); (repeat' split) <;> simp_all


@[simp] theorem execStepComplete_keeps (wg wid : Nat) (s : State) (m : Mgmt) (h : s.mem.wf = true) (hm : s.mgmt = m) :
    Out.keeps m (execStepComplete wg wid s) := by
  refine State.onWarpOf_keeps _ _ _ _ _ h hm (fun g w => ?_); (try dsimp only); (repeat' split) <;> simp_all


@[simp] theorem State.settleHalts_keeps (uid : Nat) (l : List Nat) (s : State) :
    (s.settleHalts uid l).mem = s.mem ∧ (s.settleHalts uid l).mgmt = s.mgmt := by
  induction l generalizing s with
  | nil => exact ⟨rfl, rfl⟩
  | cons a l ih =>
    simp only [State.settleHalts, ih]
    (repeat' split) <;> simp

@[simp] theorem State.reportHalts_keeps (s : State) (g : Workgroup) :
    (State.reportHalts s g).mem = s.mem ∧ (State.reportHalts s g).mgmt = s.mgmt := by
  unfold State.reportHalts
  have k := foldl_same (fun (s : State) (i : Nat × List Nat) => s.send { s.record g 6 with wid := i.1 }) (fun t u => by simp)
  simp [k]


@[simp] theorem execHaltComplete_keeps (wg : Nat) (s : State) (m : Mgmt) (h : s.mem.wf = true) (hm : s.mgmt = m) :
    Out.keeps m (execHaltComplete wg s) := by
  refine State.onWg_keeps _ _ _ _ h hm (fun g => ?_); (try dsimp only); (repeat' split) <;> simp_all


@[simp] theorem execDataFaultTimeout_keeps (wg : Nat) (s : State) (m : Mgmt) (h : s.mem.wf = true) (hm : s.mgmt = m) :
    Out.keeps m (execDataFaultTimeout wg s) := by
  refine State.onWg_keeps _ _ _ _ h hm (fun g => ?_); (try dsimp only); (repeat' split) <;> simp_all


theorem State.onNamed_keeps (s : State) (v : DWord) (f : Workgroup → FaultCmd → State) (m : Mgmt) (h : s.mem.wf = true) (hm : s.mgmt = m)
    (hf : ∀ g c, (f g c).mem.wf = true ∧ (f g c).mgmt = m) : Out.keeps m (s.onNamed v f) := by
  unfold State.onNamed
  dsimp only
  split
  · exact ⟨h, hm⟩
  · exact hf _ _

@[simp] theorem execFrespRetry_keeps (v : BitVec 64) (s : State) (m : Mgmt) (h : s.mem.wf = true) (hm : s.mgmt = m) :
    Out.keeps m (execFrespRetry v s) := by
  refine State.onNamed_keeps _ _ _ _ h hm (fun g c => ?_); (try dsimp only); (repeat' split) <;> simp_all


@[simp] theorem State.failHere_keeps (s : State) (uid wid : Nat) :
    (State.failHere s uid wid).mem = s.mem ∧ (State.failHere s uid wid).mgmt = s.mgmt := by
  unfold State.failHere
  (try dsimp only)
  (repeat' split) <;> simp_all

@[simp] theorem State.abortMoves_keeps (s : State) (g : Workgroup) (h : s.mem.wf = true) : (s.abortMoves g).mem.wf = true ∧ (s.abortMoves g).mgmt = s.mgmt := by
  refine foldl_keeps _ (fun t o ht => ?_) _ s h
  (repeat' split) <;> simp [ht]

@[simp] theorem execFrespFail_keeps (v : BitVec 64) (s : State) (m : Mgmt) (h : s.mem.wf = true) (hm : s.mgmt = m) :
    Out.keeps m (execFrespFail v s) := by
  have kf := fun (u : Nat) => foldl_same (fun (s : State) (wid : Nat) => s.failHere u wid) (fun t u => by simp)
  refine State.onNamed_keeps _ _ _ _ h hm (fun g c => ?_)
  dsimp only
  split <;> simp [kf, h, hm]


@[simp] theorem execFrespResume_keeps (v : BitVec 64) (s : State) (m : Mgmt) (h : s.mem.wf = true) (hm : s.mgmt = m) :
    Out.keeps m (execFrespResume v s) := by
  refine State.onNamed_keeps _ _ _ _ h hm (fun g c => ?_); (try dsimp only); (repeat' split) <;> simp_all


@[simp] theorem State.drainAll_keeps (uid : Nat) (l : List (Warp × StoreEntry)) (s : State) (h : s.mem.wf = true) :
    (s.drainAll uid l).mem.wf = true ∧ (s.drainAll uid l).mgmt = s.mgmt := by
  induction l generalizing s with
  | nil => exact ⟨h, rfl⟩
  | cons a l ih =>
    have k : ∀ t : State, t.mem.wf = true → t.mgmt = s.mgmt → (t.drainAll uid l).mem.wf = true ∧ (t.drainAll uid l).mgmt = s.mgmt :=
      fun t ht hg => ⟨(ih t ht).1, (ih t ht).2.trans hg⟩
    unfold State.drainAll
    dsimp only
    apply k
    all_goals
      (repeat' split) <;> simp [h]

@[simp] theorem State.endResponders_keeps (s : State) (g : Workgroup) :
    (State.endResponders s g).mem = s.mem ∧ (State.endResponders s g).mgmt = s.mgmt := by
  exact foldl_same _ (fun t p => by split <;> simp) _ s


theorem State.killWg_keeps (s : State) (g : Workgroup) (h : s.mem.wf = true) :
    (s.killWg g).mem.wf = true ∧ (s.killWg g).mgmt = s.mgmt := by
  have k := State.drainAll_keeps g.uid (g.warps.flatMap (fun w => w.storeQ.map (fun e => (w, e)))) s h
  have k2 := State.endResponders_keeps (s.drainAll g.uid (g.warps.flatMap (fun w => w.storeQ.map (fun e => (w, e))))) g
  unfold State.killWg
  dsimp only
  split
  · simpa [k2] using k
  · simpa [k2] using k

@[simp] theorem execFrespEnd_keeps (v : BitVec 64) (s : State) (m : Mgmt) (h : s.mem.wf = true) (hm : s.mgmt = m) :
    Out.keeps m (execFrespEnd v s) := by
  have k := State.killWg_keeps s
  refine State.onNamed_keeps _ _ _ _ h hm (fun g c => ?_)
  have := k g h
  split <;> simp_all


@[simp] theorem execDbgHalt_keeps (v : BitVec 64) (s : State) (m : Mgmt) (h : s.mem.wf = true) (hm : s.mgmt = m) :
    Out.keeps m (execDbgHalt v s) := by
  have kf := fun (u : Nat) => foldl_same (fun (s : State) (wid : Nat) => s.haltWarp (u, wid)) (fun t u => by simp)
  refine State.onNamed_keeps _ _ _ _ h hm (fun g c => ?_)
  (try dsimp only)
  (repeat' split) <;> simp_all


@[simp] theorem execDbgResume_keeps (v : BitVec 64) (s : State) (m : Mgmt) (h : s.mem.wf = true) (hm : s.mgmt = m) :
    Out.keeps m (execDbgResume v s) := by
  have kf := fun (u : Nat) => foldl_same (fun (s : State) (wid : Nat) => s.resumeWarp (u, wid)) (fun t u => by simp)
  refine State.onNamed_keeps _ _ _ _ h hm (fun g c => ?_)
  simp [kf, h, hm]


@[simp] theorem execDbgStep_keeps (v : BitVec 64) (s : State) (m : Mgmt) (h : s.mem.wf = true) (hm : s.mgmt = m) :
    Out.keeps m (execDbgStep v s) := by
  refine State.onNamed_keeps _ _ _ _ h hm (fun g c => ?_); (try dsimp only); (repeat' split) <;> simp_all


@[simp] theorem execFaultRecordSend_keeps (s : State) (m : Mgmt) (h : s.mem.wf = true) (hm : s.mgmt = m) :
    Out.keeps m (execFaultRecordSend s) := by
  unfold execFaultRecordSend; (try dsimp only); (repeat' split) <;> simp_all


@[simp] theorem execDbLoadDescriptor_keeps (q : BitVec 16) (s : State) (m : Mgmt) (h : s.mem.wf = true) (hm : s.mgmt = m) :
    Out.keeps m (execDbLoadDescriptor q s) := by
  unfold execDbLoadDescriptor; (try dsimp only); (repeat' split) <;> simp_all


@[simp] theorem execDbRing_keeps (q : BitVec 16) (s : State) (m : Mgmt) (h : s.mem.wf = true) (hm : s.mgmt = m) :
    Out.keeps m (execDbRing q s) := by
  unfold execDbRing; (try dsimp only); (repeat' split) <;> simp_all


@[simp] theorem State.setPartition_keeps (s : State) (p : Partition) :
    (State.setPartition s p).mem = s.mem ∧ (State.setPartition s p).mgmt = s.mgmt := by
  unfold State.setPartition
  (try dsimp only)
  (repeat' split) <;> simp_all

@[simp] theorem execPmaskWrite_keeps (p : BitVec 8) (v : BitVec 64) (s : State) (m : Mgmt) (h : s.mem.wf = true) (hm : s.mgmt = m) :
    Out.keeps m (execPmaskWrite p v s) := by
  unfold execPmaskWrite; (try dsimp only); (repeat' split) <;> simp_all


@[simp] theorem State.resliced_keeps (s : State) (x : Partition) (on : Bool) : (s.resliced x on).mem = s.mem ∧ (s.resliced x on).mgmt = s.mgmt := by
  unfold State.resliced
  (try dsimp only)
  (repeat' split) <;> simp_all

@[simp] theorem State.fixStrict_mem (s : State) : s.fixStrict.mem = s.mem := rfl

@[simp] theorem State.coresTo_keeps (s : State) (die group : Nat) : (s.coresTo die group).mem = s.mem ∧ (s.coresTo die group).mgmt = s.mgmt := by
  unfold State.coresTo
  split <;> exact ⟨rfl, rfl⟩

@[simp] theorem execPcfgWrite_wf (p : BitVec 8) (v : BitVec 64) (s : State) (h : s.mem.wf = true) : Out.wf (execPcfgWrite p v s) := by
  unfold execPcfgWrite
  dsimp only
  (repeat' split) <;> simp_all


@[simp] theorem execFqcfgWrite_keeps (v : BitVec 64) (s : State) (m : Mgmt) (h : s.mem.wf = true) (hm : s.mgmt = m) :
    Out.keeps m (execFqcfgWrite v s) := by
  unfold execFqcfgWrite; (try dsimp only); (repeat' split) <;> simp_all


theorem execRegisterWrite_wf (win : Window) (off : Nat) (v : BitVec 64) (s : State) (h : s.mem.wf = true) : Out.wf (execRegisterWrite win off v s) := by
  unfold execRegisterWrite
  split <;> (repeat' split) <;> simp [h]

@[simp] theorem State.shoot_keeps (s : State) (v : DWord) (void : Bool) :
    (State.shoot s v void).mem = s.mem ∧ (State.shoot s v void).mgmt = s.mgmt := by
  unfold State.shoot
  (try dsimp only)
  (repeat' split) <;> simp_all

@[simp] theorem execShootPage_keeps (v : BitVec 64) (s : State) (m : Mgmt) (h : s.mem.wf = true) (hm : s.mgmt = m) :
    Out.keeps m (execShootPage v s) := by
  unfold execShootPage; (try dsimp only); (repeat' split) <;> simp_all


@[simp] theorem execShootAsid_keeps (v : BitVec 64) (s : State) (m : Mgmt) (h : s.mem.wf = true) (hm : s.mgmt = m) :
    Out.keeps m (execShootAsid v s) := by
  unfold execShootAsid; (try dsimp only); (repeat' split) <;> simp_all


@[simp] theorem execShootAsidReload_keeps (v : BitVec 64) (s : State) (m : Mgmt) (h : s.mem.wf = true) (hm : s.mgmt = m) :
    Out.keeps m (execShootAsidReload v s) := by
  unfold execShootAsidReload; (try dsimp only); (repeat' split) <;> simp_all


@[simp] theorem execShootReservedKind_keeps (v : BitVec 64) (s : State) (m : Mgmt) (h : s.mem.wf = true) (hm : s.mgmt = m) :
    Out.keeps m (execShootReservedKind v s) := by
  unfold execShootReservedKind; (try dsimp only); (repeat' split) <;> simp_all


@[simp] theorem execShootdownComplete_keeps (s : State) (m : Mgmt) (h : s.mem.wf = true) (hm : s.mgmt = m) :
    Out.keeps m (execShootdownComplete s) := by
  unfold execShootdownComplete; (try dsimp only); (repeat' split) <;> simp_all


@[simp] theorem execApertureWrite_keeps (pa : Nat) (v : BitVec 32) (s : State) (m : Mgmt) (h : s.mem.wf = true) (hm : s.mgmt = m) :
    Out.keeps m (execApertureWrite pa v s) := by
  unfold execApertureWrite; (try dsimp only); (repeat' split) <;> simp_all


@[simp] theorem execProgWrite_keeps (pa : Nat) (v : BitVec 64) (s : State) (m : Mgmt) (h : s.mem.wf = true) (hm : s.mgmt = m) :
    Out.keeps m (execProgWrite pa v s) := by
  unfold execProgWrite; (try dsimp only); (repeat' split) <;> simp_all


end Sys2Proof.Machine
end

