-- ==== Sys2Proof/Laws/KeepsMgmt.lean ====
section
/-!
SUPPORT. What the management controller and the loader keep of memory.
-/
namespace Sys2Proof.Machine


@[simp] theorem State.mapPage_wf (n va leaf level table : Nat) (s : State) (h : s.mem.wf = true) :
    (State.mapPage n va leaf level table s).mem.wf = true := by
  induction level generalizing table s with
  | zero => simp [State.mapPage, h]
  | succ level ih =>
    unfold State.mapPage
    dsimp only
    split
    · exact ih _ _ h
    · exact ih _ _ (by simp [h])

/-- A fold keeps the canonical form where each of its steps does. -/
theorem foldl_wf {α : Type} (f : State → α → State) (hf : ∀ s a, s.mem.wf = true → (f s a).mem.wf = true) (l : List α) (s : State)
    (h : s.mem.wf = true) : (l.foldl f s).mem.wf = true := by
  induction l generalizing s with
  | nil => exact h
  | cons a l ih => exact ih _ (hf _ _ h)

@[simp] theorem State.copyImage_wf (n key root : Nat) (s : State) (x : LoadedImage) (h : s.mem.wf = true) :
    (State.copyImage n key root s x).mem.wf = true := by
  unfold State.copyImage
  exact (State.writeBytes_keeps _ _ _ (foldl_wf _ (fun s p hs => by simp [hs]) _ _ h)).1

@[simp] theorem State.install_wf (s : State) (n : Nat) (x : Loaded) (h : s.mem.wf = true) : (s.install n x).mem.wf = true := by
  unfold State.install
  dsimp only
  (repeat' split)
  · exact h
  · exact foldl_wf _ (fun s p hs => by simp [hs]) _ _ h
  · exact h

@[simp] theorem execContainerLoad_keeps (file : List Byte) (priv finalise : Bool) (s : State) (h : s.mem.wf = true) :
    Out.wf (execContainerLoad file priv finalise s) := by
  unfold execContainerLoad
  split
  · exact h
  · exact State.install_wf _ _ _ h

@[simp] theorem State.logEvent_keeps (s : State) (kind loc pa count : Nat) :
    (State.logEvent s kind loc pa count).mem = s.mem := by
  rfl


@[simp] theorem State.clearAsid_keeps (s : State) (asid : Nat) (h : s.mem.wf = true) :
    (State.clearAsid s asid).mem.wf = true := by
  unfold State.clearAsid
  (try dsimp only)
  (repeat' split) <;> simp_all

@[simp] theorem State.keyNew_keeps (s : State) (a0 a1 : DWord) (h : s.mem.wf = true) :
    (State.keyNew s a0 a1).2.mem.wf = true := by
  unfold State.keyNew
  (try dsimp only)
  (repeat' split) <;> simp_all

@[simp] theorem State.keyKill_keeps (s : State) (a0 a1 : DWord) (h : s.mem.wf = true) :
    (State.keyKill s a0 a1).2.mem.wf = true := by
  unfold State.keyKill
  (try dsimp only)
  (repeat' split) <;> simp_all

@[simp] theorem State.setClass_keeps (s : State) (a0 a1 : DWord) :
    (State.setClass s a0 a1).2.mem = s.mem := by
  unfold State.setClass
  (try dsimp only)
  (repeat' split) <;> simp_all

@[simp] theorem State.setCap_keeps (s : State) (a0 a1 : DWord) :
    (State.setCap s a0 a1).2.mem = s.mem := by
  unfold State.setCap
  (try dsimp only)
  (repeat' split) <;> simp_all

@[simp] theorem State.portAnswer_keeps (s : State) (f : PortFrame) (result : Nat) (v0 v1 : DWord) (body : List Byte) :
    (State.portAnswer s f result v0 v1 body).mem = s.mem := by
  rfl

theorem State.portCommand_wf (s : State) (f : PortFrame) (run : State → Nat × State) (h : s.mem.wf = true) (hr : (run s).2.mem.wf = true) :
    (s.portCommand f run).mem.wf = true := by
  unfold State.portCommand
  dsimp only
  split <;> simp [h, hr]

@[simp] theorem State.restartSteps_keeps (s : State) :
    (State.restartSteps s).mem = s.mem := by
  rfl

@[simp] theorem State.portDoKeynew_wf (s : State) (f : PortFrame) (h : s.mem.wf = true) : (s.portDoKeynew f).mem.wf = true :=
  State.portCommand_wf _ _ _ h (by simp [h])
@[simp] theorem State.portDoKeykill_wf (s : State) (f : PortFrame) (h : s.mem.wf = true) : (s.portDoKeykill f).mem.wf = true :=
  State.portCommand_wf _ _ _ h (by simp [h])
@[simp] theorem State.portDoClass_wf (s : State) (f : PortFrame) (h : s.mem.wf = true) : (s.portDoClass f).mem.wf = true :=
  State.portCommand_wf _ _ _ h (by simp [h])
@[simp] theorem State.portDoPcap_wf (s : State) (f : PortFrame) (h : s.mem.wf = true) : (s.portDoPcap f).mem.wf = true :=
  State.portCommand_wf _ _ _ h (by simp [h])
@[simp] theorem State.portDoErrread_wf (s : State) (f : PortFrame) (h : s.mem.wf = true) : (s.portDoErrread f).mem.wf = true := by
  unfold State.portDoErrread
  (try dsimp only)
  (repeat' split) <;> simp [h]
@[simp] theorem State.portDoTelem_wf (s : State) (f : PortFrame) (h : s.mem.wf = true) : (s.portDoTelem f).mem.wf = true := by
  unfold State.portDoTelem
  (try dsimp only)
  (repeat' split) <;> simp [h]
@[simp] theorem State.portDoReset_wf (s : State) (f : PortFrame) (h : s.mem.wf = true) : (s.portDoReset f).mem.wf = true := by
  unfold State.portDoReset
  (try dsimp only)
  (repeat' split) <;> simp [h]
@[simp] theorem State.portDoTripclr_wf (s : State) (f : PortFrame) (h : s.mem.wf = true) : (s.portDoTripclr f).mem.wf = true := by
  unfold State.portDoTripclr
  (try dsimp only)
  (repeat' split) <;> simp [h]
@[simp] theorem State.portDoState_wf (s : State) (f : PortFrame) (h : s.mem.wf = true) : (s.portDoState f).mem.wf = true := by
  unfold State.portDoState
  (try dsimp only)
  (repeat' split) <;> simp [h]

/-- What the controller does with a request keeps memory canonical. -/
@[simp] theorem State.portRun_wf (s : State) (f : PortFrame) (h : s.mem.wf = true) : (s.portRun f).mem.wf = true := by
  unfold State.portRun
  (repeat' split) <;> simp [h]

@[simp] theorem State.portDrain_wf (s : State) (h : s.mem.wf = true) : s.portDrain.mem.wf = true :=
  foldl_wf _ (fun s f hs => State.portRun_wf s f hs) _ _ h

theorem State.portRequest_wf (s : State) (f : PortFrame) (mine : Bool) (h : s.mem.wf = true) : Out.wf (s.portRequest f mine) := by
  unfold State.portRequest
  (repeat' split) <;> simp [h]

@[simp] theorem execPortKeynew_keeps (f : PortFrame) (s : State) (h : s.mem.wf = true) : Out.wf (execPortKeynew f s) := State.portRequest_wf _ _ _ h
@[simp] theorem execPortKeykill_keeps (f : PortFrame) (s : State) (h : s.mem.wf = true) : Out.wf (execPortKeykill f s) := State.portRequest_wf _ _ _ h
@[simp] theorem execPortClass_keeps (f : PortFrame) (s : State) (h : s.mem.wf = true) : Out.wf (execPortClass f s) := State.portRequest_wf _ _ _ h
@[simp] theorem execPortPcap_keeps (f : PortFrame) (s : State) (h : s.mem.wf = true) : Out.wf (execPortPcap f s) := State.portRequest_wf _ _ _ h
@[simp] theorem execPortErrread_keeps (f : PortFrame) (s : State) (h : s.mem.wf = true) : Out.wf (execPortErrread f s) := State.portRequest_wf _ _ _ h
@[simp] theorem execPortTelem_keeps (f : PortFrame) (s : State) (h : s.mem.wf = true) : Out.wf (execPortTelem f s) := State.portRequest_wf _ _ _ h
@[simp] theorem execPortReset_keeps (f : PortFrame) (s : State) (h : s.mem.wf = true) : Out.wf (execPortReset f s) := State.portRequest_wf _ _ _ h
@[simp] theorem execTripclr_keeps (f : PortFrame) (s : State) (h : s.mem.wf = true) : Out.wf (execTripclr f s) := State.portRequest_wf _ _ _ h
@[simp] theorem execPortState_keeps (f : PortFrame) (s : State) (h : s.mem.wf = true) : Out.wf (execPortState f s) := State.portRequest_wf _ _ _ h
@[simp] theorem execPortUnknownOp_keeps (f : PortFrame) (s : State) (h : s.mem.wf = true) : Out.wf (execPortUnknownOp f s) := State.portRequest_wf _ _ _ h

/-- A mailbox command keeps memory canonical where its effect does. -/
theorem State.mailbox_wf (s : State) (run : State → Nat × State) (h : s.mem.wf = true)
    (hr : ∀ t : State, t.mem.wf = true → (run t).2.mem.wf = true) : Out.wf (s.mailbox run) := by
  unfold State.mailbox
  dsimp only
  split
  · exact h
  · exact hr _ (by simp [h])

@[simp] theorem State.mbWrite_wf (s : State) (bs : List Byte) (h : s.mem.wf = true) : (s.mbWrite bs).mem.wf = true :=
  (State.writeBytes_keeps _ _ _ h).1

@[simp] theorem execKeynew_keeps (s : State) (h : s.mem.wf = true) : Out.wf (execKeynew s) :=
  State.mailbox_wf _ _ h (fun t ht => by (try dsimp only); (repeat' split) <;> simp [ht])
@[simp] theorem execKeykill_keeps (s : State) (h : s.mem.wf = true) : Out.wf (execKeykill s) :=
  State.mailbox_wf _ _ h (fun t ht => by (try dsimp only); (repeat' split) <;> simp [ht])
@[simp] theorem execClassSet_keeps (s : State) (h : s.mem.wf = true) : Out.wf (execClassSet s) :=
  State.mailbox_wf _ _ h (fun t ht => by (try dsimp only); (repeat' split) <;> simp [ht])
@[simp] theorem execPcap_keeps (s : State) (h : s.mem.wf = true) : Out.wf (execPcap s) :=
  State.mailbox_wf _ _ h (fun t ht => by (try dsimp only); (repeat' split) <;> simp [ht])
@[simp] theorem execErrread_keeps (s : State) (h : s.mem.wf = true) : Out.wf (execErrread s) :=
  State.mailbox_wf _ _ h (fun t ht => by (try dsimp only); (repeat' split) <;> simp [ht])
@[simp] theorem execTelem_keeps (s : State) (h : s.mem.wf = true) : Out.wf (execTelem s) :=
  State.mailbox_wf _ _ h (fun t ht => by (try dsimp only); (repeat' split) <;> simp [ht])
@[simp] theorem execPortkey_keeps (s : State) (h : s.mem.wf = true) : Out.wf (execPortkey s) :=
  State.mailbox_wf _ _ h (fun t ht => by (try dsimp only); (repeat' split) <;> simp [ht])
@[simp] theorem execMailboxUnknownOp_keeps (v : BitVec 64) (s : State) (h : s.mem.wf = true) : Out.wf (execMailboxUnknownOp v s) := by
  unfold execMailboxUnknownOp
  (repeat' split) <;> first
    | exact h
    | exact State.mailbox_wf _ _ h (fun t ht => by (try dsimp only); (repeat' split) <;> simp [ht])

@[simp] theorem State.lowerPower_keeps (s : State) :
    (State.lowerPower s).mem = s.mem := by
  unfold State.lowerPower
  (try dsimp only)
  (repeat' split) <;> simp_all

@[simp] theorem State.raisePower_keeps (s : State) :
    (State.raisePower s).mem = s.mem := by
  unfold State.raisePower
  (try dsimp only)
  (repeat' split) <;> simp_all

@[simp] theorem State.sampleTelem_mem (s : State) : s.sampleTelem.mem = s.mem := by
  unfold State.sampleTelem
  dsimp only
  split <;> rfl

@[simp] theorem execPowerSample_keeps (milliwatts : Nat) (s : State) (h : s.mem.wf = true) :
    Out.wf (execPowerSample milliwatts s) := by
  unfold execPowerSample
  (try dsimp only)
  (repeat' split) <;> simp_all

@[simp] theorem execThermalThrottle_keeps (die : BitVec 2) (s : State) (h : s.mem.wf = true) :
    Out.wf (execThermalThrottle die s) := by
  unfold execThermalThrottle
  (try dsimp only)
  (repeat' split) <;> simp_all

@[simp] theorem execThermalTrip_keeps (die : BitVec 2) (s : State) (h : s.mem.wf = true) :
    Out.wf (execThermalTrip die s) := by
  unfold execThermalTrip
  (try dsimp only)
  (repeat' split) <;> simp_all

@[simp] theorem execLinkDown_keeps (link : BitVec 4) (packages : List Nat) (s : State) (h : s.mem.wf = true) :
    Out.wf (execLinkDown link packages s) := by
  unfold execLinkDown
  (try dsimp only)
  (repeat' split) <;> simp_all

@[simp] theorem execLinkUp_keeps (link : BitVec 4) (s : State) (h : s.mem.wf = true) :
    Out.wf (execLinkUp link s) := by
  unfold execLinkUp
  (try dsimp only)
  (repeat' split) <;> simp_all

@[simp] theorem execErrorCorrected_keeps (pa : Nat) (loc : ErrLoc) (s : State) (h : s.mem.wf = true) :
    Out.wf (execErrorCorrected pa loc s) := by
  unfold execErrorCorrected
  (try dsimp only)
  (repeat' split) <;> simp_all

@[simp] theorem State.markSram_mem (s : State) (pa : Nat) : (s.markSram pa).mem = s.mem := by
  unfold State.markSram
  dsimp only
  (repeat' split) <;> rfl

@[simp] theorem State.markError_mem (s : State) (pa : Nat) (loc : ErrLoc) : (s.markError pa loc).mem = s.mem := by
  unfold State.markError
  split <;> simp

@[simp] theorem execErrorUncorrectable_keeps (pa : Nat) (loc : ErrLoc) (scrub : Bool) (s : State) (h : s.mem.wf = true) :
    Out.wf (execErrorUncorrectable pa loc scrub s) := by
  unfold execErrorUncorrectable
  (try dsimp only)
  (repeat' split) <;> simp_all

@[simp] theorem execPatrolScrub_keeps (s : State) (h : s.mem.wf = true) :
    Out.wf (execPatrolScrub s) := by
  unfold execPatrolScrub
  (try dsimp only)
  (repeat' split) <;> simp_all

@[simp] theorem State.afterReset_wf (s : State) (done failing : Nat) (h : s.mem.wf = true) : (s.afterReset done failing).mem.wf = true := by
  unfold State.afterReset
  dsimp only
  split
  · rfl
  · exact h

@[simp] theorem execBringUp_keeps (failing : BitVec 4) (s : State) (h : s.mem.wf = true) :
    Out.wf (execBringUp failing s) := by
  unfold execBringUp
  (try dsimp only)
  (repeat' split) <;> simp_all

end Sys2Proof.Machine
end

