-- ==== Sys2Proof/Tests/Slice0.lean ====
section
/-!
SUPPORT. Tests: words written out from the encoding tables, ill-formed terms that WellFormed refuses, figures that the manual works out, and for
each statement a theorem with a concrete state that meets its hypotheses.
-/
open Sys2Proof Sys2Proof.Machine Sys2Proof.Claims
namespace Sys2Proof.Tests

/-! Encodings. -/

def mLow : MField := { base := 4, idx := 9, space := .global, order := .acqRel, hint := 0, scope := .die, off := 3 }
def mHigh : MField := { base := 63, idx := 251, space := .scratch, order := .sc, hint := 3, scope := .system, off := 0x200 }
def cpyAny : CpyField := { src := 1, dst := 2, desc := 3, dsp := .global, ssp := .global, pkg := false }
def frame : PortFrame := { dest := 0, source := 0, etherType := 0, magic := 0, op := 0x20, rsvd := 0, seq := 0, arg0 := 0, arg1 := 0, tag := 0 }

/-- The listing of the chapter's own worked encodings (chapter 05), and SHFL16, which revision 1 reads where revision 2 reads SHFLI. -/
theorem test_decode_listing :
    decode 2 [0xC300] = .ok (.strandHeader 3 0 false) ∧ decode 2 [0x0807] = .ok (.fadd (.g 7)) ∧ decode 2 [0xD665, 0x6109] = .ok (.fmacL 5 (.bfly 9 1))
    ∧ decode 2 [0xF002, 0x4403, 0x1024] = .ok (.ldB32 2 { base := 4, idx := 9, space := .global, order := .acqRel, hint := 0, scope := .die, off := 3 })
    ∧ decode 2 [0xE380, 0x0000] = .ok (.wait .cpy 0) ∧ decode 2 [0xE040, 0xFFF4] = .ok (.bra 0xFFF4)
    ∧ decode 1 [0xD301, 0x000A] = .ok (.shfl16 1 10) :=
  ⟨rfl, rfl, rfl, rfl, rfl, rfl, rfl⟩

/-- Instructions of the other revision are refused. -/
theorem test_illFormed_revision :
    Instr.wfRev 2 (.shfl16 0 9) = false ∧ Instr.wfRev 1 (.shfli 0 9) = false ∧ Instr.wfRev 1 (.kwin 0 (.imm 1)) = false ∧ Instr.wfRev 1 (.kfree 0) = false
    ∧ Instr.wfRev 1 (.reply 0) = false ∧ Instr.wfRev 1 (.cvset .idle 0 0) = false := ⟨rfl, rfl, rfl, rfl, rfl, rfl⟩

/-- Words written out from the tables, by layout (R121, R122, R145: headers, and short forms without an arithmetic operand). -/
theorem test_decode_header :
    decode 2 [0xC540] = .ok (.strandHeader 5 2 false)
    ∧ decode 2 [0xC390] = .ok (.strandHeader 3 4 true)
    ∧ decode 2 [0x0109] = .ok (.mov (.s 9))
    ∧ decode 2 [0x0405] = .ok (.putg 5)
    ∧ decode 2 [0x2E81] = .ok (.mlat (.imm 0x81))
    ∧ decode 2 [0x7400] = .ok (.nop) :=
  ⟨rfl, rfl, rfl, rfl, rfl, rfl⟩

/-- Words written out from the tables, by layout (R121, R146). -/
theorem test_decode_short_float :
    decode 2 [0x0809] = .ok (.fadd (.g 9))
    ∧ decode 2 [0x0E3C] = .ok (.fsub (.imm 0x3C))
    ∧ decode 2 [0x113F] = .ok (.frsub (.s 63))
    ∧ decode 2 [0x1409] = .ok (.fmul (.g 9))
    ∧ decode 2 [0x1A3C] = .ok (.fmac (.imm 0x3C))
    ∧ decode 2 [0x1D3F] = .ok (.fnmac (.s 63))
    ∧ decode 2 [0x2009] = .ok (.fmla (.g 9))
    ∧ decode 2 [0x263C] = .ok (.fmax (.imm 0x3C))
    ∧ decode 2 [0x293F] = .ok (.fmin (.s 63))
    ∧ decode 2 [0x1809] = .ok (.fmac (.g 9))
    ∧ decode 2 [0x163C] = .ok (.fmul (.imm 0x3C)) :=
  ⟨rfl, rfl, rfl, rfl, rfl, rfl, rfl, rfl, rfl, rfl, rfl⟩

/-- Words written out from the tables, by layout (R121, R148 to R152). -/
theorem test_decode_short_int :
    decode 2 [0x32FD] = .ok (.iadd (.imm 0xFD))
    ∧ decode 2 [0x34FB] = .ok (.isub (.g 251))
    ∧ decode 2 [0x3907] = .ok (.irsub (.s 7))
    ∧ decode 2 [0x3EFD] = .ok (.imul (.imm 0xFD))
    ∧ decode 2 [0x40FB] = .ok (.imac (.g 251))
    ∧ decode 2 [0x4507] = .ok (.imax (.s 7))
    ∧ decode 2 [0x4AFD] = .ok (.imin (.imm 0xFD))
    ∧ decode 2 [0x4CFB] = .ok (.zmax (.g 251))
    ∧ decode 2 [0x5107] = .ok (.zmin (.s 7))
    ∧ decode 2 [0x56FD] = .ok (.and (.imm 0xFD))
    ∧ decode 2 [0x58FB] = .ok (.or (.g 251))
    ∧ decode 2 [0x5D07] = .ok (.xor (.s 7))
    ∧ decode 2 [0x62FD] = .ok (.andn (.imm 0xFD))
    ∧ decode 2 [0x64FB] = .ok (.shl (.g 251))
    ∧ decode 2 [0x6907] = .ok (.shr (.s 7))
    ∧ decode 2 [0x6EFD] = .ok (.sar (.imm 0xFD))
    ∧ decode 2 [0x70FB] = .ok (.rol (.g 251))
    ∧ decode 2 [0x32FD] = .ok (.iadd (.imm 0xFD)) :=
  ⟨rfl, rfl, rfl, rfl, rfl, rfl, rfl, rfl, rfl, rfl, rfl, rfl, rfl, rfl, rfl, rfl, rfl, rfl⟩

/-- Words written out from the tables, by layout (R123, R125: long twins, every operand kind). -/
theorem test_decode_long_float :
    decode 2 [0xD600, 0x413C] = .ok (.movL 0 (.imm 0x3C) true)
    ∧ decode 2 [0xD603, 0xC509] = .ok (.movL 3 (.lane 9 5) false)
    ∧ decode 2 [0xD61F, 0x0007] = .ok (.putgL 15 7)
    ∧ decode 2 [0xD6B2, 0x4138] = .ok (.mlatL 2 (.imm 0x38) true)
    ∧ decode 2 [0xD6B2, 0x0001] = .ok (.mlatL 2 (.g 1) false)
    ∧ decode 2 [0xD7D6, 0x0000] = .ok (.nopL 6)
    ∧ decode 2 [0xD620, 0x6109] = .ok (.faddL 0 (.bfly 9 1))
    ∧ decode 2 [0xD631, 0x8709] = .ok (.fsubL 1 (.rot 9 7))
    ∧ decode 2 [0xD642, 0xA009] = .ok (.frsubL 2 (.rev 9))
    ∧ decode 2 [0xD653, 0xDF09] = .ok (.fmulL 3 (.lane 9 31))
    ∧ decode 2 [0xD664, 0x0009] = .ok (.fmacL 4 (.g 9))
    ∧ decode 2 [0xD675, 0x203F] = .ok (.fnmacL 5 (.s 63))
    ∧ decode 2 [0xD686, 0x4080] = .ok (.fmlaL 6 (.imm 0x80))
    ∧ decode 2 [0xD697, 0x64FB] = .ok (.fmaxL 7 (.bfly 251 4))
    ∧ decode 2 [0xD6A8, 0x6109] = .ok (.fminL 8 (.bfly 9 1))
    ∧ decode 2 [0xD665, 0x6109] = .ok (.fmacL 5 (.bfly 9 1)) :=
  ⟨rfl, rfl, rfl, rfl, rfl, rfl, rfl, rfl, rfl, rfl, rfl, rfl, rfl, rfl, rfl, rfl⟩

/-- Words written out from the tables, by layout (R123, R125: long twins of the integer operations). -/
theorem test_decode_long_int :
    decode 2 [0xD6CF, 0x6109] = .ok (.iaddL 15 (.bfly 9 1))
    ∧ decode 2 [0xD6DE, 0x8709] = .ok (.isubL 14 (.rot 9 7))
    ∧ decode 2 [0xD6ED, 0xA009] = .ok (.irsubL 13 (.rev 9))
    ∧ decode 2 [0xD6FC, 0xDF09] = .ok (.imulL 12 (.lane 9 31))
    ∧ decode 2 [0xD70B, 0x0009] = .ok (.imacL 11 (.g 9))
    ∧ decode 2 [0xD71A, 0x203F] = .ok (.imaxL 10 (.s 63))
    ∧ decode 2 [0xD729, 0x4080] = .ok (.iminL 9 (.imm 0x80))
    ∧ decode 2 [0xD738, 0x64FB] = .ok (.zmaxL 8 (.bfly 251 4))
    ∧ decode 2 [0xD747, 0x6109] = .ok (.zminL 7 (.bfly 9 1))
    ∧ decode 2 [0xD756, 0x8709] = .ok (.andL 6 (.rot 9 7))
    ∧ decode 2 [0xD765, 0xA009] = .ok (.orL 5 (.rev 9))
    ∧ decode 2 [0xD774, 0xDF09] = .ok (.xorL 4 (.lane 9 31))
    ∧ decode 2 [0xD783, 0x0009] = .ok (.andnL 3 (.g 9))
    ∧ decode 2 [0xD792, 0x203F] = .ok (.shlL 2 (.s 63))
    ∧ decode 2 [0xD7A1, 0x4080] = .ok (.shrL 1 (.imm 0x80))
    ∧ decode 2 [0xD7B0, 0x64FB] = .ok (.sarL 0 (.bfly 251 4))
    ∧ decode 2 [0xD7C1, 0x6109] = .ok (.rolL 1 (.bfly 9 1)) :=
  ⟨rfl, rfl, rfl, rfl, rfl, rfl, rfl, rfl, rfl, rfl, rfl, rfl, rfl, rfl, rfl, rfl, rfl⟩

/-- Words written out from the tables, by layout (R76, R125, R153, R154). -/
theorem test_decode_convert_divide :
    decode 2 [0xD001, 0x4001] = .ok (.cvt .rne 1 .f32i32 true)
    ∧ decode 2 [0xD032, 0x4E00] = .ok (.cvt .ru 2 .e2m1f32 false)
    ∧ decode 2 [0xD012, 0x4901] = .ok (.cvt .rz 2 .f32e4m3 true)
    ∧ decode 2 [0xD042, 0x0007] = .ok (.fdiv 2 (.g 7))
    ∧ decode 2 [0xD053, 0x40FF] = .ok (.idiv 3 (.imm 0xFF))
    ∧ decode 2 [0xD063, 0xA008] = .ok (.zdiv 3 (.rev 8))
    ∧ decode 2 [0xD073, 0x2008] = .ok (.irem 3 (.s 8))
    ∧ decode 2 [0xD083, 0x8108] = .ok (.zrem 3 (.rot 8 1))
    ∧ decode 2 [0xD094, 0x4100] = .ok (.sfu 4 .rsqrt)
    ∧ decode 2 [0xD094, 0x4700] = .ok (.sfu 4 .tanh)
    ∧ decode 2 [0xD0A4, 0x4000] = .ok (.fabs 4)
    ∧ decode 2 [0xD0B4, 0x4000] = .ok (.fneg 4)
    ∧ decode 2 [0xD0C4, 0x4000] = .ok (.popc 4)
    ∧ decode 2 [0xD0D4, 0x4000] = .ok (.clz 4)
    ∧ decode 2 [0xD0E4, 0x4000] = .ok (.brev 4) :=
  ⟨rfl, rfl, rfl, rfl, rfl, rfl, rfl, rfl, rfl, rfl, rfl, rfl, rfl, rfl, rfl⟩

/-- Words written out from the tables, by layout (R125, R157, R159). -/
theorem test_decode_compare_select :
    decode 2 [0xD0F1, 0x070C] = .ok (.selp 1 (.g 12) 7)
    ∧ decode 2 [0xD122, 0x1306] = .ok (.fcmp .lt 2 (.g 6) 3 .or)
    ∧ decode 2 [0xD172, 0x4A3C] = .ok (.fcmp .or 2 (.imm 0x3C) 2 .and)
    ∧ decode 2 [0xD182, 0x2701] = .ok (.icmp .eq 2 (.s 1) 7 .set)
    ∧ decode 2 [0xD1E2, 0x41FF] = .ok (.icmp .zlt 2 (.imm 0xFF) 1 .set)
    ∧ decode 2 [0xD1F2, 0x1103] = .ok (.icmp .zge 2 (.g 3) 1 .or)
    ∧ decode 2 [0xD202, 0x5F08] = .ok (.bfe 2 (.imm 8) 31)
    ∧ decode 2 [0xD396, 0x4200] = .ok (.putp 6 .nz 2)
    ∧ decode 2 [0xD396, 0x5700] = .ok (.putp 6 .neg 7) :=
  ⟨rfl, rfl, rfl, rfl, rfl, rfl, rfl, rfl, rfl⟩

/-- Words written out from the tables, by layout (R125, R147, R156). -/
theorem test_decode_rounded_packed :
    decode 2 [0xD221, 0x0004] = .ok (.faddx 1 (.g 4) .rne)
    ∧ decode 2 [0xD231, 0x4104] = .ok (.fmulx 1 (.imm 4) .rz)
    ∧ decode 2 [0xD241, 0x2204] = .ok (.fmacx 1 (.s 4) .rd)
    ∧ decode 2 [0xD251, 0x0304] = .ok (.fmlax 1 (.g 4) .ru)
    ∧ decode 2 [0xD282, 0x0704] = .ok (.hadd2 2 (.g 4) .f16 .ru)
    ∧ decode 2 [0xD292, 0x0004] = .ok (.hsub2 2 (.g 4) .bf16 .rne)
    ∧ decode 2 [0xD2A2, 0x0304] = .ok (.hmul2 2 (.g 4) .f16 .rz)
    ∧ decode 2 [0xD2B2, 0x0004] = .ok (.hfma2 2 (.g 4) .bf16 .rne)
    ∧ decode 2 [0xD2C2, 0x443C] = .ok (.hmax2 2 (.imm 0x3C) .bf16 .rd)
    ∧ decode 2 [0xD2D2, 0x2109] = .ok (.hmin2 2 (.s 9) .f16 .rne) :=
  ⟨rfl, rfl, rfl, rfl, rfl, rfl, rfl, rfl, rfl, rfl⟩

/-- Words written out from the tables, by layout (R125, R158 to R168). -/
theorem test_decode_cross_lane :
    decode 2 [0xD301, 0x000A] = .ok (.shfli 1 10)
    ∧ decode 2 [0xD317, 0x4400] = .ok (.vote 7 .ballot 4)
    ∧ decode 2 [0xD317, 0x5A00] = .ok (.vote 7 .uni 2)
    ∧ decode 2 [0xD320, 0x4000] = .ok (.red 0 .fadd)
    ∧ decode 2 [0xD329, 0x4A00] = .ok (.red 9 .xor)
    ∧ decode 2 [0xD337, 0x5300] = .ok (.scan 7 .iadd true)
    ∧ decode 2 [0xD337, 0x4200] = .ok (.scan 7 .fmin false)
    ∧ decode 2 [0xD348, 0x0105] = .ok (.qx 8 .h 5)
    ∧ decode 2 [0xD348, 0x0305] = .ok (.qx 8 .d 5)
    ∧ decode 2 [0xD384, 0x4001] = .ok (.rdsr 4 1)
    ∧ decode 2 [0xD403, 0x401F] = .ok (.kwin 3 (.imm 0x1F))
    ∧ decode 2 [0xD403, 0x201F] = .ok (.kwin 3 (.s 0x1F))
    ∧ decode 2 [0xD413, 0x4501] = .ok (.knext 3 1 5)
    ∧ decode 2 [0xD423, 0x0108] = .ok (.unpk 3 true 8) :=
  ⟨rfl, rfl, rfl, rfl, rfl, rfl, rfl, rfl, rfl, rfl, rfl, rfl, rfl, rfl⟩

/-- Words written out from the tables, by layout (R127, R133). -/
theorem test_decode_branch :
    decode 2 [0xE000, 0x0000] = .ok (.nopl)
    ∧ decode 2 [0xE040, 0xFFF4] = .ok (.bra 0xFFF4)
    ∧ decode 2 [0xE08B, 0x0005] = .ok (.brany true 3 5)
    ∧ decode 2 [0xE0C0, 0x8000] = .ok (.brall false 0 0x8000)
    ∧ decode 2 [0xE13F, 0x7FFF] = .ok (.brs 63 0x7FFF)
    ∧ decode 2 [0xE141, 0x0002] = .ok (.call 1 2)
    ∧ decode 2 [0xE1BE, 0x0000] = .ok (.ret 62)
    ∧ decode 2 [0xE1D4, 0x0006] = .ok (.join 20 6)
    ∧ decode 2 [0xE203, 0x0100] = .ok (.loop0 3 256)
    ∧ decode 2 [0xE243, 0x0001] = .ok (.loop1 3 1)
    ∧ decode 2 [0xE283, 0x0009] = .ok (.loop2 3 9)
    ∧ decode 2 [0xE2FF, 0x0002] = .ok (.loopi0 63 2)
    ∧ decode 2 [0xE300, 0x0002] = .ok (.loopi1 0 2)
    ∧ decode 2 [0xE347, 0x0002] = .ok (.loopi2 7 2) :=
  ⟨rfl, rfl, rfl, rfl, rfl, rfl, rfl, rfl, rfl, rfl, rfl, rfl, rfl, rfl⟩

/-- Words written out from the tables, by layout (R127, R181 to R204). -/
theorem test_decode_control :
    decode 2 [0xE380, 0x0000] = .ok (.wait .cpy 0)
    ∧ decode 2 [0xE386, 0x003F] = .ok (.wait .spw 63)
    ∧ decode 2 [0xE3C0, 0x0000] = .ok (.bar)
    ∧ decode 2 [0xE400, 0x0000] = .ok (.gbar)
    ∧ decode 2 [0xE440, 0x0000] = .ok (.exit)
    ∧ decode 2 [0xE4BF, 0x0000] = .ok (.give 63)
    ∧ decode 2 [0xE4C8, 0x0000] = .ok (.claim 8)
    ∧ decode 2 [0xE508, 0x0007] = .ok (.claimp 8 7)
    ∧ decode 2 [0xE545, 0x0000] = .ok (.part 5)
    ∧ decode 2 [0xE580, 0x0000] = .ok (.cvset .idle 0 0)
    ∧ decode 2 [0xE595, 0x0009] = .ok (.cvset .quartet 5 9)
    ∧ decode 2 [0xE5EC, 0x0000] = .ok (.fence .package .sc)
    ∧ decode 2 [0xE5C0, 0x0000] = .ok (.fence .core .acq)
    ∧ decode 2 [0xE5F4, 0x0000] = .ok (.fence .system .rel)
    ∧ decode 2 [0xE600, 0x0000] = .ok (.yield)
    ∧ decode 2 [0xE640, 0x00FF] = .ok (.trap 0xFF)
    ∧ decode 2 [0xE640, 0x0040] = .ok (.trap 0x40)
    ∧ decode 2 [0xE680, 0x0000] = .ok (.bkpt)
    ∧ decode 2 [0xE6C0, 0x0010] = .ok (.ipf 0x10)
    ∧ decode 2 [0xE73F, 0x0001] = .ok (.ipin 63 1)
    ∧ decode 2 [0xE741, 0xFFFF] = .ok (.iunpin 1 0xFFFF)
    ∧ decode 2 [0xEC00, 0x0000] = .ok (.rte)
    ∧ decode 2 [0xEC41, 0x0007] = .ok (.haltb .workgroup 7)
    ∧ decode 2 [0xEC80, 0x0007] = .ok (.resumeb .warp 7) :=
  ⟨rfl, rfl, rfl, rfl, rfl, rfl, rfl, rfl, rfl, rfl, rfl, rfl, rfl, rfl, rfl, rfl, rfl, rfl, rfl, rfl, rfl, rfl, rfl, rfl⟩

/-- Words written out from the tables, by layout (R127, R192). -/
theorem test_decode_scalar :
    decode 2 [0xE83F, 0x0001] = .ok (.smov 63 1)
    ∧ decode 2 [0xE840, 0x0081] = .ok (.sadd 0 1 2)
    ∧ decode 2 [0xE881, 0x00C2] = .ok (.ssub 1 2 3)
    ∧ decode 2 [0xE8C2, 0x0103] = .ok (.smul 2 3 4)
    ∧ decode 2 [0xE903, 0x0144] = .ok (.sand 3 4 5)
    ∧ decode 2 [0xE944, 0x0185] = .ok (.sor 4 5 6)
    ∧ decode 2 [0xE985, 0x01C6] = .ok (.sxor 5 6 7)
    ∧ decode 2 [0xE9C6, 0x0207] = .ok (.sshl 6 7 8)
    ∧ decode 2 [0xEA07, 0x0248] = .ok (.sshr 7 8 9)
    ∧ decode 2 [0xEA44, 0x04FF] = .ok (.saddi 4 4 0xFF)
    ∧ decode 2 [0xEA85, 0x0080] = .ok (.smovi 5 0x80)
    ∧ decode 2 [0xEAC3, 0x2144] = .ok (.scmp 3 .lt 4 5)
    ∧ decode 2 [0xEAC3, 0x7081] = .ok (.scmp 3 .zge 1 2)
    ∧ decode 2 [0xEB03, 0x0014] = .ok (.srd 3 0x14)
    ∧ decode 2 [0xEB43, 0x0010] = .ok (.swr 3 0x10) :=
  ⟨rfl, rfl, rfl, rfl, rfl, rfl, rfl, rfl, rfl, rfl, rfl, rfl, rfl, rfl, rfl⟩

/-- Words written out from the tables, by layout (R129). -/
theorem test_decode_memory :
    decode 2 [0xF002, 0x4403, 0x1024] = .ok (.ldB32 2 mLow)
    ∧ decode 2 [0xF002, 0x4403, 0x1024] = .ok (.ldB32 2 mLow)
    ∧ decode 2 [0xF013, 0xBE00, 0xFFED] = .ok (.ldI8 3 mHigh)
    ∧ decode 2 [0xF024, 0x4403, 0x1024] = .ok (.ldZ8 4 mLow)
    ∧ decode 2 [0xF035, 0xBE00, 0xFFED] = .ok (.ldI16 5 mHigh)
    ∧ decode 2 [0xF046, 0x4403, 0x1024] = .ok (.ldZ16 6 mLow)
    ∧ decode 2 [0xF057, 0xBE00, 0xFFED] = .ok (.ldBf16 7 mHigh)
    ∧ decode 2 [0xF068, 0x4403, 0x1024] = .ok (.ldF16 8 mLow)
    ∧ decode 2 [0xF082, 0x4403, 0x1024] = .ok (.stB32 2 mLow)
    ∧ decode 2 [0xF093, 0xBE00, 0xFFED] = .ok (.stB16 3 mHigh)
    ∧ decode 2 [0xF0A4, 0x4403, 0x1024] = .ok (.stB8 4 mLow)
    ∧ decode 2 [0xF0B5, 0xBE00, 0xFFED] = .ok (.stBf16 5 mHigh)
    ∧ decode 2 [0xF0C6, 0x4403, 0x1024] = .ok (.stE4m3 6 mLow) :=
  ⟨rfl, rfl, rfl, rfl, rfl, rfl, rfl, rfl, rfl, rfl, rfl, rfl, rfl⟩

/-- Words written out from the tables, by layout (R129, R130, R132). -/
theorem test_decode_atomics :
    decode 2 [0xF102, 0x4403, 0x1024] = .ok (.atomIadd 2 mLow)
    ∧ decode 2 [0xF113, 0xBE00, 0xFFED] = .ok (.atomFadd 3 mHigh)
    ∧ decode 2 [0xF124, 0x4403, 0x1024] = .ok (.atomImax 4 mLow)
    ∧ decode 2 [0xF135, 0xBE00, 0xFFED] = .ok (.atomImin 5 mHigh)
    ∧ decode 2 [0xF146, 0x4403, 0x1024] = .ok (.atomZmax 6 mLow)
    ∧ decode 2 [0xF157, 0xBE00, 0xFFED] = .ok (.atomZmin 7 mHigh)
    ∧ decode 2 [0xF168, 0x4403, 0x1024] = .ok (.atomAnd 8 mLow)
    ∧ decode 2 [0xF179, 0xBE00, 0xFFED] = .ok (.atomOr 9 mHigh)
    ∧ decode 2 [0xF18A, 0x4403, 0x1024] = .ok (.atomXor 10 mLow)
    ∧ decode 2 [0xF19B, 0xBE00, 0xFFED] = .ok (.atomXchg 11 mHigh)
    ∧ decode 2 [0xF1AC, 0x4403, 0x1024] = .ok (.atomCas 12 mLow)
    ∧ decode 2 [0xF1C0, 0xC300, 0x1723] = .ok (.ldtr 5 200 7 .b4 6)
    ∧ decode 2 [0xF680, 0x6244, 0x0020] = .ok (.brd 0x0020 3 false 9 4)
    ∧ decode 2 [0xF680, 0xFFFF, 0xFFF0] = .ok (.brd 0xFFF0 7 true 63 63) :=
  ⟨rfl, rfl, rfl, rfl, rfl, rfl, rfl, rfl, rfl, rfl, rfl, rfl, rfl, rfl⟩

/-- Words written out from the tables, by layout (R131). -/
theorem test_decode_copy_engine :
    decode 2 [0xF400, 0xC400, 0x0420] = .ok (.cpyPlain { src := 1, dst := 2, desc := 3, dsp := .scratch, ssp := .global, pkg := false })
    ∧ decode 2 [0xF400, 0xCD50, 0x0420] = .ok (.cpyCanon { src := 1, dst := 2, desc := 3, dsp := .scratch, ssp := .global, pkg := true } .cbk)
    ∧ decode 2 [0xF400, 0xD020, 0x0420] = .ok (.cpyNorms { src := 1, dst := 2, desc := 3, dsp := .global, ssp := .global, pkg := false } .e4m3)
    ∧ decode 2 [0xF400, 0xDC00, 0x0420] = .ok (.cpyVer { src := 1, dst := 2, desc := 3, dsp := .scratch, ssp := .global, pkg := false })
    ∧ decode 2 [0xF400, 0xE200, 0x0420] = .ok (.cpyMcast { src := 1, dst := 2, desc := 3, dsp := .global, ssp := .scratch, pkg := false })
    ∧ decode 2 [0xF415, 0x1500, 0x0420] = .ok (.cpyo 5 1 2 .e4m3 .scratch true) :=
  ⟨rfl, rfl, rfl, rfl, rfl, rfl⟩

/-- Words written out from the tables, by layout (R131). -/
theorem test_decode_matrix :
    decode 2 [0xF425, 0x24FF, 0x0400] = .ok (.kbind 5 1 .d64 .d32 0xFF)
    ∧ decode 2 [0xF435, 0x0000, 0x0000] = .ok (.kfree 5)
    ∧ decode 2 [0xF440, 0x0007, 0x0400] = .ok (.mzero 1 7)
    ∧ decode 2 [0xF455, 0x37FB, 0x0420] = .ok (.mma 5 1 2 .e2m1 7 251)
    ∧ decode 2 [0xF465, 0xE000, 0x0420] = .ok (.msamp 5 1 2 3 .e4m3e5m2)
    ∧ decode 2 [0xF475, 0x00F9, 0x0000] = .ok (.mstat 5 249)
    ∧ decode 2 [0xF480, 0x0007, 0x0420] = .ok (.acheck 1 2 7)
    ∧ decode 2 [0xF490, 0xD807, 0x0420] = .ok (.adrain 1 2 3 .sgdm true 7)
    ∧ decode 2 [0xF4A0, 0x0000, 0x0420] = .ok (.lsupd 1 2) :=
  ⟨rfl, rfl, rfl, rfl, rfl, rfl, rfl, rfl, rfl⟩

/-- Words written out from the tables, by layout (R131). -/
theorem test_decode_directory_channels :
    decode 2 [0xF500, 0xC000, 0x0420] = .ok (.treg 1 2 3)
    ∧ decode 2 [0xF510, 0x0000, 0x0400] = .ok (.tdrop 1)
    ∧ decode 2 [0xF520, 0xC000, 0x0420] = .ok (.tmove 1 2 3)
    ∧ decode 2 [0xF530, 0xDD3E, 0x0420] = .ok (.solicit 1 2 3 .count true 62)
    ∧ decode 2 [0xF549, 0x0000, 0x0000] = .ok (.reply 9)
    ∧ decode 2 [0xF580, 0x00FB, 0x0400] = .ok (.chsend 1 251)
    ∧ decode 2 [0xF590, 0x0003, 0x0400] = .ok (.chrecv 1 3)
    ∧ decode 2 [0xF5C9, 0x0000, 0x0400] = .ok (.spawn 9 1)
    ∧ decode 2 [0xF5D0, 0x0000, 0x0420] = .ok (.launch 1 2)
    ∧ decode 2 [0xF600, 0x18FA, 0x0420] = .ok (.sld 1 2 .acqRel .package 250)
    ∧ decode 2 [0xF610, 0xEC00, 0x0420] = .ok (.sst 1 2 3 .sc .system)
    ∧ decode 2 [0xF700, 0x0FFA, 0x0000] = .ok (.pmrd 15 250)
    ∧ decode 2 [0xF710, 0x0300, 0x0400] = .ok (.pmctl 1 3) :=
  ⟨rfl, rfl, rfl, rfl, rfl, rfl, rfl, rfl, rfl, rfl, rfl, rfl, rfl⟩

/-- An ill-formed strand instruction for each check of R119 to R125 is refused. -/
theorem test_illFormed_strand :
    Instr.wf (.putg 252) = false
    ∧ Instr.wf (.mov (.rev 3)) = false
    ∧ Instr.wf (.mlat (.g 255)) = false
    ∧ Instr.wf (.fadd (.lane 3 0)) = false
    ∧ Instr.wf (.strandHeader 0 0 true) = false
    ∧ Instr.wf (.faddL 0 (.bfly 9 5)) = false
    ∧ Instr.wf (.faddL 0 (.rot 9 0)) = false
    ∧ Instr.wf (.faddL 0 (.rev 252)) = false
    ∧ Instr.wf (.faddL 0 (.lane 254 1)) = false
    ∧ Instr.wf (.movL 0 (.g 9) true) = false
    ∧ Instr.wf (.mlatL 0 (.s 9) true) = false
    ∧ Instr.wf (.putgL 0 253) = false
    ∧ Instr.wf (.cvt .rne 0 .bf16f32 true) = false
    ∧ Instr.wf (.fdiv 0 (.g 252)) = false
    ∧ Instr.wf (.selp 0 (.rev 1) 0) = false
    ∧ Instr.wf (.fcmp .eq 0 (.g 1) 0 .set) = false
    ∧ Instr.wf (.icmp .eq 0 (.rot 1 1) 1 .set) = false
    ∧ Instr.wf (.bfe 0 (.g 252) 0) = false
    ∧ Instr.wf (.faddx 0 (.bfly 1 1) .rne) = false
    ∧ Instr.wf (.hadd2 0 (.lane 1 1) .f16 .rne) = false
    ∧ Instr.wf (.shfli 0 252) = false
    ∧ Instr.wf (.qx 0 .h 252) = false
    ∧ Instr.wf (.putp 0 .z 0) = false
    ∧ Instr.wf (.kwin 0 (.g 1)) = false
    ∧ Instr.wf (.knext 0 0 0) = false
    ∧ Instr.wf (.unpk 0 true 252) = false :=
  ⟨rfl, rfl, rfl, rfl, rfl, rfl, rfl, rfl, rfl, rfl, rfl, rfl, rfl, rfl, rfl, rfl, rfl, rfl, rfl, rfl, rfl, rfl, rfl, rfl, rfl, rfl⟩

/-- An ill-formed control instruction for each check of R127 and R132 is refused. -/
theorem test_illFormed_control :
    Instr.wf (.brany true 0 0) = false
    ∧ Instr.wf (.brall true 0 0) = false
    ∧ Instr.wf (.call 0 0) = false
    ∧ Instr.wf (.loop0 1 0) = false
    ∧ Instr.wf (.loop1 1 257) = false
    ∧ Instr.wf (.loopi2 1 0) = false
    ∧ Instr.wf (.claimp 1 0) = false
    ∧ Instr.wf (.part 0) = false
    ∧ Instr.wf (.part 6) = false
    ∧ Instr.wf (.trap 0x3F) = false
    ∧ Instr.wf (.ipin 0 0) = false
    ∧ Instr.wf (.iunpin 0 0) = false
    ∧ Instr.wf (.brd 0 0 true 1 1) = false :=
  ⟨rfl, rfl, rfl, rfl, rfl, rfl, rfl, rfl, rfl, rfl, rfl, rfl, rfl⟩

/-- An ill-formed memory or engine instruction for each check of R129 to R131 is refused. -/
theorem test_illFormed_memory :
    Instr.wf (.ldB32 0 { mLow with idx := 252 }) = false
    ∧ Instr.wf (.stB8 0 { mLow with idx := 255 }) = false
    ∧ Instr.wf (.atomCas 0 { mLow with idx := 252 }) = false
    ∧ Instr.wf (.ldtr 1 250 2 .b16 1) = false
    ∧ Instr.wf (.cpyVer { cpyAny with desc := 63 }) = false
    ∧ Instr.wf (.cpyMcast { cpyAny with desc := 63 }) = false
    ∧ Instr.wf (.cpyMcast { cpyAny with pkg := true }) = false
    ∧ Instr.wf (.mma 0 1 1 .bf16 0 252) = false
    ∧ Instr.wf (.msamp 0 1 1 63 .bf16) = false
    ∧ Instr.wf (.msamp 0 1 1 1 .e2m1) = false
    ∧ Instr.wf (.mstat 0 250) = false
    ∧ Instr.wf (.solicit 1 1 1 .iadd false 0) = false
    ∧ Instr.wf (.solicit 1 1 1 .iadd false 63) = false
    ∧ Instr.wf (.chsend 1 252) = false
    ∧ Instr.wf (.chrecv 1 252) = false
    ∧ Instr.wf (.sld 1 1 .plain .core 3) = false
    ∧ Instr.wf (.sld 1 1 .plain .core 252) = false
    ∧ Instr.wf (.pmrd 0 251) = false :=
  ⟨rfl, rfl, rfl, rfl, rfl, rfl, rfl, rfl, rfl, rfl, rfl, rfl, rfl, rfl, rfl, rfl, rfl, rfl⟩

/-- A step that names no agent of the machine is refused. -/
theorem test_illFormed_steps :
    Instr.wf (.strandStart 3 0 0) = false
    ∧ Instr.wf (.sliceEnd 3 0) = false
    ∧ Instr.wf (.pmaskWrite 192 0) = false
    ∧ Instr.wf (.pcfgWrite 192 0) = false
    ∧ Instr.wf (.portKeynew frame) = false
    ∧ Instr.wf (.portKeykill frame) = false
    ∧ Instr.wf (.portClass frame) = false
    ∧ Instr.wf (.portPcap frame) = false
    ∧ Instr.wf (.portErrread frame) = false
    ∧ Instr.wf (.portTelem frame) = false
    ∧ Instr.wf (.portReset frame) = false
    ∧ Instr.wf (.tripclr frame) = false
    ∧ Instr.wf (.portState frame) = false
    ∧ Instr.wf (.thermalThrottle 3) = false
    ∧ Instr.wf (.thermalTrip 3) = false
    ∧ Instr.wf (.linkDown 12 []) = false
    ∧ Instr.wf (.linkUp 12) = false
    ∧ Instr.wf (.errorCorrected 0 { die := 0, unit := 5 }) = false
    ∧ Instr.wf (.errorUncorrectable 0 { die := 0, unit := 5 } true) = false
    ∧ Instr.wf (.bringUp 8) = false
    ∧ Instr.wf (.mailboxUnknownOp 7) = false
    ∧ Instr.wf (.portUnknownOp { frame with op := 0x12 }) = false :=
  ⟨rfl, rfl, rfl, rfl, rfl, rfl, rfl, rfl, rfl, rfl, rfl, rfl, rfl, rfl, rfl, rfl, rfl, rfl, rfl, rfl, rfl, rfl⟩

/-! Concrete states that meet the hypotheses of the statements, one theorem for each statement. -/

/-- A warp of 32 threads with nothing under way. -/
def warp0 : Warp :=
  { wid := 0, age := 0, active := BitVec.allOnes 32, tids := List.range 32, census := [], granules := 63, reserveGranules := 0, g := [], k := [],
    latch := [], p := [], presG := BitVec.allOnes 256, presP := 255, bind := [], mstat := [], ectr := [], pc := 0x40000, hdr := 0xC000,
    uni := { s := [], lc := [], loops := [], part := 5, actl := 0, handler := false }, seq := 0, queues := List.replicate 8 [], started := [],
    ops := [], reports := [], storeQ := [], fences := [], spc := [], fepc := 0, trapCode := 0, trapAddr := 0, held := none, resume := none,
    block := .none, stopping := none, halted := false, stopped := false, dataFault := none, clkHi := none, lscale := 0, skipBp := none,
    stepping := none, haltWait := [], passed := 0, fetchFault := none }

/-- A workgroup: number 2 of gang 1, with a handler and the solicit and sampler flags. -/
def group0 : Workgroup :=
  { (probeGrid 2).workgroup probeAsid 1 2 0 0 1 0 0 0 true false with header := (probeLaunch 2).header ||| 1, handler := 0x50000, poolFree := 5 }

/-- A package with one workgroup, whose warp 0 executes; the first GiB of its ASID 1 is mapped, and in the core's TLB. -/
def st (g : Workgroup) : State :=
  { State.reset with wgs := [g], dapBase := 0x1000000000, cur := some ⟨2, 0⟩, asids := [probeAsid], nextUid := 100,
                     gangs := [{ uid := 1, grid := 0, size := 1, members := [2], partition := 0, channels := [] }],
                     tlb := [{ core := 0, asid := 1, vpn := 0, leaf := 0x2D, level := 2 }], mgmt := { Mgmt.reset with keys := [(1, 9)] } }

/-- With one warp. -/
abbrev g1 (w : Warp) : Workgroup := { group0 with warps := [w] }
abbrev s1 (w : Warp) : State := st (g1 w)

theorem starts0 : State.reset.startsNow = true := by decide

theorem runs_of (s : State) (g : Workgroup) (w : Warp) (n : Nat) (u : Uses) (h : s.here = some (g, w)) (h0 : s.startsNow = true) (h1 : w.skipsStrand n = false)
    (h2 : nth [] w.queues (n % 8) = []) (h3 : w.started = []) (h4 : w.dataFault = none ∧ w.stopping = none) (h5 : ∀ r ∈ u.regs, r < 4 * w.granules)
    (h6 : ∀ r ∈ u.writesG, w.gPresent r = true) (h7 : ∀ p ∈ u.writesP, w.pPresent p = true) (h8 : w.pending = []) (h9 : w.ops = [])
    (ha : w.age = 0 := by rfl) : s.RunsNow g w n u :=
  ⟨h, h0, h1, h2, by simp [h3], fun _ _ _ _ => .inl (ha ▸ Nat.zero_le _), by simp [h3], h4, h5, h6, h7, by simp [h8], by simp [h9]⟩

theorem present0 (r : Nat) (h : r < 252) : (BitVec.allOnes 256).getLsbD r = true := by
  simp only [BitVec.getLsbD_allOnes, decide_eq_true_eq]; omega
theorem presentP0 : ∀ p, p < 8 → warp0.pPresent p = true := by decide
theorem empty0 : ∀ n, n < 16 → nth [] warp0.queues (n % 8) = [] := by decide

/-- A warp like the one above runs any instruction of its registers. -/
theorem runs0 (s : State) (g : Workgroup) (w : Warp) (n : Nat) (u : Uses) (hn : n < 16) (hs : s.here = some (g, w)) (h0 : s.startsNow = true)
    (h1 : w.resume = none) (h2 : w.queues = warp0.queues) (h3 : w.started = []) (h4 : w.dataFault = none ∧ w.stopping = none)
    (h5 : w.presG = warp0.presG ∧ w.presP = warp0.presP) (h8 : w.ops = [])
    (hr : u.regs.all (fun r => decide (r < 4 * w.granules)) = true) (hg : u.writesG.all (fun r => decide (r < 252)) = true)
    (hp : u.writesP.all (fun r => decide (r < 8)) = true)
    (ha : w.age = 0 := by rfl) : s.RunsNow g w n u :=
  runs_of s g w n u hs h0 (by simp [Warp.skipsStrand, h1]) (by rw [h2]; exact empty0 n hn) h3 h4 (fun r h => of_decide_eq_true (List.all_eq_true.mp hr r h))
    (fun r h => by simp only [Warp.gPresent, h5.1]; exact present0 r (of_decide_eq_true (List.all_eq_true.mp hg r h)))
    (fun p h => by simp only [Warp.pPresent, h5.2]; exact presentP0 p (of_decide_eq_true (List.all_eq_true.mp hp p h)))
    (by rw [Warp.pending, Warp.queued, h3, h2]; rfl) h8 ha

theorem header0 : group0.header.getLsbD 0 = true := by decide

theorem handles0 (s : State) (g : Workgroup) (w : Warp) (h : g.stop = .none) (hh : g.header = group0.header) (hs : s.isService g = false)
    (h1 : w.uni.handler = false) (h2 : w.started = []) (h3 : w.stopping = none) (h4 : w.halted = false) (h5 : w.resume = none) :
    Handles s g w := ⟨h, by rw [Workgroup.hasHandler, hh]; exact header0, h1, hs, h2, ⟨h3, h4⟩, h5⟩

theorem ready0 (n : Nat) (u : Uses) (hn : n < 16) (hr : u.regs.all (fun r => decide (r < 252)) = true) (hg : u.writesG.all (fun r => decide (r < 252)) = true)
    (hp : u.writesP.all (fun r => decide (r < 8)) = true) : (s1 warp0).RunsNow (g1 warp0) warp0 n u :=
  runs0 _ _ _ n u hn rfl rfl rfl rfl rfl ⟨rfl, rfl⟩ ⟨rfl, rfl⟩ rfl hr hg hp

theorem witness_IntegerResults :
    (∃ o, integerOp (.iaddL 15 (.bfly 251 4)) = some o ∧ Ready o (s1 warp0) (g1 warp0) warp0)
    ∧ (∃ o, shiftOp (.shl (.imm 255)) = some o ∧ Ready o (s1 warp0) (g1 warp0) warp0)
    ∧ (∃ o, bitOp (.bfe 0 (.g 251) 31) = some o ∧ Ready o (s1 warp0) (g1 warp0) warp0) :=
  ⟨⟨_, rfl, ready0 _ _ (by decide) rfl rfl rfl⟩, ⟨_, rfl, ready0 _ _ (by decide) rfl rfl rfl⟩, ⟨_, rfl, ready0 _ _ (by decide) rfl rfl rfl⟩⟩

/-- Division by −1, the boundary of the immediates, and by zero. -/
theorem witness_DivisionResults :
    (∃ o, divisionOp (.idiv 0 (.imm 255)) = some o ∧ Ready o (s1 warp0) (g1 warp0) warp0
      ∧ ∀ l, l < 32 → (warp0.exec warp0.hdr).getLsbD l = true → operandOf warp0 o.imm l o.src ≠ 0)
    ∧ ∃ o, divisionOp (.zrem 15 (.imm 0)) = some o ∧ Ready o (s1 warp0) (g1 warp0) warp0 ∧ Handles (s1 warp0) (g1 warp0) warp0
      ∧ ∃ l, l < 32 ∧ (warp0.exec warp0.hdr).getLsbD l = true ∧ operandOf warp0 o.imm l o.src = 0 :=
  ⟨⟨_, rfl, ready0 _ _ (by decide) rfl rfl rfl, fun _ _ _ => show immI 255 ≠ 0 by decide⟩,
   ⟨_, rfl, ready0 _ _ (by decide) rfl rfl rfl, handles0 _ _ _ rfl rfl rfl rfl rfl rfl rfl rfl, 31, by decide, by decide, by decide⟩⟩

/-- Every lane of accumulator 0 holds the largest finite number; the trap of OF, the last of the three, is enabled. -/
def warpMax : Warp := { warp0 with k := [List.replicate 32 0x7F7FFFFF#32], uni := { warp0.uni with actl := 0x40 } }

theorem witness_FloatResults :
    (∃ o, floatOp (.fmul (.imm 0x7E)) = some o ∧ (s1 warp0).RunsNow (g1 warp0) warp0 (strandOf warp0 o.n) (usesOf o.src)
      ∧ ∀ j, ¬FlagTraps o (g1 warp0) warp0 j)
    ∧ ∃ o, floatOp (.fmul (.imm 0x7E)) = some o ∧ (s1 warpMax).RunsNow (g1 warpMax) warpMax (strandOf warpMax o.n) (usesOf o.src)
      ∧ Handles (s1 warpMax) (g1 warpMax) warpMax ∧ FlagTraps o (g1 warpMax) warpMax 2 ∧ ∀ j, j < 2 → ¬FlagTraps o (g1 warpMax) warpMax j :=
  ⟨⟨_, rfl, ready0 _ _ (by decide) rfl rfl rfl, fun j h => absurd h.2.2 (by simp [warp0])⟩,
   ⟨_, rfl, runs0 _ _ _ _ _ (by decide) rfl rfl rfl rfl rfl ⟨rfl, rfl⟩ ⟨rfl, rfl⟩ rfl rfl rfl rfl, handles0 _ _ _ rfl rfl rfl rfl rfl rfl rfl rfl,
    ⟨by decide, ⟨31, by decide, by decide, by decide⟩, by decide⟩, fun j hj h => by
      have h' := h.2.2; revert h'; revert hj; clear h; revert j; decide⟩⟩

/-- The least signalling NaN, infinities, zeros and the least subnormal number, with and without FTZ. -/
theorem witness_FloatSpecialOperands :
    (∃ x y, addends .rsub (seen false 0x7F800001) (seen false 0) = some (x, y) ∧ isNaN32 (seen false 0x7F800001) = true)
    ∧ (∃ x y, addends .sub (seen false 0x7F800000) (seen false 0x7F800000) = some (x, y) ∧ isInf32 x = true ∧ isInf32 y = true ∧ x ≠ y)
    ∧ (∃ x y, addends .add (seen false 0x7F800000) (seen false 0x7F7FFFFF) = some (x, y) ∧ isInf32 x = true ∧ isNaN32 y = false ∧ (isInf32 y = true → x = y))
    ∧ (∃ x y z, factors .mul (seen true 0x007FFFFF) (seen true 0x7F800000) (seen true 0) = some (x, y, z) ∧ isZero32 x = true ∧ isInf32 y = true)
    ∧ (∃ x y z, factors .mac (seen false 0x7F800001) (seen false 1) (seen false 1) = some (x, y, z)
        ∧ ¬(isZero32 x = true ∧ isInf32 y = true ∨ isInf32 x = true ∧ isZero32 y = true)
        ∧ (isNaN32 x = true ∨ isNaN32 y = true ∨ ∃ c, z = some c ∧ isNaN32 c = true))
    ∧ (∃ x y z c, factors .mla (seen false 0x7F800000) (seen false 0xFF800000) (seen false 1) = some (x, y, z) ∧ z = some c
        ∧ (isInf32 x = true ∨ isInf32 y = true) ∧ isZero32 x = false ∧ isZero32 y = false ∧ isNaN32 x = false ∧ isNaN32 y = false
        ∧ isInf32 c = true ∧ c ≠ signedBy 0x7F800000#32 x y)
    ∧ (isFinite32 (seen false 1) = true ∧ isZero32 (seen false 1) = false ∧ isZero32 (seen true 0x807FFFFF) = true)
    ∧ (isFinite32 (seen false 0x7F7FFFFF) = true ∧ isInf32 (seen false 0xFF800000) = true)
    ∧ (isNaN32 (seen false 0xFFFFFFFF) = true ∧ isNaN32 (seen false 0x7F800000) = false)
    ∧ (isZero32 (seen true 1) = true ∧ isZero32 (seen true 0x80000001) = true ∧ seen true 1 ≠ seen true 0x80000001) :=
  ⟨⟨_, _, rfl, by decide⟩, ⟨_, _, rfl, by decide⟩, ⟨_, _, rfl, by decide⟩, ⟨_, _, _, rfl, by decide⟩,
   ⟨_, _, _, rfl, by decide, .inr (.inr ⟨_, rfl, by decide⟩)⟩, ⟨_, _, _, _, rfl, rfl, by decide⟩, by decide, by decide, by decide, by decide⟩

/-- FP32: a product that underflows, one that FTZ flushes, a sum that rounds, one that overflows, an exact zero, a quotient of the extremes, and a larger
one of two numbers; both halves of a packed sum, one of which overflows. -/
theorem witness_FloatRounding :
    (∃ v, exactOf binary32 .mul 1 1 0 = some v ∧ ¬Beyond binary32 .ru (2 ^ 149) v ∧ Tiny binary32 .ru (2 ^ 149) v ∧ finiteIn binary32 1 = true)
    ∧ (∃ v, exactOf binary32 .mul 0x00800000 0x80800000 0 = some v ∧ ¬Beyond binary32 .rd (2 ^ 149) v ∧ Tiny binary32 .rd (2 ^ 149) v
        ∧ (seen true 0x00800000).toNat = 0x00800000 ∧ (seen true 0x80800000).toNat = 0x80800000)
    ∧ (∃ v, exactOf binary32 .add 0x7F7FFFFF 1 0 = some v ∧ ¬Beyond binary32 .rne (2 ^ 149) v ∧ ¬Tiny binary32 .rne (2 ^ 149) v)
    ∧ (∃ v, exactOf binary32 .mac 0x7F7FFFFF 0x7F7FFFFF 0x7F7FFFFF = some v ∧ Beyond binary32 .rz (2 ^ 149) v ∧ finiteIn binary32 0x7F7FFFFF = true)
    ∧ (exactOf binary32 .sub 0x80000001 0x80000001 0 = some 0 ∧ addendsBy (flipIn binary32) .sub 0x80000001 0x80000001 ≠ none)
    ∧ (zeroIn binary32 0x80000001 = false ∧ finiteIn binary32 0xFF7FFFFF = true ∧ zeroIn binary32 0x80000000 = true)
    ∧ (zeroIn binary32 0 && zeroIn binary32 0x80000001) = false
    ∧ ∃ v u, exactOf (packedFormat .f16) .add (0xFBFF7BFF % 65536) (0x00017BFF % 65536) 0 = some v ∧ Beyond binary16 .rne (2 ^ 149) v
        ∧ exactOf (packedFormat .f16) .add (0xFBFF7BFF / 65536) (0x00017BFF / 65536) 0 = some u ∧ ¬Beyond binary16 .rne (2 ^ 149) u :=
  ⟨⟨_, rfl, by unfold Beyond; decide, by unfold Tiny; decide, by decide⟩, ⟨_, rfl, by unfold Beyond; decide, by unfold Tiny; decide, by decide, by decide⟩,
   ⟨_, rfl, by unfold Beyond; decide, by unfold Tiny; decide⟩, ⟨_, rfl, by unfold Beyond; decide, by decide⟩, ⟨by decide, by decide⟩, by decide, by decide,
   _, _, rfl, by unfold Beyond packedFormat; decide, rfl, by unfold Beyond packedFormat; decide⟩

/-- Conversions: at and beyond the limits of the narrower formats, to integers at the ends of their ranges, from every format; the rows of SFU's table at the
ends of their ranges; a packed half with a signalling NaN, one with infinities that cancel, one with an infinity times a zero. -/
theorem witness_ConversionsAndFunctions :
    (narrowTo .f32e2m1 = some e2m1 ∧ Beyond e2m1 .rne 1 (units 0x40E00001) ∧ ¬Beyond e2m1 .rne 1 (units 0xC0C00000) ∧ isFinite32 (seen true 0x40E00001) = true)
    ∧ (narrowTo .f32e4m3 = some e4m3 ∧ Beyond e4m3 .rne 1 (units 0xFF7FFFFF) ∧ ¬Beyond e4m3 .rne 1 (units 0x00000001) ∧ Tiny e4m3 .rne 1 (units 0x00000001))
    ∧ (narrowTo .f32f16 = some binary16 ∧ isInf32 (seen true 0xFF800000) = true ∧ isNaN32 (seen false 0x7F800001) = true)
    ∧ (integerRange .f32i32 = some (-2147483648, 2147483647) ∧ RoundedToInteger .rne (units 0xCF000000) (-2147483648)
        ∧ RoundedToInteger .rd (units 0x4F000000) 2147483648 ∧ RoundedToInteger .ru (units 0x80000001) 0)
    ∧ (integerRange .f32z32 = some (0, 4294967295) ∧ RoundedToInteger .rne (units 0x4F7FFFFF) 4294967040 ∧ RoundedToInteger .rz (units 0xBF800000) (-1)
        ∧ RoundedToInteger .rne (units 0x3F000000) 0)
    ∧ (¬Beyond binary32 .rne 1 ((0x80000000#32 : Word).toInt * 2 ^ 149) ∧ ¬Tiny binary32 .rne 1 ((0xFFFFFFFF#32 : Word).toNat * 2 ^ 149))
    ∧ (widenFrom .e5m2f32 = some e5m2 ∧ finiteIn e5m2 0x7B = true ∧ infiniteIn e5m2 0xFC = true ∧ nanIn e5m2 0x7D = true ∧ signallingIn e5m2 0x7D = true
        ∧ nanIn e4m3 0xFF = true ∧ signallingIn e4m3 0xFF = false)
    ∧ (isZero32 (seen true 0x807FFFFF) = true ∧ 0 < units 1 ∧ units 0x00400000 = 2 ^ 22 ∧ units 0x7F000000 = 2 ^ 276 ∧ units 1 = 2 ^ 0
        ∧ units 0x7F800000 ≠ 0 ∧ (units 0x80200000).natAbs ≤ 2 ^ 21)
    ∧ (units 0x43000000 = 128 * 2 ^ 149 ∧ units 0xC3150000 = -149 * 2 ^ 149 ∧ units 0xC3160001 < -150 * 2 ^ 149)
    ∧ (units 0x4B800001 % 2 ^ 149 = 0 ∧ 2 * (units 0xBF000000 % 2 ^ 149) = 2 ^ 149 ∧ (37 * 2 ^ 149 : Int) ≤ 4 * (units 0xC1140000).natAbs)
    ∧ (nanIn binary16 0x7C01 = true ∧ signallingIn binary16 0x7C01 = true ∧ infiniteIn bfloat16 0xFF80 = true ∧ flipIn bfloat16 0xFF80 = 0x7F80
        ∧ zeroIn bfloat16 0x8000 = true) :=
  ⟨⟨rfl, by unfold Beyond; decide, by unfold Beyond; decide, by decide⟩, ⟨rfl, by unfold Beyond; decide, by unfold Beyond; decide, by unfold Tiny; decide⟩,
   ⟨rfl, by decide, by decide⟩, ⟨rfl, by unfold RoundedToInteger; decide, by unfold RoundedToInteger; decide, by unfold RoundedToInteger; decide⟩,
   ⟨rfl, by unfold RoundedToInteger; decide, by unfold RoundedToInteger; decide, by unfold RoundedToInteger; decide⟩,
   ⟨by unfold Beyond; decide, by unfold Tiny; decide⟩, ⟨rfl, by decide⟩, by decide, by decide, by decide, by decide⟩

theorem witness_MovesAndHeaders :
    (∃ o, latchOp (.mlatL 15 (.imm 0x80) true) = some o ∧ Ready o (s1 warp0) (g1 warp0) warp0)
    ∧ (∃ n r, putgOp (.putg 251) = some (n, r) ∧ (s1 warp0).RunsNow (g1 warp0) warp0 (strandOf warp0 n) { regs := [r.toNat], writesG := [r.toNat] })
    ∧ (∃ n, nopOp (.nopL 15) = some n ∧ (s1 warp0).RunsNow (g1 warp0) warp0 (strandOf warp0 n) {})
    ∧ (s1 warp0).here = some (g1 warp0, warp0) :=
  ⟨⟨_, rfl, ready0 _ _ (by decide) rfl rfl rfl⟩, ⟨_, _, rfl, ready0 _ _ (by decide) rfl rfl rfl⟩, ⟨_, rfl, ready0 _ _ (by decide) rfl rfl rfl⟩, rfl⟩

theorem witness_PredicateInstructions :
    (s1 warp0).RunsNow (g1 warp0) warp0 (15 : BitVec 4).toNat (compareUses (.g 251) 7 .and)
    ∧ (s1 warp0).RunsNow (g1 warp0) warp0 (0 : BitVec 4).toNat { writesP := [(1 : BitVec 3).toNat] }
    ∧ ∀ j, j < 3 → (∃ l, l < 32 ∧ (warp0.exec warp0.hdr).getLsbD l = true
        ∧ (fcmpLane .lt (actlFtz warp0.uni.actl) (laneOf ((g1 warp0).kval warp0 0) l) (operandOf warp0 widenE l (.imm 0x7F))).2.getLsbD j = true) →
        warp0.uni.actl.getLsbD (4 + j) = false :=
  ⟨ready0 _ _ (by decide) rfl rfl rfl, ready0 _ _ (by decide) rfl rfl rfl, fun _ _ _ => by simp [warp0]⟩

/-- A kernel under compat16, its warp with tiles of 16 threads. -/
def warp16 : Warp := { warp0 with uni := { warp0.uni with part := 4 } }
def group16 : Workgroup := { group0 with header := group0.header ||| 0x100000000000000#64, warps := [warp16] }

theorem witness_LaneReadsAndVotes :
    (s1 warp0).RunsNow (g1 warp0) warp0 (15 : BitVec 4).toNat { regs := srcGregs (.g 251), readsG := srcGregs (.g 251), readsP := [(7 : BitVec 3).toNat] }
    ∧ (∃ n r f, shuffleOp (.shfl16 15 251) = some (n, r, f) ∧ (s1 warp0).RunsNow (g1 warp0) warp0 n.toNat { regs := [r.toNat], readsG := [r.toNat] })
    ∧ (s1 warp0).RunsNow (g1 warp0) warp0 (0 : BitVec 4).toNat { regs := [(251 : BitVec 8).toNat], readsG := [(251 : BitVec 8).toNat] }
    ∧ (s1 warp0).RunsNow (g1 warp0) warp0 (0 : BitVec 4).toNat { readsP := [(7 : BitVec 3).toNat] } ∧ (g1 warp0).compat16 = false
    ∧ (st group16).RunsNow group16 warp16 (0 : BitVec 4).toNat { readsP := [(7 : BitVec 3).toNat] } ∧ group16.compat16 = true ∧ warp16.uni.part ≤ 4 :=
  ⟨ready0 _ _ (by decide) rfl rfl rfl, ⟨_, _, _, rfl, ready0 _ _ (by decide) rfl rfl rfl⟩, ready0 _ _ (by decide) rfl rfl rfl,
   ready0 _ _ (by decide) rfl rfl rfl, by decide, runs0 _ _ _ _ _ (by decide) rfl rfl rfl rfl rfl ⟨rfl, rfl⟩ ⟨rfl, rfl⟩ rfl rfl rfl rfl, by decide, by decide⟩

theorem witness_TreeOperations :
    (s1 warp0).RunsNow (g1 warp0) warp0 (15 : BitVec 4).toNat {}
    ∧ flagTrap warp0.uni.actl (redLanes .fadd warp0.uni.actl (warp0.exec warp0.hdr) 5 ((g1 warp0).kval warp0 15)).2 = none
    ∧ flagTrap warp0.uni.actl (scanLanes .fmax true warp0.uni.actl (warp0.exec warp0.hdr) 5 ((g1 warp0).kval warp0 15)).2 = none
    ∧ ∃ f z, integerTree .zmin = some (f, z) ∧ warp0.uni.part ≤ 5 :=
  ⟨ready0 _ _ (by decide) rfl rfl rfl, by decide, by decide, _, _, rfl, by decide⟩

/-- Uniform registers: s1 the highest even address, s2 an odd one, s3 the bitmap of every granule, s4 2^32. -/
def warpS : Warp := { warp0 with uni := { warp0.uni with s := [0, 0xFFFFFFFFFFFE, 0x40001, 0xFFFFFFFFFFFFFFFF, 0x100000000] } }

theorem front0 (s : State) (g : Workgroup) (w : Warp) (h : s.here = some (g, w)) (h1 : w.resume = none) : s.FrontNow g w :=
  ⟨h, by simp [Warp.skipsFront, h1]⟩

theorem witness_BranchesAndCalls :
    ((s1 warpS).FrontNow (g1 warpS) warpS ∧ warpS.drained = true ∧ (∃ c, branchOp warpS (.brall true 7 0x8000) = some (c, 0x8000) ∧ HalvesAgree (g1 warpS) warpS c)
      ∧ (∃ c, branchOp warpS (.brany false 7 0x7FFF) = some (c, 0x7FFF) ∧ c warpS.active = false)
      ∧ (∃ c, branchOp warpS (.brs 63 0x7FFF) = some (c, 0x7FFF) ∧ c warpS.active = false))
    ∧ ((st group16).FrontNow group16 warp16 ∧ ∃ c, branchOp warp16 (.brall true 7 0x8000) = some (c, 0x8000) ∧ HalvesAgree group16 warp16 c)
    ∧ (0 < (63 : BitVec 6).toNat ∧ warpS.ops = [])
    ∧ ((warpS.sreg 1).toNat < 2 ^ 48 ∧ (warpS.sreg 1).getLsbD 0 = false)
    ∧ (Handles (s1 warpS) (g1 warpS) warpS ∧ (warpS.sreg 2).toNat < 2 ^ 48 ∧ (warpS.sreg 2).getLsbD 0 = true) :=
  ⟨⟨front0 _ _ _ rfl rfl, rfl, ⟨_, rfl, .inl (by decide)⟩, ⟨_, rfl, by decide⟩, ⟨_, rfl, by decide⟩⟩,
   ⟨front0 _ _ _ rfl rfl, _, rfl, .inr (.inr (.inr (by decide)))⟩, ⟨by decide, rfl⟩, by decide,
   handles0 _ _ _ rfl rfl rfl rfl rfl rfl rfl rfl, by decide⟩

/-- A loop that ends at the warp's pc: in its last pass, and with passes left. -/
def warpLoop (count : Word) : Warp := { warp0 with uni := { warp0.uni with loops := [⟨0x3FFF0, 0x40000⟩], lc := [count, 0, 0] } }

theorem witness_HardwareLoops :
    ((s1 warpS).FrontNow (g1 warpS) warpS ∧ warpS.drained = true ∧ (∃ n c, loopOp warpS (.loopi0 63 256) = some (n, c, 256) ∧ c ≠ 0 ∧ ¬LoopTraps warpS n c 256)
      ∧ (∃ n c, loopOp warpS (.loop0 0 1) = some (n, c, 1) ∧ c = 0 ∧ ¬LoopTraps warpS n c 1)
      ∧ (∃ n c, loopOp warpS (.loop0 4 1) = some (n, c, 1) ∧ LoopTraps warpS n c 1) ∧ (∃ n c, loopOp warpS (.loop1 0 1) = some (n, c, 1) ∧ LoopTraps warpS n c 1)
      ∧ Handles (s1 warpS) (g1 warpS) warpS)
    ∧ (∃ n c, loopOp (warpLoop 2) (.loopi1 1 1) = some (n, c, 1) ∧ LoopTraps (warpLoop 2) n c 1)
    ∧ ((s1 (warpLoop 1)).here = some (g1 (warpLoop 1), warpLoop 1) ∧ (warpLoop 1).uni.loops = [] ++ [⟨0x3FFF0, 0x40000⟩]
      ∧ (nth 0#32 (warpLoop 1).uni.lc 0).toNat ≤ 1)
    ∧ ((s1 (warpLoop 2)).here = some (g1 (warpLoop 2), warpLoop 2) ∧ 1 < (nth 0#32 (warpLoop 2).uni.lc 0).toNat ∧ (warpLoop 2).drained = true) :=
  ⟨⟨front0 _ _ _ rfl rfl, rfl, ⟨_, _, rfl, by decide, by rintro (h | h | ⟨f, h, _⟩) <;> revert h <;> decide⟩,
    ⟨_, _, rfl, rfl, by rintro (h | h | ⟨f, h, _⟩) <;> revert h <;> decide⟩, ⟨_, _, rfl, .inl (by decide)⟩, ⟨_, _, rfl, .inr (.inl (by decide))⟩,
    handles0 _ _ _ rfl rfl rfl rfl rfl rfl rfl rfl⟩,
   ⟨_, _, rfl, .inr (.inr ⟨⟨0x3FFF0, 0x40000⟩, by decide, rfl, by decide⟩)⟩, ⟨rfl, rfl, by decide⟩, ⟨rfl, by decide, rfl⟩⟩

theorem witness_SoftwareTraps :
    (s1 warp0).FrontNow (g1 warp0) warp0 ∧ Handles (s1 warp0) (g1 warp0) warp0 ∧ 0x40 ≤ (0x40 : BitVec 8).toNat ∧ (s1 warp0).debugOn (g1 warp0) = false :=
  ⟨front0 _ _ _ rfl rfl, handles0 _ _ _ rfl rfl rfl rfl rfl rfl rfl rfl, by decide, by decide⟩

theorem base0 : group0.baseGranules = 63 := by decide
theorem bins0 : 0 < group0.binsMax := by decide

/-- A deposit of lanes of a warp of this package. -/
theorem deposit0 (w : Warp) (x : LaneSet) (live : Nat → Bool) (a : BitVec 48) (h : w.uni.handler = false) (h1 : w.bind = []) (h2 : w.granules = 63)
    (h3 : w.storeQ = []) (h4 : w.block = .none) (h5 : depositBytes x ((List.range w.granules).filter live).length + 640 ≤ 262144)
    (h6 : (s1 w).hamperUsed (g1 w) = 0) : MayDeposit (s1 w) (g1 w) w x live a :=
  ⟨h, by simp [h1], h2.trans base0.symm, h3, by intro b hb; simp [group0, Grid.workgroup] at hb, bins0, by rw [h6]; omega, by simp [h4]⟩

/-- Under compat16, a predicate that holds in the low half alone: the high half enters a bin. An address above 2^48 in s4, with a handler. -/
def warp16p : Warp := { warp16 with p := [0, 0xFFFF] }
def group16p : Workgroup := { group16 with warps := [warp16p] }

theorem witness_BranchSplits :
    ((st group16p).FrontNow group16p warp16p ∧ warp16p.drained = true ∧ (∃ c, branchOp warp16p (.brany true 1 0x8000) = some (c, 0x8000) ∧ ¬HalvesAgree group16p warp16p c)
      ∧ (∃ c, branchOp warp16p (.brall false 1 0x7FFF) = some (c, 0x7FFF) ∧ ¬HalvesAgree group16p warp16p c)
      ∧ MayDeposit (st group16p) group16p warp16p (warp16p.active &&& highHalf) (fun r => decide (r < group16p.baseGranules)) warp16p.pc)
    ∧ (s1 warpS).FrontNow (g1 warpS) warpS ∧ Handles (s1 warpS) (g1 warpS) warpS ∧ 2 ^ 48 ≤ (warpS.sreg (3 : BitVec 6).toNat).toNat :=
  ⟨⟨front0 _ _ _ rfl rfl, rfl, ⟨_, rfl, by unfold HalvesAgree; decide⟩, ⟨_, rfl, by unfold HalvesAgree; decide⟩,
    rfl, by simp [warp16p, warp16, warp0], by decide, rfl, by intro b hb; simp [group16p, group16, group0, Grid.workgroup] at hb, by decide, by decide,
    by simp [group16p, warp16p, warp16, warp0]⟩,
   front0 _ _ _ rfl rfl, handles0 _ _ _ rfl rfl rfl rfl rfl rfl rfl rfl, by decide⟩

/-- `min` equal to the number of threads, and one above it. -/
theorem witness_Joins :
    (s1 warp0).FrontNow (g1 warp0) warp0 ∧ warp0.drained = true ∧ warp0.uni.handler = false ∧ (32 : BitVec 6).toNat ≤ laneCount warp0.active
    ∧ laneCount warp0.active < (33 : BitVec 6).toNat ∧ warp0.active ≠ 0
    ∧ MayDeposit (s1 warp0) (g1 warp0) warp0 warp0.active (fun i => decide (i < (g1 warp0).baseGranules)) (offsetTarget warp0 0x7FFF)
    ∧ warp0.ops = [] ∧ warp0.reserveGranules = 0 ∧ ∀ c ∈ (g1 warp0).cv, c.members.getLsbD warp0.wid = false :=
  ⟨front0 _ _ _ rfl rfl, rfl, rfl, by decide, by decide, by decide, deposit0 _ _ _ _ rfl rfl rfl rfl rfl (by decide) (by decide), rfl, rfl, by decide⟩

/-- p1 holds in half of the lanes, p2 in none. -/
def warpP : Warp := { warpS with p := [0, 0xFFFF] }

/-- Either side empty; and a tie, whose false side leaves, above and below the threshold. -/
theorem witness_Divergence :
    (s1 warpP).FrontNow (g1 warpP) warpP ∧ warpP.drained = true ∧ warpP.uni.handler = false ∧ takeLanes warpP 2 false = 0
    ∧ (takeLanes warpP 0 false ≠ 0 ∧ takeLanes warpP 0 false = warpP.active)
    ∧ (takeLanes warpP 1 false ≠ 0 ∧ takeLanes warpP 1 false ≠ warpP.active ∧ leaveLanes warpP 1 false 16 = 0xFFFF0000
      ∧ MayDeposit (s1 warpP) (g1 warpP) warpP (leaveLanes warpP 1 false 16) (fun i => (warpP.sreg 3).getLsbD i) (warpP.pc + 6))
    ∧ (leaveLanes warpP 1 false 15 = takeLanes warpP 1 false
      ∧ MayDeposit (s1 warpP) (g1 warpP) warpP (leaveLanes warpP 1 false 15) (fun i => (warpP.sreg 63).getLsbD i) (offsetTarget warpP 0x8000)) :=
  ⟨front0 _ _ _ rfl rfl, rfl, rfl, by decide, by decide,
   ⟨by decide, by decide, by decide, deposit0 _ _ _ _ rfl rfl rfl rfl rfl (by decide) (by decide)⟩,
   by decide, deposit0 _ _ _ _ rfl rfl rfl rfl rfl (by decide) (by decide)⟩

def warpH : Warp := { warp0 with uni := { warp0.uni with handler := true }, held := some { spc := List.replicate 16 0xC000000040010000#64, fepc := 0xC000000040020000#64 } }

theorem witness_BarredInHandlers :
    (s1 warpH).FrontNow (g1 warpH) warpH ∧ warpH.drained = true ∧ warpH.uni.handler = true ∧ warpH.block = .none ∧ warpH.stopping = none
    ∧ (g1 warpH).stop = .none ∧ (s1 warpH).isService (g1 warpH) = false ∧ barredInHandler (.claimp 0 1) = true :=
  ⟨front0 _ _ _ rfl rfl, rfl, rfl, rfl, rfl, rfl, by decide, rfl⟩

/-- 63 operations of a class outstanding; and a failure reported. -/
def warpE : Warp := { warp0 with ectr := [63] }
def warpR : Warp := { warp0 with reports := [⟨.cpy, 0x15, 0x3FF00, 0, 0⟩] }

theorem witness_Waits :
    ((s1 warpE).FrontNow (g1 warpE) warpE ∧ warpE.drained = true ∧ pendingReport warpE .cpy = none ∧ warpE.counter .cpy ≤ (63 : BitVec 6).toNat
      ∧ (62 : BitVec 6).toNat < warpE.counter .cpy)
    ∧ ((s1 warpR).FrontNow (g1 warpR) warpR ∧ warpR.drained = true ∧ ∃ r, pendingReport warpR .cpy = some r ∧ startsHandler r.code = true
      ∧ Handles (s1 warpR) (g1 warpR) warpR) :=
  ⟨⟨front0 _ _ _ rfl rfl, rfl, rfl, by decide, by decide⟩, front0 _ _ _ rfl rfl, rfl, _, rfl, by decide, handles0 _ _ _ rfl rfl rfl rfl rfl rfl rfl rfl⟩

/-- A second warp, that has not arrived at any barrier, or waits at BAR. -/
def warpB (b : Block) : Warp := { warp0 with wid := 1, age := 1, block := b }
def groupB (b : Block) : Workgroup := { group0 with warps := [warp0, warpB b] }

theorem witness_Barriers :
    ((st (groupB .none)).FrontNow (groupB .none) warp0 ∧ warp0.drained = true ∧ warp0.uni.handler = false ∧ warp0.block = .none ∧ warp0.storeQ = []
      ∧ (arrivedAt (groupB .none) warp0 .bar).barArrived + (arrivedAt (groupB .none) warp0 .bar).gbarArrivedThreads < (arrivedAt (groupB .none) warp0 .bar).liveThreads
      ∧ (arrivedAt (groupB .bar) warp0 .gbar).barArrived + (arrivedAt (groupB .bar) warp0 .gbar).gbarArrivedThreads ≤ (arrivedAt (groupB .bar) warp0 .gbar).liveThreads
      ∧ (arrivedAt (groupB .none) warp0 .gbar).barArrived + (arrivedAt (groupB .none) warp0 .gbar).gbarArrivedThreads < (arrivedAt (groupB .none) warp0 .gbar).liveThreads)
    ∧ ((st (groupB .bar)).FrontNow (groupB .bar) warp0 ∧ 0 < (arrivedAt (groupB .bar) warp0 .bar).liveThreads
      ∧ (arrivedAt (groupB .bar) warp0 .bar).barArrived = (arrivedAt (groupB .bar) warp0 .bar).liveThreads
      ∧ (arrivedAt (groupB .bar) warp0 .bar).gbarArrivedThreads = 0)
    ∧ (∀ arrived, ∃ y : Workgroup, y.gang = (groupB .gbar).gang ∧ y.uid ≠ (groupB .gbar).uid ∧ y.gbarArrived = arrived
      ∧ ({ st (groupB .gbar) with wgs := [groupB .gbar, y] } : State).FrontNow (groupB .gbar) warp0
      ∧ 0 < (arrivedAt (groupB .gbar) warp0 .gbar).liveThreads
      ∧ (arrivedAt (groupB .gbar) warp0 .gbar).gbarArrivedThreads = (arrivedAt (groupB .gbar) warp0 .gbar).liveThreads
      ∧ (arrivedAt (groupB .gbar) warp0 .gbar).barArrived = 0)
    ∧ (let h := arrivedAt (groupB .gbar) warp0 .bar
      (st (groupB .gbar)).FrontNow (groupB .gbar) warp0 ∧ h.barArrived + h.gbarArrivedThreads = h.liveThreads ∧ 0 < h.barArrived ∧ 0 < h.gbarArrivedThreads
        ∧ (groupB .gbar).stop = .none ∧ (groupB .gbar).hasHandler = true ∧ (st (groupB .gbar)).isService (groupB .gbar) = false
        ∧ ((groupB .gbar).warps.map Warp.wid).Nodup
        ∧ ∀ x ∈ h.warps, x.uni.handler = false ∧ x.started = [] ∧ x.resume = none ∧ x.stopping = none ∧ x.halted = false ∧ x.stopped = false) :=
  ⟨⟨front0 _ _ _ rfl rfl, rfl, rfl, rfl, rfl, by decide, by decide, by decide⟩, ⟨front0 _ _ _ rfl rfl, by decide, by decide, by decide⟩,
   fun b => ⟨{ group0 with uid := 3, gbarArrived := b }, rfl, (by decide : (3 : Nat) ≠ 2), rfl, front0 _ _ _ rfl rfl, by decide, by decide, by decide⟩,
   front0 _ _ _ rfl rfl, by decide, by decide, by decide, rfl, header0, by decide, by decide, by decide⟩

theorem witness_Exits :
    (s1 warp0).FrontNow (g1 warp0) warp0 ∧ warp0.drained = true ∧ warp0.storeQ = [] ∧ warp0.ops = [] ∧ warp0.reports = [] ∧ warp0.reserveGranules = 0
    ∧ (∀ l, l < 32 → warp0.active.getLsbD l = true → nth none warp0.census l = none) ∧ (∀ c ∈ (g1 warp0).cv, c.members.getLsbD warp0.wid = false)
    ∧ ∀ y ∈ (g1 warp0).warps, y.block = .none :=
  ⟨front0 _ _ _ rfl rfl, rfl, rfl, rfl, rfl, rfl, by decide, by decide, by decide⟩

/-- A warp of 61 granules; a warp asks for all that are free, and for one more. -/
def warp61 : Warp := { warp0 with granules := 61 }
def groupW : Workgroup := { group0 with warps := [warp61], poolFree := 1 }

theorem witness_RegisterPool :
    ((s1 warp61).FrontNow (g1 warp61) warp61 ∧ warp61.drained = true ∧ warp61.uni.handler = false ∧ warp61.block = .none
      ∧ ((61 : BitVec 6).toNat ≤ warp61.granules ∧ ∀ r, 4 * (warp61.granules - (61 : BitVec 6).toNat) ≤ r → r < 4 * warp61.granules → warp61.gPresent r = true)
      ∧ (warp61.granules + (2 : BitVec 6).toNat ≤ 63 ∧ (g1 warp61).poolQ = [] ∧ (2 : BitVec 6).toNat ≤ (g1 warp61).poolFree)
      ∧ (63 < warp61.granules + (3 : BitVec 6).toNat ∧ (1 : BitVec 3).toNat ≠ 0) ∧ Handles (s1 warp61) (g1 warp61) warp61 ∧ warp61.granules < (62 : BitVec 6).toNat)
    ∧ ((st groupW).FrontNow groupW warp61 ∧ 0 < (2 : BitVec 6).toNat ∧ warp61.granules + (2 : BitVec 6).toNat ≤ 63
      ∧ (groupW.poolQ ≠ [] ∨ groupW.poolFree < (2 : BitVec 6).toNat)) :=
  ⟨⟨front0 _ _ _ rfl rfl, rfl, rfl, rfl, ⟨by decide, fun r _ h => present0 r (by simp [warp61] at h; omega)⟩, by decide, by decide,
    handles0 _ _ _ rfl rfl rfl rfl rfl rfl rfl rfl, by decide⟩, front0 _ _ _ rfl rfl, by decide, by decide, by decide⟩

abbrev tlb0 : TlbEntry := { core := 0, asid := 1, vpn := 0, leaf := 0x2D, level := 2 }

/-- A resume below its FEPC. -/
def warpResume : Warp := { warp0 with resume := some { spc := List.replicate 16 0xC000000000040002#64, fepc := 0xC000000000040002#64 } }

theorem pinned0 (l : List Nat) : (st { g1 warp0 with pins := l }).pinned 0 = l.length := rfl

theorem witness_FrontEndState :
    ((s1 warp0).FrontNow (g1 warp0) warp0 ∧ (∀ q ∈ warp0.pending, q.isEngine = true)
    ∧ ∃ r, (g1 warp0).cv[(7 : BitVec 3).toNat]? = some r ∧ r.signs = 0)
    ∧ (128 ≤ (st { g1 warp0 with pins := List.range 128 }).pinned 0)
    ∧ ((∀ y ∈ (s1 warp0).wgs, y.uid = (g1 warp0).uid → y = g1 warp0) ∧ (offsetTarget warp0 0).toNat / 256 = 0x400
      ∧ MayFetch { s1 warp0 with tlb := [{ tlb0 with leaf := 0x35 }] } (g1 warp0) 0x400)
    ∧ ((s1 warpResume).here = some (g1 warpResume, warpResume) ∧ warpResume.skipsFront = true)
    ∧ (Handles (s1 warp0) (g1 warp0) warp0 ∧ ¬laneCount ((warp0.sreg 1).extractLsb' 0 32) = 1) :=
  ⟨⟨front0 _ _ _ rfl rfl, by decide, _, rfl, rfl⟩, by rw [pinned0]; simp, ⟨fun y hy _ => List.mem_singleton.mp hy, by decide, { tlb0 with leaf := 0x35 }, by decide⟩, ⟨rfl, by decide⟩,
   handles0 _ _ _ rfl rfl rfl rfl rfl rfl rfl rfl, by decide⟩

theorem witness_ScalarResults :
    (s1 warpS).FrontNow (g1 warpS) warpS ∧ (∃ v, scalarOp warpS (.sshl 63 3 2) = some (63, v)) ∧ (∃ v, scalarOp warpS (.scmp 0 .zge 3 4) = some (0, v))
    ∧ NothingNames warpS (63 : BitVec 6).toNat ∧ NothingNames warpS (0 : BitVec 6).toNat :=
  ⟨front0 _ _ _ rfl rfl, ⟨_, rfl⟩, ⟨_, rfl⟩, rfl, rfl⟩

theorem witness_SpecialRegisters :
    ((s1 warpS).FrontNow (g1 warpS) warpS ∧ warpS.strandPending = false ∧ NothingNames warpS (63 : BitVec 6).toNat
      ∧ (∃ v, plainRegister (g1 warpS) warpS 0x02 = some v) ∧ (∃ v, plainRegister (g1 warpS) warpS 0x1A = some v)
      ∧ plainRegister (g1 warpS) warpS 0x35 = some 0 ∧ plainRegister (g1 warpS) warpS 0xFF = some 0
      ∧ (g1 warpS).compat16 = false ∧ warpS.active.getLsbD 0 = true)
    ∧ (writableIndex (0x0D : BitVec 8).toNat = true ∧ serviceIndex (0x0D : BitVec 8).toNat = false)
    ∧ (∃ (s : State) (g : Workgroup), s.FrontNow g warpS ∧ warpS.strandPending = false ∧ writableIndex (0x30 : BitVec 8).toNat = true ∧ serviceIndex (0x30 : BitVec 8).toNat = true ∧ s.isService g = true
      ∧ (∃ v, ServiceRegister g warpS 0x20 v) ∧ (∃ v, ServiceRegister g warpS 0x31 v) ∧ (∃ v, ServiceRegister g warpS 0x34 v) ∧ NothingNames warpS 0)
    ∧ ((s1 warpS).RunsNow (g1 warpS) warpS (15 : BitVec 4).toNat {} ∧ warpS.exec warpS.hdr ≠ 0 ∧ (1 : BitVec 8).toNat < 2) :=
  ⟨⟨front0 _ _ _ rfl rfl, rfl, rfl, ⟨_, rfl⟩, ⟨_, rfl⟩, rfl, rfl, by decide, by decide⟩, by decide,
   ⟨{ s1 warpS with wgs := [{ g1 warpS with svck := true }], asids := [{ probeAsid with ctx := 0x20000 }] }, { g1 warpS with svck := true },
    front0 _ _ _ rfl rfl, rfl, by decide, by decide, by decide, ⟨_, .inl ⟨by decide, by decide, rfl⟩⟩, ⟨_, .inr (.inr (.inl ⟨rfl, rfl⟩))⟩,
    ⟨_, .inr (.inr (.inr (.inr ⟨rfl, .inl ⟨rfl, rfl⟩⟩)))⟩, rfl⟩,
   runs0 _ _ _ _ _ (by decide) rfl rfl rfl rfl rfl ⟨rfl, rfl⟩ ⟨rfl, rfl⟩ rfl rfl rfl rfl, by decide, by decide⟩

theorem witness_DecodeTimeTraps :
    ((s1 warp0).FrontNow (g1 warp0) warp0 ∧ Handles (s1 warp0) (g1 warp0) warp0 ∧ serviceIndex (0x20 : BitVec 8).toNat = true
      ∧ serviceIndex (0x34 : BitVec 8).toNat = true ∧ writableIndex (0x12 : BitVec 8).toNat = false ∧ serviceIndex (0x12 : BitVec 8).toNat = false)
    ∧ ((s1 warp61).here = some (g1 warp61, warp61) ∧ Handles (s1 warp61) (g1 warp61) warp61 ∧ 4 * warp61.granules ≤ (244 : BitVec 8).toNat) :=
  ⟨⟨front0 _ _ _ rfl rfl, handles0 _ _ _ rfl rfl rfl rfl rfl rfl rfl rfl, by decide, by decide, by decide, by decide⟩,
   rfl, handles0 _ _ _ rfl rfl rfl rfl rfl rfl rfl rfl, by decide⟩

/-- A service workgroup beside the first, whose warp executes; s1 names the first workgroup's warp, or all of its warps. -/
def service : Workgroup :=
  { group0 with uid := 3, slot := 1, svck := true, header := (probeLaunch 2).header, warps := [warp0] }
def stS (v : Warp) : State :=
  { s1 v with wgs := [g1 v, service], cur := some ⟨3, 0⟩, asids := [{ probeAsid with ctx := 0x20000 }] }

theorem witness_HaltAndResume :
    ((stS warp0).FrontNow service warp0 ∧ (stS warp0).isService service = true ∧ warp0.haltWait = []
      ∧ (stS warp0).at { wg := 2, wid := 0 } = some (g1 warp0, warp0) ∧ (stS warp0).haltTargets service warp0 .warp (warp0.sreg 0) = some [(2, 0)]
      ∧ (stS warp0).haltTargets service warp0 .workgroup (warp0.sreg 63) = some [(2, 0)] ∧ (g1 warp0).uid ≠ service.uid ∧ (g1 warp0).residence = .resident
      ∧ warp0.started = [] ∧ warp0.stopped = false ∧ warp0.stopping = none ∧ warp0.resume = none ∧ warp0.halted = false)
    ∧ ∃ v : Warp, v.halted = true ∧ v.stepping = none ∧ (stS v).FrontNow service warp0 ∧ (stS v).isService service = true
      ∧ (stS v).at { wg := 2, wid := 0 } = some (g1 v, v) ∧ (stS v).haltTargets service warp0 .warp (warp0.sreg 0) = some [(2, 0)]
      ∧ v.started = [] ∧ v.stopped = false ∧ v.stopping = none ∧ v.resume = none :=
  ⟨⟨front0 _ _ _ rfl rfl, by decide, rfl, rfl, by decide, by decide, by decide, rfl, rfl, rfl, rfl, rfl, rfl⟩,
   { warp0 with halted := true, spc := List.replicate 16 0xC000000000040000#64, fepc := 0xC000000000040000#64 }, rfl, rfl, front0 _ _ _ rfl rfl, by decide, rfl,
   by decide, rfl, rfl, rfl, rfl⟩

theorem witness_HandlerReturn :
    ((s1 warpH).FrontNow (g1 warpH) warpH ∧ warpH.drained = true ∧ warpH.uni.handler = true ∧ ∃ r, warpH.held = some r)
    ∧ ∃ r, (s1 warpResume).here = some (g1 warpResume, warpResume) ∧ warpResume.resume = some r ∧ warpResume.pc.toNat < (pcOf r.fepc).toNat
      ∧ warpResume.pc.toNat < (pcOf (nth 0#64 r.spc (15 : BitVec 4).toNat)).toNat
      ∧ strandForm warpResume (.iaddL 15 (.imm 0)) = some ((15 : BitVec 4).toNat, 4)
      ∧ strandForm warpResume (.stB32 15 mLow) = some ((15 : BitVec 4).toNat, 6) ∧ strandForm warpResume (.kfree 15) = some ((15 : BitVec 4).toNat, 6)
      ∧ frontForm warpResume .exit = true :=
  ⟨⟨front0 _ _ _ rfl rfl, rfl, rfl, _, rfl⟩, _, rfl, rfl, by decide, by decide, rfl, rfl, rfl, rfl⟩

/-- Accumulator 3 bound to slot 7, 64 by 64, its last window before the end. -/
def warpK : Warp := { warpS with bind := [none, none, none, some { slot := 7, m := 64, n := 64, win := 127 }] }

theorem witness_AccumulatorWindows :
    ((s1 warpK).RunsNow (g1 warpK) warpK (3 : BitVec 4).toNat (usesOf (.imm 127)) ∧ warpK.exec warpK.hdr ≠ 0
      ∧ ∃ b, nth none warpK.bind (3 : BitVec 4).toNat = some b ∧ (operandOf warpK immZ 0 (.imm 127)).toNat < b.m * b.n / 32)
    ∧ ((s1 warpK).RunsNow (g1 warpK) warpK (3 : BitVec 4).toNat { writesP := [7] } ∧ (s1 warpK).RunsNow (g1 warpK) warpK (3 : BitVec 4).toNat {})
    ∧ ((s1 warpK).RunsNow (g1 warpK) warpK (3 : BitVec 4).toNat (usesOf (.imm 128)) ∧ Handles (s1 warpK) (g1 warpK) warpK
      ∧ ∃ b, nth none warpK.bind (3 : BitVec 4).toNat = some b ∧ b.m * b.n / 32 ≤ (operandOf warpK immZ 0 (.imm 128)).toNat)
    ∧ ((s1 warpK).RunsNow (g1 warpK) warpK (15 : BitVec 4).toNat { writesP := [1] } ∧ nth none warpK.bind (15 : BitVec 4).toNat = none) :=
  have r (n : Nat) (u : Uses) (hn : n < 16) (hr : u.regs.all (fun r => decide (r < 252)) = true) (hg : u.writesG.all (fun r => decide (r < 252)) = true)
      (hp : u.writesP.all (fun r => decide (r < 8)) = true) : (s1 warpK).RunsNow (g1 warpK) warpK n u :=
    runs0 _ _ _ n u hn rfl rfl rfl rfl rfl ⟨rfl, rfl⟩ ⟨rfl, rfl⟩ rfl hr hg hp
  ⟨⟨r _ _ (by decide) rfl rfl rfl, by decide, _, rfl, by decide⟩, ⟨r _ _ (by decide) rfl rfl rfl, r _ _ (by decide) rfl rfl rfl⟩,
   ⟨r _ _ (by decide) rfl rfl rfl, handles0 _ _ _ rfl rfl rfl rfl rfl rfl rfl rfl, _, rfl, by decide⟩, r _ _ (by decide) rfl rfl rfl, rfl⟩

/-- An access of each space at base s5 = 0x1000: the lanes' index is in register 251, zero in every lane, and the offset the highest. -/
def warpM : Warp := { warpS with uni := { warpS.uni with s := [0, 0xFFFFFFFFFFFE, 0x40001, 0xFFFFFFFFFFFFFFFF, 0x100000000, 0x1000] } }
def field (sp : Space) (off : BitVec 10) : MField := { base := 5, idx := 251, space := sp, order := .plain, hint := 0, scope := .core, off := off }

/-- The physical byte of a lane. -/
def phys0 (w : Warp) (m : MField) (size l : Nat) : Nat := leafPhys 0x2D 2 (BitVec.ofNat 48 (laneAt w m size l).toNat)

/-- What is left to see of global addresses, lane by lane. -/
theorem reach_global (w : Warp) (m : MField) (size : Nat) (acc : Access) (hm : m.space = .global) (hd : (s1 w).debugOn (g1 w) = false)
    (h : ∀ l, l < 32 → (w.exec w.hdr).getLsbD l = true → let a := (laneAt w m size l).toNat
      (s1 w).tlbFind (g1 w).coreIdx (g1 w).asid (BitVec.ofNat 48 a) = some tlb0 ∧ leafRefuses 0x2D ((s1 w).isService (g1 w)) acc = false
        ∧ (s1 w).marked (phys0 w m size l) = false ∧ (s1 w).cutOff (phys0 w m size l) = false ∧ (s1 w).inAperture (phys0 w m size l) = false) :
    AllReach (s1 w) (g1 w) w m size acc (phys0 w m size) := by
  rw [AllReach, hm]
  exact ⟨hd, fun l hl he => ⟨⟨tlb0, (h l hl he).1, (h l hl he).2.1, rfl⟩, (h l hl he).2.2⟩⟩

theorem reach_scratch (w : Warp) (m : MField) (size : Nat) (acc : Access) (hm : m.space = .scratch) :
    AllReach (s1 w) (g1 w) w m size acc (fun l => (laneAt w m size l).toNat) := by
  rw [AllReach, hm]
  exact fun l _ _ => ⟨rfl, fun _ _ => ⟨by simp [group0, Grid.workgroup], by simp [group0, Grid.workgroup], by simp [Sound, group0, Grid.workgroup]⟩⟩

theorem legal_global (g : Workgroup) (w : Warp) (m : MField) (size : Nat) (hm : m.space = .global)
    (h : ∀ l, l < 32 → (w.exec w.hdr).getLsbD l = true → (0 ≤ laneAt w m size l ∧ laneAt w m size l + size ≤ (2 ^ 48 : Int)) ∧ laneAt w m size l % size = 0) :
    Legal g w m size := fun l hl he => ⟨by rw [InRange, hm]; exact (h l hl he).1, (h l hl he).2⟩
theorem legal_scratch (g : Workgroup) (w : Warp) (m : MField) (size : Nat) (hm : m.space = .scratch)
    (h : ∀ l, l < 32 → (w.exec w.hdr).getLsbD l = true →
      (0 ≤ laneAt w m size l ∧ laneAt w m size l + size ≤ (1024 * (g.header.extractLsb' 24 10).toNat : Nat)) ∧ laneAt w m size l % size = 0) :
    Legal g w m size := fun l hl he => ⟨by rw [InRange, hm]; exact (h l hl he).1, (h l hl he).2⟩

theorem runsM (w : Warp) (m : MField) (hm : m.idx = 251) (n : Nat) (hn : n < 16) (h1 : w.resume = none) (h2 : w.queues = warp0.queues) (h3 : w.started = [])
    (h4 : w.dataFault = none ∧ w.stopping = none) (h5 : w.presG = warp0.presG ∧ w.presP = warp0.presP) (h8 : w.ops = []) (h : w.granules = 63)
    (hw : (s1 w).here = some (g1 w, w)) (ha : w.age = 0 := by rfl) : (s1 w).RunsNow (g1 w) w n (memUses m) :=
  runs0 _ _ _ n _ hn hw starts0 h1 h2 h3 h4 h5 h8 (by simp [memUses, hm, h]) rfl rfl ha

/-- A warp whose queue holds a store of the four bytes at 0x1000 of the scratchpad, older than what it runs now. -/
def warpQ : Warp :=
  { warpM with storeQ := [{ seq := 0, space := .scratch, atomic := false, order := .plain, scope := .core,
                            bytes := some [(0x1000, 1), (0x1001, 2), (0x1002, 3), (0x1003, 4)], pages := [] }], seq := 1 }

theorem witness_LoadResults :
    (∃ f, loadOp (.ldI16 15 (field .global 0x1FF)) = some (15, field .global 0x1FF, 2, f)
      ∧ (s1 warpM).RunsNow (g1 warpM) warpM (15 : BitVec 4).toNat (memUses (field .global 0x1FF)) ∧ Undisturbed warpM
      ∧ Legal (g1 warpM) warpM (field .global 0x1FF) 2 ∧ AllReach (s1 warpM) (g1 warpM) warpM (field .global 0x1FF) 2 .read (phys0 warpM (field .global 0x1FF) 2)
      ∧ ∀ j, warpM.uni.actl.getLsbD (4 + j) = false)
    ∧ (∃ f, loadOp (.ldB32 0 (field .scratch 0x200)) = some (0, field .scratch 0x200, 4, f)
      ∧ (s1 warpM).RunsNow (g1 warpM) warpM (0 : BitVec 4).toNat (memUses (field .scratch 0x200)) ∧ Legal (g1 warpM) warpM (field .scratch 0x200) 4
      ∧ AllReach (s1 warpM) (g1 warpM) warpM (field .scratch 0x200) 4 .read (fun l => (laneAt warpM (field .scratch 0x200) 4 l).toNat))
    ∧ (∃ e bs, warpQ.storeQ = [e] ∧ e.seq < warpQ.seq ∧ e.space = .scratch ∧ e.bytes = some bs ∧ warpQ.fences = [] ∧ warpQ.pending = []
      ∧ (s1 warpQ).RunsNow (g1 warpQ) warpQ (15 : BitVec 4).toNat (memUses (field .scratch 0)) ∧ Legal (g1 warpQ) warpQ (field .scratch 0) 4
      ∧ AllReach (s1 warpQ) (g1 warpQ) warpQ (field .scratch 0) 4 .read (fun l => (laneAt warpQ (field .scratch 0) 4 l).toNat)
      ∧ ∀ l i, l < 32 → (warpQ.exec warpQ.hdr).getLsbD l = true → i < 4 →
          (bs.find? (fun b => b.1 == (laneAt warpQ (field .scratch 0) 4 l).toNat + i)).isSome = true) :=
  ⟨⟨_, rfl, runsM _ _ rfl _ (by decide) rfl rfl rfl ⟨rfl, rfl⟩ ⟨rfl, rfl⟩ rfl rfl rfl, ⟨rfl, rfl, by decide⟩, legal_global _ _ _ _ rfl (by decide),
    reach_global _ _ _ _ rfl (by decide) (by decide), fun j => by simp [warpM, warpS, warp0]⟩,
   ⟨_, rfl, runsM _ _ rfl _ (by decide) rfl rfl rfl ⟨rfl, rfl⟩ ⟨rfl, rfl⟩ rfl rfl rfl, legal_scratch _ _ _ _ rfl (by decide), reach_scratch _ _ _ _ rfl⟩,
   ⟨_, _, rfl, by decide, rfl, rfl, rfl, rfl, runsM _ _ rfl _ (by decide) rfl rfl rfl ⟨rfl, rfl⟩ ⟨rfl, rfl⟩ rfl rfl rfl, legal_scratch _ _ _ _ rfl (by decide),
    reach_scratch _ _ _ _ rfl, fun l i hl he hi => by revert he; revert hi; revert i; revert hl; revert l; decide⟩⟩

/-- Below the first address of memory, and misaligned by the base register: s6 = 0x1002. -/
def warpX : Warp := { warpM with uni := { warpM.uni with s := warpM.uni.s ++ [0x1002, 0x100000, 0x100002, 0x20] } }
def fieldAt (base : BitVec 6) (sp : Space) (off : BitVec 10) : MField := { field sp off with base := base }

theorem witness_AddressTraps :
    ((∃ f, storeOp (.stB32 15 (fieldAt 6 .scratch 0)) = some (15, fieldAt 6 .scratch 0, 4, f)) ∧ (∃ f, atomOp (.atomCas 15 (fieldAt 6 .scratch 0)) = some (15, fieldAt 6 .scratch 0, f))
      ∧ (s1 warpX).RunsNow (g1 warpX) warpX (15 : BitVec 4).toNat (memUses (fieldAt 6 .scratch 0)) ∧ Handles (s1 warpX) (g1 warpX) warpX ∧ warpX.storeQ = []
      ∧ (∀ l, l < 32 → (warpX.exec warpX.hdr).getLsbD l = true → InRange (g1 warpX) (fieldAt 6 .scratch 0) 4 (laneAt warpX (fieldAt 6 .scratch 0) 4 l))
      ∧ ∃ l, l < 32 ∧ (warpX.exec warpX.hdr).getLsbD l = true ∧ laneAt warpX (fieldAt 6 .scratch 0) 4 l % 4 ≠ 0)
    ∧ ((∃ f, loadOp (.ldZ8 0 (fieldAt 0 .global 0x3FF)) = some (0, fieldAt 0 .global 0x3FF, 1, f))
      ∧ (s1 warpX).RunsNow (g1 warpX) warpX (0 : BitVec 4).toNat (memUses (fieldAt 0 .global 0x3FF))
      ∧ ∃ l, l < 32 ∧ (warpX.exec warpX.hdr).getLsbD l = true ∧ ¬InRange (g1 warpX) (fieldAt 0 .global 0x3FF) 1 (laneAt warpX (fieldAt 0 .global 0x3FF) 1 l)) :=
  ⟨⟨⟨_, rfl⟩, ⟨_, rfl⟩, runsM _ _ rfl _ (by decide) rfl rfl rfl ⟨rfl, rfl⟩ ⟨rfl, rfl⟩ rfl rfl rfl, handles0 _ _ _ rfl rfl rfl rfl rfl rfl rfl rfl, rfl,
    show ∀ l, l < 32 → _ → (0 ≤ _ ∧ _ ≤ ((1024 * _ : Nat) : Int)) by decide, 31, by decide, by decide, by decide⟩,
   ⟨_, rfl⟩, runsM _ _ rfl _ (by decide) rfl rfl rfl ⟨rfl, rfl⟩ ⟨rfl, rfl⟩ rfl rfl rfl, 31, by decide, by decide,
   show ¬(0 ≤ _ ∧ _ ≤ (2 ^ 48 : Int)) by decide⟩

/-- A store to each space, at the lowest and the highest offset; and a full entry of each space to drain. -/
def warpD (sp : Space) : Warp :=
  { warp0 with storeQ := [{ seq := 0, space := sp, atomic := false, order := .plain, scope := .core, bytes := some [(0x1000, 1), (0x1001, 2)], pages := [] }] }

theorem witness_StoresAndDrains :
    ((∃ f, storeOp (.stE4m3 15 (field .scratch 0x1FF)) = some (15, field .scratch 0x1FF, 1, f))
      ∧ (s1 warpM).RunsNow (g1 warpM) warpM (15 : BitVec 4).toNat (memUses (field .scratch 0x1FF)) ∧ warpM.storeQ = []
      ∧ Legal (g1 warpM) warpM (field .scratch 0x1FF) 1 ∧ warpM.exec warpM.hdr ≠ 0 ∧ (g1 warpM).orphan = [] ∧ ∀ j, warpM.uni.actl.getLsbD (4 + j) = false)
    ∧ ((∃ f, storeOp (.stB32 15 (field .global 0x200)) = some (15, field .global 0x200, 4, f)) ∧ Legal (g1 warpM) warpM (field .global 0x200) 4
      ∧ (s1 warpM).RunsNow (g1 warpM) warpM (15 : BitVec 4).toNat (memUses (field .global 0x200))
      ∧ AllReach (s1 warpM) (g1 warpM) warpM (field .global 0x200) 4 .write (phys0 warpM (field .global 0x200) 4))
    ∧ (∃ e bs, (s1 (warpD .scratch)).at { wg := (g1 (warpD .scratch)).uid, wid := (warpD .scratch).wid } = some (g1 (warpD .scratch), warpD .scratch)
      ∧ (warpD .scratch).storeQ = e :: [] ∧ e.bytes = some bs ∧ (bs.map Prod.fst).Nodup ∧ (warpD .scratch).pending = [] ∧ e.space = .scratch
      ∧ ∀ b ∈ bs, b.1 / 256 ∉ (g1 (warpD .scratch)).absent)
    ∧ (∃ e bs, (s1 (warpD .global)).at { wg := (g1 (warpD .global)).uid, wid := (warpD .global).wid } = some (g1 (warpD .global), warpD .global)
      ∧ (warpD .global).storeQ = e :: [] ∧ e.bytes = some bs ∧ (bs.map Prod.fst).Nodup ∧ e.space = .global
      ∧ ∀ b ∈ bs, (s1 (warpD .global)).cutOff b.1 = false ∧ (s1 (warpD .global)).inAperture b.1 = false) :=
  ⟨⟨⟨_, rfl⟩, runsM _ _ rfl _ (by decide) rfl rfl rfl ⟨rfl, rfl⟩ ⟨rfl, rfl⟩ rfl rfl rfl, rfl, legal_scratch _ _ _ _ rfl (by decide), by decide, rfl,
    fun j => by simp [warpM, warpS, warp0]⟩,
   ⟨⟨_, rfl⟩, legal_global _ _ _ _ rfl (by decide), runsM _ _ rfl _ (by decide) rfl rfl rfl ⟨rfl, rfl⟩ ⟨rfl, rfl⟩ rfl rfl rfl,
    reach_global _ _ _ _ rfl (by decide) (by decide)⟩,
   ⟨_, _, rfl, rfl, rfl, by decide, rfl, rfl, by decide⟩,
   ⟨_, _, rfl, rfl, rfl, by decide, rfl, by decide⟩⟩

theorem witness_AtomicResults :
    ((∃ f, atomOp (.atomCas 15 (field .global 0x1FF)) = some (15, field .global 0x1FF, f)) ∧ (s1 warpM).RunsNow (g1 warpM) warpM (15 : BitVec 4).toNat (memUses (field .global 0x1FF))
      ∧ Undisturbed warpM ∧ Legal (g1 warpM) warpM (field .global 0x1FF) 4
      ∧ AllReach (s1 warpM) (g1 warpM) warpM (field .global 0x1FF) 4 .atomic (phys0 warpM (field .global 0x1FF) 4)
      ∧ ∀ l ∈ executing warpM, cellAt (s1 warpM).mem.owners (phys0 warpM (field .global 0x1FF) 4 l / 64) = none)
    ∧ ((∃ f, atomOp (.atomFadd 0 (field .scratch 0)) = some (0, field .scratch 0, f)) ∧ (s1 warpM).RunsNow (g1 warpM) warpM (0 : BitVec 4).toNat (memUses (field .scratch 0))
      ∧ Legal (g1 warpM) warpM (field .scratch 0) 4
      ∧ AllReach (s1 warpM) (g1 warpM) warpM (field .scratch 0) 4 .atomic (fun l => (laneAt warpM (field .scratch 0) 4 l).toNat)) :=
  ⟨⟨⟨_, rfl⟩, runsM _ _ rfl _ (by decide) rfl rfl rfl ⟨rfl, rfl⟩ ⟨rfl, rfl⟩ rfl rfl rfl, ⟨rfl, rfl, by decide⟩, legal_global _ _ _ _ rfl (by decide),
    reach_global _ _ _ _ rfl (by decide) (by decide), by decide⟩,
   ⟨_, rfl⟩, runsM _ _ rfl _ (by decide) rfl rfl rfl ⟨rfl, rfl⟩ ⟨rfl, rfl⟩ rfl rfl rfl, legal_scratch _ _ _ _ rfl (by decide), reach_scratch _ _ _ _ rfl⟩

/-- Eight blocks that end at register 251, and the other element sizes with one block; s9 = 0x20 is no row stride, s5 = 0x1000 is one. -/
theorem witness_PanelLoads :
    (s1 warpX).RunsNow (g1 warpX) warpX (strandOf warpX none) { regs := (List.range 8).map (244 + ·), writesG := (List.range 8).map (244 + ·) }
    ∧ Undisturbed warpX ∧ (244 : BitVec 8).toNat + (7 : BitVec 3).toNat ≤ 251 ∧ (warpX.sreg 5).toNat % 8 = 0 ∧ (warpX.sreg 0).toNat % 64 = 0
    ∧ ∀ i l j, i ≤ 7 → l < 32 → j < 4 → (warpX.sreg 5).toNat + l % 16 * (warpX.sreg 0).toNat + 2 * (4 * i + 2 * (l / 16)) + j < 1024 * ((g1 warpX).header.extractLsb' 24 10).toNat :=
  ⟨runs0 _ _ _ _ _ (by decide) rfl rfl rfl rfl rfl ⟨rfl, rfl⟩ ⟨rfl, rfl⟩ rfl (by decide) (by decide) rfl, ⟨rfl, rfl, by decide⟩, by decide, by decide, by decide,
   fun i l j hi hl hj => by
    have h1 : (warpX.sreg 5).toNat = 0x1000 := by decide
    have h2 : (warpX.sreg 0).toNat = 0 := by decide
    have h3 : ((g1 warpX).header.extractLsb' 24 10).toNat = 64 := by decide
    rw [h1, h2, h3]; omega⟩

/-- Memory that holds numbers: key, physical address, bytes, number. -/
def memOf (ws : List (Nat × Nat × Nat × Nat)) : Memory :=
  { cells := ws.flatMap (fun x => (List.range x.2.2.1).map (fun i => (x.2.1 + i, BitVec.ofNat 8 (x.2.2.2 / 256 ^ i)))),
    owners := ws.flatMap (fun x => (List.range ((x.2.2.1 + 63) / 64)).map (fun i => (x.2.1 / 64 + i, x.1))), epoch := 0 }
def image (s : State) (ws : List (Nat × Nat × Nat × Nat)) : State := { s with mem := memOf ws }

/-- Uniform registers for engine instructions: s1 and s2 addresses, s3 a copy of one row of 64 bytes, s4 its receivers, s5 a panel word of 64
BF16 columns, s6 the last 8 bytes below 2^48, s7 the members of a convergence register, s8 a location, s9 a queue, s10 a counter's configuration. -/
def warpZ : Warp :=
  { warp0 with uni := { warp0.uni with s := [0, 0x1000, 0x2000, 0x100400000040, 1, 0x400080, 0xFFFFFFFFFFF8, 1, 191, 0xFFFF, 0x8000001B] },
               bind := [some { slot := 7, m := 64, n := 64, win := 0 }] }

def cpy0 (ssp dsp : Space) : CpyField := { src := 1, dst := 2, desc := 3, dsp := dsp, ssp := ssp, pkg := false }
theorem runsZ (n : Nat) (u : Uses) (hn : n < 16) (hr : u.regs.all (fun r => decide (r < 252)) = true) (hg : u.writesG.all (fun r => decide (r < 252)) = true)
    (hp : u.writesP.all (fun r => decide (r < 8)) = true) : (s1 warpZ).RunsNow (g1 warpZ) warpZ n u :=
  runs0 _ _ _ n u hn rfl rfl rfl rfl rfl ⟨rfl, rfl⟩ ⟨rfl, rfl⟩ rfl hr hg hp
theorem roomZ (n : Nat) (k : EngKind) : EngineRoom warpZ n k := ⟨by decide, fun c _ => by cases c <;> decide, by rfl⟩

/-- An operation of each shape: a copy, one on the last slot, one that writes the highest registers, the highest address, the highest queue. -/
theorem witness_EngineIssues :
    (∃ x, issueOf (s1 warpZ) (g1 warpZ) warpZ (.cpyPlain (cpy0 .scratch .global)) = some x ∧ x.trap = none ∧ (s1 warpZ).RunsNow (g1 warpZ) warpZ x.n x.uses
      ∧ EngineRoom warpZ x.n x.kind ∧ ∀ t ∈ opSlots x.kind (nth none warpZ.bind x.n), warpZ.slotBusy t warpZ.seq = false)
    ∧ (∃ x, issueOf (s1 warpZ) (g1 warpZ) warpZ (.mzero 0 7) = some x ∧ x.trap = none ∧ (s1 warpZ).RunsNow (g1 warpZ) warpZ x.n x.uses
      ∧ EngineRoom warpZ x.n x.kind ∧ ∀ t ∈ opSlots x.kind (nth none warpZ.bind x.n), warpZ.slotBusy t warpZ.seq = false)
    ∧ (∃ x, issueOf (s1 warpZ) (g1 warpZ) warpZ (.mstat 0 249) = some x ∧ x.trap = none ∧ (s1 warpZ).RunsNow (g1 warpZ) warpZ x.n x.uses
      ∧ EngineRoom warpZ x.n x.kind ∧ ∀ t ∈ opSlots x.kind (nth none warpZ.bind x.n), warpZ.slotBusy t warpZ.seq = false)
    ∧ (∃ x, issueOf (s1 warpZ) (g1 warpZ) warpZ (.sst 6 0 3 .plain .system) = some x ∧ x.trap = none ∧ (s1 warpZ).RunsNow (g1 warpZ) warpZ x.n x.uses
      ∧ EngineRoom warpZ x.n x.kind ∧ ∀ t ∈ opSlots x.kind (nth none warpZ.bind x.n), warpZ.slotBusy t warpZ.seq = false)
    ∧ (∃ x, issueOf (s1 warpZ) (g1 warpZ) warpZ (.launch 1 9) = some x ∧ x.trap = none ∧ (s1 warpZ).RunsNow (g1 warpZ) warpZ x.n x.uses
      ∧ EngineRoom warpZ x.n x.kind ∧ ∀ t ∈ opSlots x.kind (nth none warpZ.bind x.n), warpZ.slotBusy t warpZ.seq = false)
    ∧ ((dispCpy (g1 warpZ) warpZ (cpy0 .scratch .scratch) .mcast).trap = none ∧ (s1 warpZ).RunsNow (g1 warpZ) warpZ (strandOf warpZ none) {}
      ∧ EngineRoom warpZ (strandOf warpZ none) (.cpy .mcast 0 0 0 0 .scratch .scratch false))
    ∧ (∃ x, issueOf (s1 warpZ) (g1 warpZ) warpZ (.adrain 0 1 2 .adamw true 7) = some x ∧ x.trap = none ∧ (s1 warpZ).RunsNow (g1 warpZ) warpZ x.n x.uses
      ∧ EngineRoom warpZ x.n x.kind ∧ (Undisturbed warpZ ∧ ∀ y ∈ warpZ.ops, y.kind.cls ≠ some .drn) ∧ ∀ t ∈ opSlots x.kind (nth none warpZ.bind x.n), warpZ.slotBusy t warpZ.seq = false)
    ∧ (∀ o : EngOp, let s : State := image (s1 warpZ) [(9, 0x5000, 4, 3), (9, 0x6000, 256, 0x5000 * 2 ^ 384), (9, 0x7000, 32, 7)]
        let rs : List Region := [.glob .read 0x7000 32, .glob .read 0x6000 256]
        AtHand s (g1 warpZ) warpZ o rs ∧ StandAt s (s.view (g1 warpZ) warpZ o rs) 0x6000 256 0x6000 ∧ StandAt s (s.view (g1 warpZ) warpZ o rs) 0x7000 32 0x7000
        ∧ numberAt s (g1 warpZ) (0x6000 + 48) 8 = 0x5000 ∧ AtHand s (g1 warpZ) warpZ o [.glob .read 0x5000 4]
        ∧ StandAt s (s.view (g1 warpZ) warpZ o [.glob .read 0x5000 4]) 0x5000 4 0x5000) :=
  ⟨⟨_, rfl, by decide, runsZ _ _ (by decide) rfl rfl rfl, roomZ _ _, by decide⟩, ⟨_, rfl, by decide, runsZ _ _ (by decide) rfl rfl rfl, roomZ _ _, by decide⟩,
   ⟨_, rfl, by decide, runsZ _ _ (by decide) rfl rfl rfl, roomZ _ _, by decide⟩, ⟨_, rfl, by decide, runsZ _ _ (by decide) rfl rfl rfl, roomZ _ _, by decide⟩,
   ⟨_, rfl, by decide, runsZ _ _ (by decide) rfl rfl rfl, roomZ _ _, by decide⟩, ⟨by decide, runsZ _ _ (by decide) rfl rfl rfl, roomZ _ _⟩,
   ⟨_, rfl, by decide, runsZ _ _ (by decide) rfl rfl rfl, roomZ _ _, ⟨⟨rfl, rfl, by decide⟩, by decide⟩, by decide⟩,
   fun o => ⟨⟨rfl, rfl⟩, ⟨rfl, by decide +kernel⟩, ⟨rfl, by decide +kernel⟩, by decide +kernel, ⟨rfl, rfl⟩, ⟨rfl, by decide +kernel⟩⟩⟩

/-- The last slot, and the first beyond it; a bound accumulator, and an unbound one. -/
theorem witness_Bindings :
    (tileSlot warpZ 0 7 < slotsOf (g1 warpZ) ∧ (s1 warpZ).RunsNow (g1 warpZ) warpZ (15 : BitVec 4).toNat {} ∧ (warpZ.queued.filter QEntry.isEngine).length < 8)
    ∧ (∃ b, nth none warpZ.bind (0 : BitVec 4).toNat = some b ∧ warpZ.bindAt (0 : BitVec 4).toNat = some b ∧ (s1 warpZ).RunsNow (g1 warpZ) warpZ (0 : BitVec 4).toNat {})
    ∧ (slotsOf (g1 warpZ) ≤ tileSlot warpZ 0 8 ∧ Handles (s1 warpZ) (g1 warpZ) warpZ) ∧ warpZ.bindAt (15 : BitVec 4).toNat = none :=
  ⟨⟨by decide, runsZ _ _ (by decide) rfl rfl rfl, by decide⟩, ⟨_, rfl, by rfl, runsZ _ _ (by decide) rfl rfl rfl⟩,
   ⟨by decide, handles0 _ _ _ rfl rfl rfl rfl rfl rfl rfl rfl⟩, by rfl⟩

/-- Convergence register 7 for this warp alone, which fires, and for four warps. -/
def cvOf (form : CvForm) (m : LaneSet) : List CvReg :=
  List.replicate 7 { form := .idle, signs := 0, signed := 0, members := 0, unusable := false, fixed := none, differs := false }
    ++ [{ form := form, signs := 0, signed := 0, members := m, unusable := false, fixed := none, differs := false }]
def groupCv (form : CvForm) (m : LaneSet) : Workgroup :=
  { group0 with warps := [warpZ, { warpZ with wid := 1 }, { warpZ with wid := 2 }, { warpZ with wid := 3 }], cv := cvOf form m }

theorem witness_MatrixSigns :
    (∀ form m, (form = .solo ∧ m = 1 ∨ form = .quartet ∧ m = 15) → ∃ b c, nth none warpZ.bind (0 : BitVec 4).toNat = some b ∧ warpZ.bindAt (0 : BitVec 4).toNat = some b
      ∧ (groupCv form m).cv[(7 : BitVec 3).toNat]? = some c ∧ c.signed.getLsbD warpZ.wid = false ∧ warpZ.wid < 32
      ∧ firstCheck (mmaChecks (groupCv form m) warpZ (some b) (warpZ.sreg 1) (warpZ.sreg 5) .bf16 7) = none
      ∧ (st (groupCv form m)).RunsNow (groupCv form m) warpZ (0 : BitVec 4).toNat
          { regs := mmaRegs (groupCv form m) (some b) .bf16 7 0, readsG := mmaRegs (groupCv form m) (some b) .bf16 7 0 }
      ∧ EngineRoom warpZ (0 : BitVec 4).toNat (.mma (warpZ.sreg 1) (warpZ.sreg 5) .bf16 7 0) ∧ warpZ.slotBusy b.slot warpZ.seq = false)
    ∧ (∃ c, (groupCv .solo 1).cv[7]? = some c ∧ c.signs + 1 = laneCount c.members ∧ c.differs = false ∧ c.fixed = none)
    ∧ ∃ c, (groupCv .quartet 15).cv[7]? = some c ∧ c.signs + 1 ≠ laneCount c.members := by
  refine ⟨?_, ⟨_, rfl, by decide, rfl, rfl⟩, ⟨_, rfl, by decide⟩⟩
  rintro form m (⟨rfl, rfl⟩ | ⟨rfl, rfl⟩) <;>
    exact ⟨_, _, rfl, by rfl, rfl, by decide, by decide, by decide,
      runs0 _ _ _ _ _ (by decide) rfl rfl rfl rfl rfl ⟨rfl, rfl⟩ ⟨rfl, rfl⟩ rfl (by decide) rfl rfl, roomZ _ _, by decide⟩

/-- A census of ASID 1 for keys 0x1000 to 0x1FFF, in flight; a location's report. -/
def census0 : Census :=
  { id := 1023, wg := 2, opId := 40, core := 0, asid := 1, key := 0x1000, mask := 0xFFFFFFFFFFFFF000, entry := 0xFFFFFFFFFFFE, op := .count, toVisit := [], owes := [],
    reports := [], value := 0, responders := 0, dormant := 0, balance := 0, full := false }
def report0 (held : List DirEntry) : LocReport := { loc := 191, spawned := [], held := held, value := 0, responders := 0, dormant := 0, balance := 0 }

theorem witness_DirectoryInstructions :
    (g1 warpZ).hasSolicit = true ∧ (warpZ.queued.filter QEntry.isEngine).length < 8 ∧ Undisturbed warpZ ∧ (s1 warpZ).RunsNow (g1 warpZ) warpZ (strandOf warpZ none) {}
    ∧ (warpZ.sreg 6).toNat < 2 ^ 48 ∧ (warpZ.sreg 10).toNat < 2 ^ 32 ∧ ((s1 warpZ).directory.filter (fun e => e.loc == (g1 warpZ).coreIdx)).length < 256
    ∧ (s1 warpZ).directory = []
    ∧ (∃ (s : State) (w : Warp) (c : Census) (r : LocReport), w.exec w.hdr ≠ 0 ∧ s.RunsNow (g1 w) w (15 : BitVec 4).toNat {}
      ∧ (∀ l, l < 32 → (w.exec w.hdr).getLsbD l = true → (nth none w.census l).isSome = true)
      ∧ s.censuses = [c] ∧ c.reports = [r] ∧ (executing w).filter (fun l => answersTo (g1 w) w c 0 l) ≠ []) :=
  ⟨by decide, by decide, ⟨rfl, rfl, by decide⟩, runsZ _ _ (by decide) rfl rfl rfl, by decide, by decide, by decide, rfl,
   { s1 { warpZ with census := List.replicate 32 (some 1023) } with
     censuses := [{ census0 with reports := [{ report0 [] with spawned := (List.range 32).map (fun l => (2, l)) }] }] },
   { warpZ with census := List.replicate 32 (some 1023) }, _, _, by decide,
   runs0 _ _ _ _ _ (by decide) rfl rfl rfl rfl rfl ⟨rfl, rfl⟩ ⟨rfl, rfl⟩ rfl rfl rfl rfl, by decide, rfl, rfl, by decide⟩

/-- An entry of the warp's workgroup for key 0x1000. -/
def entry0 : DirEntry :=
  { uid := 50, loc := 0, key := 0x1000, base := 0x3000, len := 0x100, owner := 2, asid := 1, st := .valid, dest := 0, tags := [], keep := [], copy := none }

/-- Key s1 moves to location s8 = 191 at s2; an asker's 16th census; a spawn with 1024 threads. -/
theorem witness_CensusIssues :
    (Undisturbed warpZ ∧ (warpZ.queued.filter QEntry.isEngine).length < 8)
    ∧ (∃ (s : State) (d : DirEntry), s.RunsNow (g1 warpZ) warpZ (strandOf warpZ none) {} ∧ (g1 warpZ).hasSolicit = true ∧ warpZ.counter .cpy < 63
      ∧ (warpZ.sreg 8).toNat < 192 ∧ s.moveEntry (g1 warpZ) (warpZ.sreg 1) = some d ∧ d.base.toNat + d.len.toNat ≤ 2 ^ 48
      ∧ (warpZ.sreg 2).toNat + d.len.toNat ≤ 2 ^ 48 ∧ (warpZ.sreg 2).toNat < 2 ^ 48)
    ∧ (warpZ.counter .cen < 63 ∧ (warpZ.sreg 6).toNat < 2 ^ 48 ∧ (warpZ.sreg 6).getLsbD 0 = false ∧ (s1 warpZ).solicits = [] ∧ (s1 warpZ).censuses = [])
    ∧ ((s1 warpZ).RunsNow (g1 warpZ) warpZ (15 : BitVec 4).toNat {} ∧ warpZ.uni.handler = false ∧ warpZ.counter .spw < 63 ∧ (∀ y ∈ (g1 warpZ).warps, y.block = .none)
      ∧ warpZ.exec warpZ.hdr ≠ 0 ∧ (g1 warpZ).liveThreads + laneCount (warpZ.exec warpZ.hdr) ≤ 1024 ∧ (g1 warpZ).bins = []
      ∧ (g1 warpZ).bins.length < (g1 warpZ).binsMax ∧ (s1 warpZ).hamperUsed (g1 warpZ) + laneCount (warpZ.exec warpZ.hdr) * (136 + 16 * (g1 warpZ).baseGranules) + 640 ≤ 262144) :=
  ⟨⟨⟨rfl, rfl, by decide⟩, by decide⟩,
   ⟨{ s1 warpZ with directory := [entry0] }, entry0, runs0 _ _ _ _ _ (by decide) rfl rfl rfl rfl rfl ⟨rfl, rfl⟩ ⟨rfl, rfl⟩ rfl rfl rfl rfl, by decide, by decide, by decide,
    rfl, by decide, by decide, by decide⟩,
   ⟨by decide, by decide, by decide, rfl, rfl⟩,
   ⟨runsZ _ _ (by decide) rfl rfl rfl, rfl, by decide, by decide, by decide, by decide, rfl, bins0, by decide⟩⟩

/-- A counter never configured, and one that does not count; every bit of a configuration. -/
theorem witness_PerformanceCounters :
    ((s1 warpZ).RunsNow (g1 warpZ) warpZ (strandOf warpZ none) { regs := [250, 251], writesG := [250, 251] } ∧ (s1 warpZ).counterOf (g1 warpZ) (15 : BitVec 4).toNat = none)
    ∧ (∃ s : State, s.RunsNow (g1 warpZ) warpZ (strandOf warpZ none) { regs := [250, 251], writesG := [250, 251] } ∧ ∃ c, s.counterOf (g1 warpZ) 0 = some c ∧ c.config.getLsbD 30 = false
      ∧ (warpZ.sreg 0).getLsbD 31 = false ∧ (warpZ.sreg 0).getLsbD 30 = false)
    ∧ ((s1 warpZ).RunsNow (g1 warpZ) warpZ (strandOf warpZ none) {} ∧ (warpZ.sreg 10).toNat < 2 ^ 32 ∧ (warpZ.sreg 10).extractLsb' 16 13 = 0 ∧ ((warpZ.sreg 10).extractLsb' 0 16).toNat ≤ 0x1B) :=
  ⟨⟨runsZ _ _ (by decide) rfl rfl rfl, rfl⟩,
   ⟨{ s1 warpZ with counters := [{ core := 0, ctxid := 0, cnt := 0, config := 0x19, count := 0xFFFFFFFFFFFF, wid := 0, wg := 2, since := 0 }] },
    runs0 _ _ _ _ _ (by decide) rfl rfl rfl rfl rfl ⟨rfl, rfl⟩ ⟨rfl, rfl⟩ rfl rfl rfl rfl, _, rfl, by decide, by decide⟩,
   ⟨runsZ _ _ (by decide) rfl rfl rfl, by decide, by decide, by decide⟩⟩

/-- A package whose ASID 1 maps its first GiB to itself, and queue 5's descriptor: a ring of two records at 0x30000. -/
def pages : List (Nat × Nat × Nat × Nat) := [(0, 0x1000, 8, 0x2001), (0, 0x2000, 8, 0x2D), (0, 0x10080, 8, 0x1001), (0, 0x10088, 8, 0)]
def descriptor (log2 : Nat) : List (Nat × Nat × Nat × Nat) :=
  [(0, 0x20140, 8, 0x30000), (0, 0x20148, 4, 0), (0, 0x2014C, 4, 0), (0, 0x20150, 8, 0), (0, 0x20158, 1, log2), (0, 0x20159, 1, 7), (0, 0x2015A, 2, 1),
   (0, 0x2015C, 1, 1), (0, 0x2015D, 35, 0)]
def host0 : State := { State.reset with asidTb := 0x10000, qtBase := 0x20000, dapBase := 0x1000000000, mgmt := { Mgmt.reset with keys := [(1, 9)] }, nextUid := 100 }
def queue5 : Queue := { q := 5, ring := 0x30000, log2 := 1, prio := 7, asid := 1, enabled := true, waiting := [] }

/-- Partition 191, enabled or not, with 16 cores, with none, and with 17. -/
def stP (mask : DWord) (on : Bool) : State :=
  { State.reset with partitions := [{ p := 191, mask := mask, cfg := if on then 0x03E8000000000201#64 else 0x03E8000000000001#64 }] }

theorem witness_WindowRegistersAndDoorbells :
    ((191 : BitVec 8).toNat < 192 ∧ ((stP 0xFFFF false).partition 191).cfg.getLsbD 9 = false ∧ ((stP 0xFFFF true).partition 191).cfg.getLsbD 9 = true)
    ∧ MayEnable (stP 0xFFFF false) 191 0x201 ∧ (0x1FF : DWord).getLsbD 9 = false ∧ ¬MayEnable (stP 0 false) 191 0x201 ∧ ¬MayEnable (stP 0x1FFFF false) 191 0x201
    ∧ (keptRegister .service 0x50 = some 0xFFFFFFF000000000#64 ∧ keptRegister .control 0x10 = none)
    ∧ (∃ x, { host0 with queues := [{ queue5 with enabled := false }] }.queue 5 = some x ∧ x.enabled = false) ∧ host0.queue 5 = none := by
  refine ⟨by decide, ⟨by decide, by decide, ?_, by decide⟩, by decide, fun h => absurd h.1 (by decide), fun h => absurd h.2.1 (by decide), ⟨rfl, rfl⟩, ⟨_, rfl, rfl⟩, rfl⟩
  intro q hq hne hd hon
  have : (stP 0xFFFF false).partition q = { p := q, mask := 0, cfg := 0x03E8000000000000#64 } := by
    simp [State.partition, stP, Ne.symm hne]
  rw [this] at hon; simp [Partition.on] at hon

theorem dist_some (s : State) (asid va n pk : Nat) (h : s.distXlat asid va false = some pk) (h1 : (s.marked pk || s.cutOff pk) = false) :
    ∃ r, s.distRead asid va n = some r := ⟨_, by simp only [State.distRead, h, h1]; rfl⟩
theorem walk_queues (s : State) (qs : List Queue) (n table : Nat) (va : BitVec 48) : State.walk { s with queues := qs } n table va = s.walk n table va := by
  induction n generalizing table with
  | zero => rfl
  | succ n ih => simp only [State.walk, ih]; rfl
theorem dist_queues (s : State) (qs : List Queue) (asid va n : Nat) : State.distRead { s with queues := qs } asid va n = s.distRead asid va n := by
  simp only [State.distRead, State.distXlat, walk_queues]; rfl
theorem head_queues (s : State) (qs : List Queue) (q : Nat) : State.qHead { s with queues := qs } q = s.qHead q := rfl

/-- A valid record at HEAD, and one behind it that is not. -/
def stRing : State := image { host0 with queues := [queue5] } (pages ++ descriptor 1 ++ [(9, 0x30000, 8, 2 ^ 32), (9, 0x30100, 8, 0)])

theorem record_none (s : State) (x : Queue) (h : s.distRead x.asid (x.ring.toNat + 256 * (1 % 2 ^ x.log2)) 8 = some 0) : recordAt s x 1 = none := by
  rw [recordAt, h]
  cases s.distRead x.asid (x.ring.toNat + 256 * (1 % 2 ^ x.log2)) 256 with
  | none => rfl
  | some r => simp

theorem witness_Doorbells :
    stRing.queue 5 = some queue5 ∧ queue5.enabled = true ∧ 1 ≤ 2 ^ queue5.log2 ∧ stRing.qHead 5 = 0
    ∧ (∃ r y, recordAt stRing queue5 0 = some (2 ^ 32, r) ∧ (stRing.takeRecord 5 queue5 0 (2 ^ 32) r).queue 5 = some y
      ∧ (stRing.takeRecord 5 queue5 0 (2 ^ 32) r).qHead 5 = 1 ∧ recordAt (stRing.takeRecord 5 queue5 0 (2 ^ 32) r) y 1 = none)
    ∧ stRing.distXlat 1 (queue5.entryAddr 0) true = some 0x30000 ∧ stRing.cutOff 0x30000 = false ∧ stRing.keyOf 1 = some 9
    ∧ ∀ j l, j < 8 → l < 4 → (0x30000 + j) / 64 ≠ (physKey 0 0 (stRing.qtBase.toNat + 64 * 5 + 12) + l) / 64 :=
  have ⟨r, h⟩ := dist_some stRing 1 (queue5.entryAddr 0) 256 0x30000 (by decide +kernel) (by decide +kernel)
  have h8 : stRing.distRead 1 (queue5.entryAddr 0) 8 = some (2 ^ 32) := by decide +kernel
  ⟨rfl, rfl, by decide, by decide +kernel,
   ⟨r, { queue5 with waiting := [(0, parseLaunch r)] },
    show (match stRing.distRead 1 (queue5.entryAddr 0) 8, stRing.distRead 1 (queue5.entryAddr 0) 256 with
      | some w, some r => if w % 2 ^ 32 = 0 ∧ w / 2 ^ 32 % 2 = 1 then some (w, r) else none
      | _, _ => none) = some (2 ^ 32, r) by rw [h8, h]; rfl,
    rfl, (head_queues _ _ _).trans (by decide +kernel), record_none _ _ (show State.distRead _ 1 (queue5.entryAddr 1) 8 = some 0 from (dist_queues _ _ _ _ _).trans (by decide +kernel))⟩,
   by decide +kernel, by decide +kernel, by decide +kernel, fun j l hj hl => by
    have h1 : physKey 0 0 (stRing.qtBase.toNat + 64 * 5 + 12) = 0x2014C := by decide
    rw [h1]; omega⟩

/-- A descriptor before it is loaded: good, with no record at HEAD; and with a bad size. -/
theorem witness_Descriptors :
    (let s := image host0 (pages ++ descriptor 1 ++ [(9, 0x30000, 8, 0)]);
      s.sysRead (0x20140 + 28) 1 = 1 ∧ (∀ i, i < 35 → s.sysRead (0x20140 + (29 + i)) 1 = 0) ∧ s.sysRead (0x20140 + 22) 2 = 0 ∧ s.sysRead (0x20140 + 24) 1 = 1
        ∧ s.sysRead 0x20140 8 = 0x30000 ∧ s.sysRead (0x20140 + 25) 1 = 7 ∧ s.sysRead (0x20140 + 26) 2 = 1 ∧ s.sysRead 0x2014C 4 = 0
        ∧ s.distRead 1 0x30000 8 = some 0)
    ∧ (image host0 (descriptor 17)).sysRead (0x20140 + 24) 1 = 17
    ∧ (let s := image { host0 with queues := [queue5] } (pages ++ descriptor 1 ++ [(9, 0x30000, 8, 0)]);
      s.queue 5 = some queue5 ∧ s.sysRead (s.qtBase.toNat + 64 * 5 + 12) 4 = 0 ∧ s.distRead 1 0x30000 8 = some 0) := by
  decide +kernel

/-- The halted workgroup behind an aperture at 2^36. -/
def warpHalt : Warp := { warp0 with halted := true }
def shoot0 (kind : Nat) (void : Bool) : Shootdown := { kind := kind, asid := 511, size := 0, vpn := 0xFFFFFFFFF, void := void }

/-- KIND at each of its values, SIZE and VPN at their ends; the last word of the scratchpad, of the tile slots and of the registers, and the first
offset beyond each; PROG of the last warp. -/
theorem witness_ShootdownsAndAperture :
    (shootOp 0x0FFFFFFFFFFFF000#64 (.shootPage 0x0FFFFFFFFFFFF000#64) = true ∧ shootOp 0x4000000000000000#64 (.shootAsid 0x4000000000000000#64) = true
      ∧ shootOp 0x6000000000000000#64 (.shootAsidReload 0x6000000000000000#64) = true ∧ shootOp 0x2000000000000000#64 (.shootReservedKind 0x2000000000000000#64) = true
      ∧ shootOp 0x8000000000000000#64 (.shootReservedKind 0x8000000000000000#64) = true ∧ cleanShoot 0x0FF0FFFFFFFFF000#64)
    ∧ (∃ (s : State) (x : Shootdown) (rest : List Shootdown), s.shoots = x :: rest ∧ x.void = true) ∧ (∃ (s : State) (x : Shootdown) (rest : List Shootdown), s.shoots = x :: rest ∧ x.void = false ∧ Drained s x ∧ s.wgs ≠ [])
    ∧ ((s1 warpHalt).inAperture 0 = false ∧ (s1 warpHalt).inAperture 0x1000000000 = true ∧ (s1 warpHalt).inAperture (0x1000000000 + 3 * 2 ^ 34) = false)
    ∧ ((s1 warpHalt).windowWg 0 0 0 = some (g1 warpHalt) ∧ (g1 warpHalt).apOpen = true ∧ (g1 warp0).apOpen = false
      ∧ 0x18FFFC - 0x180000 + 4 ≤ (g1 warpHalt).scratchSize ∧ (0x41FFFC - 0x400000) / 0x4000 < (g1 warpHalt).slotCount
      ∧ (g1 warpHalt).warp ((0x87DFC - 0x80000) / 0x8000) = some warpHalt ∧ 0x87DFC % 0x8000 / 128 < 4 * warpHalt.granules)
    ∧ (progWid 0x10A8 = some 0 ∧ progWid 0x200A8 = some 31 ∧ (g1 warpHalt).warp 0 = some warpHalt)
    ∧ ((∀ x ∈ (s1 warpHalt).wgs, x.uid = (g1 warpHalt).uid → x = g1 warpHalt) ∧ ¬WritableWord (g1 warpHalt) 0x21000 ∧ ¬WritableWord (g1 warpHalt) 0x420000)
    ∧ (nth none warpHalt.bind (0x407FC % 0x800 / 128) = none ∧ ∃ (w : Warp) (b : Binding), w.halted = true ∧ (s1 w).windowWg 0 0 0 = some (g1 w)
      ∧ (g1 w).apOpen = true ∧ (g1 w).warp ((0x40180 - 0x40000) / 0x1000) = some w ∧ nth none w.bind (0x40180 % 0x800 / 128) = some b) :=
  ⟨⟨by decide, by decide, by decide, by decide, by decide, by unfold cleanShoot; decide⟩, ⟨{ State.reset with shoots := [shoot0 1 true] }, _, _, rfl, rfl⟩,
   ⟨{ s1 warp0 with shoots := [shoot0 3 false] }, shoot0 3 false, _, rfl, rfl, fun g hg ha => by
      simp only [st, List.mem_singleton] at hg; subst hg; exact absurd ha (by decide), by simp [st]⟩,
   by decide, ⟨rfl, by decide, by decide, by decide, by decide, rfl, by decide⟩, ⟨by decide, by decide, rfl⟩,
   ⟨fun x hx _ => List.mem_singleton.mp hx, by unfold WritableWord; omega, by
    rintro (h | h | h | h | ⟨_, h⟩) <;> first | omega | exact absurd h (by decide)⟩,
   rfl, { warpHalt with bind := [none, none, none, some { slot := 7, m := 64, n := 64, win := 127 }] }, _, rfl, rfl, by decide, rfl, rfl⟩

/-- The commands' arguments: ASID 511, free and in use; CLASS of class 0, and of class 1 with its greatest and its refused shares. -/
def stMb (a0 a1 : DWord) : State := { s1 warp0 with mgmt := { Mgmt.reset with keys := [(1, 9)], mbArg0 := a0, mbArg1 := a1 } }

theorem named0 (a0 a1 : DWord) : Named (stMb a0 a1) 1 := .inr (.inr (.inl ⟨g1 warp0, by simp [stMb, st], rfl⟩))
theorem unnamed0 (a0 a1 : DWord) : ¬Named (stMb a0 a1) 511 := by
  rintro (⟨p, _, h, _⟩ | ⟨q, _, ⟨b, h⟩, _⟩ | ⟨g, h, h'⟩ | h)
  · exact absurd h (by simp [stMb, st, State.reset, State.partition])
  · exact absurd h (by simp [stMb, st, State.reset])
  · simp only [stMb, st, List.mem_singleton] at h; subst h; exact absurd h' (by decide)
  · simp [stMb, st, State.reset, State.faultNames] at h

theorem witness_MailboxCommands :
    ((stMb 511 0).mgmt.mbUntil ≤ (stMb 511 0).clk ∧ (stMb 511 0).mgmt.portQueue = [] ∧ (∃ s : State, s.clk < s.mgmt.mbUntil) ∧ mailboxWrite (.mailboxUnknownOp 7) = true)
    ∧ (mailOp .keynew .new ∧ (511 : DWord).toNat < 512 ∧ 512 ≤ (512 : DWord).toNat ∧ ¬Named (stMb 511 0) 511 ∧ Named (stMb 1 0) 1)
    ∧ (classLimits 511 0 → False) ∧ (classLimits 255 0) ∧ (classLimits 0x1FF 0x1026 ∧ strictRoom [] { asid := 0x1FF, cls := 1, ways := 6, loops := 2, share := 16 })
    ∧ (¬strictRoom [{ asid := 1, cls := 1, ways := 6, loops := 2, share := 16 }] { asid := 0x1FF, cls := 1, ways := 6, loops := 2, share := 16 })
    ∧ (600 ≤ (600 : DWord).toNat ∧ (2600 : DWord).toNat ≤ 2600 ∧ (599 : DWord).toNat < 600 ∧ 2600 < (2601 : DWord).toNat)
    ∧ sector64 0xFFFFFFFFFFC0 0 ∧ (0xFFFFFFFFFDC0 : DWord).toNat + 576 ≤ 2 ^ 48 ∧ ¬sector64 0xFFFFFFFFFFE0 0 ∧ ¬sector64 0x1000000000000 0 ∧ 7 < (8 : DWord).toNat := by
  refine ⟨⟨by decide, rfl, ⟨{ State.reset with mgmt := { Mgmt.reset with mbUntil := 1 } }, by decide⟩, rfl⟩, ⟨rfl, by decide, by decide, unnamed0 _ _, named0 _ _⟩, fun h => absurd h.2 (by decide), ⟨by decide, .inl (by decide)⟩, ⟨⟨by decide, .inr (by decide)⟩, by unfold strictRoom; decide⟩,
    by unfold strictRoom; decide, by decide, by unfold sector64; decide, by decide, by unfold sector64; decide, by unfold sector64; decide, by decide⟩

/-- A request that the controller accepts. -/
def request (op : BitVec 16) (a0 : DWord) : PortFrame :=
  { dest := Config.portMac, source := 7, etherType := 0x88B5, magic := 0x4C584D50, op := op, rsvd := 0, seq := 1, arg0 := a0, arg1 := 0,
    tag := portTag 0 (leBytes 4 0x4C584D50 ++ leBytes 2 op.toNat ++ leBytes 2 0 ++ leBytes 8 1 ++ leBytes 8 a0.toNat ++ leBytes 8 0) }
theorem accepted0 (s : State) (op : BitVec 16) (a0 : DWord) (h : s.mgmt.portSeq = 0) (hk : s.mgmt.portKey = 0) : Accepted s (request op a0) :=
  ⟨rfl, rfl, rfl, rfl, by rw [h]; show 0 < (1 : BitVec 64).toNat; decide, by rw [hk]; rfl⟩

theorem witness_PortRequests :
    (State.reset.mgmt.mbUntil ≤ State.reset.clk ∧ State.reset.mgmt.portQueue = [] ∧ (∃ s : State, s.clk < s.mgmt.mbUntil))
    ∧ (∀ op, Accepted State.reset (request op 600)) ∧ (∃ s : State, s.mgmt.heldInReset = true ∧ Accepted s (request 3 0))
    ∧ (portOp (request 3 0) (.portClass (request 3 0)) .cls ∧ State.reset.mgmt.heldInReset = false)
    ∧ (portNumber (.portKeynew (request 2 0)) = some (request 2 0, 1) ∧ (request 2 0).op.toNat ≠ 1)
    ∧ (State.reset.mgmt.lastStep < 16 ∧ State.reset.mgmt.failedStep < 16) ∧ (request 19 0).op.toNat ∉ [1, 2, 3, 4, 5, 6, 16, 17, 18] :=
  ⟨⟨by decide, rfl, { State.reset with mgmt := { Mgmt.reset with mbUntil := 1 } }, by decide⟩, fun op => accepted0 _ _ _ rfl rfl, ⟨{ State.reset with mgmt := { Mgmt.reset with heldInReset := true } }, rfl, accepted0 _ _ _ rfl rfl⟩, ⟨⟨rfl, rfl⟩, rfl⟩,
   ⟨rfl, by decide⟩, by decide, by decide⟩

/-- A link that is down beside one that is up; die 2, the last. -/
theorem witness_PowerAndLinks :
    State.reset.mgmt.clocks.length = 32 ∧ (2 : BitVec 2).toNat < 3 ∧ (∀ l ∈ State.reset.linksDown, l.1 ≠ (11 : BitVec 4).toNat)
    ∧ (State.reset.mgmt.capWatts * 1000 < ((2600001 :: State.reset.mgmt.power).take 10).sum / 1 ∧ ((2469999 :: State.reset.mgmt.power).take 10).sum / 1 * 100 < State.reset.mgmt.capWatts * 1000 * 95
      ∧ State.reset.mgmt.sinceTelem + 1 < 10 ∧ ∃ s : State, s.mgmt.clocks.length = 32 ∧ 10 ≤ s.mgmt.sinceTelem + 1)
    ∧ ∃ s : State, s.mgmt.clocks.length = 32 ∧ (∃ l ∈ s.linksDown, l.1 = (11 : BitVec 4).toNat) ∧ ∀ l ∈ s.linksDown, l.1 ≠ (0 : BitVec 4).toNat :=
  ⟨rfl, by decide, by decide, ⟨by decide, by decide, by decide, { State.reset with mgmt := { Mgmt.reset with sinceTelem := 9 } }, rfl, by decide⟩,
   { State.reset with linksDown := [(11, [63])] }, rfl, ⟨_, List.mem_singleton.mpr rfl, rfl⟩, by decide⟩

/-- A container with one optional record of an unknown type; the same with a wrong CRC; and one byte short. -/
def body0 : List Byte := leBytes 2 0x7777 ++ leBytes 2 0 ++ leBytes 4 1 ++ leBytes 4 0 ++ leBytes 4 0
def file0 (crc : Nat) : List Byte := leBytes 4 0x4B535247 ++ leBytes 4 1 ++ leBytes 4 1 ++ leBytes 4 0 ++ leBytes 8 80 ++ leBytes 4 crc ++ List.replicate 36 0 ++ body0

theorem loads0 : ∃ x, loadFile 0 (file0 3369900512) true false = .ok x :=
  have h : (match loadFile 0 (file0 3369900512) true false with
    | .ok _ => true
    | .error _ => false) = true := by decide +kernel
  match hl : loadFile 0 (file0 3369900512) true false with
  | .ok x => ⟨x, rfl⟩
  | .error _ => by rw [hl] at h; cases h
theorem fails0 : ∃ x, loadFile 0 (file0 0) false true = .error x :=
  have h : (match loadFile 0 (file0 0) false true with
    | .ok _ => false
    | .error _ => true) = true := by decide +kernel
  match hl : loadFile 0 (file0 0) false true with
  | .error x => ⟨x, rfl⟩
  | .ok _ => by rw [hl] at h; cases h

theorem witness_ErrorsAndBringUp :
    (∃ s c, correctedAt s 3 = some c ∧ c.loggedAt = some 0 ∧ 0 + 3600000000 * 1750 ≤ s.clk) ∧ State.reset.mgmt.heldInReset = false ∧ (7 : BitVec 4).toNat ≤ 7
    ∧ (∃ s : State, s.mgmt.heldInReset = true) ∧ ((file0 0).take 63).length < 64
    ∧ (headerGood (file0 0) = true ∧ (crc32 ((file0 0).drop 64)).toNat ≠ leNat (((file0 0).drop 24).take 4))
    ∧ (∃ x, loadFile 0 (file0 3369900512) true false = .ok x) ∧ ∃ x, loadFile 0 (file0 0) false true = .error x :=
  ⟨⟨{ State.reset with clk := 3600000000 * 1750, mgmt := { Mgmt.reset with corrected := [{ sector := 3, count := 1, loggedAt := some 0 }] } }, _, rfl, rfl, by decide⟩,
   rfl, by decide, ⟨{ State.reset with mgmt := { Mgmt.reset with heldInReset := true } }, rfl⟩, by decide, by decide +kernel,
   loads0, fails0⟩

/-- A record of a file that holds nothing else. -/
theorem header1 (r : FileRec) (h : r.id ≠ 0) (h1 : r.flags < 2) (h2 : r.owner = 0) : HeaderHolds [r] r :=
  ⟨h, fun i j x y hx hy _ _ => by
    cases i with
    | succ i => simp at hx
    | zero => cases j with
      | succ j => simp at hy
      | zero => rfl, h1, .inl h2⟩

/-- Records that are skipped, and refused each for its reason; a section of one parcel and a kernel that begins there. -/
theorem witness_Loader :
    (Fits [⟨0x7777, 0, 1, 0, []⟩] ∧ Skipped [⟨0x7777, 0, 1, 0, []⟩] ⟨0x7777, 0, 1, 0, []⟩)
    ∧ (Fits [⟨0x7777, 2, 1, 0, []⟩] ∧ ¬HeaderHolds [⟨0x7777, 2, 1, 0, []⟩] ⟨0x7777, 2, 1, 0, []⟩)
    ∧ (HeaderHolds [⟨0x7777, 1, 1, 0, []⟩] ⟨0x7777, 1, 1, 0, []⟩ ∧ unknownType 0x7777)
    ∧ (HeaderHolds [⟨0x20, 1, 1, 0, leBytes 2 5⟩] ⟨0x20, 1, 1, 0, leBytes 2 5⟩ ∧ (leBytes 2 5).take 2 = leBytes 2 5)
    ∧ (HeaderHolds [⟨1, 1, 1, 0, [0]⟩] ⟨1, 1, 1, 0, [0]⟩ ∧ ([0] : List Byte).length % 2 = 1)
    ∧ (∃ (rs : List FileRec) (r : FileRec), HeaderHolds rs r ∧ r.type = 0x20 ∧ r.payload = leBytes 4 3 ∧ ∃ x ∈ rs, x.id = r.owner ∧ x.type = 2)
    ∧ (Fits [sectionRec 1 [0, 0], kernelRec 1 2 (probeLaunch 2).header 1 0 [0x61]] ∧ WordHolds (probeLaunch 2).header true)
    ∧ ¬WordHolds 0 true ∧ (Fits [kernelRec 1 2 (probeLaunch 2).header 0 0 [0x61]] ∧ WordHolds (probeLaunch 2).header false) := by
  refine ⟨⟨by unfold Fits; decide, header1 _ (by decide) (by decide) rfl, by unfold unknownType; decide, rfl⟩, ⟨by unfold Fits; decide, fun h => absurd h.2.2.1 (by decide)⟩,
    ⟨header1 _ (by decide) (by decide) rfl, by unfold unknownType; decide⟩, ⟨header1 _ (by decide) (by decide) rfl, by decide⟩,
    ⟨header1 _ (by decide) (by decide) rfl, by decide⟩,
    ⟨[⟨2, 0, 7, 0, []⟩, ⟨0x20, 0, 8, 7, leBytes 4 3⟩], ⟨0x20, 0, 8, 7, leBytes 4 3⟩, ⟨by decide, ?_, by decide, .inr ⟨⟨2, 0, 7, 0, []⟩, by simp, rfl⟩⟩, rfl, rfl,
      ⟨2, 0, 7, 0, []⟩, by simp, rfl, rfl⟩,
    ⟨by unfold Fits; decide +kernel, by unfold WordHolds; decide⟩, by unfold WordHolds; decide, by unfold Fits; decide +kernel, by unfold WordHolds; decide⟩
  intro i j x y hx hy h1 h2
  match i, j, hx, hy with
  | 0, _, hx, _ => cases hx; cases h1
  | _, 0, _, hy => cases hy; cases h2
  | 1, 1, _, _ => rfl
  | i + 2, _, hx, _ => simp at hx
  | 1, j + 2, _, hy => simp at hy

/-- A dispatched instruction of strand n; a warp with it at the head of queue 7, and one that has started it. -/
def queued0 (n : Nat) (op : SOp) : QEntry :=
  { addr := 0x3FFF0, hdr := 0xC000, n := n, seq := 0, op := op, src := .value 1, svals := [], part := 5, actl := 0, readsG := [], readsP := [],
    clearedG := [251], clearedP := [7], took := [] }
def warpHead (e : QEntry) : Warp := { warp0 with seq := 1, queues := List.replicate 7 [] ++ [[e]] }
def warpU (e : QEntry) : Warp := { warp0 with seq := 1, started := [e] }
def memOp0 : MemOp := { base := 65532, idx := 251, space := .scratch, order := .plain, hint := 0, scope := .core, off := 0 }
def memG0 : MemOp := { memOp0 with base := 0x1000, space := .global }

theorem offers0 (g' : Workgroup) (w' : Warp) (e e' : QEntry) (h : Offers (s1 (warpHead e)) 0 0 7 g' w' e') : g' = g1 (warpHead e) ∧ w' = warpHead e ∧ e' = e := by
  obtain ⟨h1, _, _, _, h2, h3, _⟩ := h
  simp only [st, List.mem_singleton] at h1; subst h1
  simp only [List.mem_singleton] at h2; subst h2
  simp only [warpHead, nth] at h3
  simp at h3
  exact ⟨rfl, rfl, h3.symm⟩

/-- Strand 15 on cluster 7; the last word of the scratchpad; a solo operation on the last slot, and a quartet's first sign. -/
theorem witness_ClusterSteps :
    (∃ e, Offers (s1 (warpHead e)) (0 : BitVec 2).toNat (0 : BitVec 6).toNat (7 : BitVec 3).toNat (g1 (warpHead e)) (warpHead e) e
      ∧ (∀ g' w' e', Offers (s1 (warpHead e)) 0 0 7 g' w' e' → g' = g1 (warpHead e) ∧ w' = warpHead e ∧ e' = e) ∧ (∀ i, e.op ≠ .rdsr i)
      ∧ (s1 (warpHead e)).faultOf (g1 (warpHead e)) ((warpHead e).popHead 7) e = none)
    ∧ (∀ op, UnderWayOf (s1 (warpU (queued0 15 op))) (g1 (warpU (queued0 15 op))) (warpU (queued0 15 op)) (queued0 15 op)
        ∧ nth none (warpU (queued0 15 op)).bind (queued0 15 op).n = none)
    ∧ LoadReady (g1 (warpU (queued0 15 (.ld .b32 memOp0)))) (warpU (queued0 15 (.ld .b32 memOp0))) (queued0 15 (.ld .b32 memOp0)) memOp0 (fun _ => 65532)
    ∧ (GlobalLoadReady (s1 (warpU (queued0 15 (.ld .b32 memG0)))) (g1 (warpU (queued0 15 (.ld .b32 memG0)))) (warpU (queued0 15 (.ld .b32 memG0)))
        (queued0 15 (.ld .b32 memG0)) memG0 (fun _ => leafPhys 0x2D 2 0x1000) ∧ (∃ f, aluWord .imac = some f))
    ∧ (∃ (w : Warp) (e : QEntry), (s1 w).at { wg := 2, wid := 0 } = some (g1 w, w) ∧ nth [] w.queues (7 : BitVec 3).toNat = [e] ∧ e.op = .eng (.mzero 7) ∧ w.ready e = true
      ∧ startsPlainly (.mzero 7) = true ∧ ∀ u ∈ opSlots (.mzero 7) (nth none w.bind e.n), (w.popHead 7).slotBusy u e.seq = false)
    ∧ (∃ (g : Workgroup) (w : Warp) (e : QEntry) (b : Binding) (c : CvReg), (st g).at { wg := 2, wid := 0 } = some (g, w) ∧ nth [] w.queues (0 : BitVec 3).toNat = [e]
      ∧ e.op = .eng (.mma 0x1000 0x400080 .bf16 7 0) ∧ w.ready e = true ∧ nth none w.bind e.n = some b ∧ g.cv[7]? = some c ∧ (w.popHead 0).slotBusy b.slot e.seq = false
      ∧ w.wid < 32 ∧ c.signed.getLsbD w.wid = false ∧ c.signs + 1 ≠ laneCount c.members ∧ c.form ≠ .idle ∧ c.members.getLsbD w.wid = true ∧ c.unusable = false
      ∧ ∀ x, x < 32 → c.members.getLsbD x = true → ∃ y ∈ g.warps, y.wid = x ∧ y.active ≠ 0) := by
  refine ⟨⟨queued0 15 (.alu .mov), ⟨by simp [st], rfl, rfl, rfl, by simp, rfl, rfl, by decide⟩, fun g' w' e' h => offers0 g' w' _ e' h, fun i => by simp [queued0], by decide⟩,
    fun op => ⟨⟨rfl, by show 15 < 16; decide, rfl⟩, rfl⟩, ⟨by unfold wordAt Sound; decide, rfl, rfl, by decide⟩,
    ⟨⟨by decide, ⟨rfl, rfl, by decide⟩, fun l hl he => ⟨0x1000, by clear he; revert hl; revert l; unfold wordAt; decide,
      show Reaches _ _ .read 0x1000 (leafPhys 0x2D 2 0x1000) from ⟨⟨tlb0, by decide⟩, by decide⟩⟩⟩, ⟨_, rfl⟩⟩, ⟨warpHead (queued0 15 (.eng (.mzero 7))), _, rfl, rfl, rfl, by decide, rfl, by decide⟩, ?_⟩
  refine ⟨{ groupCv .quartet 15 with warps := [{ warpZ with seq := 1, queues := [queued0 0 (.eng (.mma 0x1000 0x400080 .bf16 7 0))] :: List.replicate 7 [] },
    { warpZ with wid := 1 }, { warpZ with wid := 2 }, { warpZ with wid := 3 }] }, _, _, _, _, rfl, rfl, rfl, by decide, rfl, rfl, by decide, by decide, by decide, by decide,
    by decide, by decide, by decide, by decide⟩

/-- An operation that has issued, alone in a warp, whose number is 40. -/
def op0 (kind : EngKind) (prog : Progress) : EngOp :=
  { id := 40, seq := 0, addr := 0x3FFF0, n := 15, kind := kind, lanes := BitVec.allOnes 32, data := [], bind := none, clearedG := [249], prog := prog }
def prog0 : Progress :=
  { pendingLines := [], out := [], pos := 0, mean := 0, m2 := 0, phase := 0, stopped := false, notBefore := 0, done := false, failed := none, page := none, census := none, link := none, drops := 0 }
def warpO (o : EngOp) : Warp := { warp0 with seq := 1, ops := [o], ectr := [1, 1, 1, 1, 1, 1, 1] }

theorem turnS (s : State) (o : EngOp) (h : s.wg 2 = some (g1 (warpO o))) (h1 : EngOp.turn s (g1 (warpO o)) (warpO o) o = true) :
    TurnOf s (g1 (warpO o)) (warpO o) o :=
  ⟨h, by simp [Workgroup.opHolder, warpO], by simp, by simp [warpO], h1⟩
theorem turn0 (o : EngOp) (h1 : EngOp.turn (s1 (warpO o)) (g1 (warpO o)) (warpO o) o = true) :
    TurnOf (s1 (warpO o)) (g1 (warpO o)) (warpO o) o := turnS _ o rfl h1

/-- The first line of the scratchpad to its last; a version word; an entry that moves from this core to core 1. -/
def copyProg : Progress := { prog0 with pendingLines := [255] }
def copyDesc : DWord := 0x100400000040
/-- The same copy in mode 1: 32 elements of BF16. -/
def canonDesc : DWord := 0x0100100200000040
theorem scratchCopy0 (g : Workgroup) (o : EngOp) (m : CpyMode) (d : DWord) (h : o.kind = .cpy m 0 0xFFC0 d 0 .scratch .scratch false)
    (hm : m = .plain ∨ ∃ f, m = .canon f ∧ cpyCols d % 32 = 0) (hf : o.prog.pos = 0 ∧ o.prog.done = false ∧ o.prog.failed = none)
    (hl : o.prog.pendingLines = [255]) (h1 : cpyRows d = 1) (h2 : cpySrcRow m d = 64) (h3 : cpyDstRow m d = 64) (h4 : 64 ≤ cpyStep m d)
    (hg : g.absent = [] ∧ g.orphan = [] ∧ g.sramMarks = [] := by exact ⟨rfl, rfl, rfl⟩) : ScratchCopy g o m 0 0xFFC0 d false := by
  refine ⟨h, hm, hf, fun i j _ _ => by simp [hg, Sound], fun i j k l hi hj hk hl' => ?_, h3 ▸ h4, fun i j hi hj => ?_⟩
  · rw [h1] at hi hk; rw [h2] at hj; obtain rfl : i = 0 := by omega
    obtain rfl : k = 0 := by omega
    simp only [Nat.zero_mul, show (0 : DWord).toNat = 0 by decide, show (0xFFC0 : DWord).toNat = 65472 by decide]; omega
  · rw [h1] at hi; rw [h3] at hj; obtain rfl : i = 0 := by omega
    simp only [Nat.zero_mul, show (0xFFC0 : DWord).toNat = 65472 by decide]
    have : (65472 + 0 + j) / 256 = 255 := by omega
    rw [this, hl]; simp
def groupM (o : EngOp) : Workgroup := { g1 (warpO o) with uid := 2 }
def entryM : DirEntry := { entry0 with len := 4, dest := 1, st := .moving }
def stM (o : EngOp) : State :=
  { s1 (warpO o) with wgs := [groupM o, { group0 with uid := 3, core := 1 }], directory := [entryM] }

def move0 : List Region := [.glob .read 0x3000 4, .glob .write 0x5000 4]
def opM : EngOp := op0 (.tmove 0x1000 1 0x5000) { prog0 with link := some 50 }

theorem witness_OperationSteps :
    TurnOf (s1 (warpO (op0 (.mzero 7) prog0))) (g1 (warpO (op0 (.mzero 7) prog0))) (warpO (op0 (.mzero 7) prog0)) (op0 (.mzero 7) prog0)
    ∧ TurnOf (s1 (warpO (op0 (.mstat 249) prog0))) (g1 (warpO (op0 (.mstat 249) prog0))) (warpO (op0 (.mstat 249) prog0)) (op0 (.mstat 249) prog0)
    ∧ (∃ o : EngOp, o.kind.cls = some .cpy ∧ o.prog.failed = some 0x15 ∧ o.prog.page = none ∧ TurnOf (s1 (warpO o)) (g1 (warpO o)) (warpO o) o
      ∧ retiresAlone (g1 (warpO o)) (warpO o) o)
    ∧ (∃ o : EngOp, o.prog.failed = none ∧ o.prog.done = true ∧ TurnOf (s1 (warpO o)) (g1 (warpO o)) (warpO o) o
      ∧ (∀ base panel f cv gB, o.kind ≠ .mma base panel f cv gB) ∧ ∀ src dst d aux ssp dsp pkg, o.kind ≠ .cpy .mcast src dst d aux ssp dsp pkg)
    ∧ (∀ m d, (m = .plain ∧ d = copyDesc ∨ m = .canon .bf16 ∧ d = canonDesc) →
      ∃ (o : EngOp) (src dst : DWord), ScratchCopy (g1 (warpO o)) o m src dst d false ∧ TurnOf (s1 (warpO o)) (g1 (warpO o)) (warpO o) o)
    ∧ (∃ (o : EngOp) (src dst d aux : DWord), o.kind = .cpy .mcast src dst d aux .scratch .scratch false ∧ aux.extractLsb' 16 48 = 0 ∧ o.prog.pos = 0 ∧ o.prog.done = false
      ∧ o.prog.failed = none ∧ TurnOf (stM o) (groupM o) (warpO o) o ∧ cpyCols d ≤ cpyStep .mcast d
      ∧ ∀ i j, i < cpyRows d → j < cpyCols d → (src.toNat + i * cpySstride d + j) / 256 ∉ (groupM o).absent ∧ (src.toNat + i * cpySstride d + j) / 256 ∉ (groupM o).orphan
        ∧ Sound (groupM o) (src.toNat + i * cpySstride d + j) ∧ (dst.toNat + i * cpyStep .mcast d + j) / 256 ∈ o.prog.pendingLines)
    ∧ (∃ (o : EngOp) (src dst d aux : DWord) (pk : Nat), o.kind = .cpy .ver src dst d aux .global .scratch false ∧ o.prog.done = false ∧ o.prog.failed = none ∧ o.prog.pos < 4 ∧ o.prog.link = none
      ∧ cpyCols d ≤ cpyStep .ver d ∧ TurnOf (s1 (warpO o)) (g1 (warpO o)) (warpO o) o
      ∧ AtHand (s1 (warpO o)) (g1 (warpO o)) (warpO o) o [.glob .read aux.toNat 4]
      ∧ AtHand (s1 (warpO o)) (g1 (warpO o)) (warpO o) o (.glob .read aux.toNat 4 :: cpyRegions .ver src dst d .global .scratch 0)
      ∧ StandAt (s1 (warpO o)) ((s1 (warpO o)).view (g1 (warpO o)) (warpO o) o [.glob .read aux.toNat 4]) aux.toNat 4 pk)
    ∧ (∃ (o : EngOp) (src dst d aux : DWord) (pk : Nat), o.kind = .cpy .ver src dst d aux .global .scratch false ∧ o.prog.done = false ∧ o.prog.failed = none ∧ o.prog.pos = 4
      ∧ o.prog.link = some 6 ∧ cpyCols d ≤ cpyStep .ver d ∧ TurnOf (s1 (warpO o)) (g1 (warpO o)) (warpO o) o
      ∧ AtHand (s1 (warpO o)) (g1 (warpO o)) (warpO o) o [.glob .read aux.toNat 4]
      ∧ StandAt (s1 (warpO o)) ((s1 (warpO o)).view (g1 (warpO o)) (warpO o) o [.glob .read aux.toNat 4]) aux.toNat 4 pk)
    ∧ (∃ y : Workgroup, opM.kind = .tmove 0x1000 1 0x5000 ∧ opM.prog.done = false ∧ TurnOf (stM opM) (groupM opM) (warpO opM) opM
      ∧ (stM opM).directory.find? (fun d => some d.uid == opM.prog.link) = some entryM
      ∧ AtHand (stM opM) (groupM opM) (warpO opM) opM move0 ∧ entryM.dest ≠ entryM.loc
      ∧ (stM opM).wgs.find? (fun x => x.gang == (groupM opM).gang && x.residence == .resident && x.coreIdx == entryM.dest) = some y
      ∧ (∀ i pk, i < 4 → ((stM opM).view (groupM opM) (warpO opM) opM move0).physW (0x5000 + i) = some pk → (stM opM).inAperture pk = false)
      ∧ ((stM opM).directory.filter (fun d => d.loc == entryM.dest)).length < 256 ∧ (∀ d ∈ (stM opM).directory, d.uid < (stM opM).nextUid)
      ∧ ∀ i pk, i < 4 → ((stM opM).view (groupM opM) (warpO opM) opM move0).physW (0x5000 + i) = some pk → (stM opM).cutOff pk = false ∧ fitted pk = true ∧
        ∀ j, j < 4 → j ≠ i → ((stM opM).view (groupM opM) (warpO opM) opM move0).physW (0x5000 + j) ≠ some pk) := by
  refine ⟨turn0 _ (by decide), turn0 _ (by decide), ⟨op0 (.cpy .plain 0x1000 0x2000 copyDesc 0 .scratch .scratch false) { prog0 with failed := some 0x15 }, rfl, rfl, rfl,
    turn0 _ (by decide), fun _ _ _ _ _ h => nomatch h⟩, ⟨op0 (.mzero 7) { prog0 with done := true }, rfl, rfl, turn0 _ (by decide), (fun _ _ _ _ _ h => nomatch h),
      fun _ _ _ _ _ _ _ h => nomatch h⟩,
    ?_, ⟨op0 (.cpy .mcast 0 0xFFC0 copyDesc 0xFFFF .scratch .scratch false) copyProg, 0, 0xFFC0, copyDesc, 0xFFFF, rfl, by decide, rfl, rfl, rfl,
      ⟨rfl, by simp [Workgroup.opHolder, groupM, warpO], by simp [groupM], by simp [warpO], by decide⟩, by decide, fun i j hi hj => ?_⟩,
    ⟨op0 (.cpy .ver 0x4000 0xFFC0 copyDesc 0x5000 .global .scratch false) copyProg, 0x4000, 0xFFC0, copyDesc, 0x5000, 0x5000, rfl, rfl, rfl, by decide, rfl, by decide, turn0 _ (by decide),
      ⟨by decide +kernel, rfl⟩, ⟨by decide +kernel, rfl⟩, by unfold StandAt; decide +kernel⟩,
    ⟨op0 (.cpy .ver 0x4000 0xFFC0 copyDesc 0x5000 .global .scratch false) { copyProg with pos := 4, link := some 6 }, 0x4000, 0xFFC0, copyDesc, 0x5000, 0x5000, rfl, rfl, rfl, rfl,
      rfl, by decide, turn0 _ (by decide), ⟨by decide +kernel, rfl⟩, by unfold StandAt; decide +kernel⟩, ?_⟩
  · rintro m d (⟨rfl, rfl⟩ | ⟨rfl, rfl⟩)
    · exact ⟨op0 (.cpy .plain 0 0xFFC0 copyDesc 0 .scratch .scratch false) copyProg, 0, 0xFFC0,
        scratchCopy0 _ _ _ _ rfl (.inl rfl) ⟨rfl, rfl, rfl⟩ rfl (by decide) (by decide) (by decide) (by decide), turn0 _ (by decide)⟩
    · exact ⟨op0 (.cpy (.canon .bf16) 0 0xFFC0 canonDesc 0 .scratch .scratch false) copyProg, 0, 0xFFC0,
        scratchCopy0 _ _ _ _ rfl (.inr ⟨_, rfl, by decide⟩) ⟨rfl, rfl, rfl⟩ rfl (by decide) (by decide) (by decide) (by decide), turn0 _ (by decide)⟩
  · simp only [show cpyRows copyDesc = 1 by decide, show cpyCols copyDesc = 64 by decide] at hi hj
    obtain rfl : i = 0 := by omega
    refine ⟨List.not_mem_nil, List.not_mem_nil, by simp [Sound, groupM, group0, Grid.workgroup], ?_⟩
    have : ((0xFFC0 : DWord).toNat + 0 * cpyStep .mcast copyDesc + j) / 256 = 255 := by
      simp only [Nat.zero_mul, show (0xFFC0 : DWord).toNat = 65472 by decide]; omega
    rw [this]; simp [op0, copyProg]
  · have hv : (stM opM).view (groupM opM) (warpO opM) opM move0 = { st := stM opM, pages := [(3, 0x3000)], wpages := [(5, 0x5000)], lines := [], out := .ok } := rfl
    have hp : ∀ i pk, i < 4 → ((stM opM).view (groupM opM) (warpO opM) opM move0).physW (0x5000 + i) = some pk → pk = 0x5000 + i := by
      intro i pk hi h; rw [hv] at h
      have : (0x5000 + i) / 4096 = 5 := by omega
      simp only [View.physW, this] at h; simp at h; omega
    refine ⟨{ group0 with uid := 3, core := 1 }, rfl, rfl, ⟨rfl, ?_, by simp [groupM], by simp [warpO], by decide⟩, by decide, ⟨by rw [hv], by rw [hv]⟩, by decide, by decide, ?_, by decide, by decide, ?_⟩
    · simp [Workgroup.opHolder, groupM, warpO]
    · intro i pk hi h; rw [hp i pk hi h]; have : i = 0 ∨ i = 1 ∨ i = 2 ∨ i = 3 := by omega
      rcases this with rfl | rfl | rfl | rfl <;> decide
    · intro i pk hi h; refine ⟨?_, ?_, fun j hj hij h' => ?_⟩
      all_goals try
        rw [hp i pk hi h]; have : i = 0 ∨ i = 1 ∨ i = 2 ∨ i = 3 := by omega
        rcases this with rfl | rfl | rfl | rfl <;> decide
      · have := hp i pk hi h; have := hp j pk hj h'; omega

/-- A fired MMA of 16 by 16 by 64 on slot 7; a CPYO of 16 by 16; a check of slot 7; a scale record at 0x6000 whose next update is not due; a channel with room,
one that is full and whose receiver lives, and one that is empty and whose sender has gone; a load and a store of the last doubleword of a page. -/
def bindO (m n : Nat) : Option Binding := some { slot := 7, m := m, n := n, win := 0 }
def opMma : EngOp := { op0 (.mma 0 0x400080 .bf16 7 0) { prog0 with link := some 50 } with bind := bindO 16 16 }
def opCpyo : EngOp := { op0 (.cpyo 0 0x40 .f32 .scratch false) (Progress.start [0, 1, 2, 3] []) with bind := bindO 16 16 }
def stChan (o : EngOp) (c : Channel) : State :=
  { s1 (warpO o) with gangs := [{ uid := 1, grid := 0, size := 1, members := [2], partition := 0, channels := [c] }] }
def stScale (o : EngOp) : State := image (s1 (warpO o)) [(9, 0x5000, 4, 0), (9, 0x6000, 32, 2 ^ 129)]

/-- A skipped drain of slot 7, tagged 64 by 64, and its record; its status word holds 1, its pointers 0. -/
def opDrain : EngOp := { op0 (.adrain 7 0x6000 0x7000 .adamw false) prog0 with data := [[1, 0, 0, 0, 0, 0, 0, 0, 0]] }
def stDrain : State := image (s1 (warpO opDrain)) [(9, 0x6000, 256, 0)]

theorem witness_Retirements :
    (TurnOf (s1 (warpO opMma)) (g1 (warpO opMma)) (warpO opMma) opMma ∧ retiresAlone (g1 (warpO opMma)) (warpO opMma) opMma
      ∧ AtHand (s1 (warpO opMma)) (g1 (warpO opMma)) (warpO opMma) opMma
          (mmaRegions { slot := 7, m := 16, n := 16, win := 0 } 0 0x400080 .bf16 ++ [{ sp := .slot 7, acc := .read, addr := 0, len := 16 * 16 }]))
    ∧ (TurnOf (s1 (warpO opCpyo)) (g1 (warpO opCpyo)) (warpO opCpyo) opCpyo ∧ (g1 (warpO opCpyo)).sramMarks = []
      ∧ opCpyo.prog = { Progress.start opCpyo.prog.pendingLines opCpyo.prog.out with notBefore := opCpyo.prog.notBefore }
      ∧ ∀ i j, i < 16 → j < 4 * 16 → ((0 : DWord).toNat + i * 64 + j) / 256 ∈ opCpyo.prog.pendingLines)
    ∧ (∃ o : EngOp, o.kind = .acheck 7 0x5FFC ∧ o.prog.done = false ∧ TurnOf (s1 (warpO o)) (g1 (warpO o)) (warpO o) o
      ∧ let rs : List Region := [{ sp := .slot 7, acc := .read, addr := 0, len := ((g1 (warpO o)).slotTag 7).1 * ((g1 (warpO o)).slotTag 7).2 }, .glob .atomic 0x5FFC 4]
        AtHand (s1 (warpO o)) (g1 (warpO o)) (warpO o) o rs ∧ StandAt (s1 (warpO o)) ((s1 (warpO o)).view (g1 (warpO o)) (warpO o) o rs) 0x5FFC 4 0x5FFC)
    ∧ (opDrain.prog.failed = none ∧ TurnOf stDrain (g1 (warpO opDrain)) (warpO opDrain) opDrain ∧ (nth 0#32 (nth [] opDrain.data 0) 0).getLsbD 0 = true
      ∧ AtHand stDrain (g1 (warpO opDrain)) (warpO opDrain) opDrain [.glob .atomic 0x6000 256]
      ∧ StandAt stDrain (stDrain.view (g1 (warpO opDrain)) (warpO opDrain) opDrain [.glob .atomic 0x6000 256]) 0x6000 256 0x6000
      ∧ ∀ i, i < 7 → numberAt stDrain (g1 (warpO opDrain)) (0x6000 + 8 * i) 8 = 0)
    ∧ (∃ o r : EngOp, o.kind = .launch 0x6000 9 ∧ r.kind = .launch 0x6000 9 ∧ o.lanes = 0 ∧ r.lanes ≠ 0 ∧ TurnOf (stScale o) (g1 (warpO o)) (warpO o) o
      ∧ TurnOf (image (s1 (warpO r)) [(0, 576, 64, 2 * 2 ^ 208)]) (g1 (warpO r)) (warpO r) r
      ∧ (image (s1 (warpO r)) [(0, 576, 64, 2 * 2 ^ 208)]).qField (9 : BitVec 16).toNat 26 2 % 512 ≠ (g1 (warpO r)).asid)
    ∧ (∃ o : EngOp, o.kind = .lsupd 0x6000 0x5000 ∧ o.prog.done = false ∧ TurnOf (stScale o) (g1 (warpO o)) (warpO o) o
      ∧ let rs : List Region := [.glob .read 0x5000 4, .glob .atomic 0x6000 32]
        AtHand (stScale o) (g1 (warpO o)) (warpO o) o rs
        ∧ StandAt (stScale o) ((stScale o).view (g1 (warpO o)) (warpO o) o rs) 0x5000 4 0x5000
        ∧ StandAt (stScale o) ((stScale o).view (g1 (warpO o)) (warpO o) o rs) 0x6000 32 0x6000
        ∧ numberAt (stScale o) (g1 (warpO o)) 0x5000 4 % 2 = 0
        ∧ numberAt (stScale o) (g1 (warpO o)) (0x6000 + 4) 4 + 1 < numberAt (stScale o) (g1 (warpO o)) (0x6000 + 16) 4)
    ∧ (∀ c : Channel, ∃ o r : EngOp, o.kind = .chsend 0 0 ∧ r.kind = .chrecv 0 0 ∧ TurnOf (stChan o c) (g1 (warpO o)) (warpO o) o
      ∧ TurnOf (stChan r c) (g1 (warpO r)) (warpO r) r ∧ (stChan o c).channel (g1 (warpO o)) (0 : BitVec 6).toNat = some c
      ∧ (stChan r c).channel (g1 (warpO r)) (0 : BitVec 6).toNat = some c
      ∧ (∃ y ∈ (stChan o c).wgs, y.gang = (g1 (warpO o)).gang ∧ y.rank = 0) ∧ (∀ y ∈ (stChan r c).wgs, y.gang = (g1 (warpO r)).gang → y.rank ≠ 1)
      ∧ ∀ y ∈ (stChan o c).wgs, y.uid = (g1 (warpO o)).uid → y = g1 (warpO o))
    ∧ (∃ o r : EngOp, o.kind = .sld 0x5FF8 .plain .core 248 ∧ r.kind = .sst 0x5FF8 7 .plain .core ∧ o.lanes ≠ 0 ∧ r.lanes ≠ 0
      ∧ TurnOf (s1 (warpO o)) (g1 (warpO o)) (warpO o) o ∧ TurnOf (s1 (warpO r)) (g1 (warpO r)) (warpO r) r
      ∧ AtHand (s1 (warpO o)) (g1 (warpO o)) (warpO o) o [.glob .read 0x5FF8 8] ∧ AtHand (s1 (warpO r)) (g1 (warpO r)) (warpO r) r [.glob .write 0x5FF8 8]
      ∧ StandAt (s1 (warpO o)) ((s1 (warpO o)).view (g1 (warpO o)) (warpO o) o [.glob .read 0x5FF8 8]) 0x5FF8 8 0x5FF8
      ∧ StandTo (s1 (warpO r)) ((s1 (warpO r)).view (g1 (warpO r)) (warpO r) r [.glob .write 0x5FF8 8]) 0x5FF8 8 0x5FF8)
    ∧ (∃ (w : Warp) (p o : EngOp), (s1 w).wg 2 = some (g1 w) ∧ (g1 w).opHolder o.id = some w ∧ w.ops = [p] ++ o :: [] ∧ p.id ≠ o.id ∧ p.kind.cls = o.kind.cls) := by
  refine ⟨⟨turn0 _ (by decide), fun _ _ _ _ _ _ fire hf => ?_, ⟨by decide +kernel, rfl⟩⟩, ⟨turn0 _ (by decide), rfl, rfl, fun i j hi hj => ?_⟩,
    ⟨op0 (.acheck 7 0x5FFC) prog0, rfl, rfl, turn0 _ (by decide), ⟨by decide +kernel, rfl⟩, by unfold StandAt; decide +kernel⟩,
    ⟨rfl, turnS _ _ rfl (by decide +kernel), by decide, ⟨by decide +kernel, rfl⟩, by unfold StandAt; decide +kernel, by decide +kernel⟩,
    ⟨{ op0 (.launch 0x6000 9) prog0 with lanes := 0 }, op0 (.launch 0x6000 9) prog0, rfl, rfl, rfl, by decide, turnS _ _ rfl (by decide +kernel),
      turnS _ _ rfl (by decide +kernel), by decide +kernel⟩,
    ⟨op0 (.lsupd 0x6000 0x5000) prog0, rfl, rfl, turnS _ _ rfl (by decide +kernel), ⟨by decide +kernel, rfl⟩, by unfold StandAt; decide +kernel,
      by unfold StandAt; decide +kernel, by decide +kernel, by decide +kernel⟩,
    fun c => ⟨op0 (.chsend 0 0) prog0, op0 (.chrecv 0 0) prog0, rfl, rfl, turnS _ _ rfl rfl, turnS _ _ rfl rfl, rfl, rfl,
      ⟨g1 _, List.mem_singleton.mpr rfl, rfl, rfl⟩, fun y hy _ => by rw [List.mem_singleton.mp hy]; decide, fun y hy _ => List.mem_singleton.mp hy⟩,
    ⟨op0 (.sld 0x5FF8 .plain .core 248) prog0, op0 (.sst 0x5FF8 7 .plain .core) prog0, rfl, rfl, by decide, by decide, turn0 _ (by decide), turn0 _ (by decide),
      ⟨by decide +kernel, rfl⟩, ⟨by decide +kernel, rfl⟩, by unfold StandAt; decide +kernel, by unfold StandTo; decide +kernel⟩,
    ⟨{ warp0 with ops := [{ op0 (.mzero 6) prog0 with id := 39 }, op0 (.mzero 7) prog0] }, _, _, rfl, by decide, rfl, by decide, rfl⟩⟩
  · obtain rfl : 50 = fire := Option.some.inj hf
    rfl
  · have : i * 64 + j < 1024 := by omega
    have h : ((0 : DWord).toNat + i * 64 + j) / 256 < 4 := by simp; omega
    show _ ∈ [0, 1, 2, 3]
    generalize ((0 : DWord).toNat + i * 64 + j) / 256 = n at h
    match n, h with
    | 0, _ | 1, _ | 2, _ | 3, _ => decide

/-- A stopped copy of four rows, of which two have landed, as PROG shows it. -/
theorem witness_Prog :
    ∃ (w : Warp) (o : EngOp), (s1 w).windowWg 0 0 0 = some (g1 w) ∧ (g1 w).apOpen = true ∧ (g1 w).warp 0 = some w ∧ ProgShows w o ∧ o.prog.stopped = true
      ∧ 4 ≤ extentOf o ∧ (w.ops.map EngOp.id).Nodup ∧ o.kind.cls = some .cpy :=
  ⟨{ warpO (op0 (.cpy .plain 0 0xFF00 0x400400000040 0 .scratch .scratch false) { prog0 with stopped := true, pos := 2 }) with halted := true },
   _, rfl, by decide, rfl, .inl rfl, rfl, by decide, by decide, rfl⟩

/-- A bin of 33 threads, and of one; its registers are read from 0 on. -/
def thread0 (tid : Nat) : Thread := { tid := tid, census := none, split := none, g := [(0, 7), (251, 9)], k := [1], latch := [2], p := 0x80 }
def bin0 (n : Nat) (expired : Bool) : Bin :=
  { key := { addr := 0xFFFFFFFFFFFE, uni := warp0.uni }, threads := (List.range n).map (fun i => thread0 (100 + i)), deadline := 0, rest := none, expired := expired, swept := false }
def groupF (b : Bin) : Workgroup := { group0 with poolFree := 63, warps := [], bins := [b] }
def claimer (n : Nat) : Warp := { warp0 with granules := 0, block := .claim n }

theorem mayForm0 (b : Bin) (q : List PoolReq) (h : b.threads ≠ []) (h1 : ∀ t ∈ b.threads, t.split = none) (h2 : (b.threads.map Thread.tid).Nodup) :
    MayForm (st { groupF b with poolQ := q }) { groupF b with poolQ := q } 0 b :=
  ⟨⟨by simp [State.wg, st], rfl, by show Workgroup.compat16 group0 = false; decide⟩, ⟨rfl, fun x hx _ => List.mem_singleton.mp hx⟩, ⟨h, h1, h2⟩, ⟨rfl, .inl rfl⟩,
   ⟨by show 0 < group0.slotTotal; decide, 0, by show 0 < group0.slotTotal; decide, by intro y hy; cases hy⟩, by show group0.baseGranules ≤ 63; decide⟩

def groupDead : Workgroup :=
  { group0 with poolFree := 0, poolQ := [.claim 0 1], warps := [claimer 1, { warp0 with wid := 1, block := .bar }, { warp0 with wid := 2, active := 0 }] }

theorem witness_FormerSteps :
    (MayForm (st (groupF (bin0 1 false))) (groupF (bin0 1 false)) 0 (bin0 1 false) ∧ (groupF (bin0 1 false)).poolQ = [] ∧ (bin0 1 false).deadline ≤ (st (groupF (bin0 1 false))).clk)
    ∧ (MayForm (st (groupF (bin0 33 false))) (groupF (bin0 33 false)) 0 (bin0 33 false) ∧ 32 ≤ (bin0 33 false).threads.length)
    ∧ (∃ q, MayForm (st { groupF (bin0 32 false) with poolQ := q }) { groupF (bin0 32 false) with poolQ := q } 0 (bin0 32 false) ∧ q = [.form (bin0 32 false).key])
    ∧ (∃ (g : Workgroup) (w : Warp), (st g).at { wg := 2, wid := 0 } = some (g, w) ∧ g.poolQ = [.claim w.wid 63] ∧ 63 ≤ g.poolFree ∧ w.halted = false ∧ w.stopped = false ∧ w.stopping = none)
    ∧ (∃ (g : Workgroup) (b : Bin), (st g).wg g.uid = some g ∧ g.residence = .resident ∧ g.held = [b] ∧ g.bins = [] ∧ g.bins.length < g.binsMax ∧ (st g).hamperUsed g + b.bytes ≤ 262144)
    ∧ (∃ (g : Workgroup) (b x : Bin), (st g).wg g.uid = some g ∧ g.residence = .resident ∧ g.held = [b] ∧ g.bins = [x] ∧ x.key = b.key ∧ (st g).hamperUsed g + (b.bytes - 640) ≤ 262144)
    ∧ (∃ g : Workgroup, (st g).wg g.uid = some g ∧ g.residence = .resident ∧ ClaimDeadlock g ∧ (g.warps.map Warp.wid).Nodup ∧ g.stop = .none ∧ g.hasHandler = true
      ∧ (st g).isService g = false ∧ ∀ w ∈ g.warps, w.active ≠ 0 → w.uni.handler = false ∧ w.started = [] ∧ w.resume = none)
    ∧ (∃ g : Workgroup, (st g).wg g.uid = some g ∧ g.warps = [] ∧ g.ghosts = [] ∧ (∀ b ∈ g.bins ++ g.held, b.threads = []) ∧ ∀ c ∈ (st g).censuses, ∀ r ∈ c.reports, r.held = []) := by
  refine ⟨⟨mayForm0 _ [] (by decide) (by decide) (by decide), rfl, by decide⟩, ⟨mayForm0 _ [] (by decide) (by decide) (by decide), by decide⟩,
    ⟨[.form (bin0 32 false).key], mayForm0 _ _ (by decide) (by decide) (by decide), rfl⟩,
    ⟨{ group0 with poolFree := 63, poolQ := [.claim 0 63], warps := [claimer 63] }, _, rfl, rfl, by decide, rfl, rfl, rfl⟩,
    ⟨{ groupF (bin0 1 false) with bins := [], held := [bin0 32 false] }, bin0 32 false, rfl, rfl, rfl, rfl, by decide, by decide⟩,
    ⟨{ groupF (bin0 1 false) with bins := [bin0 1 false], held := [bin0 32 false] }, bin0 32 false, bin0 1 false, rfl, rfl, rfl, rfl, rfl, by decide⟩,
    ⟨groupDead, rfl, rfl,
      ⟨by simp [groupDead, claimer, warp0], ⟨claimer 1, by simp [groupDead], by decide, 1, rfl⟩, ⟨0, 1, [], rfl, by decide⟩, by decide⟩, by decide, rfl, by decide, by decide, by simp [groupDead, claimer, warp0]⟩,
    ⟨{ group0 with warps := [] }, rfl, rfl, rfl, by decide, by decide⟩⟩

/-- A stop under way: its goal and trap, one uncompleted instruction of strand 15. -/
def stopping0 (goal : StopGoal) (code : Option Nat) (halt : Bool := false) : Stopping :=
  { goal := goal, trap := code.map (fun c => { code := c, addr := 0x3FF00, va := 0, access := 0, code2 := 0 }), fepc := (0x40000, 0xC000), left := [(15, 0x3FF00, 0xCF00)], halt := halt }
def warpT (goal : StopGoal) (code : Option Nat) (halt : Bool := false) : Warp := { warp0 with stopping := some (stopping0 goal code halt) }
theorem stopReady0 (goal : StopGoal) (code : Option Nat) (halt : Bool) :
    StopReady (s1 (warpT goal code halt)) (g1 (warpT goal code halt)) (warpT goal code halt) (stopping0 goal code halt) :=
  ⟨rfl, rfl, rfl, rfl⟩
def fault0 : DataFault := { seq := 0, pc := 0x3FFF0, va := 0xFFFFFFFFF000, since := 0, access := 1, fail := false, told := false }
/-- The debugger is attached to the context, with a breakpoint at the warp's pc. -/
def debugAsid : AsidEntry := { probeAsid with ctx := 0x10000, bps := [0x40001] }

theorem witness_StopSteps :
    (∀ goal code halt, let w := warpT goal code halt
      StopReady (s1 w) (g1 w) w (stopping0 goal code halt) ∧ (g1 w).stop = .none ∧ (s1 w).isService (g1 w) = false ∧ (g1 w).hasHandler = true ∧ w.halted = false)
    ∧ (startsHandler 0x01 = true ∧ startsHandler 0x40 = true ∧ (0x0E : Nat) ∈ [0x05, 0x06, 0x0D, 0x0E])
    ∧ (∃ w : Warp, w.stepping = some true ∧ w.drained = true ∧ w.stopping = none ∧ w.resume = none ∧ (s1 w).at { wg := 2, wid := w.wid } = some (g1 w, w)
      ∧ (s1 w).debugOn (g1 w) = false ∧ ({ s1 w with asids := [debugAsid] } : State).debugOn (g1 w) = true)
    ∧ (∃ g : Workgroup, (st g).wg g.uid = some g ∧ (g.warps.map Warp.wid).Nodup ∧ (∃ w ∈ g.warps, ∃ x, w.stopping = some x ∧ x.goal = .halt ∧ w.started = [] ∧ w.resume = none)
      ∧ g.haltReport = [])
    ∧ (∃ g : Workgroup, (st g).wg g.uid = some g ∧ g.haltReport = [(0xFF, [0])] ∧ ∀ w ∈ g.warps, w.wid ∈ [0] → w.halted = true ∧ w.stopping = none)
    ∧ (∃ g : Workgroup, (st g).wg g.uid = some g ∧ g.haltReport = [(0, [0])] ∧ ∃ w ∈ g.warps, w.wid ∈ [0] ∧ w.halted = false ∧ w.stopping = none)
    ∧ (∃ w : Warp, Alone { s1 w with clk := 350000 } (g1 w) ∧ (g1 w).residence = .resident ∧ (g1 w).awaiting = none ∧ (g1 w).saveTo = none ∧ (g1 w).noRoom = false
      ∧ ∃ y ∈ (g1 w).warps, ∃ f, y.dataFault = some f ∧ waited f 350000) :=
  ⟨fun goal code halt => ⟨stopReady0 _ _ _, rfl, rfl, by show Workgroup.hasHandler group0 = true; decide, rfl⟩, by decide,
   ⟨{ warp0 with stepping := some true }, rfl, rfl, rfl, rfl, rfl, by decide, by decide⟩,
   ⟨g1 (warpT .halt none), rfl, by decide, ⟨_, List.mem_singleton.mpr rfl, _, rfl, rfl, rfl, rfl⟩, rfl⟩,
   ⟨{ group0 with warps := [warpHalt], haltReport := [(0xFF, [0])] }, rfl, rfl, by decide⟩,
   ⟨{ g1 warp0 with haltReport := [(0, [0])] }, rfl, rfl, warp0, List.mem_singleton.mpr rfl, by decide⟩,
   ⟨{ warp0 with dataFault := some fault0 }, ⟨⟨rfl, rfl⟩, rfl, by simp [st]⟩, rfl, rfl, rfl, rfl, _, List.mem_singleton.mpr rfl, _, rfl, by unfold waited; decide⟩⟩

/-- A response to the workgroup's warp 0; the fault queue of 2^16 entries at the top of HBM, with room for one. -/
def faultWord : DWord := 0
def stFq : State :=
  { State.reset with faultsOut := [⟨9, 0, 0, 0, 511, 65535, 2, 63, 31, 0xFF, 0, 0, 5, 1, 2⟩], fqCfg := 0x110, fqBase := 0x8FFFC00000, fqTail := 0xFFFF, fqHead := 0 }
def warpFault : Warp := { warp0 with seq := 1, dataFault := some fault0, queues := [queued0 0 (.ld .b32 memOp0)] :: List.replicate 7 [] }

theorem group0_ghosts : group0.ghosts = [] := rfl
theorem names0 (w : Warp) : Names (s1 w) faultWord (g1 w) := ⟨rfl, rfl⟩

theorem witness_FaultResponses :
    (∀ w, Names (s1 w) faultWord (g1 w) ∧ ((g1 w).warps.map Warp.wid).Nodup ∧ (g1 w).awaiting = none ∧ (g1 w).stop = .none ∧ (s1 w).isService (g1 w) = false)
    ∧ widOf faultWord = 0 ∧ faultWord.getLsbD 44 = false
    ∧ (∀ a, ∃ g : Workgroup, Names (st g) faultWord g ∧ (g.warps.map Warp.wid).Nodup ∧ g.awaiting = some a ∧ ∀ w ∈ g.warps ++ g.ghosts, w.dataFault = none ∧ w.ops = [])
    ∧ ((g1 warp0).awaiting = none ∧ ∀ w ∈ (g1 warp0).warps ++ (g1 warp0).ghosts, w.wid = widOf faultWord → w.dataFault = none ∧ ∀ o ∈ w.ops, o.prog.page = none ∨ o.prog.failed ≠ none)
    ∧ (∃ w : Warp, w.wid = 0 ∧ w.dataFault = some fault0 ∧ (∃ e, w.queued.find? (fun q => q.seq == fault0.seq) = some e) ∧ w.stopping = none ∧ w.started = []
      ∧ w.uni.handler = false ∧ (∀ x ∈ (g1 w).warps, x.wid ≠ w.wid → x.dataFault = none)
      ∧ ∀ x ∈ (g1 w).warps ++ (g1 w).ghosts, ∀ o ∈ x.ops, ∀ key dest nb, o.kind ≠ .tmove key dest nb)
    ∧ (∃ w : Warp, (∃ y ∈ (g1 w).warps, y.halted = true ∨ y.stopped = true) ∧ (∀ y ∈ (g1 w).warps, y.storeQ = []) ∧ w.stopping = none ∧ w.stepping = none
      ∧ w.halted = true ∧ w.stopped = false ∧ w.active ≠ 0)
    ∧ (∃ w : Warp, w.wid = 0 ∧ w.active ≠ 0 ∧ w.halted = true ∧ w.stepping = none ∧ w.stopped = true)
    ∧ (warp0.wid = 0 ∧ warp0.active ≠ 0 ∧ (g1 warp0).residence = .resident ∧ warp0.halted = false ∧ warp0.stopped = false ∧ warp0.stopping = none ∧ warp0.started = []
      ∧ warp0.resume = none)
    ∧ (∃ r, stFq.faultsOut = [r] ∧ stFq.fqCfg.getLsbD 8 = true ∧ 4 ≤ stFq.fqLog2 ∧ stFq.fqLog2 ≤ 16 ∧ (stFq.fqTail - stFq.fqHead).toNat < 2 ^ stFq.fqLog2
      ∧ stFq.fqBase.toNat + 64 * 65536 ≤ 2 ^ 48
      ∧ ∀ i, i < 64 → fitted (physKey 0 0 (stFq.fqBase.toNat + 64 * (stFq.fqTail.toNat % 2 ^ stFq.fqLog2) + i)) = true)
    ∧ State.reset.faultsOut = [] := by
  refine ⟨fun w => ⟨names0 w, by simp, rfl, rfl, rfl⟩, by decide, by decide, fun a => ⟨{ g1 warp0 with awaiting := some a }, ⟨rfl, rfl⟩, by simp, rfl, by simp [group0_ghosts, warp0]⟩,
    ⟨rfl, by decide⟩, ⟨warpFault, rfl, rfl, ⟨_, rfl⟩, rfl, rfl, rfl, by decide, by simp [group0_ghosts, warpFault, warp0]⟩,
    ⟨warpHalt, ⟨_, List.mem_singleton.mpr rfl, .inl rfl⟩, by decide, rfl, rfl, rfl, rfl, by decide⟩, ⟨{ warpHalt with stopped := true }, rfl, by decide, rfl, rfl, rfl⟩,
    ⟨rfl, by decide, rfl, rfl, rfl, rfl, rfl, rfl⟩, ⟨_, rfl, by decide, by decide, by decide, by decide, by decide, by decide⟩, rfl⟩

/-- A workgroup that can take a responder. -/
def groupS : Workgroup := { g1 warp0 with bins := [] }
def stC (c : Census) (ds : List DirEntry) : State := { st groupS with censuses := [c], directory := ds }
def solicit0 : EngKind := .solicit 0x1000 0xFFFFFFFFFFFFF000 0xFFFFFFFFFFFE .count true 62
def warpSol : Warp := { warp0 with seq := 1, queues := List.replicate 7 [] ++ [[queued0 7 (.eng solicit0)]] }

def thousand : Bin :=
  { key := { addr := 0, uni := warp0.uni }, threads := List.replicate 1024 { tid := 0, census := none, split := none, g := [], k := [], latch := [], p := 0 }, deadline := 0, rest := none, expired := false, swept := false }
theorem inFlight0 (c : Census) (ds : List DirEntry) : InFlight (stC c ds) c := ⟨by simp [stC], by simp [stC]⟩
theorem room0 (c : Census) (ds : List DirEntry) : RoomFor (stC c ds) groupS c.entry :=
  ⟨⟨rfl, by decide⟩, ⟨1023, by decide, by decide⟩, ⟨(by intro b hb; cases hb), by decide⟩, by
    rw [show (stC c ds).hamperUsed groupS = (st groupS).hamperUsed groupS from rfl]; decide⟩

theorem witness_CensusSteps :
    (∃ (s : State) (e : QEntry), s.solicits = [((g1 warpSol).uid, warpSol.wid, e.seq)] ∧ s.at { wg := 2, wid := 0 } = some (g1 warpSol, warpSol)
      ∧ nth [] warpSol.queues 7 = [e] ∧ e.op = .eng solicit0 ∧ warpSol.queues.length = 8 ∧ s.ready (g1 warpSol) warpSol e = true
      ∧ (∀ c q, c < 8 → (nth [] warpSol.queues c).head? = some q → q.seq = e.seq → c = 7) ∧ (warpSol.popHead 7).olderDone e.seq = true ∧ s.censuses = [])
    ∧ (∃ c : Census, InFlight (stC c []) c ∧ 191 ∈ c.toVisit ∧ (∀ d ∈ (stC c []).directory, d.loc = 191 → ¬Matches c d))
    ∧ (∃ (c : Census) (d : DirEntry), InFlight (stC c [d]) c ∧ d.loc ∈ c.toVisit ∧ d.loc < 192 ∧ (stC c [d]).directory.filter (fun x => x.loc == d.loc && c.matches x) = [d]
      ∧ d.st = .valid ∧ d.tags = [] ∧ groupS.uid = d.owner ∧ RoomFor (stC c [d]) groupS c.entry)
    ∧ (∀ tags mode, ∃ (c : Census) (d : DirEntry), InFlight (stC c [d]) c ∧ d.loc ∈ c.toVisit ∧ d.loc < 192
      ∧ (stC c [d]).directory.filter (fun x => x.loc == d.loc && c.matches x) = [d] ∧ d.tags = tags ∧ d.st = mode)
    ∧ 1023 ∉ List.range 8
    ∧ (∃ (y : Workgroup) (d : DirEntry), (st y).wg d.owner = some y ∧ 1024 ≤ y.liveThreads)
    ∧ (∃ (c : Census) (d : DirEntry), InFlight (stC c [d]) c ∧ 192 ∈ c.toVisit ∧ (stC c [d]).directory.filter (fun x => x.loc == 192 && c.matches x) = [d] ∧ d.st = .valid ∧ d.tags = [])
    ∧ (∃ (c : Census) (o : Owe) (d : DirEntry), InFlight (stC c [d]) c ∧ c.owes = [o] ∧ o.copy = some d.uid ∧ (stC c [d]).directory.filter (fun x => x.uid == d.uid) = [d]
      ∧ o.dst < 192 ∧ d.loc = o.dst ∧ d.tags = [] ∧ d.st = .valid ∧ groupS.uid = d.owner ∧ RoomFor (stC c [d]) groupS c.entry)
    ∧ (∃ (c : Census) (o : Owe) (d : DirEntry), InFlight (stC c [d]) c ∧ c.owes = [o] ∧ o.copy = some d.uid ∧ (stC c [d]).directory.filter (fun x => x.uid == d.uid) = [d]
      ∧ o.dst < 192 ∧ d.loc = o.dst ∧ c.id ∈ d.tags)
    ∧ (∃ (c : Census) (o : Owe) (d : DirEntry), InFlight (stC c [d]) c ∧ c.owes = [o] ∧ o.copy = some d.uid ∧ (stC c [d]).directory.filter (fun x => x.uid == d.uid) = [d]
      ∧ o.dst < 192 ∧ d.loc = o.dst ∧ d.tags = [] ∧ d.st ≠ .valid)
    ∧ (∃ (c : Census) (r : LocReport) (d : DirEntry), InFlight (stC c []) c ∧ c.reports = [r] ∧ r.held = [d] ∧ groupS.uid = d.owner ∧ RoomFor (stC c []) groupS c.entry)
    ∧ (∃ (c : Census) (r : LocReport), InFlight (stC c []) c ∧ c.reports = [r] ∧ r.spawned = [] ∧ r.held = [])
    ∧ (∃ (s : State) (o : EngOp), InFlight s census0 ∧ s.wg census0.wg = some (g1 (warpO o)) ∧ (g1 (warpO o)).opHolder census0.opId = some (warpO o)
      ∧ warpO o ∈ (g1 (warpO o)).warps ∧ (warpO o).ops.find? (fun x => x.kind.cls == some .cen) = some o ∧ o.id = census0.opId ∧ o.kind = solicit0) :=
  ⟨⟨{ s1 warpSol with solicits := [(2, 0, 0)] }, _, rfl, rfl, rfl, rfl, rfl, by rfl, (by
      intro c q hc hq _; have : c = 0 ∨ c = 1 ∨ c = 2 ∨ c = 3 ∨ c = 4 ∨ c = 5 ∨ c = 6 ∨ c = 7 := by omega
      rcases this with rfl | rfl | rfl | rfl | rfl | rfl | rfl | rfl <;> first | rfl | cases hq), by decide, rfl⟩,
   ⟨{ census0 with toVisit := [191] }, inFlight0 _ _, by decide, by intro d hd; cases hd⟩,
   ⟨{ census0 with toVisit := [0] }, entry0, inFlight0 _ _, by decide, by decide, by decide, rfl, rfl, rfl, room0 _ _⟩,
   fun tags mode => ⟨{ census0 with toVisit := [0] }, { entry0 with tags := tags, st := mode }, inFlight0 _ _, by show 0 ∈ [0]; decide, by show 0 < 192; decide, by simp [stC, Census.matches, entry0, census0], rfl, rfl⟩,
   by decide, ⟨{ g1 warp0 with bins := [thousand] }, entry0, rfl, by decide +kernel⟩,
   ⟨{ census0 with toVisit := [192] }, { entry0 with loc := 192 }, inFlight0 _ _, by decide, by decide, rfl, rfl⟩,
   ⟨{ census0 with owes := [⟨5, 191, 49, some 50⟩] }, _, { entry0 with loc := 191 }, inFlight0 _ _, rfl, rfl, by decide, by decide, rfl, rfl, rfl, rfl, room0 _ _⟩,
   ⟨{ census0 with owes := [⟨5, 191, 49, some 50⟩] }, _, { entry0 with loc := 191, tags := [1023] }, inFlight0 _ _, rfl, rfl, by decide, by decide, rfl, by decide⟩,
   ⟨{ census0 with owes := [⟨5, 191, 49, some 50⟩] }, _, { entry0 with loc := 191, st := .moving }, inFlight0 _ _, rfl, rfl, by decide, by decide, rfl, rfl, by decide⟩,
   ⟨{ census0 with reports := [report0 [entry0]] }, _, entry0, inFlight0 _ _, rfl, rfl, rfl, room0 _ _⟩,
   ⟨{ census0 with reports := [report0 []] }, _, inFlight0 _ _, rfl, rfl, rfl⟩,
   ⟨{ s1 (warpO (op0 solicit0 prog0)) with censuses := [census0] }, op0 solicit0 prog0, ⟨by simp, by simp⟩, rfl, by rfl, by simp, by rfl, rfl, rfl⟩⟩

/-- A queue of the highest priority whose head waits for nothing, and one of the lowest; the second record is not accepted. -/
def launch0 (cpl : DWord) : LaunchRec := { probeLaunch 2 with cpl := cpl }
def queueL (q prio : Nat) (l : LaunchRec) : Queue := { q := q, ring := 0x30000, log2 := 1, prio := prio, asid := 1, enabled := true, waiting := [(7, l)] }
def bad0 : LaunchRec := { launch0 0 with clean := false }

/-- Partition 191 with its last two cores, for ASID 1; a grid whose gangs are of 16 or of 2, and one with one workgroup left. -/
def part0 (p mask : Nat) (group : Nat) : Partition := { p := p, mask := BitVec.ofNat 64 mask, cfg := BitVec.ofNat 64 (0x03E8000000000201 + group * 65536) }
def gridOf (pref fall next : Nat) : Grid := { probeGrid 2 with launch := { probeLaunch 2 with gpref := pref, gfall := fall, nwg := (16, 1, 1) }, next := next }
def stG (x : Grid) : State :=
  { State.reset with grids := [x], partitions := [part0 191 0xC000000000000000 63], mgmt := { Mgmt.reset with keys := [(1, 9)] } }

theorem oneGrid0 (x : Grid) (h1 : (stG x).gridPartitions x = [part0 191 0xC000000000000000 63]) (h2 : (stG x).runs (part0 191 0xC000000000000000 63) = true) :
    OneGrid (stG x) x (part0 191 0xC000000000000000 63) :=
  ⟨rfl, ⟨h1, h2⟩, fun _ _ _ => rfl, by constructor <;> intro g hg <;> cases hg⟩

def stQ : State := { State.reset with queues := [queueL 4095 7 bad0] }
/-- A record that is accepted, between a queue of lower priority and one of the same. -/
def stA : State :=
  image { State.reset with
    queues := [queueL 1 6 (launch0 0), queueL 4095 7 (launch0 0), queueL 9 7 (launch0 0)], partitions := [part0 191 0xC000000000000000 63], asidTb := 0x10000,
    mgmt := { Mgmt.reset with keys := [(1, 9)] } } [(0, 0x10080, 128, 0x1001)]
theorem acceptable0 : Acceptable stA 1 (launch0 0) := by
  refine ⟨⟨rfl, by decide, by decide, by decide, by decide, by decide⟩, by decide, by decide, ?_, ?_, fun h => absurd rfl h,
    ⟨191, [63], by decide, by decide +kernel, by decide +kernel, by decide, by decide, by decide, ?_⟩, by decide +kernel, by decide +kernel, by decide +kernel, by decide, by decide⟩
  · intro i h; exact absurd h (by show ¬i < 0; omega)
  · intro i h; exact absurd h (by have : headField (launch0 0).header 8 8 = 0 := by decide
                                  omega)
  · intro c h; rw [List.mem_singleton.mp h]; decide +kernel
theorem coreFits0 (x : Grid) (h : ∀ j, j < 5 → nth 0 (takesOf x.launch.header x.launch.bins) j ≤ nth 0 [32, 512, 512, 256, 64] j) (c : Nat) :
    c ∈ [62, 63] ↔ CoreFits (stG x) (part0 191 0xC000000000000000 63) x c := by
  have own : ∀ c, c < 64 → ((0xC000000000000000 : BitVec 64).getLsbD c = true ↔ c = 62 ∨ c = 63) := by decide
  constructor
  · intro hc
    have hc : c = 62 ∨ c = 63 := by simpa using hc
    have lt : c < 64 := by omega
    exact ⟨⟨lt, (own c lt).mpr hc⟩, ⟨0, by decide, fun g hg => nomatch hg⟩, fun j hj => by simpa [stG, State.reset] using h j hj⟩
  · intro hc
    have := (own c hc.own.1).mp hc.own.2
    simpa using this

/-- Grids that have ended: the first of its queue, and one behind it. -/
def gridE (uid index status : Nat) (cpl : DWord) : Grid :=
  { probeGrid 2 with uid := uid, queue := 4095, index := index, status := status, launch := launch0 cpl, ended := 1, killed := 1 }
def stE (gs : List Grid) : State := image { State.reset with grids := gs, asidTb := 0x10000, mgmt := { Mgmt.reset with keys := [(1, 9)] } } pages

/-- A workgroup whose partition does not run; one that stops for its save; one that is saved; its image lost. -/
def stSave (g : Workgroup) : State :=
  { st g with partitions := [part0 0 1 0, part0 1 1 0], gangs := [{ uid := 1, grid := 0, size := 1, members := [2], partition := 1, channels := [] }] }
def warpSv : Warp := { warpT .save none with storeQ := [] }
def savedG (r : Residence) (lost : Option Nat) : Workgroup := { g1 warpHalt with residence := r, imageLost := lost }
def stRest (g : Workgroup) : State :=
  { st g with partitions := [part0 0 1 0], gangs := [{ uid := 1, grid := 0, size := 1, members := [2], partition := 0, channels := [] }] }

theorem alone0 (s : State) (g : Workgroup) (h : s.wgs = [g]) (hg : g.residence = .resident) : Alone s g := by
  refine ⟨⟨?_, ?_⟩, ?_, ?_⟩
  · simp [State.gangHere, h, hg]
  · simp [State.gangWgs, h]
  · simp [State.wg, h]
  · rw [h]; intro y hy _; exact List.mem_singleton.mp hy

theorem witness_DistributorSteps :
    (∃ x, stQ.queues = [] ++ x :: [] ∧ stQ.startable x = true ∧ x.waiting = [(7, bad0)] ∧ ¬Acceptable stQ x.asid bad0)
    ∧ (∃ (x : Queue) (before after : List Queue), stA.queues = before ++ x :: after ∧ stA.startable x = true ∧ x.waiting = [(7, launch0 0)]
      ∧ (∀ y ∈ before, stA.startable y = true → y.prio < x.prio) ∧ (∀ y ∈ after, stA.startable y = true → y.prio ≤ x.prio) ∧ Acceptable stA x.asid (launch0 0))
    ∧ (let s := stG (gridOf 16 2 0); let x := gridOf 16 2 0; let p := part0 191 0xC000000000000000 63; let r := x.total - x.next; let fs := [62, 63]
      OneGrid s x p ∧ fs.Pairwise (· < ·) ∧ (∀ c, c ∈ fs ↔ CoreFits s p x c) ∧ 0 < r
        ∧ 2 = (if min x.launch.gpref r ≤ fs.length then min x.launch.gpref r else min x.launch.gfall r) ∧ 2 ≤ fs.length)
    ∧ (let s := stG (gridOf 2 1 15); let x := gridOf 2 1 15; let p := part0 191 0xC000000000000000 63; let r := x.total - x.next; let fs := [62, 63]
      OneGrid s x p ∧ fs.Pairwise (· < ·) ∧ (∀ c, c ∈ fs ↔ CoreFits s p x c) ∧ 0 < r
        ∧ 1 = (if min x.launch.gpref r ≤ fs.length then min x.launch.gpref r else min x.launch.gfall r) ∧ 1 ≤ fs.length)
    ∧ (∃ (s : State) (x : Grid), s.grids.find? (fun y => y.uid == x.uid) = some x ∧ x.next < x.total ∧ x.reserved = false ∧ x.waitSince + 1000 * 1750 ≤ s.clk)
    ∧ (∃ (s : State) (x : Grid), s.grids.find? (fun y => y.uid == x.uid) = some x ∧ x.total ≤ x.ended ∧ s.grids.find? (fun y => y.queue == x.queue) = some x
      ∧ x.launch.cpl = 0 ∧ EventHeld s x.queue)
    ∧ (∃ (s : State) (x y : Grid), s.grids.find? (fun y => y.uid == x.uid) = some x ∧ x.total ≤ x.ended ∧ s.grids.find? (fun y => y.queue == x.queue) = some y
      ∧ x.launch.cpl ≠ 0 ∧ x.written = false ∧ s.distXlat x.asid x.launch.cpl.toNat true = some 0x3FFFFFF0 ∧ s.cutOff 0x3FFFFFF0 = false ∧ s.keyOf x.asid = some 9 ∧ y.uid ≠ x.uid ∧ x.status ≠ 1)
    ∧ (∃ (s : State) (x : Grid), s.grids.find? (fun y => y.uid == x.uid) = some x ∧ x.total ≤ x.ended ∧ s.grids.find? (fun y => y.queue == x.queue) = some x
      ∧ x.launch.cpl ≠ 0 ∧ x.written = false ∧ s.distXlat x.asid x.launch.cpl.toNat true = some 0x3FFFFFF0 ∧ s.cutOff 0x3FFFFFF0 = false ∧ s.keyOf x.asid = some 9
      ∧ ∀ i j, i < 16 → j < 8 → (0x3FFFFFF0 + i) / 64 ≠ (eventByte s x.queue + j) / 64)
    ∧ (∃ (s : State) (g : Workgroup), Alone s g ∧ g.residence = .resident ∧ g.saveTo = none ∧ s.mustLeave g.gang = true ∧ g.noRoom = false)
    ∧ (∃ (s : State) (g : Workgroup), Alone s g ∧ g.saveTo = some .cooler ∧ s.censuses = [] ∧ Numbered s ∧ g.ghosts = []
      ∧ ∀ w ∈ g.warps, w.drained = true ∧ w.storeQ = [] ∧ w.ops = [] ∧ ∃ x, w.stopping = some x ∧ x.goal = .save)
    ∧ (∀ r lost, r ≠ .resident → let g := savedG r lost; let s := stRest g
      s.gangWgs g.gang = [g] ∧ s.wg g.uid = some g ∧ (∀ y ∈ s.wgs, y.uid = g.uid → y = g) ∧ g.residence ≠ .resident ∧ g.awaiting = none ∧ g.rank < 16 ∧ g.stop = .none
        ∧ s.gangs.find? (fun y => y.uid == g.gang) = some { uid := 1, grid := 0, size := 1, members := [2], partition := 0, channels := [] }
        ∧ s.runs (s.partition 0) = true ∧ s.censuses = [] ∧ Numbered s ∧ (∀ w ∈ g.warps, w.dataFault = none) ∧ s.mgmt.log.length < 4096)
    ∧ (let s := stRest (savedG .cooler (some 7)); s.coreFree (s.partition 0) 0 = true ∧ s.fitsOld (s.partition 0) [savedG .cooler (some 7)] = true)
    ∧ (let s := stRest (savedG .saveArea none); s.coreFree (s.partition 0) 0 = true ∧ s.fitsOld (s.partition 0) [savedG .saveArea none] = true) := by
  refine ⟨⟨queueL 4095 7 bad0, rfl, by rfl, rfl, fun h => nomatch h.header.1⟩,
    ⟨queueL 4095 7 (launch0 0), [queueL 1 6 (launch0 0)], [queueL 9 7 (launch0 0)], rfl, by rfl, rfl, by decide, by decide, acceptable0⟩,
    ⟨oneGrid0 _ (by decide +kernel) (by decide +kernel), by decide, coreFits0 _ (by decide), by decide +kernel, by decide +kernel, by decide +kernel⟩,
    ⟨oneGrid0 _ (by decide +kernel) (by decide +kernel), by decide, coreFits0 _ (by decide), by decide +kernel, by decide +kernel, by decide +kernel⟩,
    ⟨{ stG (gridOf 1 1 15) with clk := 1750000 }, gridOf 1 1 15, rfl, by decide, rfl, by decide⟩,
    ⟨stE [gridE 5 0 0 0], gridE 5 0 0 0, rfl, by decide, rfl, rfl, by unfold EventHeld; decide⟩,
    ⟨stE [gridE 4 0 0 0, gridE 5 1 0 0x3FFFFFF0], gridE 5 1 0 0x3FFFFFF0, gridE 4 0 0 0, rfl, by decide, rfl, by decide, rfl, by decide +kernel, by decide +kernel, rfl, by decide, by decide⟩,
    ⟨stE [gridE 5 0 0 0x3FFFFFF0], gridE 5 0 0 0x3FFFFFF0, rfl, by decide, rfl, by decide, rfl, by decide +kernel, by decide +kernel, rfl, ?_⟩,
    ⟨stSave (g1 warp0), g1 warp0, alone0 _ _ rfl rfl, rfl, rfl, by decide +kernel, rfl⟩,
    ⟨st { g1 warpSv with saveTo := some .cooler }, _, alone0 _ _ rfl rfl, rfl, rfl, by (intro d hd; cases hd), rfl, by simp [warpSv, warpT, warp0, Warp.drained, Warp.queued, stopping0]⟩,
    ?_, ⟨by decide +kernel, by decide +kernel⟩, ⟨by decide +kernel, by decide +kernel⟩⟩
  · intro i j hi hj h
    rw [show eventByte (stE [gridE 5 0 0 0x3FFFFFF0]) (gridE 5 0 0 0x3FFFFFF0).queue = 262096 by decide] at h
    omega
  · intro r lost hr; refine ⟨rfl, rfl, ?_, hr, rfl, by show (0 : Nat) < 16; decide, rfl, rfl, ?_, rfl, (by intro d hd; cases hd), ?_, by show (0 : Nat) < 4096; decide⟩
    · intro y hy _; exact List.mem_singleton.mp hy
    · show (stRest (savedG .cooler (some 7))).runs ((stRest (savedG .cooler (some 7))).partition 0) = true; decide +kernel
    · intro w hw; rw [List.mem_singleton.mp hw]; rfl

/-- The slice of partition 0 has run its 1 000 µs, to the clk; partition 1 has a gang. -/
def sliceG : Workgroup := { g1 warp0 with gang := 5 }
def stSl (busy : Bool) : State :=
  { State.reset with
    wgs := if busy then [sliceG] else [], partitions := [part0 0 1 0, part0 1 1 0], clk := 1750000,
    gangs := (if busy then [{ uid := 5, grid := 0, size := 1, members := [2], partition := 0, channels := [] }] else [])
      ++ [{ uid := 6, grid := 0, size := 1, members := [], partition := 1, channels := [] }] }

theorem witness_Slices :
    (∀ busy, (stSl busy).running 0 0 = some 0 ∧ QuantumPast (stSl busy) 0 0 0 ∧ NextTurn (stSl busy) 0 0 0 ((stSl busy).partition 1))
    ∧ (stSl false).gangsOn 0 = [] ∧ (stSl true).gangsOn 0 = [sliceG.gang] ∧ Alone (stSl true) sliceG ∧ sliceG.saveTo = none ∧ sliceG.noRoom = false := by
  refine ⟨fun busy => ⟨?_, ?_, ?_, ?_, ?_, ?_⟩, by decide +kernel, by decide +kernel, alone0 _ _ rfl rfl, rfl, rfl⟩
  · cases busy <;> decide +kernel
  · cases busy <;> (unfold QuantumPast; decide +kernel)
  · cases busy <;> decide +kernel
  · cases busy <;> decide +kernel
  · cases busy <;> decide
  · have h : (stSl busy).mates 0 0 = [(stSl busy).partition 0, (stSl busy).partition 1] := by cases busy <;> decide +kernel
    rw [h]; intro r hr _ hn
    simp only [List.mem_cons, List.not_mem_nil, or_false] at hr
    rcases hr with rfl | rfl
    · exact absurd rfl hn
    · exact ⟨fun _ _ => Nat.le_refl _, fun h => absurd h (by cases busy <;> decide)⟩

/-- PUTG 5 in memory at the warp's pc, on a page that may be read, written and executed. -/
def stX (parcels : Nat) : State :=
  image { s1 warp0 with tlb := [{ core := 0, asid := 1, vpn := 0, leaf := 0x3D, level := 2 }], cur := none } [(9, 0x40000, 6, parcels)]
def seen0 (s : State) : State := { s with clk := s.clk + 1, cur := some { wg := 2, wid := 0 } }

theorem next_of (o : Out) (h : (match o with
    | .next _ => true
    | _ => false) = true) : ∃ t, o = .next t :=
  match o, h with
  | .next t, _ => ⟨t, rfl⟩

theorem stands0 : StandsAt (stX 0x0405) (g1 warp0) warp0 [0x0405] := by
  refine ⟨⟨_, _, rfl, by decide⟩, by decide, fun k q h => ?_⟩
  match k, h with
  | 0, h =>
    obtain rfl : 0x0405#16 = q := by simpa using h
    exact ⟨0x40000, by rfl, by decide +kernel, by decide +kernel, by decide +kernel⟩
  | k + 1, h => simp at h

theorem witness_StepRunsDecoded :
    (∃ ps, StandsAt (stX 0x0405) (g1 warp0) warp0 ps)
    ∧ FrontTurn (stX 0x0405) (seen0 (stX 0x0405)) (g1 warp0) warp0 [] ∧ warp0.atLoopEnd = false ∧ warp0.failsFetch = false
    ∧ (∃ v, (seen0 (stX 0x0405)).fetch (g1 warp0) warp0 = .ok [0x0405] v ∧ v.breaks (g1 warp0) warp0 = false ∧ ∃ t, exec (.putg 5) v = .next t)
    ∧ warp0.overruns 1 = false ∧ decode (g1 warp0).encRev [0x0405] = .ok (.putg 5)
    ∧ FrontTurn (stX 0xCF00) (seen0 (stX 0xCF00)) (g1 warp0) warp0 [] := by
  refine ⟨⟨_, stands0⟩, ⟨⟨rfl, rfl⟩, ⟨rfl, by decide +kernel⟩, .inr rfl, g1 warp0, warp0, by decide +kernel, by decide +kernel, fun _ => ⟨rfl, by rfl, by rfl⟩, fun h => absurd h (by decide +kernel)⟩, by decide, by decide, ?_, by decide, by rfl,
    ⟨⟨rfl, rfl⟩, ⟨rfl, by decide +kernel⟩, .inr rfl, g1 warp0, warp0, by decide +kernel, by decide +kernel, fun h => absurd h (by decide +kernel), fun _ => ⟨rfl, rfl, rfl⟩⟩⟩
  exact ⟨seen0 (stX 0x0405), by rfl, by decide +kernel, next_of _ (by decide +kernel)⟩

theorem due0 : ({ stQ with clk := 1 } : State).clocked.due[({ stQ with clk := 1 } : State).clocked.clk % (({ stQ with clk := 1 } : State).clocked.due.length + 1)]? = some .gridStart := by
  decide +kernel

/-- An event from outside before bring-up, one of the package's own, and an agent's step whose turn has come. -/
theorem witness_StepTakesEvents :
    (∃ s : State, s.inbox = [.patrolScrub] ∧ ofOutside (.patrolScrub) = true ∧ s.mgmt.lastStep = 0)
    ∧ (∃ (s : State) (i : Instr), s.inbox = [i] ∧ s.mgmt.lastStep = 7 ∧ s.mgmt.heldInReset = false ∧ ofAgent i = true ∧ ofOutside i = false)
    ∧ (∃ (s : State) (i : Instr), s.inbox = [i] ∧ s.mgmt.heldInReset = true ∧ ofOutside i = false)
    ∧ (∃ (s : State) (i : Instr), s.inbox = [] ∧ s.mgmt.lastStep = 7 ∧ s.mgmt.heldInReset = false ∧ s.clocked.due[s.clocked.clk % (s.clocked.due.length + 1)]? = some i) :=
  ⟨⟨{ State.reset with inbox := [.patrolScrub], mgmt := { Mgmt.reset with lastStep := 0 } }, rfl, rfl, rfl⟩, ⟨{ State.reset with inbox := [.gridStart] }, _, rfl, rfl, rfl, rfl, rfl⟩,
   ⟨{ State.reset with inbox := [.gridStart], mgmt := { Mgmt.reset with heldInReset := true } }, _, rfl, rfl, rfl⟩, ⟨{ stQ with clk := 1 }, _, rfl, rfl, rfl, due0⟩⟩

/-- A page that no table maps; a breakpoint at the warp's pc; a reserved word. -/
def stAbsent : State := { s1 warp0 with tlb := [], asids := [probeAsid], mem := memOf [(0, 0x1000, 8, 0)] }
def stBreak : State := { stX 0x0405 with asids := [debugAsid], cur := some { wg := 2, wid := 0 } }

theorem absent_of (r : Fetched) (h : (match r with
    | .absent _ _ => true
    | _ => false) = true) : ∃ va u, r = .absent va u :=
  match r, h with
  | .absent va u, _ => ⟨va, u, rfl⟩

theorem witness_FrontEndChecks :
    (∃ va u, stAbsent.here = some (g1 warp0, warp0) ∧ stAbsent.fetch (g1 warp0) warp0 = .absent va u ∧ Alone stAbsent (g1 warp0))
    ∧ (stBreak.here = some (g1 warp0, warp0) ∧ BreakpointHere stBreak (g1 warp0) warp0 ∧ stBreak.fetch (g1 warp0) warp0 = .ok [0x0405] stBreak)
    ∧ (∃ s : State, s.here = some (g1 warp0, warp0) ∧ s.fetch (g1 warp0) warp0 = .ok [0x00FC] s ∧ (∃ e, decode (g1 warp0).encRev [0x00FC] = .error e)
      ∧ warp0.skips [0x00FC] = false ∧ Handles s (g1 warp0) warp0 ∧ ¬BreakpointHere s (g1 warp0) warp0)
    ∧ (g1 warp0).stop = .none ∧ warp0.atLoopEnd = false ∧ warp0.failsFetch = false := by
  refine ⟨?_, ⟨rfl, ⟨by decide, by decide, _, 0x40001, rfl, by decide, by decide, by decide⟩, by rfl⟩,
    ⟨{ stX 0x00FC with cur := some { wg := 2, wid := 0 } }, rfl, by rfl, ⟨_, by rfl⟩, by decide, handles0 _ _ _ rfl rfl rfl rfl rfl rfl rfl rfl, ?_⟩, rfl, rfl, rfl⟩
  · have ⟨va, u, h⟩ := absent_of (stAbsent.fetch (g1 warp0) warp0) (by decide +kernel)
    exact ⟨va, u, rfl, h, alone0 _ _ rfl rfl⟩
  · rintro ⟨h, _⟩; exact absurd h (by decide)

/-- The shortest and the longest encodings, and the revisions; the rows without an encoding are events. -/
theorem witness_Encodings :
    (Instr.wfRev 2 .nop = true ∧ encoded .nop ∧ Instr.wfRev 1 (.shfl16 15 251) = true ∧ encoded (.shfl16 15 251) ∧ Instr.wfRev 2 (.shfli 15 251) = true
      ∧ encoded (.brd 0x8000 7 true 63 32))
    ∧ ([0xF680, 0x6244, 0x0020] : List Half).length = parcelCount 0xF680 ∧ ([0x0405] : List Half).length = parcelCount 0x0405 :=
  ⟨⟨rfl, by unfold encoded; decide, rfl, by unfold encoded; decide, rfl, by unfold encoded; decide⟩, by decide, by decide⟩

/-- The package after reset keeps the form, and so does one with memory. -/
theorem witness_StepKeepsMemoryForm : State.reset.wf = true ∧ (stX 0x0405).wf = true ∧ ∃ t, step State.reset = .next t :=
  ⟨rfl, by decide +kernel, next_of _ (by decide +kernel)⟩

/-! Small tests: figures that the manual itself works out. -/

/-- A fused multiply-add keeps 2^−24, which a multiply and an add lose (the example at R147). -/
theorem test_fused_keeps_the_product :
    fp32 .mac .rne false 0xBF801000 0x3F800800 0x3F800800 = (0x33800000, 0) ∧ fp32 .mul .rne false 0x3F800800 0x3F800800 0 = (0x3F801000, 16)
      ∧ (fp32 .add .rne false 0x3F801000 0xBF801000 0).1 = 0 := by decide +kernel

/-- Conversions to E4M3: the table at R78. -/
theorem test_cvt_e4m3 :
    cvtLane .f32e4m3 .rne false false 0x3F800000 = (0x38, 0) ∧ cvtLane .f32e4m3 .rne false false 0x43E80000 = (0x7E, 16)
      ∧ cvtLane .f32e4m3 .rne false false 0x43E88000 = (0x7F, 20) ∧ cvtLane .f32e4m3 .rne true false 0x43E88000 = (0x7E, 16)
      ∧ cvtLane .f32e4m3 .rne true false 0xC47A0000 = (0xFE, 16) ∧ cvtLane .f32e4m3 .rne false false 0x3A800000 = (0, 24)
      ∧ cvtLane .f32e4m3 .rne false false 0x3AC00000 = (1, 24) ∧ cvtLane .f32e4m3 .rne false false 0x7F800000 = (0x7F, 1)
      ∧ cvtLane .f32e4m3 .rz false false 0x43FA0000 = (0x7E, 20) := by decide +kernel

/-- A codebook index: the example at R81. -/
theorem test_codebook : (List.range 8).map (cbkWeight 0x05B6) = [0x80, 0x00, 0xBC, 0x3C, 0x38, 0x38, 0x30, 0x30] := by decide +kernel

/-- The matrix engine's exact sum: the example at R84. -/
theorem test_exact_sum :
    mmaSum (f32 0x3F000000) [mmaTerm (f32 0x4B800000) fvOne 127 127, mmaTerm fvOne fvOne 127 127, mmaTerm (f32 0xCB800000) fvOne 127 127] = 0x3FC00000 := by decide +kernel

/-- The values of k7 before each instruction, p4, the indices k1 and g10 = 100 + L, in tiles of 8 without lane 2 (chapter 06, the example at R165). -/
def warpTiles : Warp :=
  { warp0 with active := 0xFFFFFFFB, uni := { warp0.uni with part := 3 }, p := [0, 0, 0, 0, 0x4E],
               k := [zeroLanes, (List.range 32).map (fun l => [7, 3, 0, 0, 2, 12, 40, 6].getD l 0), zeroLanes, zeroLanes, zeroLanes, zeroLanes, zeroLanes,
                 (List.range 32).map (fun l => [5, 1, 9, 2, 7, 3, 4, 6].getD l 0)],
               g := List.replicate 10 zeroLanes ++ [(List.range 32).map (fun l => BitVec.ofNat 32 (100 + l))] }
def after (i : Instr) (s : State) (f : Workgroup → Warp → Bool) : Bool :=
  match exec i s with
  | .next t => match t.here with
    | some (g, w) => f g w
    | none => false
  | _ => false
def firstLanes (n : Nat) (want : List Word) (g : Workgroup) (w : Warp) : Bool := (List.range 8).map (laneOf (g.kval w n)) == want

theorem test_scan : after (.scan 7 .iadd true) (s1 warpTiles) (firstLanes 7 [0, 5, 9, 6, 8, 15, 18, 22]) = true := by decide +kernel
theorem test_ballot : after (.vote 7 .ballot 4) (s1 warpTiles) (firstLanes 7 [0x4A, 0x4A, 9, 0x4A, 0x4A, 0x4A, 0x4A, 0x4A]) = true := by decide +kernel
theorem test_shfli : after (.shfli 1 10) (s1 warpTiles) (firstLanes 1 [107, 103, 0, 100, 104, 105, 106, 106]) = true := by decide +kernel

/-- The window of a 16 × 16 tile at 6, then at 7 (R168). -/
theorem test_knext :
    after (.knext 3 1 5) (s1 { warp0 with bind := [none, none, none, some ⟨0, 16, 16, 6⟩] }) (fun _ w => w.bindAt 3 == some ⟨0, 16, 16, 7⟩ && w.pred 5 == 0) = true
      ∧ after (.knext 3 1 5) (s1 { warp0 with bind := [none, none, none, some ⟨0, 16, 16, 7⟩] }) (fun _ w => w.bindAt 3 == some ⟨0, 16, 16, 0⟩ && w.pred 5 == 0xFFFFFFFF) = true := by
  decide +kernel

/-- Truncating division and its corner (R67): every lane of k0. -/
def warpAcc (v : Word) : Warp := { warp0 with k := [(List.range 32).map (fun _ => v)] }
def everyLaneIs (v : Word) (g : Workgroup) (w : Warp) : Bool := (List.range 32).all (fun l => laneOf (g.kval w 0) l == v)
theorem test_division :
    after (.idiv 0 (.imm 0xFD)) (s1 (warpAcc 7)) (everyLaneIs (-2)) = true ∧ after (.irem 0 (.imm 2)) (s1 (warpAcc (-7))) (everyLaneIs (-1)) = true
      ∧ after (.idiv 0 (.imm 0xFF)) (s1 (warpAcc 0x80000000)) (everyLaneIs 0x80000000) = true := by decide +kernel

/-- `mov.f k0, 1.5` gives 0x3FC00000 (R145); a shift by 32 clears the word, an arithmetic one leaves the sign (R149). -/
theorem test_moves_and_shifts :
    after (.movL 0 (.imm 0x3C) true) (s1 (warpAcc 7)) (everyLaneIs 0x3FC00000) = true ∧ after (.shl (.imm 32)) (s1 (warpAcc 7)) (everyLaneIs 0) = true
      ∧ after (.sar (.imm 32)) (s1 (warpAcc 0x80000000)) (everyLaneIs 0xFFFFFFFF) = true := by decide +kernel

/-- Reserved words have no instruction (R118, R119): register 252, op6 0x1F, op8 0x00 of L32, a loop of length 0, class 7 of WAIT, TRAP 0x3F, CVSET form 3. -/
theorem test_reserved :
    [[0x00FC], [0x7C00], [0xD000, 0], [0xE2C3, 0x0000], [0xE387, 0x0000], [0xE640, 0x003F], [0xE598, 0x0000]].all
      (fun ps => match decode 2 (ps.map (BitVec.ofNat 16)) with
        | .ok _ => false
        | .error _ => true) = true := by decide +kernel

/-- From a package with PUTG 5 placed, the first step runs it: the front end has moved past one parcel (R21). -/
theorem test_first_step :
    (match step (State.reset.withFetchWord 16 0x0405) with
      | .next t => t.wgs.all (fun g => g.warps.all (fun w => w.pc == 0x40002))
      | _ => false) = true := by decide +kernel

end Sys2Proof.Tests
end

section
/-! SUPPORT. What one step does by what the inbox and the management port hold (R360, R363, R364), and what an error of core SRAM that names no
sector leaves (R115, log 65). -/
namespace Sys2Proof.Machine
open Sys2Proof.Claims

/-- Whether the package is up depends on the controller alone. -/
theorem State.powered_iff (s : State) : s.powered = true ↔ s.mgmt.lastStep = 7 ∧ s.mgmt.heldInReset = false := by
  simp [State.powered]

/-- The state in which the event that stands first in the inbox happens: the new clk, and the event taken. -/
def State.taking (s : State) (rest : List Instr) : State := { s.clocked with inbox := rest }

/-- An event of the inbox is always the step's: it happens, or it vanishes. -/
theorem step_of_inbox (s : State) (i : Instr) (rest : List Instr) (h : s.inbox = i :: rest) :
    step s = if (s.taking rest).mayHappen i then exec i (s.taking rest) else .next (s.taking rest) := by
  rw [step, State.tick, State.clocked_inbox, h]; rfl

/-- Events from outside happen always, those of software and of the machine's agents while the package is up (R360, R363). -/
theorem State.mayHappen_taking_iff (s : State) (i : Instr) (rest : List Instr) :
    (s.taking rest).mayHappen i = true
      ↔ ofOutside i = true ∨ ((s.mgmt.lastStep = 7 ∧ s.mgmt.heldInReset = false) ∧ (ofSystem i = true ∨ ofAgent i = true)) := by
  simp only [State.mayHappen, Bool.or_eq_true, Bool.and_eq_true, State.powered_iff, State.taking, State.clocked_mgmt]

/-- At the new clk no mailbox command runs any more. -/
theorem State.mbBusy_clocked_eq_false_iff (s : State) : s.clocked.mbBusy = false ↔ s.mgmt.mbUntil ≤ s.clk + 1 := by
  rw [State.mbBusy, decide_eq_false_iff_not]; exact Nat.not_lt

/-- Requests are due once the mailbox command has ended, if any has waited. -/
theorem State.portDue_clocked_iff (s : State) :
    s.clocked.portDue = true ↔ s.mgmt.mbUntil ≤ s.clk + 1 ∧ s.mgmt.portQueue ≠ [] := by
  simp [State.portDue, s.mbBusy_clocked_eq_false_iff]

/-- With an empty inbox, requests of the port that are due are the step's. -/
theorem step_of_portDue (s : State) (h : s.inbox = []) (hd : s.clocked.portDue = true) : step s = .next s.clocked.portDrain := by
  simp only [step, State.tick, State.clocked_inbox, h, hd, if_true]

/-- With neither, and the package up, the agent whose turn it is moves. -/
theorem step_of_agentTurn (s : State) (i : Instr) (h : s.inbox = []) (hd : s.clocked.portDue = false) (hp : s.clocked.powered = true)
    (ht : s.clocked.due[s.clocked.clk % (s.clocked.due.length + 1)]? = some i) : step s = exec i s.clocked := by
  simp only [step, State.tick, State.clocked_inbox, h, hd, hp, ht, Bool.not_true, Bool.false_eq_true, if_false]

/-- Where no request waits there is nothing to drain. -/
theorem State.portDrain_nil (s : State) (h : s.mgmt.portQueue = []) : s.portDrain = s := by
  rw [State.portDrain, h, List.foldl_nil, ← h]

/-- The state in which the requests of the port take their turn: none waits any more. -/
def State.unqueued (s : State) : State := { s with mgmt := { s.mgmt with portQueue := [] } }

/-- One request that has waited takes its turn. -/
theorem State.portDrain_singleton (s : State) (f : PortFrame) (h : s.mgmt.portQueue = [f]) : s.portDrain = s.unqueued.portRun f := by
  rw [State.portDrain, h]; rfl

/-- A request that meets no mailbox command and none that waits has its turn at once. -/
theorem State.portRequest_of_idle (s : State) (f : PortFrame) (hb : s.mbBusy = false) (hq : s.mgmt.portQueue = []) :
    s.portRequest f true = .next (s.portRun f) := by
  simp [State.portRequest, hb, s.portDrain_nil hq]

theorem op_beq_of_toNat (op : BitVec 16) (n : Nat) (h : op.toNat = n) : (op == BitVec.ofNat 16 n) = true := by
  rw [← h, BitVec.ofNat_toNat, BitVec.setWidth_eq, beq_self_eq_true]

/-- A request of the port whose frame carries its OP is a request of its own. -/
theorem exec_of_portNumber (i : Instr) (f : PortFrame) (s : State) (h : portNumber i = some (f, f.op.toNat)) :
    exec i s = s.portRequest f true := by
  unfold portNumber at h
  split at h
  case h_10 => exact absurd h (by simp)
  all_goals
    obtain ⟨rfl, hop⟩ := Prod.mk.inj (Option.some.inj h)
    exact congrArg (s.portRequest _) (op_beq_of_toNat _ _ hop.symm)

/-- So is a request with an OP that R364 does not list. -/
theorem exec_portUnknownOp_of_unknown (f : PortFrame) (s : State) (h : f.op.toNat ∉ [1, 2, 3, 4, 5, 6, 16, 17, 18]) :
    exec (.portUnknownOp f) s = s.portRequest f true := by
  have hk : portKnown f.op.toNat = false := by simpa [portKnown] using h
  show s.portRequest f (!(portKnown f.op.toNat)) = _
  rw [hk, Bool.not_false]

/-- A request that has waited alone is the step's when the mailbox command has ended (R364). -/
theorem step_of_waiting_request (s : State) (f : PortFrame) (i : Instr) (h : s.inbox = []) (hb : s.mgmt.mbUntil ≤ s.clk + 1)
    (hq : s.mgmt.portQueue = [f]) (hi : ∀ t, exec i t = t.portRequest f true) : step s = exec i s.clocked.unqueued := by
  have hd : s.clocked.portDue = true := s.portDue_clocked_iff.mpr ⟨hb, by simp [hq]⟩
  have hidle : s.clocked.unqueued.mbBusy = false := s.mbBusy_clocked_eq_false_iff.mpr hb
  rw [step_of_portDue s h hd, s.clocked.portDrain_singleton f hq, hi, State.portRequest_of_idle _ f hidle rfl]

/-- Settles O53: by what stands in the inbox, then by what waits at the port, then by the agent whose turn it is. -/
theorem stepTakesEvents : Obligations.StepTakesEvents := by
  intro s i
  refine ⟨fun rest h => ⟨fun hi => ?_, fun ho hp => ?_⟩, fun f h hb hq hi => ?_, fun h hq h7 hr ht => ?_⟩
  · have hm : (s.taking rest).mayHappen i = true := (s.mayHappen_taking_iff i rest).mpr (by simpa only [and_assoc] using hi)
    rw [step_of_inbox s i rest h, if_pos hm]; rfl
  · have hm : ¬(s.taking rest).mayHappen i = true := fun hm => by
      rcases (s.mayHappen_taking_iff i rest).mp hm with hi | ⟨hup, _⟩
      · rw [ho] at hi; cases hi
      · exact hp hup
    rw [step_of_inbox s i rest h, if_neg hm]; rfl
  · refine step_of_waiting_request s f i h hb hq (fun t => ?_)
    rcases hi with hn | ⟨rfl, hu⟩
    · exact exec_of_portNumber i f t hn
    · exact exec_portUnknownOp_of_unknown f t hu
  · have hd : s.clocked.portDue = false := by
      rw [← Bool.not_eq_true, s.portDue_clocked_iff]
      rintro ⟨hle, hne⟩
      rcases hq with hlt | hnil
      · omega
      · exact hne hnil
    exact step_of_agentTurn s i h hd (s.clocked.powered_iff.mpr ⟨h7, hr⟩) ht

/-- An error of core SRAM acts on the workgroup of its window (log 65). -/
theorem State.markError_sram (s : State) (pa : Nat) (loc : ErrLoc) (hu : loc.unit = 4) (ha : s.inAperture pa = true) :
    s.markError pa loc = s.markSram pa := by
  simp [State.markError, hu, ha]

/-- A physical address in the window of a workgroup names no sector of its core SRAM. -/
def NamesNoSector (s : State) (pa : Nat) (g : Workgroup) : Prop :=
  let off := pa - s.dapBase.toNat
  s.windowWg (off / 2 ^ 34) (off / 2 ^ 28 % 64) (off / 2 ^ 23 % 32) = some g ∧ g.sramSector (off % apSlotSpan) = none

/-- Then nothing is marked. -/
theorem State.markSram_of_no_sector (s : State) (pa : Nat) (g : Workgroup) (h : NamesNoSector s pa g) : s.markSram pa = s := by
  obtain ⟨hwindow, hsector⟩ := h
  simp only [State.markSram, hwindow, hsector]

@[simp] theorem State.logEvent_wgs (s : State) (kind loc pa count : Nat) : (s.logEvent kind loc pa count).wgs = s.wgs := rfl

/-- An uncorrectable error of core SRAM that names no sector leaves every workgroup. -/
theorem exec_errorUncorrectable_wgs_of_no_sector (s t : State) (pa : Nat) (loc : ErrLoc) (scrub : Bool) (g : Workgroup) (hu : loc.unit = 4)
    (ha : s.inAperture pa = true) (hn : NamesNoSector s pa g) (h : exec (.errorUncorrectable pa loc scrub) s = .next t) :
    t.wgs = s.wgs := by
  have ht : execErrorUncorrectable pa loc scrub s = .next t := h
  rw [execErrorUncorrectable, s.markError_sram pa loc hu ha, s.markSram_of_no_sector pa g hn, Host.Outcome.next.injEq] at ht
  rw [← ht, State.logEvent_wgs]

/-- A workgroup with the name 0 on slot n of core 0, and a package in which two of them stand on slots 0 and 1. -/
def twin (n : Nat) : Workgroup := (probeGrid 2).workgroup probeAsid 1 0 0 0 1 0 0 n true false
def twins : State := { State.reset with wgs := [twin 0, twin 1] }

theorem twin_zero_ne_one : twin 0 ≠ twin 1 := fun h => absurd (congrArg Workgroup.slot h) (by decide)

/-- Physical 0 lies in the workgroup block of slot 0's window (R336), before its scratchpad and its tile slots. -/
theorem twins_namesNoSector : NamesNoSector twins 0 (twin 0) := ⟨rfl, by decide⟩

/-- Refutes O44, by its clause about an error of core SRAM: after it every workgroup with the name of the window's one is to be one and the same
record. In `twins` two different workgroups have one name, and an error at physical 0, which names no sector, leaves both. The clause lacks the
hypothesis that `Obligations.ShootdownsAndAperture` has for a write that changes nothing: the window's name is its workgroup's alone. -/
theorem not_errorsAndBringUp : ¬ Obligations.ErrorsAndBringUp := by
  intro h
  obtain ⟨_, huncorrectable, _⟩ := h twins
  obtain ⟨t, ht, _, _, _, hsram⟩ := huncorrectable 0 ⟨0, 4⟩ false
  obtain ⟨_, hwindow⟩ := hsram ⟨rfl, by decide⟩
  obtain ⟨g', _, hmap, _⟩ := hwindow (twin 0) twins_namesNoSector.1
  have hkept : t.wgs = [twin 0, twin 1] :=
    exec_errorUncorrectable_wgs_of_no_sector twins t 0 ⟨0, 4⟩ false (twin 0) rfl (by decide) twins_namesNoSector ht
  have hboth : t.wgs = [g', g'] := hmap
  obtain ⟨h0, htail⟩ := List.cons.inj (hkept.symm.trans hboth)
  obtain ⟨h1, _⟩ := List.cons.inj htail
  exact twin_zero_ne_one (h0.trans h1.symm)

end Sys2Proof.Machine
end
